-- ==== Sys2Proof/Word.lean ====
section
/-! DEFINITION. The machine's words: a 32-bit bus and command word, a byte of data memory, and the
register numbers of the four register files (spec 30_encoding.md R111, R114). -/

namespace Sys2Proof

/-- A command word, and a word of the register bus (R59, R110). -/
abbrev Word := BitVec 32

/-- A byte of data memory (R80). -/
abbrev Byte := BitVec 8

/-- A data-memory address as a command names it: the 12-bit `imm` field (R80, R111). -/
abbrev Addr := BitVec 12

/-- Number of a field register f0..f15 (R114). -/
abbrev FIdx := Fin 16

/-- Number of a scalar register s0..s7 (R114). -/
abbrev SIdx := Fin 8

/-- Number of a point register p0..p7 (R114). -/
abbrev PIdx := Fin 8

/-- Number of a choice register c0..c7 (R114). -/
abbrev CIdx := Fin 8

end Sys2Proof
end

