-- ==== Sys2Proof/Config.lean ====
section
/-! DEFINITION. What the spec fixes for the one block, and the values it leaves free: the digest port H
and the random source (00_scope.md R7, R8; 60_exceptions.md R502, R503). -/

namespace Sys2Proof.Config

/-- Bytes of data memory, MEMSIZE (R8, R80). -/
abbrev memSize : Nat := 4096

/-- The constant the ID register reads (R60). -/
abbrev idValue : Word := 0x444C0007#32

/-- The digest port `H : byte string -> 64 bytes` (R502). A FREE VALUE: it is a function, and nothing
else is known of it. The spec's byte examples take it to be SHA-512, which the spec does not define. See log 1. -/
opaque digest : List Byte → Vector Byte 64

/-- Byte `i` of the `n`-th draw from the random source (R503). A FREE VALUE: each draw is any byte
string. The counter that numbers the draws is `State.rngDraws`. See log 2. -/
opaque rngByte : (n : Nat) → (i : Nat) → Byte

end Sys2Proof.Config
end

