-- ==== Sys2Proof/Syntax.lean ====
section
/-! DEFINITION. The 93 commands, one constructor per row of spec/opcode_table.json (30_encoding.md R115),
operands in the assembler's order. A register operand is a number of its own file; a constant operand has
the width its mask leaves it. -/

namespace Sys2Proof

/-- A command (R115). The first letter of an operand's name is its register file. -/
inductive Instr where
  -- system and choice, 48_system.md
  | nop
  | scrub (k : BitVec 7)
  | cset (cd : CIdx) (k : BitVec 1)
  | cmov (cd ca : CIdx)
  | cnot (cd ca : CIdx)
  | cand (cd ca cb : CIdx)
  | cor (cd ca cb : CIdx)
  | cxor (cd ca cb : CIdx)
  | fclr (fd : FIdx)
  | sclr (sd : SIdx)
  | pclr (pd : PIdx)
  | cclr (cd : CIdx)
  | hash (addr : Addr)
  -- field unit, 40_field.md
  | fld (fd : FIdx) (addr : Addr)
  | fst (fs : FIdx) (addr : Addr)
  | fmov (fd fa : FIdx)
  | fconst (fd : FIdx) (k : BitVec 4)
  | fadd (fd fa fb : FIdx)
  | fsub (fd fa fb : FIdx)
  | fneg (fd fa : FIdx)
  | fmul (fd fa fb : FIdx)
  | fsqr (fd fa : FIdx)
  | finv (fd fa : FIdx)
  | fpow58 (fd fa : FIdx)
  | fsqrtr (fd : FIdx) (cd : CIdx) (fa fb : FIdx)
  | fcsel (fd fa fb : FIdx) (cc : CIdx)
  | fcswap (fx fy : FIdx) (cc : CIdx)
  | fcneg (fd fa : FIdx) (cc : CIdx)
  | fred (fd fa : FIdx)
  | feq (cd : CIdx) (fa fb : FIdx)
  | fisneg (cd : CIdx) (fa : FIdx)
  | fiszero (cd : CIdx) (fa : FIdx)
  -- scalar unit, 41_scalar.md
  | sld (sd : SIdx) (addr : Addr)
  | sldw (sd : SIdx) (addr : Addr)
  | sldc (sd : SIdx) (cd : CIdx) (addr : Addr)
  | sldcl (sd : SIdx) (addr : Addr)
  | sst (ss : SIdx) (addr : Addr)
  | smov (sd sa : SIdx)
  | sconst (sd : SIdx) (k : BitVec 3)
  | sadd (sd sa sb : SIdx)
  | ssub (sd sa sb : SIdx)
  | sneg (sd sa : SIdx)
  | smul (sd sa sb : SIdx)
  | sinv (sd sa : SIdx)
  | smmul (sd sa sb : SIdx)
  | stom (sd sa : SIdx)
  | sfrm (sd sa : SIdx)
  | sred (sd sa : SIdx)
  | seq (cd : CIdx) (sa sb : SIdx)
  | siscan (cd : CIdx) (sa : SIdx)
  | srdx16 (ss : SIdx) (addr : Addr)
  | snaf (ss : SIdx) (w : BitVec 4) (addr : Addr)
  -- Edwards point unit, 42_edwards.md
  | pid (pd : PIdx)
  | pbase (pd : PIdx)
  | pmov (pd pa : PIdx)
  | pneg (pd pa : PIdx)
  | pdbl (pd pa : PIdx)
  | padd (pd pa pb : PIdx)
  | psub (pd pa pb : PIdx)
  | pmul8 (pd pa : PIdx)
  | pcmp (ps : PIdx) (addr : Addr)
  | pdec (pd : PIdx) (cd : CIdx) (addr : Addr)
  | peq (cd : CIdx) (pa pb : PIdx)
  | pisid (cd : CIdx) (pa : PIdx)
  | psmall (cd : CIdx) (pa : PIdx)
  | ptorf (cd : CIdx) (pa : PIdx)
  | ph2c (pd : PIdx) (cd : CIdx)
  | ptom (fd : FIdx) (pa : PIdx)
  | pfromm (pd : PIdx) (cd : CIdx) (fa : FIdx) (bit : BitVec 1)
  -- scalar multiplication engines, 43_scalarmul.md
  | pmulv (pd : PIdx) (sa : SIdx) (pb : PIdx)
  | pmulb (pd : PIdx) (sa : SIdx)
  | pdsm (pd : PIdx) (sa : SIdx) (pb : PIdx) (sc : SIdx)
  | pmac (pd : PIdx) (sa : SIdx) (pb : PIdx)
  -- Montgomery ladder, 44_montgomery.md
  | x25519 (fd : FIdx) (sa : SIdx) (fb : FIdx)
  | xchk (cd : CIdx) (fa : FIdx)
  -- Ristretto unit, 45_ristretto.md
  | rdec (pd : PIdx) (cd : CIdx) (addr : Addr)
  | renc (ps : PIdx) (addr : Addr)
  | req (cd : CIdx) (pa pb : PIdx)
  | rell (pd : PIdx) (fa : FIdx)
  | rh2g (pd : PIdx) (addr : Addr)
  -- signing pipeline, 46_ed25519_sign.md
  | keygen (addr : Addr)
  | keypub (addr : Addr)
  | sign (addr : Addr)
  | signctx (addr : Addr)
  | signph (addr : Addr)
  | signr (addr : Addr)
  | keyclr
  -- verification unit, 47_ed25519_verify.md
  | verify (cd : CIdx) (addr : Addr)
  | verifyctx (cd : CIdx) (addr : Addr)
  | verifyph (cd : CIdx) (addr : Addr)
  | vbbegin
  | vbadd (addr : Addr)
  | vbend (cd : CIdx)
  deriving DecidableEq, Repr

end Sys2Proof
end

