-- ==== Sys2Proof/WellFormed.lean ====
section
/-! DEFINITION. Which commands are well formed: the range checks of 60_exceptions.md R473 (c), which the
width of a field does not already settle. Every other operand has exactly its legal range by its type. -/

namespace Sys2Proof

/-- The constant selectors and the NAF width are in range (R473 (c): FCONST k <= 12, SCONST k <= 4,
SNAF 2 <= w <= 8). The meanings of the three commands raise E_ILLEGAL outside it (R165, R231, R244). -/
def Instr.wellFormed : Instr → Bool
  | .fconst _ k => decide (k.toNat ≤ 12)
  | .sconst _ k => decide (k.toNat ≤ 4)
  | .snaf _ w _ => decide (2 ≤ w.toNat ∧ w.toNat ≤ 8)
  | _ => true

end Sys2Proof
end

