-- ==== Sys2Proof/Decode.lean ====
section
/-! DEFINITION. Decoding a command word (30_encoding.md R110 to R116), total on every word and rejecting by
name, and the encoder, written from the same fields. A word has no byte order in memory: commands never live
in DM (20_memory.md R81, R91). -/

namespace Sys2Proof

/-- Why a word is no command (R110 steps 1 and 2; 60_exceptions.md R473 (a), (b)). -/
inductive Reject where
  /-- `op` is none of the 93 opcodes (R473 (a)). -/
  | unallocatedOpcode
  /-- A bit that must be zero is 1 (R473 (b), R113, R114). -/
  | mustBeZero
  deriving DecidableEq, Repr

/-- The fields of a command word (R111). `rc` is `imm[3:0]`; in the formats that use it `imm[11:4]` is zero (R112). -/
structure Fields where
  op : Nat
  rd : Nat
  ra : Nat
  rb : Nat
  imm : Nat
  deriving DecidableEq, Repr

/-- The fields of a word: op 31:24, rd 23:20, ra 19:16, rb 15:12, imm 11:0 (R111). -/
def Fields.ofWord (w : Word) : Fields :=
  { op := w.toNat / 2 ^ 24, rd := w.toNat / 2 ^ 20 % 16, ra := w.toNat / 2 ^ 16 % 16,
    rb := w.toNat / 2 ^ 12 % 16, imm := w.toNat % 4096 }

/-- The word with the given fields (R111). -/
def pack (op rd ra rb imm : Nat) : Word :=
  BitVec.ofNat 32 (op * 2 ^ 24 + rd * 2 ^ 20 + ra * 2 ^ 16 + rb * 2 ^ 12 + imm)

/-- A field register's number from its 4-bit field (R114). -/
def regF (n : Nat) : FIdx := Fin.ofNat 16 n

/-- The number of an s, p or c register from its field, whose bit 3 is checked to be zero (R114). -/
def reg8 (n : Nat) : Fin 8 := Fin.ofNat 8 n

/-- A constant or an address of `k` bits from its field (R111). -/
def constOf (k n : Nat) : BitVec k := BitVec.ofNat k n

/-- The command `i` if its must-be-zero bits are zero (R110 step 2, R113). -/
def need (ok : Prop) [Decidable ok] (i : Instr) : Except Reject Instr :=
  if ok then .ok i else .error .mustBeZero

/-- The command of a word's fields, one line per row of R115: the condition is the row's mask, read field by field. -/
def decodeFields (f : Fields) : Except Reject Instr :=
  match f.op with
  | 0x00 => need (f.rd = 0 ∧ f.ra = 0 ∧ f.rb = 0 ∧ f.imm = 0) (.nop)
  | 0x01 => need (f.rd = 0 ∧ f.ra = 0 ∧ f.rb = 0 ∧ f.imm < 128) (.scrub (constOf 7 f.imm))
  | 0x02 => need (f.rd < 8 ∧ f.ra = 0 ∧ f.rb = 0 ∧ f.imm < 2) (.cset (reg8 f.rd) (constOf 1 f.imm))
  | 0x03 => need (f.rd < 8 ∧ f.ra < 8 ∧ f.rb = 0 ∧ f.imm = 0) (.cmov (reg8 f.rd) (reg8 f.ra))
  | 0x04 => need (f.rd < 8 ∧ f.ra < 8 ∧ f.rb = 0 ∧ f.imm = 0) (.cnot (reg8 f.rd) (reg8 f.ra))
  | 0x05 => need (f.rd < 8 ∧ f.ra < 8 ∧ f.rb < 8 ∧ f.imm = 0) (.cand (reg8 f.rd) (reg8 f.ra) (reg8 f.rb))
  | 0x06 => need (f.rd < 8 ∧ f.ra < 8 ∧ f.rb < 8 ∧ f.imm = 0) (.cor (reg8 f.rd) (reg8 f.ra) (reg8 f.rb))
  | 0x07 => need (f.rd < 8 ∧ f.ra < 8 ∧ f.rb < 8 ∧ f.imm = 0) (.cxor (reg8 f.rd) (reg8 f.ra) (reg8 f.rb))
  | 0x08 => need (f.ra = 0 ∧ f.rb = 0 ∧ f.imm = 0) (.fclr (regF f.rd))
  | 0x09 => need (f.rd < 8 ∧ f.ra = 0 ∧ f.rb = 0 ∧ f.imm = 0) (.sclr (reg8 f.rd))
  | 0x0A => need (f.rd < 8 ∧ f.ra = 0 ∧ f.rb = 0 ∧ f.imm = 0) (.pclr (reg8 f.rd))
  | 0x0B => need (f.rd < 8 ∧ f.ra = 0 ∧ f.rb = 0 ∧ f.imm = 0) (.cclr (reg8 f.rd))
  | 0x0C => need (f.rd = 0 ∧ f.ra = 0 ∧ f.rb = 0) (.hash (constOf 12 f.imm))
  | 0x10 => need (f.ra = 0 ∧ f.rb = 0) (.fld (regF f.rd) (constOf 12 f.imm))
  | 0x11 => need (f.ra = 0 ∧ f.rb = 0) (.fst (regF f.rd) (constOf 12 f.imm))
  | 0x12 => need (f.rb = 0 ∧ f.imm = 0) (.fmov (regF f.rd) (regF f.ra))
  | 0x13 => need (f.ra = 0 ∧ f.rb = 0 ∧ f.imm < 16) (.fconst (regF f.rd) (constOf 4 f.imm))
  | 0x14 => need (f.imm = 0) (.fadd (regF f.rd) (regF f.ra) (regF f.rb))
  | 0x15 => need (f.imm = 0) (.fsub (regF f.rd) (regF f.ra) (regF f.rb))
  | 0x16 => need (f.rb = 0 ∧ f.imm = 0) (.fneg (regF f.rd) (regF f.ra))
  | 0x17 => need (f.imm = 0) (.fmul (regF f.rd) (regF f.ra) (regF f.rb))
  | 0x18 => need (f.rb = 0 ∧ f.imm = 0) (.fsqr (regF f.rd) (regF f.ra))
  | 0x19 => need (f.rb = 0 ∧ f.imm = 0) (.finv (regF f.rd) (regF f.ra))
  | 0x1A => need (f.rb = 0 ∧ f.imm = 0) (.fpow58 (regF f.rd) (regF f.ra))
  | 0x1B => need (f.imm < 8) (.fsqrtr (regF f.rd) (reg8 f.imm) (regF f.ra) (regF f.rb))
  | 0x1C => need (f.imm < 8) (.fcsel (regF f.rd) (regF f.ra) (regF f.rb) (reg8 f.imm))
  | 0x1D => need (f.rb = 0 ∧ f.imm < 8) (.fcswap (regF f.rd) (regF f.ra) (reg8 f.imm))
  | 0x1E => need (f.rb = 0 ∧ f.imm < 8) (.fcneg (regF f.rd) (regF f.ra) (reg8 f.imm))
  | 0x1F => need (f.rb = 0 ∧ f.imm = 0) (.fred (regF f.rd) (regF f.ra))
  | 0x20 => need (f.rd < 8 ∧ f.imm = 0) (.feq (reg8 f.rd) (regF f.ra) (regF f.rb))
  | 0x21 => need (f.rd < 8 ∧ f.rb = 0 ∧ f.imm = 0) (.fisneg (reg8 f.rd) (regF f.ra))
  | 0x22 => need (f.rd < 8 ∧ f.rb = 0 ∧ f.imm = 0) (.fiszero (reg8 f.rd) (regF f.ra))
  | 0x30 => need (f.rd < 8 ∧ f.ra = 0 ∧ f.rb = 0) (.sld (reg8 f.rd) (constOf 12 f.imm))
  | 0x31 => need (f.rd < 8 ∧ f.ra = 0 ∧ f.rb = 0) (.sldw (reg8 f.rd) (constOf 12 f.imm))
  | 0x32 => need (f.rd < 8 ∧ f.ra < 8 ∧ f.rb = 0) (.sldc (reg8 f.rd) (reg8 f.ra) (constOf 12 f.imm))
  | 0x33 => need (f.rd < 8 ∧ f.ra = 0 ∧ f.rb = 0) (.sldcl (reg8 f.rd) (constOf 12 f.imm))
  | 0x34 => need (f.rd < 8 ∧ f.ra = 0 ∧ f.rb = 0) (.sst (reg8 f.rd) (constOf 12 f.imm))
  | 0x35 => need (f.rd < 8 ∧ f.ra < 8 ∧ f.rb = 0 ∧ f.imm = 0) (.smov (reg8 f.rd) (reg8 f.ra))
  | 0x36 => need (f.rd < 8 ∧ f.ra = 0 ∧ f.rb = 0 ∧ f.imm < 8) (.sconst (reg8 f.rd) (constOf 3 f.imm))
  | 0x37 => need (f.rd < 8 ∧ f.ra < 8 ∧ f.rb < 8 ∧ f.imm = 0) (.sadd (reg8 f.rd) (reg8 f.ra) (reg8 f.rb))
  | 0x38 => need (f.rd < 8 ∧ f.ra < 8 ∧ f.rb < 8 ∧ f.imm = 0) (.ssub (reg8 f.rd) (reg8 f.ra) (reg8 f.rb))
  | 0x39 => need (f.rd < 8 ∧ f.ra < 8 ∧ f.rb = 0 ∧ f.imm = 0) (.sneg (reg8 f.rd) (reg8 f.ra))
  | 0x3A => need (f.rd < 8 ∧ f.ra < 8 ∧ f.rb < 8 ∧ f.imm = 0) (.smul (reg8 f.rd) (reg8 f.ra) (reg8 f.rb))
  | 0x3B => need (f.rd < 8 ∧ f.ra < 8 ∧ f.rb = 0 ∧ f.imm = 0) (.sinv (reg8 f.rd) (reg8 f.ra))
  | 0x3C => need (f.rd < 8 ∧ f.ra < 8 ∧ f.rb < 8 ∧ f.imm = 0) (.smmul (reg8 f.rd) (reg8 f.ra) (reg8 f.rb))
  | 0x3D => need (f.rd < 8 ∧ f.ra < 8 ∧ f.rb = 0 ∧ f.imm = 0) (.stom (reg8 f.rd) (reg8 f.ra))
  | 0x3E => need (f.rd < 8 ∧ f.ra < 8 ∧ f.rb = 0 ∧ f.imm = 0) (.sfrm (reg8 f.rd) (reg8 f.ra))
  | 0x3F => need (f.rd < 8 ∧ f.ra < 8 ∧ f.rb = 0 ∧ f.imm = 0) (.sred (reg8 f.rd) (reg8 f.ra))
  | 0x40 => need (f.rd < 8 ∧ f.ra < 8 ∧ f.rb < 8 ∧ f.imm = 0) (.seq (reg8 f.rd) (reg8 f.ra) (reg8 f.rb))
  | 0x41 => need (f.rd < 8 ∧ f.ra < 8 ∧ f.rb = 0 ∧ f.imm = 0) (.siscan (reg8 f.rd) (reg8 f.ra))
  | 0x42 => need (f.rd < 8 ∧ f.ra = 0 ∧ f.rb = 0) (.srdx16 (reg8 f.rd) (constOf 12 f.imm))
  | 0x43 => need (f.rd < 8 ∧ f.rb = 0) (.snaf (reg8 f.rd) (constOf 4 f.ra) (constOf 12 f.imm))
  | 0x50 => need (f.rd < 8 ∧ f.ra = 0 ∧ f.rb = 0 ∧ f.imm = 0) (.pid (reg8 f.rd))
  | 0x51 => need (f.rd < 8 ∧ f.ra = 0 ∧ f.rb = 0 ∧ f.imm = 0) (.pbase (reg8 f.rd))
  | 0x52 => need (f.rd < 8 ∧ f.ra < 8 ∧ f.rb = 0 ∧ f.imm = 0) (.pmov (reg8 f.rd) (reg8 f.ra))
  | 0x53 => need (f.rd < 8 ∧ f.ra < 8 ∧ f.rb = 0 ∧ f.imm = 0) (.pneg (reg8 f.rd) (reg8 f.ra))
  | 0x54 => need (f.rd < 8 ∧ f.ra < 8 ∧ f.rb = 0 ∧ f.imm = 0) (.pdbl (reg8 f.rd) (reg8 f.ra))
  | 0x55 => need (f.rd < 8 ∧ f.ra < 8 ∧ f.rb < 8 ∧ f.imm = 0) (.padd (reg8 f.rd) (reg8 f.ra) (reg8 f.rb))
  | 0x56 => need (f.rd < 8 ∧ f.ra < 8 ∧ f.rb < 8 ∧ f.imm = 0) (.psub (reg8 f.rd) (reg8 f.ra) (reg8 f.rb))
  | 0x57 => need (f.rd < 8 ∧ f.ra < 8 ∧ f.rb = 0 ∧ f.imm = 0) (.pmul8 (reg8 f.rd) (reg8 f.ra))
  | 0x58 => need (f.rd < 8 ∧ f.ra = 0 ∧ f.rb = 0) (.pcmp (reg8 f.rd) (constOf 12 f.imm))
  | 0x59 => need (f.rd < 8 ∧ f.ra < 8 ∧ f.rb = 0) (.pdec (reg8 f.rd) (reg8 f.ra) (constOf 12 f.imm))
  | 0x5A => need (f.rd < 8 ∧ f.ra < 8 ∧ f.rb < 8 ∧ f.imm = 0) (.peq (reg8 f.rd) (reg8 f.ra) (reg8 f.rb))
  | 0x5B => need (f.rd < 8 ∧ f.ra < 8 ∧ f.rb = 0 ∧ f.imm = 0) (.pisid (reg8 f.rd) (reg8 f.ra))
  | 0x5C => need (f.rd < 8 ∧ f.ra < 8 ∧ f.rb = 0 ∧ f.imm = 0) (.psmall (reg8 f.rd) (reg8 f.ra))
  | 0x5D => need (f.rd < 8 ∧ f.ra < 8 ∧ f.rb = 0 ∧ f.imm = 0) (.ptorf (reg8 f.rd) (reg8 f.ra))
  | 0x5F => need (f.rd < 8 ∧ f.ra < 8 ∧ f.rb = 0 ∧ f.imm = 0) (.ph2c (reg8 f.rd) (reg8 f.ra))
  | 0x60 => need (f.ra < 8 ∧ f.rb = 0 ∧ f.imm = 0) (.ptom (regF f.rd) (reg8 f.ra))
  | 0x61 => need (f.rd < 8 ∧ f.rb < 2 ∧ f.imm < 8) (.pfromm (reg8 f.rd) (reg8 f.imm) (regF f.ra) (constOf 1 f.rb))
  | 0x70 => need (f.rd < 8 ∧ f.ra < 8 ∧ f.rb < 8 ∧ f.imm = 0) (.pmulv (reg8 f.rd) (reg8 f.ra) (reg8 f.rb))
  | 0x71 => need (f.rd < 8 ∧ f.ra < 8 ∧ f.rb = 0 ∧ f.imm = 0) (.pmulb (reg8 f.rd) (reg8 f.ra))
  | 0x72 => need (f.rd < 8 ∧ f.ra < 8 ∧ f.rb < 8 ∧ f.imm < 8) (.pdsm (reg8 f.rd) (reg8 f.ra) (reg8 f.rb) (reg8 f.imm))
  | 0x73 => need (f.rd < 8 ∧ f.ra < 8 ∧ f.rb < 8 ∧ f.imm = 0) (.pmac (reg8 f.rd) (reg8 f.ra) (reg8 f.rb))
  | 0x80 => need (f.ra < 8 ∧ f.imm = 0) (.x25519 (regF f.rd) (reg8 f.ra) (regF f.rb))
  | 0x81 => need (f.rd < 8 ∧ f.rb = 0 ∧ f.imm = 0) (.xchk (reg8 f.rd) (regF f.ra))
  | 0x90 => need (f.rd < 8 ∧ f.ra < 8 ∧ f.rb = 0) (.rdec (reg8 f.rd) (reg8 f.ra) (constOf 12 f.imm))
  | 0x91 => need (f.rd < 8 ∧ f.ra = 0 ∧ f.rb = 0) (.renc (reg8 f.rd) (constOf 12 f.imm))
  | 0x92 => need (f.rd < 8 ∧ f.ra < 8 ∧ f.rb < 8 ∧ f.imm = 0) (.req (reg8 f.rd) (reg8 f.ra) (reg8 f.rb))
  | 0x93 => need (f.rd < 8 ∧ f.rb = 0 ∧ f.imm = 0) (.rell (reg8 f.rd) (regF f.ra))
  | 0x94 => need (f.rd < 8 ∧ f.ra = 0 ∧ f.rb = 0) (.rh2g (reg8 f.rd) (constOf 12 f.imm))
  | 0xA0 => need (f.rd = 0 ∧ f.ra = 0 ∧ f.rb = 0) (.keygen (constOf 12 f.imm))
  | 0xA1 => need (f.rd = 0 ∧ f.ra = 0 ∧ f.rb = 0) (.keypub (constOf 12 f.imm))
  | 0xA2 => need (f.rd = 0 ∧ f.ra = 0 ∧ f.rb = 0) (.sign (constOf 12 f.imm))
  | 0xA3 => need (f.rd = 0 ∧ f.ra = 0 ∧ f.rb = 0) (.signctx (constOf 12 f.imm))
  | 0xA4 => need (f.rd = 0 ∧ f.ra = 0 ∧ f.rb = 0) (.signph (constOf 12 f.imm))
  | 0xA5 => need (f.rd = 0 ∧ f.ra = 0 ∧ f.rb = 0) (.signr (constOf 12 f.imm))
  | 0xA6 => need (f.rd = 0 ∧ f.ra = 0 ∧ f.rb = 0 ∧ f.imm = 0) (.keyclr)
  | 0xB0 => need (f.rd < 8 ∧ f.ra = 0 ∧ f.rb = 0) (.verify (reg8 f.rd) (constOf 12 f.imm))
  | 0xB1 => need (f.rd < 8 ∧ f.ra = 0 ∧ f.rb = 0) (.verifyctx (reg8 f.rd) (constOf 12 f.imm))
  | 0xB2 => need (f.rd < 8 ∧ f.ra = 0 ∧ f.rb = 0) (.verifyph (reg8 f.rd) (constOf 12 f.imm))
  | 0xB3 => need (f.rd = 0 ∧ f.ra = 0 ∧ f.rb = 0 ∧ f.imm = 0) (.vbbegin)
  | 0xB4 => need (f.rd = 0 ∧ f.ra = 0 ∧ f.rb = 0) (.vbadd (constOf 12 f.imm))
  | 0xB5 => need (f.rd < 8 ∧ f.ra = 0 ∧ f.rb = 0 ∧ f.imm = 0) (.vbend (reg8 f.rd))
  | _ => .error .unallocatedOpcode

/-- Decode a command word (R110 steps 1 and 2). The range checks of step 3 are made by the commands' own meanings
(R165, R231, R244, R398, R431, R432: `raise E_ILLEGAL`), see log 6. -/
def decode (w : Word) : Except Reject Instr := decodeFields (Fields.ofWord w)

/-- The word of a command (R115). -/
def encode : Instr → Word
  | .nop => pack 0x00 0 0 0 0
  | .scrub k => pack 0x01 0 0 0 k.toNat
  | .cset cd k => pack 0x02 cd.val 0 0 k.toNat
  | .cmov cd ca => pack 0x03 cd.val ca.val 0 0
  | .cnot cd ca => pack 0x04 cd.val ca.val 0 0
  | .cand cd ca cb => pack 0x05 cd.val ca.val cb.val 0
  | .cor cd ca cb => pack 0x06 cd.val ca.val cb.val 0
  | .cxor cd ca cb => pack 0x07 cd.val ca.val cb.val 0
  | .fclr fd => pack 0x08 fd.val 0 0 0
  | .sclr sd => pack 0x09 sd.val 0 0 0
  | .pclr pd => pack 0x0A pd.val 0 0 0
  | .cclr cd => pack 0x0B cd.val 0 0 0
  | .hash addr => pack 0x0C 0 0 0 addr.toNat
  | .fld fd addr => pack 0x10 fd.val 0 0 addr.toNat
  | .fst fs addr => pack 0x11 fs.val 0 0 addr.toNat
  | .fmov fd fa => pack 0x12 fd.val fa.val 0 0
  | .fconst fd k => pack 0x13 fd.val 0 0 k.toNat
  | .fadd fd fa fb => pack 0x14 fd.val fa.val fb.val 0
  | .fsub fd fa fb => pack 0x15 fd.val fa.val fb.val 0
  | .fneg fd fa => pack 0x16 fd.val fa.val 0 0
  | .fmul fd fa fb => pack 0x17 fd.val fa.val fb.val 0
  | .fsqr fd fa => pack 0x18 fd.val fa.val 0 0
  | .finv fd fa => pack 0x19 fd.val fa.val 0 0
  | .fpow58 fd fa => pack 0x1A fd.val fa.val 0 0
  | .fsqrtr fd cd fa fb => pack 0x1B fd.val fa.val fb.val cd.val
  | .fcsel fd fa fb cc => pack 0x1C fd.val fa.val fb.val cc.val
  | .fcswap fx fy cc => pack 0x1D fx.val fy.val 0 cc.val
  | .fcneg fd fa cc => pack 0x1E fd.val fa.val 0 cc.val
  | .fred fd fa => pack 0x1F fd.val fa.val 0 0
  | .feq cd fa fb => pack 0x20 cd.val fa.val fb.val 0
  | .fisneg cd fa => pack 0x21 cd.val fa.val 0 0
  | .fiszero cd fa => pack 0x22 cd.val fa.val 0 0
  | .sld sd addr => pack 0x30 sd.val 0 0 addr.toNat
  | .sldw sd addr => pack 0x31 sd.val 0 0 addr.toNat
  | .sldc sd cd addr => pack 0x32 sd.val cd.val 0 addr.toNat
  | .sldcl sd addr => pack 0x33 sd.val 0 0 addr.toNat
  | .sst ss addr => pack 0x34 ss.val 0 0 addr.toNat
  | .smov sd sa => pack 0x35 sd.val sa.val 0 0
  | .sconst sd k => pack 0x36 sd.val 0 0 k.toNat
  | .sadd sd sa sb => pack 0x37 sd.val sa.val sb.val 0
  | .ssub sd sa sb => pack 0x38 sd.val sa.val sb.val 0
  | .sneg sd sa => pack 0x39 sd.val sa.val 0 0
  | .smul sd sa sb => pack 0x3A sd.val sa.val sb.val 0
  | .sinv sd sa => pack 0x3B sd.val sa.val 0 0
  | .smmul sd sa sb => pack 0x3C sd.val sa.val sb.val 0
  | .stom sd sa => pack 0x3D sd.val sa.val 0 0
  | .sfrm sd sa => pack 0x3E sd.val sa.val 0 0
  | .sred sd sa => pack 0x3F sd.val sa.val 0 0
  | .seq cd sa sb => pack 0x40 cd.val sa.val sb.val 0
  | .siscan cd sa => pack 0x41 cd.val sa.val 0 0
  | .srdx16 ss addr => pack 0x42 ss.val 0 0 addr.toNat
  | .snaf ss w addr => pack 0x43 ss.val w.toNat 0 addr.toNat
  | .pid pd => pack 0x50 pd.val 0 0 0
  | .pbase pd => pack 0x51 pd.val 0 0 0
  | .pmov pd pa => pack 0x52 pd.val pa.val 0 0
  | .pneg pd pa => pack 0x53 pd.val pa.val 0 0
  | .pdbl pd pa => pack 0x54 pd.val pa.val 0 0
  | .padd pd pa pb => pack 0x55 pd.val pa.val pb.val 0
  | .psub pd pa pb => pack 0x56 pd.val pa.val pb.val 0
  | .pmul8 pd pa => pack 0x57 pd.val pa.val 0 0
  | .pcmp ps addr => pack 0x58 ps.val 0 0 addr.toNat
  | .pdec pd cd addr => pack 0x59 pd.val cd.val 0 addr.toNat
  | .peq cd pa pb => pack 0x5A cd.val pa.val pb.val 0
  | .pisid cd pa => pack 0x5B cd.val pa.val 0 0
  | .psmall cd pa => pack 0x5C cd.val pa.val 0 0
  | .ptorf cd pa => pack 0x5D cd.val pa.val 0 0
  | .ph2c pd cd => pack 0x5F pd.val cd.val 0 0
  | .ptom fd pa => pack 0x60 fd.val pa.val 0 0
  | .pfromm pd cd fa bit => pack 0x61 pd.val fa.val bit.toNat cd.val
  | .pmulv pd sa pb => pack 0x70 pd.val sa.val pb.val 0
  | .pmulb pd sa => pack 0x71 pd.val sa.val 0 0
  | .pdsm pd sa pb sc => pack 0x72 pd.val sa.val pb.val sc.val
  | .pmac pd sa pb => pack 0x73 pd.val sa.val pb.val 0
  | .x25519 fd sa fb => pack 0x80 fd.val sa.val fb.val 0
  | .xchk cd fa => pack 0x81 cd.val fa.val 0 0
  | .rdec pd cd addr => pack 0x90 pd.val cd.val 0 addr.toNat
  | .renc ps addr => pack 0x91 ps.val 0 0 addr.toNat
  | .req cd pa pb => pack 0x92 cd.val pa.val pb.val 0
  | .rell pd fa => pack 0x93 pd.val fa.val 0 0
  | .rh2g pd addr => pack 0x94 pd.val 0 0 addr.toNat
  | .keygen addr => pack 0xA0 0 0 0 addr.toNat
  | .keypub addr => pack 0xA1 0 0 0 addr.toNat
  | .sign addr => pack 0xA2 0 0 0 addr.toNat
  | .signctx addr => pack 0xA3 0 0 0 addr.toNat
  | .signph addr => pack 0xA4 0 0 0 addr.toNat
  | .signr addr => pack 0xA5 0 0 0 addr.toNat
  | .keyclr => pack 0xA6 0 0 0 0
  | .verify cd addr => pack 0xB0 cd.val 0 0 addr.toNat
  | .verifyctx cd addr => pack 0xB1 cd.val 0 0 addr.toNat
  | .verifyph cd addr => pack 0xB2 cd.val 0 0 addr.toNat
  | .vbbegin => pack 0xB3 0 0 0 0
  | .vbadd addr => pack 0xB4 0 0 0 addr.toNat
  | .vbend cd => pack 0xB5 cd.val 0 0 0

/-- The opcode-table hook: the command the decoder reads from the word whose bits are `w`, bit 0 the least
significant (every command is one 32-bit word, R110; bits at and above `nbits` are zero). -/
def decodeTableWord (nbits w : Nat) : Option Instr :=
  (decode (BitVec.ofNat 32 (w % 2 ^ nbits))).toOption

/-- A row of the opcode map: a word `w` is the row's command when `w &&& mask = pattern` (R115). -/
structure Row where
  pattern : Word
  mask : Word
  deriving DecidableEq, Repr

/-- Opcodes 0x00 to 0x0C of the map (R115). -/
def systemRows : List Row :=
  [⟨0x00000000#32, 0xFFFFFFFF#32⟩,
   ⟨0x01000000#32, 0xFFFFFF80#32⟩,
   ⟨0x02000000#32, 0xFF8FFFFE#32⟩,
   ⟨0x03000000#32, 0xFF88FFFF#32⟩,
   ⟨0x04000000#32, 0xFF88FFFF#32⟩,
   ⟨0x05000000#32, 0xFF888FFF#32⟩,
   ⟨0x06000000#32, 0xFF888FFF#32⟩,
   ⟨0x07000000#32, 0xFF888FFF#32⟩,
   ⟨0x08000000#32, 0xFF0FFFFF#32⟩,
   ⟨0x09000000#32, 0xFF8FFFFF#32⟩,
   ⟨0x0A000000#32, 0xFF8FFFFF#32⟩,
   ⟨0x0B000000#32, 0xFF8FFFFF#32⟩,
   ⟨0x0C000000#32, 0xFFFFF000#32⟩]

/-- Opcodes 0x10 to 0x22 of the map (R115). -/
def fieldRows : List Row :=
  [⟨0x10000000#32, 0xFF0FF000#32⟩,
   ⟨0x11000000#32, 0xFF0FF000#32⟩,
   ⟨0x12000000#32, 0xFF00FFFF#32⟩,
   ⟨0x13000000#32, 0xFF0FFFF0#32⟩,
   ⟨0x14000000#32, 0xFF000FFF#32⟩,
   ⟨0x15000000#32, 0xFF000FFF#32⟩,
   ⟨0x16000000#32, 0xFF00FFFF#32⟩,
   ⟨0x17000000#32, 0xFF000FFF#32⟩,
   ⟨0x18000000#32, 0xFF00FFFF#32⟩,
   ⟨0x19000000#32, 0xFF00FFFF#32⟩,
   ⟨0x1A000000#32, 0xFF00FFFF#32⟩,
   ⟨0x1B000000#32, 0xFF000FF8#32⟩,
   ⟨0x1C000000#32, 0xFF000FF8#32⟩,
   ⟨0x1D000000#32, 0xFF00FFF8#32⟩,
   ⟨0x1E000000#32, 0xFF00FFF8#32⟩,
   ⟨0x1F000000#32, 0xFF00FFFF#32⟩,
   ⟨0x20000000#32, 0xFF800FFF#32⟩,
   ⟨0x21000000#32, 0xFF80FFFF#32⟩,
   ⟨0x22000000#32, 0xFF80FFFF#32⟩]

/-- Opcodes 0x30 to 0x43 of the map (R115). -/
def scalarRows : List Row :=
  [⟨0x30000000#32, 0xFF8FF000#32⟩,
   ⟨0x31000000#32, 0xFF8FF000#32⟩,
   ⟨0x32000000#32, 0xFF88F000#32⟩,
   ⟨0x33000000#32, 0xFF8FF000#32⟩,
   ⟨0x34000000#32, 0xFF8FF000#32⟩,
   ⟨0x35000000#32, 0xFF88FFFF#32⟩,
   ⟨0x36000000#32, 0xFF8FFFF8#32⟩,
   ⟨0x37000000#32, 0xFF888FFF#32⟩,
   ⟨0x38000000#32, 0xFF888FFF#32⟩,
   ⟨0x39000000#32, 0xFF88FFFF#32⟩,
   ⟨0x3A000000#32, 0xFF888FFF#32⟩,
   ⟨0x3B000000#32, 0xFF88FFFF#32⟩,
   ⟨0x3C000000#32, 0xFF888FFF#32⟩,
   ⟨0x3D000000#32, 0xFF88FFFF#32⟩,
   ⟨0x3E000000#32, 0xFF88FFFF#32⟩,
   ⟨0x3F000000#32, 0xFF88FFFF#32⟩,
   ⟨0x40000000#32, 0xFF888FFF#32⟩,
   ⟨0x41000000#32, 0xFF88FFFF#32⟩,
   ⟨0x42000000#32, 0xFF8FF000#32⟩,
   ⟨0x43000000#32, 0xFF80F000#32⟩]

/-- Opcodes 0x50 to 0x61 of the map (R115). -/
def pointRows : List Row :=
  [⟨0x50000000#32, 0xFF8FFFFF#32⟩,
   ⟨0x51000000#32, 0xFF8FFFFF#32⟩,
   ⟨0x52000000#32, 0xFF88FFFF#32⟩,
   ⟨0x53000000#32, 0xFF88FFFF#32⟩,
   ⟨0x54000000#32, 0xFF88FFFF#32⟩,
   ⟨0x55000000#32, 0xFF888FFF#32⟩,
   ⟨0x56000000#32, 0xFF888FFF#32⟩,
   ⟨0x57000000#32, 0xFF88FFFF#32⟩,
   ⟨0x58000000#32, 0xFF8FF000#32⟩,
   ⟨0x59000000#32, 0xFF88F000#32⟩,
   ⟨0x5A000000#32, 0xFF888FFF#32⟩,
   ⟨0x5B000000#32, 0xFF88FFFF#32⟩,
   ⟨0x5C000000#32, 0xFF88FFFF#32⟩,
   ⟨0x5D000000#32, 0xFF88FFFF#32⟩,
   ⟨0x5F000000#32, 0xFF88FFFF#32⟩,
   ⟨0x60000000#32, 0xFF08FFFF#32⟩,
   ⟨0x61000000#32, 0xFF80EFF8#32⟩]

/-- Opcodes 0x70 to 0x94 (engines, ladder, Ristretto) of the map (R115). -/
def engineRows : List Row :=
  [⟨0x70000000#32, 0xFF888FFF#32⟩,
   ⟨0x71000000#32, 0xFF88FFFF#32⟩,
   ⟨0x72000000#32, 0xFF888FF8#32⟩,
   ⟨0x73000000#32, 0xFF888FFF#32⟩,
   ⟨0x80000000#32, 0xFF080FFF#32⟩,
   ⟨0x81000000#32, 0xFF80FFFF#32⟩,
   ⟨0x90000000#32, 0xFF88F000#32⟩,
   ⟨0x91000000#32, 0xFF8FF000#32⟩,
   ⟨0x92000000#32, 0xFF888FFF#32⟩,
   ⟨0x93000000#32, 0xFF80FFFF#32⟩,
   ⟨0x94000000#32, 0xFF8FF000#32⟩]

/-- Opcodes 0xA0 to 0xB5 (signing, verification) of the map (R115). -/
def ed25519Rows : List Row :=
  [⟨0xA0000000#32, 0xFFFFF000#32⟩,
   ⟨0xA1000000#32, 0xFFFFF000#32⟩,
   ⟨0xA2000000#32, 0xFFFFF000#32⟩,
   ⟨0xA3000000#32, 0xFFFFF000#32⟩,
   ⟨0xA4000000#32, 0xFFFFF000#32⟩,
   ⟨0xA5000000#32, 0xFFFFF000#32⟩,
   ⟨0xA6000000#32, 0xFFFFFFFF#32⟩,
   ⟨0xB0000000#32, 0xFF8FF000#32⟩,
   ⟨0xB1000000#32, 0xFF8FF000#32⟩,
   ⟨0xB2000000#32, 0xFF8FF000#32⟩,
   ⟨0xB3000000#32, 0xFFFFFFFF#32⟩,
   ⟨0xB4000000#32, 0xFFFFF000#32⟩,
   ⟨0xB5000000#32, 0xFF8FFFFF#32⟩]

/-- The opcode map of R115, match and mask as printed there; the decoder is held against it. -/
def opcodeRows : List Row :=
  systemRows ++ fieldRows ++ scalarRows ++ pointRows ++ engineRows ++ ed25519Rows

end Sys2Proof
end

