-- ==== Sys2Proof/Machine/State.lean ====
section
/-! DEFINITION. The architectural state (10_state.md R30 to R76), its value after reset
(70_reset_and_hazards.md R511), and why a step can stop. -/

namespace Sys2Proof.Machine

/-- A field element: five 64-bit limbs of radix 2^51 (R31, R141). -/
structure Fe where
  l0 : BitVec 64
  l1 : BitVec 64
  l2 : BitVec 64
  l3 : BitVec 64
  l4 : BitVec 64
  deriving DecidableEq, Repr

/-- A point in extended coordinates (X, Y, Z, T), twenty limbs (R35, R252). -/
structure Ext where
  X : Fe
  Y : Fe
  Z : Fe
  T : Fe
  deriving DecidableEq, Repr

/-- The integer of a scalar register, 0 <= n < 2^255 (R34). -/
abbrev ScalarInt := BitVec 255

/-- A register of any file: its contents and its valid bit (R33). -/
structure Reg (α : Type) where
  val : α
  valid : Bool
  deriving DecidableEq, Repr

/-- The key slot (R38). `pfx` is the spec's `prefix`, `pub` its `A`, `valid` its KEYV. -/
structure KeySlot where
  seed : Vector Byte 32
  a : ScalarInt
  pfx : Vector Byte 32
  pub : Vector Byte 32
  valid : Bool
  deriving DecidableEq, Repr

/-- The batch accumulator (R39): S, P, N, OK, ACTIVE. -/
structure Batch where
  sum : ScalarInt
  point : Ext
  count : BitVec 32
  ok : Bool
  active : Bool
  deriving DecidableEq, Repr

/-- The result codes of RESULT (R64, R480), in the order of their numbers 0 to 6. -/
inductive ResultCode where
  | ok
  | invalidEncoding
  | weakPublicKey
  | signatureMismatch
  | batchFailure
  | contextTooLong
  | allZeroOutput
  deriving DecidableEq, Repr

/-- The fault codes of ERR (R65, R471), in the order of their numbers 0 to 4. -/
inductive ErrCode where
  | none
  | illegal
  | unwritten
  | addr
  | sequence
  deriving DecidableEq, Repr

/-- Data memory: the bytes that are not 0x00, by strictly rising address. An unlisted address reads as 0x00,
its reset content (R93, R511). -/
abbrev Memory := List Host.Cell

/-- What the host does next (R520): reset, or one access of the register bus at a byte offset (R59, R74). -/
inductive HostMove where
  | rst
  | writeWord (offset : Word) (value : Word)
  | readWord (offset : Word)
  | writeByte (offset : Word) (value : Byte)
  | readByte (offset : Word)
  deriving DecidableEq, Repr

/-- The state of the block (R30) and, in the last three fields, the model's own environment (logs 2, 3, 4). -/
structure State where
  /-- f0..f15 (R31). -/
  fReg : Vector (Reg Fe) 16
  /-- s0..s7 (R34). -/
  sReg : Vector (Reg ScalarInt) 8
  /-- p0..p7 (R35). -/
  pReg : Vector (Reg Ext) 8
  /-- c0..c7 (R37). -/
  cReg : Vector (Reg Bool) 8
  /-- The key slot (R38). -/
  key : KeySlot
  /-- The batch accumulator (R39). -/
  batch : Batch
  /-- Data memory DM (R40, R80). -/
  dm : Memory
  /-- CFG[4:0] (R61). -/
  cfg : BitVec 5
  /-- STATUS.HALT (R62). -/
  halt : Bool
  /-- RESULT (R64). -/
  result : ResultCode
  /-- ERR (R65). -/
  err : ErrCode
  /-- ERRINFO (R66). -/
  errInfo : Word
  /-- CC (R58, R67). -/
  cc : BitVec 32
  /-- MADDR[11:0] (R68). -/
  maddr : BitVec 12
  /-- MLEN[12:0] (R69). -/
  mlen : BitVec 13
  /-- CADDR[11:0] (R70). -/
  caddr : BitVec 12
  /-- CLEN[8:0] (R71). -/
  clen : BitVec 9
  /-- The model's own: the host moves still to come, oldest first (R520, log 3). -/
  host : List HostMove
  /-- The model's own: what the bus answered to the last host read (R520, log 4). -/
  busData : Word
  /-- The model's own: how many draws the random source has answered (R503, log 2). -/
  rngDraws : Nat
  deriving DecidableEq, Repr

/-- Why a step stops. The spec's own faults (R471) do not stop a step: they are taken, as a next state (R472). -/
inductive Fault where
  /-- Raised by `step` (through Machine/HostBus.lean) for a bus access the spec does not describe: a word access to a
  control register or to the DM window at an offset that is no multiple of 4, or a byte access to a control
  register (R59: "accessed as one aligned 32-bit word"; R74). Safe: the model stops where the hardware does
  something unknown. See log 7. -/
  | undescribedBusAccess
  deriving DecidableEq, Repr

/-- Why a command has no meaning. -/
inductive Refusal where
  /-- Raised by `exec` for a command that has no meaning yet; no arm does. Safe: the model stops. -/
  | notModelled (mnemonic : String)
  deriving DecidableEq, Repr

/-- The outcome of a command or a step. -/
abbrev Outcome := Host.Outcome State Fault Refusal

/-- All-zero limbs (R33, R511). -/
def Fe.zero : Fe := ⟨0, 0, 0, 0, 0⟩

/-- All-zero coordinates, the contents of an invalid point register (R511). -/
def Ext.zero : Ext := ⟨.zero, .zero, .zero, .zero⟩

/-- The cleared key slot (R400, R511). -/
def KeySlot.cleared : KeySlot :=
  { seed := .replicate 32 0, a := 0, pfx := .replicate 32 0, pub := .replicate 32 0, valid := false }

/-- The cleared batch accumulator (R451 bit 5, R511; log 5). -/
def Batch.cleared : Batch :=
  { sum := 0, point := .zero, count := 0, ok := false, active := false }

/-- The state after reset, every item as R511 lists it; the model's own fields as logs 2, 3 and 4 say. -/
def State.reset : State where
  fReg := .replicate 16 ⟨.zero, false⟩
  sReg := .replicate 8 ⟨0, false⟩
  pReg := .replicate 8 ⟨.zero, false⟩
  cReg := .replicate 8 ⟨false, false⟩
  key := .cleared
  batch := .cleared
  dm := []
  cfg := 0x03#5
  halt := false
  result := .ok
  err := .none
  errInfo := 0
  cc := 0
  maddr := 0
  mlen := 0
  caddr := 0
  clen := 0
  host := []
  busData := 0
  rngDraws := 0

/-- The batch accumulator at reset as the table of R30 prints it: P identity, OK 1. R511 gives `Batch.cleared`
instead (log 5). -/
def Batch.resetR30 : Batch :=
  { sum := 0, point := ⟨.zero, ⟨1, 0, 0, 0, 0⟩, ⟨1, 0, 0, 0, 0⟩, .zero⟩, count := 0, ok := true, active := false }

/-- The state after reset as the table of R30 prints it. It differs from `State.reset` in the inactive accumulator
alone, and no run tells the two apart (`runs_agree` in Laws/BatchIdle.lean; log 5). -/
def State.resetR30 : State := { State.reset with batch := .resetR30 }

end Sys2Proof.Machine
end

