-- ==== Sys2Proof/Machine/Bytes.lean ====
section
/-! DEFINITION. Byte strings and their integers (00_scope.md R10), and the bytes of data memory
(20_memory.md R80 to R85, R93). -/

namespace Sys2Proof.Machine

/-- `le(b)`, the little-endian integer of a byte string (R10, R81). -/
def le : List Byte → Nat
  | [] => 0
  | b :: bs => b.toNat + 256 * le bs

/-- `bytes_n(v)`, the n-byte string whose `le` is `v`, for v < 256^n (R10). -/
def bytesOf : (n v : Nat) → List Byte
  | 0, _ => []
  | n + 1, v => BitVec.ofNat 8 v :: bytesOf n (v / 256)

/-- A 32-byte string kept in the key slot (R38). -/
def bytes32 (b : List Byte) : Vector Byte 32 := Vector.ofFn fun i => b.getD i 0

/-- `b[lo .. lo+n)` (R10). -/
def slice (b : List Byte) (lo n : Nat) : List Byte := (b.drop lo).take n

/-- What an address not listed reads as: DM's reset content (R93, R511). -/
def Memory.unlisted : Byte := 0x00#8

/-- The byte at address `a`. -/
def Memory.read : Memory → Nat → Byte
  | [], _ => Memory.unlisted
  | (k, b) :: m, a => if k = a then b else Memory.read m a

/-- Store a byte, keeping the cells sorted and listing no byte an unlisted address reads as. -/
def Memory.write : Memory → Nat → Byte → Memory
  | [], a, b => if b = Memory.unlisted then [] else [(a, b)]
  | (k, c) :: m, a, b =>
    if a < k then (if b = Memory.unlisted then (k, c) :: m else (a, b) :: (k, c) :: m)
    else if a = k then (if b = Memory.unlisted then m else (a, b) :: m)
    else (k, c) :: Memory.write m a b

/-- The `n` bytes from address `a`, lowest address first (R11 `MemRead`, R81). -/
def Memory.readBytes (m : Memory) : (a n : Nat) → List Byte
  | _, 0 => []
  | a, n + 1 => m.read a :: m.readBytes (a + 1) n

/-- Store a byte string from address `a` upwards (R11 `MemWrite`, R81). -/
def Memory.writeBytes : (m : Memory) → (a : Nat) → List Byte → Memory
  | m, _, [] => m
  | m, a, b :: bs => (m.write a b).writeBytes (a + 1) bs

/-- The canonical form: addresses strictly rising and below MEMSIZE, no listed byte equal to what an unlisted
address reads as. -/
abbrev Memory.wf (m : Memory) : Prop :=
  m.Pairwise (fun c d => c.1 < d.1) ∧ ∀ c ∈ m, c.1 < Config.memSize ∧ c.2 ≠ Memory.unlisted

end Sys2Proof.Machine
end

