-- ==== Sys2Proof/Machine/FieldLimbs.lean ====
section
/-! DEFINITION. The limb functions `fe_*` of the field unit (40_field.md R140 to R161). Sums and products are
exact integers, as R9 says, and a result's limbs are narrowed to 64 bits; where a rule names a width (`lo64`) the
model narrows there. Outside a function's precondition (limbs of 2^54 and more, R141) the spec gives no limbs:
see log 8. -/

namespace Sys2Proof.Machine

/-- p = 2^255 - 19 (R7, R13). -/
abbrev fieldPrime : Nat := 2 ^ 255 - 19

/-- `fe_int(x)`: the integer of five limbs (R141). -/
def feInt (x : Fe) : Nat :=
  x.l0.toNat + x.l1.toNat * 2 ^ 51 + x.l2.toNat * 2 ^ 102 + x.l3.toNat * 2 ^ 153 + x.l4.toNat * 2 ^ 204

/-- `fe_val(x) = fe_int(x) mod p` (R31, R141). -/
def feVal (x : Fe) : Nat := feInt x % fieldPrime

/-- Five limbs, each narrowed to 64 bits. -/
def Fe.ofNats (l0 l1 l2 l3 l4 : Nat) : Fe :=
  ⟨BitVec.ofNat 64 l0, BitVec.ofNat 64 l1, BitVec.ofNat 64 l2, BitVec.ofNat 64 l3, BitVec.ofNat 64 l4⟩

/-- `load8(o) = le(b[o..o+8))` (R142). -/
def load8 (b : List Byte) (o : Nat) : Nat := le (slice b o 8)

/-- `fe_from_bytes(b)`: bit 255 is dropped, nothing is reduced modulo p (R142). -/
def feFromBytes (b : List Byte) : Fe :=
  Fe.ofNats (load8 b 0 % 2 ^ 51) (load8 b 6 / 2 ^ 3 % 2 ^ 51) (load8 b 12 / 2 ^ 6 % 2 ^ 51)
    (load8 b 19 / 2 ^ 1 % 2 ^ 51) (load8 b 24 / 2 ^ 12 % 2 ^ 51)

/-- `fe_carry(x)`, the weak carry pass: all five carries are taken from the input limbs at once (R144). -/
def feCarry (x0 x1 x2 x3 x4 : Nat) : Fe :=
  Fe.ofNats (x0 % 2 ^ 51 + 19 * (x4 / 2 ^ 51)) (x1 % 2 ^ 51 + x0 / 2 ^ 51) (x2 % 2 ^ 51 + x1 / 2 ^ 51)
    (x3 % 2 ^ 51 + x2 / 2 ^ 51) (x4 % 2 ^ 51 + x3 / 2 ^ 51)

/-- `fe_add(a, b)` (R145). -/
def feAdd (a b : Fe) : Fe :=
  feCarry (a.l0.toNat + b.l0.toNat) (a.l1.toNat + b.l1.toNat) (a.l2.toNat + b.l2.toNat)
    (a.l3.toNat + b.l3.toNat) (a.l4.toNat + b.l4.toNat)

/-- `P16[0]`, the low limb of 16·p (R141). -/
abbrev p16Low : Nat := 0x7ffffffffffed0

/-- `P16[1..4]`, the other limbs of 16·p (R141). -/
abbrev p16High : Nat := 0x7ffffffffffff0

/-- `fe_sub(a, b)`, adding 16·p before the subtraction (R146). -/
def feSub (a b : Fe) : Fe :=
  feCarry (a.l0.toNat + p16Low - b.l0.toNat) (a.l1.toNat + p16High - b.l1.toNat)
    (a.l2.toNat + p16High - b.l2.toNat) (a.l3.toNat + p16High - b.l3.toNat) (a.l4.toNat + p16High - b.l4.toNat)

/-- `fe_neg(a)` (R147). -/
def feNeg (a : Fe) : Fe :=
  feCarry (p16Low - a.l0.toNat) (p16High - a.l1.toNat) (p16High - a.l2.toNat) (p16High - a.l3.toNat)
    (p16High - a.l4.toNat)

/-- `lo64(v)` (R148). -/
def lo64 (v : Nat) : Nat := v % 2 ^ 64

/-- `fe_carry_wide(c)`, the carry chain after a product (R148). -/
def feCarryWide (c0 c1 c2 c3 c4 : Nat) : Fe :=
  let d1 := c1 + lo64 (c0 / 2 ^ 51)
  let d2 := c2 + lo64 (d1 / 2 ^ 51)
  let d3 := c3 + lo64 (d2 / 2 ^ 51)
  let d4 := c4 + lo64 (d3 / 2 ^ 51)
  let o0 := c0 % 2 ^ 51 + 19 * lo64 (d4 / 2 ^ 51)
  Fe.ofNats (o0 % 2 ^ 51) (d1 % 2 ^ 51 + o0 / 2 ^ 51) (d2 % 2 ^ 51) (d3 % 2 ^ 51) (d4 % 2 ^ 51)

/-- `fe_mul(a, b)`: 25 products in five column sums, the upper ones folded back with 19 (R149). -/
def feMul (a b : Fe) : Fe :=
  let a0 := a.l0.toNat
  let a1 := a.l1.toNat
  let a2 := a.l2.toNat
  let a3 := a.l3.toNat
  let a4 := a.l4.toNat
  let b0 := b.l0.toNat
  let b1 := b.l1.toNat
  let b2 := b.l2.toNat
  let b3 := b.l3.toNat
  let b4 := b.l4.toNat
  feCarryWide
    (a0 * b0 + a4 * (19 * b1) + a3 * (19 * b2) + a2 * (19 * b3) + a1 * (19 * b4))
    (a1 * b0 + a0 * b1 + a4 * (19 * b2) + a3 * (19 * b3) + a2 * (19 * b4))
    (a2 * b0 + a1 * b1 + a0 * b2 + a4 * (19 * b3) + a3 * (19 * b4))
    (a3 * b0 + a2 * b1 + a1 * b2 + a0 * b3 + a4 * (19 * b4))
    (a4 * b0 + a3 * b1 + a2 * b2 + a1 * b3 + a0 * b4)

/-- `fe_sq(a)`, with the off-diagonal products doubled (R150). -/
def feSq (a : Fe) : Fe :=
  let a0 := a.l0.toNat
  let a1 := a.l1.toNat
  let a2 := a.l2.toNat
  let a3 := a.l3.toNat
  let a4 := a.l4.toNat
  feCarryWide
    (a0 * a0 + 2 * (a1 * (19 * a4) + a2 * (19 * a3)))
    (a3 * (19 * a3) + 2 * (a0 * a1 + a2 * (19 * a4)))
    (a1 * a1 + 2 * (a0 * a2 + a4 * (19 * a3)))
    (a4 * (19 * a4) + 2 * (a0 * a3 + a1 * a2))
    (a2 * a2 + 2 * (a0 * a4 + a1 * a3))

/-- `fe_sqn(a, k)`: k successive squarings (R150). -/
def feSqn (a : Fe) : Nat → Fe
  | 0 => a
  | k + 1 => feSq (feSqn a k)

/-- The quotient bit of the canonical reduction: 1 iff the carried limbs make an integer of p or more (R151). -/
def canonQuotient (l : Fe) : Nat :=
  let q0 := (l.l0.toNat + 19) / 2 ^ 51
  let q1 := (l.l1.toNat + q0) / 2 ^ 51
  let q2 := (l.l2.toNat + q1) / 2 ^ 51
  let q3 := (l.l3.toNat + q2) / 2 ^ 51
  (l.l4.toNat + q3) / 2 ^ 51

/-- `fe_canon(x)`, the full canonical reduction (R151). -/
def feCanon (x : Fe) : Fe :=
  let l := feCarry x.l0.toNat x.l1.toNat x.l2.toNat x.l3.toNat x.l4.toNat
  let m0 := l.l0.toNat + 19 * canonQuotient l
  let m1 := l.l1.toNat + m0 / 2 ^ 51
  let m2 := l.l2.toNat + m1 / 2 ^ 51
  let m3 := l.l3.toNat + m2 / 2 ^ 51
  let m4 := l.l4.toNat + m3 / 2 ^ 51
  Fe.ofNats (m0 % 2 ^ 51) (m1 % 2 ^ 51) (m2 % 2 ^ 51) (m3 % 2 ^ 51) (m4 % 2 ^ 51)

/-- `fe_to_bytes(x)`: the canonical 32 bytes (R152). -/
def feToBytes (x : Fe) : List Byte := bytesOf 32 (feInt (feCanon x))

/-- `fe_eq(a, b)` on canonical bytes (R153). -/
def feEq (a b : Fe) : Bool := feToBytes a == feToBytes b

/-- `fe_isneg(a)`: bit 0 of the canonical bytes (R153). -/
def feIsNeg (a : Fe) : Bool := ((feToBytes a).getD 0 0).getLsbD 0

/-- `fe_iszero(a)`: the canonical bytes are all zero (R153). -/
def feIsZero (a : Fe) : Bool := feToBytes a == List.replicate 32 0

/-- The limb selected by a mask of 64 equal bits (R154). -/
def selLimb (a b : BitVec 64) (c : Bool) : BitVec 64 :=
  let mask : BitVec 64 := 0 - (if c then 1 else 0)
  a ^^^ (mask &&& (a ^^^ b))

/-- `fe_sel(a, b, c)`: the limbs of a when c = 0, of b when c = 1 (R154). -/
def feSel (a b : Fe) (c : Bool) : Fe :=
  ⟨selLimb a.l0 b.l0 c, selLimb a.l1 b.l1 c, selLimb a.l2 b.l2 c, selLimb a.l3 b.l3 c, selLimb a.l4 b.l4 c⟩

/-- `fe_cneg(a, c)` (R154). -/
def feCneg (a : Fe) (c : Bool) : Fe := feSel a (feNeg a) c

/-- `fe_pow22501(x) = (x^(2^250 - 1), x^11)`, the shared start of both chains (R155). -/
def fePow22501 (x : Fe) : Fe × Fe :=
  let t0 := feSq x
  let t1 := feSqn t0 2
  let t2 := feMul x t1
  let t3 := feMul t0 t2
  let t4 := feSq t3
  let t5 := feMul t2 t4
  let t6 := feSqn t5 5
  let t7 := feMul t6 t5
  let t8 := feSqn t7 10
  let t9 := feMul t8 t7
  let t10 := feSqn t9 20
  let t11 := feMul t10 t9
  let t12 := feSqn t11 10
  let t13 := feMul t12 t7
  let t14 := feSqn t13 50
  let t15 := feMul t14 t13
  let t16 := feSqn t15 100
  let t17 := feMul t16 t15
  let t18 := feSqn t17 50
  (feMul t18 t13, t3)

/-- `fe_inv(x)`: x^(p-2), which is 0 for 0 (R156). -/
def feInv (x : Fe) : Fe :=
  let t := fePow22501 x
  feMul (feSqn t.1 5) t.2

/-- `fe_pow58(x)`: x^((p-5)/8) (R157). -/
def fePow58 (x : Fe) : Fe := feMul x (feSqn (fePow22501 x).1 2)

/-- ONE (R158). -/
def feOne : Fe := ⟨1, 0, 0, 0, 0⟩

/-- MINUS_ONE (R158). -/
def feMinusOne : Fe := ⟨0x7ffffffffffec, 0x7ffffffffffff, 0x7ffffffffffff, 0x7ffffffffffff, 0x7ffffffffffff⟩

/-- EDWARDS_D (R158). -/
def edwardsD : Fe := ⟨0x34dca135978a3, 0x1a8283b156ebd, 0x5e7a26001c029, 0x739c663a03cbb, 0x52036cee2b6ff⟩

/-- EDWARDS_D2 (R158). -/
def edwardsD2 : Fe := ⟨0x69b9426b2f159, 0x35050762add7a, 0x3cf44c0038052, 0x6738cc7407977, 0x2406d9dc56dff⟩

/-- SQRT_M1 (R158). -/
def sqrtM1 : Fe := ⟨0x61b274a0ea0b0, 0x0d5a5fc8f189d, 0x7ef5e9cbd0c60, 0x78595a6804c9e, 0x2b8324804fc1d⟩

/-- A24 (R158). -/
def ladderA24 : Fe := ⟨0x1db41, 0, 0, 0, 0⟩

/-- MONTGOMERY_A (R158). -/
def montgomeryA : Fe := ⟨0x76d06, 0, 0, 0, 0⟩

/-- INVSQRT_A_MINUS_D (R158). -/
def invsqrtAMinusD : Fe := ⟨0x0fdaa805d40ea, 0x2eb482e57d339, 0x007610274bc58, 0x6510b613dc8ff, 0x786c8905cfaff⟩

/-- SQRT_AD_MINUS_ONE (R158). -/
def sqrtAdMinusOne : Fe := ⟨0x7f6a0497b2e1b, 0x1836f0a97afd2, 0x7d747f6be7638, 0x456079e7e6498, 0x376931bf2b834⟩

/-- ONE_MINUS_D_SQ (R158). -/
def oneMinusDSq : Fe := ⟨0x409c1945fc176, 0x719abc6a1fc4f, 0x1c37f90b20684, 0x06bccca55eedf, 0x029072a8b2b3e⟩

/-- D_MINUS_ONE_SQ (R158). -/
def dMinusOneSq : Fe := ⟨0x55aaa44ed4d20, 0x59603c3332635, 0x26d3baf4a7928, 0x120a66e6997a9, 0x5968b37af66c2⟩

/-- MONTGOMERY_A_NEG (R158). -/
def montgomeryANeg : Fe := ⟨0x7fffffff892e7, 0x7ffffffffffff, 0x7ffffffffffff, 0x7ffffffffffff, 0x7ffffffffffff⟩

/-- The field constants by their selector k = 0..12 (R158). -/
def fieldConstants : List Fe :=
  [.zero, feOne, feMinusOne, edwardsD, edwardsD2, sqrtM1, ladderA24, montgomeryA, invsqrtAMinusD, sqrtAdMinusOne,
   oneMinusDSq, dMinusOneSq, montgomeryANeg]

/-- Constant k (R165); k <= 12 is checked by the command. -/
def feConst (k : Nat) : Fe := fieldConstants.getD k .zero

/-- `sqrt_ratio_i(u, v) = (was_square, r)` (R160; contract R159, corner cases R161). -/
def sqrtRatioI (u v : Fe) : Bool × Fe :=
  let v3 := feMul (feSq v) v
  let v7 := feMul (feSq v3) v
  let r := feMul (feMul u v3) (fePow58 (feMul u v7))
  let check := feMul v (feSq r)
  let correct := feEq check u
  let flipped := feEq check (feNeg u)
  let flippedI := feEq check (feMul (feNeg u) sqrtM1)
  let r := feSel r (feMul sqrtM1 r) (flipped || flippedI)
  (correct || flipped, feCneg r (feIsNeg r))

end Sys2Proof.Machine
end

