-- ==== Sys2Proof/Machine/CurveModels.lean ====
section
/-! DEFINITION. The curve models of the point unit, their conversions, the group law, encodings and maps
(42_edwards.md R250 to R283). `Ext` (R252) stands in Machine/State.lean. -/

namespace Sys2Proof.Machine

/-- Model Proj (X:Y:Z), x = X/Z, y = Y/Z (R253). -/
structure Proj where
  X : Fe
  Y : Fe
  Z : Fe
  deriving DecidableEq, Repr

/-- Model Comp (X:Y:Z:T), x = X/Z, y = Y/T (R254). -/
structure Comp where
  X : Fe
  Y : Fe
  Z : Fe
  T : Fe
  deriving DecidableEq, Repr

/-- Model ANiels (y+x, y-x, 2dxy) (R255). -/
structure ANiels where
  ypx : Fe
  ymx : Fe
  xy2d : Fe
  deriving DecidableEq, Repr

/-- Model PNiels (Y+X, Y-X, Z, 2dT) (R256). -/
structure PNiels where
  YpX : Fe
  YmX : Fe
  Z : Fe
  T2d : Fe
  deriving DecidableEq, Repr

/-- The neutral entry (1, 1, 0) (R255). -/
def ANiels.neutral : ANiels := ⟨feOne, feOne, .zero⟩

/-- The neutral entry (1, 1, 1, 0) (R256). -/
def PNiels.neutral : PNiels := ⟨feOne, feOne, feOne, .zero⟩

/-- `ed_identity()` = (0, 1, 1, 0) (R252). -/
def edIdentity : Ext := ⟨.zero, feOne, feOne, .zero⟩

/-- The generator B = (B_x, B_y, 1, B_t), canonical limbs of the values of 00_scope.md R13 (R286). -/
def basePoint : Ext where
  X := ⟨0x62d608f25d51a, 0x412a4b4f6592a, 0x75b7171a4b31d, 0x1ff60527118fe, 0x216936d3cd6e5⟩
  Y := ⟨0x6666666666658, 0x4cccccccccccc, 0x1999999999999, 0x3333333333333, 0x6666666666666⟩
  Z := feOne
  T := ⟨0x68ab3a5b7dda3, 0x00eea2a5eadbb, 0x2af8df483c27e, 0x332b375274732, 0x67875f0fd78b7⟩

/-- R257. -/
def extToProj (P : Ext) : Proj := ⟨P.X, P.Y, P.Z⟩

/-- R258, 3M. -/
def compToProj (C : Comp) : Proj := ⟨feMul C.X C.T, feMul C.Y C.Z, feMul C.Z C.T⟩

/-- R258, 4M. -/
def compToExt (C : Comp) : Ext := ⟨feMul C.X C.T, feMul C.Y C.Z, feMul C.Z C.T, feMul C.X C.Y⟩

/-- R259. -/
def extToPniels (P : Ext) : PNiels := ⟨feAdd P.Y P.X, feSub P.Y P.X, P.Z, feMul P.T edwardsD2⟩

/-- R260. -/
def extToAniels (P : Ext) : ANiels :=
  let r := feInv P.Z
  let x := feMul P.X r
  let y := feMul P.Y r
  ⟨feAdd y x, feSub y x, feMul (feMul x y) edwardsD2⟩

/-- R261. -/
def projToExt (R : Proj) : Ext := ⟨feMul R.X R.Z, feMul R.Y R.Z, feSq R.Z, feMul R.X R.Y⟩

/-- `ed_lift(Y, sign)` (R262). -/
def edLift (y : Fe) (sign : Bool) : Option Ext :=
  let yy := feSq y
  let root := sqrtRatioI (feSub yy feOne) (feAdd (feMul yy edwardsD) feOne)
  let x := feCneg root.2 sign
  if root.1 then some ⟨x, y, feOne, feMul x y⟩ else none

/-- Bit 255 of a 32-byte string (R10). -/
def topBit (b : List Byte) : Bool := (b.getD 31 0).getLsbD 7

/-- A 32-byte string with bit 255 cleared. -/
def clearTopBit (b : List Byte) : List Byte := b.set 31 (b.getD 31 0 &&& 0x7F)

/-- `ed_decompress(b)`, the strict decoder (R263). -/
def edDecompress (b : List Byte) : Option Ext :=
  let y := feFromBytes b
  if feToBytes y ≠ clearTopBit b then none
  else match edLift y (topBit b) with
    | none => none
    | some P => if topBit b && feIsZero P.X then none else some P

/-- `proj_double(P)` (R264). -/
def projDouble (P : Proj) : Comp :=
  let xx := feSq P.X
  let yy := feSq P.Y
  let zz := feSq P.Z
  let zz2 := feAdd zz zz
  let s := feSq (feAdd P.X P.Y)
  let yypxx := feAdd yy xx
  let yymxx := feSub yy xx
  ⟨feSub s yypxx, yypxx, yymxx, feSub zz2 yymxx⟩

/-- `add_pniels(P, Q)` (R265). -/
def addPniels (P : Ext) (Q : PNiels) : Comp :=
  let pp := feMul (feAdd P.Y P.X) Q.YpX
  let mm := feMul (feSub P.Y P.X) Q.YmX
  let tt := feMul P.T Q.T2d
  let zz := feMul P.Z Q.Z
  let zz2 := feAdd zz zz
  ⟨feSub pp mm, feAdd pp mm, feAdd zz2 tt, feSub zz2 tt⟩

/-- `sub_pniels(P, Q)` (R266). -/
def subPniels (P : Ext) (Q : PNiels) : Comp :=
  let pm := feMul (feAdd P.Y P.X) Q.YmX
  let mp := feMul (feSub P.Y P.X) Q.YpX
  let tt := feMul P.T Q.T2d
  let zz := feMul P.Z Q.Z
  let zz2 := feAdd zz zz
  ⟨feSub pm mp, feAdd pm mp, feSub zz2 tt, feAdd zz2 tt⟩

/-- `add_aniels(P, Q)` (R267). -/
def addAniels (P : Ext) (Q : ANiels) : Comp :=
  let pp := feMul (feAdd P.Y P.X) Q.ypx
  let mm := feMul (feSub P.Y P.X) Q.ymx
  let tt := feMul P.T Q.xy2d
  let zz2 := feAdd P.Z P.Z
  ⟨feSub pp mm, feAdd pp mm, feAdd zz2 tt, feSub zz2 tt⟩

/-- `ed_add(P, Q)` (R268). -/
def edAdd (P Q : Ext) : Ext := compToExt (addPniels P (extToPniels Q))

/-- `ed_sub(P, Q)` (R268). -/
def edSub (P Q : Ext) : Ext := compToExt (subPniels P (extToPniels Q))

/-- `ed_double(P)` (R268). -/
def edDouble (P : Ext) : Ext := compToExt (projDouble (extToProj P))

/-- `ed_neg(P)` (R269). -/
def edNeg (P : Ext) : Ext := ⟨feNeg P.X, P.Y, P.Z, feNeg P.T⟩

/-- `n` rounds of double-and-convert in model Proj, the loop of R270. -/
def projDoubleN (s : Proj) : Nat → Proj
  | 0 => s
  | n + 1 => projDoubleN (compToProj (projDouble s)) n

/-- `ed_mul_pow2(P, k)`, k >= 1 (R270). -/
def edMulPow2 (P : Ext) (k : Nat) : Ext := compToExt (projDouble (projDoubleN (extToProj P) (k - 1)))

/-- `ed_mul8(P)` (R270). -/
def edMul8 (P : Ext) : Ext := edMulPow2 P 3

/-- `ed_compress(P)` (R271). -/
def edCompress (P : Ext) : List Byte :=
  let r := feInv P.Z
  let x := feMul P.X r
  let b := feToBytes (feMul P.Y r)
  b.set 31 (b.getD 31 0 ||| (if feIsNeg x then 0x80 else 0x00))

/-- `ed_eq(P, Q)` (R272). -/
def edEq (P Q : Ext) : Bool :=
  feEq (feMul P.X Q.Z) (feMul Q.X P.Z) && feEq (feMul P.Y Q.Z) (feMul Q.Y P.Z)

/-- `ed_is_identity(P)` (R273). -/
def edIsIdentity (P : Ext) : Bool := edEq P edIdentity

/-- `ed_is_small_order(P)` (R273). -/
def edIsSmallOrder (P : Ext) : Bool := edIsIdentity (edMul8 P)

/-- `ed_to_mont(P)` (R275). -/
def edToMont (P : Ext) : Fe := feMul (feAdd P.Z P.Y) (feInv (feSub P.Z P.Y))

/-- `mont_to_edwards(u, sign)` (R276). -/
def montToEdwards (u : Fe) (sign : Bool) : Option Ext :=
  if feEq u feMinusOne then none
  else edLift (feMul (feSub u feOne) (feInv (feAdd u feOne))) sign

/-- `mont_elligator(r0)` (R283). -/
def montElligator (r0 : Fe) : Fe :=
  let d1 := feAdd feOne (feAdd (feSq r0) (feSq r0))
  let D := feMul montgomeryANeg (feInv d1)
  let eps := feMul D (feAdd (feAdd (feSq D) (feMul montgomeryA D)) feOne)
  let sq := (sqrtRatioI eps feOne).1
  feCneg (feAdd D (feSel montgomeryA .zero sq)) (!sq)

/-- `hash_to_curve` of a 64-byte digest h = H(m) (R282). -/
def hashToCurve (h : List Byte) : Option Ext :=
  let res := slice h 0 32
  match montToEdwards (montElligator (feFromBytes res)) (topBit res) with
  | none => none
  | some E => some (edMul8 E)

end Sys2Proof.Machine
end

