-- ==== Sys2Proof/Machine/Recode.lean ====
section
/-! DEFINITION. The two scalar recoders: signed radix 16 and the width-w non-adjacent form (41_scalar.md R217 to
R220). -/

namespace Sys2Proof.Machine

/-- The 64 unsigned digits of 4 bits, low digit first (R217, first loop). -/
def nibbles (n : Nat) : List Int :=
  (bytesOf 32 n).flatMap fun (b : Byte) => [((b &&& 15).toNat : Int), ((b >>> 4).toNat : Int)]

/-- The carry pass over a digit list with an incoming carry; the last digit absorbs it (R217, second loop). -/
def radix16Carry : (carry : Int) → List Int → List Int
  | _, [] => []
  | c, [d] => [d + c]
  | c, d :: ds => (d + c - 16 * ((d + c + 8) / 16)) :: radix16Carry ((d + c + 8) / 16) ds

/-- `radix16(n)`: 64 signed digits (R217). -/
def radix16 (n : Nat) : List Int := radix16Carry 0 (nibbles n)

/-- `buf` of R219: 64 bits of n from bit `pos` on, as far as the word `idx` and its follower hold them. -/
def nafWindow (n w pos : Nat) : Nat :=
  let x := fun i : Nat => if i < 4 then n / 2 ^ (64 * i) % 2 ^ 64 else 0
  if pos % 64 < 64 - w then x (pos / 64) / 2 ^ (pos % 64)
  else (x (pos / 64) / 2 ^ (pos % 64) ||| x (pos / 64 + 1) * 2 ^ (64 - pos % 64)) % 2 ^ 64

/-- The loop of R219. `fuel` bounds its iterations; every one advances `pos`, so 256 are enough. -/
def nafLoop (n w : Nat) : (fuel pos carry : Nat) → List Int → List Int
  | 0, _, _, naf => naf
  | fuel + 1, pos, carry, naf =>
    if 256 ≤ pos then naf
    else
      let window := carry + nafWindow n w pos % 2 ^ w
      if window % 2 = 0 then nafLoop n w fuel (pos + 1) carry naf
      else if window < 2 ^ w / 2 then nafLoop n w fuel (pos + w) 0 (naf.set pos window)
      else nafLoop n w fuel (pos + w) 1 (naf.set pos ((window : Int) - 2 ^ w))

/-- `naf(n, w)`: 256 digits, digit i the coefficient of 2^i (R219). -/
def naf (n w : Nat) : List Int := nafLoop n w 256 0 0 (List.replicate 256 0)

/-- A digit as a two's-complement byte, `d mod 256` (20_memory.md R86; R243, R244). -/
def digitByte (d : Int) : Byte := BitVec.ofInt 8 d

end Sys2Proof.Machine
end

