-- ==== Sys2Proof/Machine/ScalarLimbs.lean ====
section
/-! DEFINITION. The limb functions `sc_*` of the scalar unit, modulo l, five 52-bit limbs (41_scalar.md R200 to
R216). They take and return plain integers at their boundary; limbs exist only inside a command (R34). -/

namespace Sys2Proof.Machine

/-- l = 2^252 + 27742317777372353535851937790883648493, the group order (R7, R200). -/
abbrev groupOrder : Nat := 2 ^ 252 + 27742317777372353535851937790883648493

/-- Five limbs of 64 bits, radix 2^52 (R201). -/
structure Sc where
  l0 : BitVec 64
  l1 : BitVec 64
  l2 : BitVec 64
  l3 : BitVec 64
  l4 : BitVec 64
  deriving DecidableEq, Repr

/-- The low 52 bits of each of five integers, as limbs (`& M52`, R201). -/
def Sc.mask (l0 l1 l2 l3 l4 : Nat) : Sc :=
  ⟨BitVec.ofNat 64 (l0 % 2 ^ 52), BitVec.ofNat 64 (l1 % 2 ^ 52), BitVec.ofNat 64 (l2 % 2 ^ 52),
    BitVec.ofNat 64 (l3 % 2 ^ 52), BitVec.ofNat 64 (l4 % 2 ^ 52)⟩

/-- `sc_unpack(n)` (R201). -/
def scUnpack (n : Nat) : Sc :=
  Sc.mask n (n / 2 ^ 52) (n / 2 ^ 104) (n / 2 ^ 156) (n / 2 ^ 208)

/-- `sc_pack(x)` (R201). -/
def scPack (x : Sc) : Nat :=
  x.l0.toNat + x.l1.toNat * 2 ^ 52 + x.l2.toNat * 2 ^ 104 + x.l3.toNat * 2 ^ 156 + x.l4.toNat * 2 ^ 208

/-- The limbs of l (R202). -/
def orderLimbs : Sc := ⟨0x2631a5cf5d3ed, 0xdea2f79cd6581, 0x14def9, 0, 0x100000000000⟩

/-- R mod l, R = 2^260 (R202). -/
abbrev montR : Nat := 0x0fffffffffffffffffffffffffffffeb35e51b3bab5ac67e45af48bd6721e6ed

/-- RR = R^2 mod l (R202). -/
abbrev montRR : Nat := 0x09411b7c309a3dceec73d217f5be65cb687604d63c715bea69f9d265e952d13b

/-- LFACTOR = -l^(-1) mod 2^52 (R202). -/
abbrev lFactor : Nat := 0x51da312547e1b

/-- The scalar constants by their selector k = 0..4 (R202). -/
def scalarConstants : List Nat := [0, 1, montR, montRR, groupOrder - 1]

/-- Constant k (R231); k <= 4 is checked by the command. -/
def scConst (k : Nat) : Nat := scalarConstants.getD k 0

/-- One limb of a wrapping subtraction: `(a - (b + (borrow >> 63))) mod 2^64` (R203). -/
def subLimb (a b : BitVec 64) (borrow : Nat) : Nat :=
  (2 ^ 65 + a.toNat - (b.toNat + borrow / 2 ^ 63)) % 2 ^ 64

/-- The limbs of l, or zeros, chosen by a mask (R203). -/
def orderIf (c : Bool) : Sc := if c then orderLimbs else ⟨0, 0, 0, 0, 0⟩

/-- `sc_sub(a, b)`: (a - b) mod l by one conditional addition of l (R203). -/
def scSub (a b : Sc) : Sc :=
  let w0 := subLimb a.l0 b.l0 0
  let w1 := subLimb a.l1 b.l1 w0
  let w2 := subLimb a.l2 b.l2 w1
  let w3 := subLimb a.l3 b.l3 w2
  let w4 := subLimb a.l4 b.l4 w3
  let l := orderIf (w4 / 2 ^ 63 == 1)
  let c0 := w0 % 2 ^ 52 + l.l0.toNat
  let c1 := c0 / 2 ^ 52 + w1 % 2 ^ 52 + l.l1.toNat
  let c2 := c1 / 2 ^ 52 + w2 % 2 ^ 52 + l.l2.toNat
  let c3 := c2 / 2 ^ 52 + w3 % 2 ^ 52 + l.l3.toNat
  let c4 := c3 / 2 ^ 52 + w4 % 2 ^ 52 + l.l4.toNat
  Sc.mask c0 c1 c2 c3 c4

/-- `sc_add(a, b)` (R204). -/
def scAdd (a b : Sc) : Sc :=
  let c0 := a.l0.toNat + b.l0.toNat
  let c1 := a.l1.toNat + b.l1.toNat + c0 / 2 ^ 52
  let c2 := a.l2.toNat + b.l2.toNat + c1 / 2 ^ 52
  let c3 := a.l3.toNat + b.l3.toNat + c2 / 2 ^ 52
  let c4 := a.l4.toNat + b.l4.toNat + c3 / 2 ^ 52
  scSub (Sc.mask c0 c1 c2 c3 c4) orderLimbs

/-- `part1(s)`: the quotient digit p and the carry `(s + p·l[0]) >> 52` (R206). -/
def redPart1 (s : Nat) : Nat × Nat :=
  let p := s % 2 ^ 64 * lFactor % 2 ^ 64 % 2 ^ 52
  ((s + p * orderLimbs.l0.toNat) / 2 ^ 52, p)

/-- `sc_montgomery_reduce(z)` of nine product columns (R206); l[3] = 0, so its terms are left out. -/
def scMontgomeryReduce (z0 z1 z2 z3 z4 z5 z6 z7 z8 : Nat) : Sc :=
  let k1 := orderLimbs.l1.toNat
  let k2 := orderLimbs.l2.toNat
  let k4 := orderLimbs.l4.toNat
  let p0 := redPart1 z0
  let p1 := redPart1 (p0.1 + z1 + p0.2 * k1)
  let p2 := redPart1 (p1.1 + z2 + p0.2 * k2 + p1.2 * k1)
  let p3 := redPart1 (p2.1 + z3 + p1.2 * k2 + p2.2 * k1)
  let p4 := redPart1 (p3.1 + z4 + p0.2 * k4 + p2.2 * k2 + p3.2 * k1)
  let r0 := p4.1 + z5 + p1.2 * k4 + p3.2 * k2 + p4.2 * k1
  let r1 := r0 / 2 ^ 52 + z6 + p2.2 * k4 + p4.2 * k2
  let r2 := r1 / 2 ^ 52 + z7 + p3.2 * k4
  let r3 := r2 / 2 ^ 52 + z8 + p4.2 * k4
  let r4 := r3 / 2 ^ 52
  scSub ⟨BitVec.ofNat 64 (r0 % 2 ^ 52), BitVec.ofNat 64 (r1 % 2 ^ 52), BitVec.ofNat 64 (r2 % 2 ^ 52),
    BitVec.ofNat 64 (r3 % 2 ^ 52), BitVec.ofNat 64 r4⟩ orderLimbs

/-- `sc_mont_mul(a, b)`: the nine columns of the product (R205), reduced (R207). -/
def scMontMul (a b : Sc) : Sc :=
  let a0 := a.l0.toNat
  let a1 := a.l1.toNat
  let a2 := a.l2.toNat
  let a3 := a.l3.toNat
  let a4 := a.l4.toNat
  let b0 := b.l0.toNat
  let b1 := b.l1.toNat
  let b2 := b.l2.toNat
  let b3 := b.l3.toNat
  let b4 := b.l4.toNat
  scMontgomeryReduce (a0 * b0) (a0 * b1 + a1 * b0) (a0 * b2 + a1 * b1 + a2 * b0)
    (a0 * b3 + a1 * b2 + a2 * b1 + a3 * b0) (a0 * b4 + a1 * b3 + a2 * b2 + a3 * b1 + a4 * b0)
    (a1 * b4 + a2 * b3 + a3 * b2 + a4 * b1) (a2 * b4 + a3 * b3 + a4 * b2) (a3 * b4 + a4 * b3) (a4 * b4)

/-- `to_mont(a)` (R208). -/
def toMont (n : Nat) : Nat := scPack (scMontMul (scUnpack n) (scUnpack montRR))

/-- `from_mont(a)` (R208). -/
def fromMont (n : Nat) : Nat := scPack (scMontMul (scUnpack n) ⟨1, 0, 0, 0, 0⟩)

/-- The raw Montgomery product of two integers (R207, R237). -/
def scMontMulInt (a b : Nat) : Nat := scPack (scMontMul (scUnpack a) (scUnpack b))

/-- `sc_mul(a, b)`: a·b mod l (R209). -/
def scMul (a b : Nat) : Nat :=
  scPack (scMontMul (scMontMul (scUnpack a) (scUnpack b)) (scUnpack montRR))

/-- `sc_reduce(n)`: n mod l for n < 2^256 (R210). -/
def scReduce (n : Nat) : Nat := scPack (scMontMul (scUnpack n) (scUnpack montR))

/-- `sc_reduce_wide(n)`: n mod l for n < 2^512 (R211). -/
def scReduceWide (n : Nat) : Nat :=
  scPack (scAdd (scMontMul (scUnpack (n / 2 ^ 260)) (scUnpack montRR))
    (scMontMul (scUnpack (n % 2 ^ 260)) (scUnpack montR)))

/-- (a + b) mod l of integers below l (R204, R232). -/
def scAddInt (a b : Nat) : Nat := scPack (scAdd (scUnpack a) (scUnpack b))

/-- (a - b) mod l of integers below l (R203, R233). -/
def scSubInt (a b : Nat) : Nat := scPack (scSub (scUnpack a) (scUnpack b))

/-- `sc_neg(a)` (R212). -/
def scNeg (a : Nat) : Nat := scSubInt 0 a

/-- `clamp_integer(b)`, as the integer of the clamped bytes (R213): bits 0, 1, 2 and 255 cleared, bit 254 set. -/
def clampInteger (n : Nat) : Nat := n % 2 ^ 254 / 8 * 8 + 2 ^ 254

/-- `is_canonical(b)` of the integer of b (R214). -/
def isCanonical (n : Nat) : Bool := decide (n < groupOrder)

/-- The square-and-multiply loop of `sc_inv` over the bits `i - 1` down to 0 of l - 2, in Montgomery form (R216). -/
def scInvLoop (x : Sc) : Nat → Sc → Sc
  | 0, acc => acc
  | i + 1, acc =>
    let sq := scMontMul acc acc
    scInvLoop x i (if (groupOrder - 2).testBit i then scMontMul sq x else sq)

/-- `sc_inv(a)`: a^(l-2) mod l, which is 0 for 0 (R215, R216). -/
def scInv (n : Nat) : Nat :=
  scPack (scMontMul (scInvLoop (scMontMul (scUnpack (scReduce n)) (scUnpack montRR)) 253 (scUnpack montR))
    ⟨1, 0, 0, 0, 0⟩)

end Sys2Proof.Machine
end

