-- ==== Sys2Proof/Machine/Engines.lean ====
section
/-! DEFINITION. The scalar-multiplication engines (43_scalarmul.md R310 to R325) and the Montgomery ladder
(44_montgomery.md R342 to R344). -/

namespace Sys2Proof.Machine

/-- `fe_sel` on the four components of a PNiels entry (R312). -/
def pnielsSel (a b : PNiels) (c : Bool) : PNiels :=
  ⟨feSel a.YpX b.YpX c, feSel a.YmX b.YmX c, feSel a.Z b.Z c, feSel a.T2d b.T2d c⟩

/-- `fe_sel` on the three components of an ANiels entry (R316). -/
def anielsSel (a b : ANiels) (c : Bool) : ANiels :=
  ⟨feSel a.ypx b.ypx c, feSel a.ymx b.ymx c, feSel a.xy2d b.xy2d c⟩

/-- The linear scan of R312 and R316: every entry is read; entry j (from `j0` on) is taken when |d| = j + 1. -/
def scanTable {α : Type} (sel : α → α → Bool → α) (d : Int) : (j0 : Nat) → List α → α → α
  | _, [], t => t
  | j, e :: es, t => scanTable sel d (j + 1) es (sel t e (d.natAbs == j + 1))

/-- `sel_pniels(table, d)` (R312). -/
def selPniels (table : List PNiels) (d : Int) : PNiels :=
  let t := scanTable pnielsSel d 0 table PNiels.neutral
  let neg := decide (d < 0)
  ⟨feSel t.YpX t.YmX neg, feSel t.YmX t.YpX neg, t.Z, feCneg t.T2d neg⟩

/-- `sel_aniels(table, d)` (R316). -/
def selAniels (table : List ANiels) (d : Int) : ANiels :=
  let t := scanTable anielsSel d 0 table ANiels.neutral
  let neg := decide (d < 0)
  ⟨feSel t.ypx t.ymx neg, feSel t.ymx t.ypx neg, feCneg t.xy2d neg⟩

/-- `count` table entries from `t` on, each the last one plus `P` (R313, R320). -/
def pnielsChain (P : Ext) : (count : Nat) → PNiels → List PNiels
  | 0, _ => []
  | n + 1, t => t :: pnielsChain P n (extToPniels (compToExt (addPniels P t)))

/-- The variable-base table 1P..8P (R313). -/
def varTable (P : Ext) : List PNiels := pnielsChain P 8 (extToPniels P)

/-- `naf_table5(P)`: P, 3P, .., 15P (R320). -/
def nafTable5 (P : Ext) : List PNiels := pnielsChain (edDouble P) 8 (extToPniels P)

/-- One digit of R314's loop: four doublings and one selected addition. -/
def mulVarStep (table : List PNiels) (Q : Ext) (d : Int) : Ext :=
  compToExt (addPniels (edMulPow2 Q 4) (selPniels table d))

/-- `ed_mul_var(n, P)`, engine 1 (R314). -/
def edMulVar (n : Nat) (P : Ext) : Ext :=
  let table := varTable P
  let d := radix16 n
  ((d.take 63).reverse).foldl (mulVarStep table)
    (compToExt (addPniels edIdentity (selPniels table (d.getD 63 0))))

/-- `ed_is_torsion_free(P)`: [l]P is the identity (R273). -/
def edIsTorsionFree (P : Ext) : Bool := edIsIdentity (edMulVar groupOrder P)

/-- `count` multiples of `P` by repeated addition, from `t` on (R318). -/
def multiples (P : Ext) : (count : Nat) → Ext → List Ext
  | 0, _ => []
  | n + 1, t => t :: multiples P n (edAdd t P)

/-- `groups` groups of 8 affine-Niels entries, group i+1 starting at 256 times group i's point (R318). -/
def fixedTableFrom : (groups : Nat) → Ext → List (List ANiels)
  | 0, _ => []
  | n + 1, P => (multiples P 8 P).map extToAniels :: fixedTableFrom n (edMulPow2 P 8)

/-- The fixed-base table BT: 32 groups of 8 (R318). -/
def fixedTable : List (List ANiels) := fixedTableFrom 32 basePoint

/-- The digits at odd positions of a digit list, and at even positions. -/
def oddDigits : List Int → List Int
  | _ :: b :: ds => b :: oddDigits ds
  | _ => []

/-- The digits at even positions. -/
def evenDigits : List Int → List Int
  | a :: _ :: ds => a :: evenDigits ds
  | _ => []

/-- One pass of R317 over paired table groups and digits. -/
def mulBasePass (Q : Ext) (groups : List (List ANiels)) (digits : List Int) : Ext :=
  (groups.zip digits).foldl (fun Q gd => compToExt (addAniels Q (selAniels gd.1 gd.2))) Q

/-- `ed_mul_base(n)`, engine 2 (R317). -/
def edMulBase (n : Nat) : Ext :=
  let a := radix16 n
  mulBasePass (edMulPow2 (mulBasePass edIdentity fixedTable (oddDigits a)) 4) fixedTable (evenDigits a)

/-- Add or subtract the table entry of an odd NAF digit, or nothing for 0 (R321). -/
def nafAdd (table : List PNiels) (t : Comp) (d : Int) : Comp :=
  if 0 < d then addPniels (compToExt t) (table.getD (d.toNat / 2) PNiels.neutral)
  else if d < 0 then subPniels (compToExt t) (table.getD ((-d).toNat / 2) PNiels.neutral)
  else t

/-- One round of R321's loop. -/
def strausStep (ta tb : List PNiels) (r : Proj) (d : Int × Int) : Proj :=
  compToProj (nafAdd tb (nafAdd ta (projDouble r) d.1) d.2)

/-- `ed_double_scalar_mul(a, A, b)` = [a]A + [b]B, engine 3 (R321, generator table R325). -/
def edDoubleScalarMul (a : Nat) (A : Ext) (b : Nat) : Ext :=
  let digits := ((naf a 5).zip (naf b 5)).reverse.dropWhile fun d => d.1 == 0 && d.2 == 0
  projToExt (digits.foldl (strausStep (nafTable5 A) (nafTable5 basePoint)) ⟨.zero, feOne, feOne⟩)

/-- The ladder's variables and the pending swap (R343). -/
structure Ladder where
  x2 : Fe
  z2 : Fe
  x3 : Fe
  z3 : Fe
  swap : Bool
  deriving DecidableEq, Repr

/-- The two conditional swaps of R343 (`fe_cswap`, R154). -/
def ladderSwap (l : Ladder) (c : Bool) : Ladder :=
  { l with x2 := feSel l.x2 l.x3 c, x3 := feSel l.x3 l.x2 c, z2 := feSel l.z2 l.z3 c, z3 := feSel l.z3 l.z2 c }

/-- `ladder_step(x1, x2, z2, x3, z3)` (R344). -/
def ladderStep (x1 : Fe) (l : Ladder) : Ladder :=
  let A := feAdd l.x2 l.z2
  let AA := feSq A
  let B := feSub l.x2 l.z2
  let BB := feSq B
  let E := feSub AA BB
  let C := feAdd l.x3 l.z3
  let D := feSub l.x3 l.z3
  let DA := feMul D A
  let CB := feMul C B
  { l with
    x3 := feSq (feAdd DA CB), z3 := feMul x1 (feSq (feSub DA CB)),
    x2 := feMul AA BB, z2 := feMul E (feAdd AA (feMul ladderA24 E)) }

/-- The round for bit t of kc: the swap that the last bit and this one call for, then the step (R343). -/
def ladderRound (kc : Nat) (x1 : Fe) (t : Nat) (l : Ladder) : Ladder :=
  ladderStep x1 { ladderSwap l (l.swap ^^ kc.testBit t) with swap := kc.testBit t }

/-- The rounds t-1 down to 0 (R343). -/
def countDown (round : Nat → Ladder → Ladder) : (t : Nat) → Ladder → Ladder
  | 0, l => l
  | t + 1, l => countDown round t (round t l)

/-- `x25519_ladder(kc, u)` (R343). -/
def x25519Ladder (kc : Nat) (u : Fe) : Fe :=
  let l := countDown (ladderRound kc u) 255 ⟨feOne, .zero, u, feOne, false⟩
  let l := ladderSwap l l.swap
  feMul l.x2 (feInv l.z2)

end Sys2Proof.Machine
end

