-- ==== Sys2Proof/Machine/Ed25519.lean ====
section
/-! DEFINITION. Ed25519: key expansion, signing, single verification, one batch entry (46_ed25519_sign.md R391 to
R393, 47_ed25519_verify.md R421 to R428). `H` is `Config.digest` (log 1). -/

namespace Sys2Proof.Machine

/-- `H(b)` as a byte string (60_exceptions.md R502). -/
def hashBytes (b : List Byte) : List Byte := (Config.digest b).toList

/-- `sc_reduce_wide(le(H(b)))`: the scalar of a digest (R392, R421). -/
def hashScalar (b : List Byte) : Nat := scReduceWide (le (hashBytes b))

/-- The 32 ASCII bytes of the domain separator (R393). -/
def dom2Text : List Byte :=
  [0x53, 0x69, 0x67, 0x45, 0x64, 0x32, 0x35, 0x35, 0x31, 0x39, 0x20, 0x6e, 0x6f, 0x20, 0x45, 0x64,
   0x32, 0x35, 0x35, 0x31, 0x39, 0x20, 0x63, 0x6f, 0x6c, 0x6c, 0x69, 0x73, 0x69, 0x6f, 0x6e, 0x73]

/-- `dom2(F, C)` (R393). -/
def dom2 (flag : Byte) (ctx : List Byte) : List Byte :=
  dom2Text ++ flag :: BitVec.ofNat 8 ctx.length :: ctx

/-- Key expansion of a 32-byte seed (R391). -/
def expandKey (seed : List Byte) : KeySlot :=
  let h := hashBytes seed
  let a := clampInteger (le (slice h 0 32))
  { seed := bytes32 seed, a := BitVec.ofNat 255 a, pfx := bytes32 (slice h 32 32),
    pub := bytes32 (edCompress (edMulBase a)), valid := true }

/-- The nonce scalar r, step 1 of R392. -/
def signNonce (k : KeySlot) (dom m z : List Byte) : Nat := hashScalar (dom ++ k.pfx.toList ++ m ++ z)

/-- `sign_core(dom, m, Z)` on a key slot: the 64 signature bytes (R392). -/
def signCore (k : KeySlot) (dom m z : List Byte) : List Byte :=
  let r := signNonce k dom m z
  let rb := edCompress (edMulBase r)
  let c := hashScalar (dom ++ rb ++ k.pub.toList ++ m)
  rb ++ bytesOf 32 (scAddInt r (scMul c k.a.toNat))

/-- The knobs of CFG that verification reads (10_state.md R61). -/
structure Knobs where
  vsso : Bool
  vrncs : Bool
  vcof : Bool
  deriving DecidableEq, Repr

/-- The acceptance test of R421 step 5, strict (R426) or cofactored (R427). -/
def acceptEquation (vcof : Bool) (Q Rp : Ext) : Bool :=
  if vcof then edIsIdentity (edMul8 (edSub Q Rp)) else edEq Q Rp

/-- `verify_core(dom, Ab, Rb, sb, m)`: the first failing check decides the code (R421, R422). -/
def verifyCore (cfg : Knobs) (dom ab rb sb m : List Byte) : ResultCode :=
  match edDecompress ab with
  | none => .invalidEncoding
  | some A =>
    if cfg.vsso && edIsSmallOrder A then .weakPublicKey
    else match edDecompress rb with
      | none => .invalidEncoding
      | some R =>
        if groupOrder ≤ le sb ∧ cfg.vrncs then .invalidEncoding
        else
          let n := if groupOrder ≤ le sb then le sb % groupOrder else le sb
          let k := hashScalar (dom ++ rb ++ ab ++ m)
          if acceptEquation cfg.vcof (edDoubleScalarMul (scNeg k) A n) R then .ok else .signatureMismatch

/-- What `VBADD` reads of its triple, or none when the entry is rejected: A, R and s mod l (R433). -/
def batchEntry (vrncs : Bool) (ab rb sb : List Byte) : Option (Ext × Ext × Nat) :=
  match edDecompress ab, edDecompress rb with
  | some A, some R => if groupOrder ≤ le sb ∧ vrncs then none else some (A, R, le sb % groupOrder)
  | _, _ => none

/-- A taken entry added to the running sums, with challenge k and weight z (R433). The products are evaluated by
engine 1; the spec allows any engine (log 10). -/
def batchAccumulate (b : Batch) (A R : Ext) (n k z : Nat) : Batch :=
  { b with
    sum := BitVec.ofNat 255 ((b.sum.toNat + z * n) % groupOrder),
    point := edAdd (edAdd b.point (edMulVar (z * k % groupOrder) A)) (edMulVar z R) }

/-- The test of `VBEND`: OK and [S]B - P is the identity (R428, R434). -/
def batchAccepts (b : Batch) : Bool :=
  b.ok && edIsIdentity (edSub (edMulBase b.sum.toNat) b.point)

end Sys2Proof.Machine
end

