-- ==== Sys2Proof/Machine/Flags.lean ====
section
/-! DEFINITION. The numbers and views the host reads: result codes, fault codes, STATUS, FLAGS, and the bits of CFG
(10_state.md R61 to R65; 60_exceptions.md R471, R480). The block has no arithmetic flags (R37). -/

namespace Sys2Proof.Machine

/-- The number of a result code (R64, R480). -/
def ResultCode.code : ResultCode → Nat
  | .ok => 0
  | .invalidEncoding => 1
  | .weakPublicKey => 2
  | .signatureMismatch => 3
  | .batchFailure => 4
  | .contextTooLong => 5
  | .allZeroOutput => 6

/-- The number of a fault code (R65, R471). -/
def ErrCode.code : ErrCode → Nat
  | .none => 0
  | .illegal => 1
  | .unwritten => 2
  | .addr => 3
  | .sequence => 4

/-- CFG.VSSO, VRNCS, VCOF: bits 0, 1, 2 (R61). -/
def State.knobs (s : State) : Knobs :=
  { vsso := s.cfg.getLsbD 0, vrncs := s.cfg.getLsbD 1, vcof := s.cfg.getLsbD 2 }

/-- CFG.BATCH, bit 3 (R61). -/
def State.batchOn (s : State) : Bool := s.cfg.getLsbD 3

/-- CFG.PREHASH, bit 4 (R61). -/
def State.prehashOn (s : State) : Bool := s.cfg.getLsbD 4

/-- A bit at a place. -/
def bitAt (b : Bool) (k : Nat) : Nat := if b then 2 ^ k else 0

/-- STATUS: BUSY reads 0 at every host move, HALT is bit 1, KEYV is bit 2 (R62, R522). -/
def State.statusView (s : State) : Word := BitVec.ofNat 32 (bitAt s.halt 1 + bitAt s.key.valid 2)

/-- FLAGS: bit i is c[i], 0 if c[i] is invalid, and bit 8+i its valid bit (R63). -/
def State.flagsView (s : State) : Word :=
  BitVec.ofNat 32 ((List.finRange 8).map fun i =>
    bitAt ((s.cReg.get i).valid && (s.cReg.get i).val) i.val + bitAt (s.cReg.get i).valid (8 + i.val)).sum

/-- The flag an acceptance code leaves in a choice register: 1 iff the code is OK (R429). -/
def ResultCode.accepted (r : ResultCode) : Bool := r == .ok

end Sys2Proof.Machine
end

