-- ==== Sys2Proof/Machine/Ops.lean ====
section
/-! DEFINITION. The operations every command is written over: register, memory and port accesses (00_scope.md R11),
retiring, taking a fault and clearing it (60_exceptions.md R470 to R479), and reset (70_reset_and_hazards.md R510). -/

namespace Sys2Proof.Machine

/-- `f[i] <- v`: the write sets the valid bit (R11, R33). -/
def State.writeF (s : State) (i : FIdx) (v : Fe) : State := { s with fReg := s.fReg.set i ⟨v, true⟩ }

/-- `s[i] <- n` (R11, R34). Every value the commands write is below 2^255. -/
def State.writeS (s : State) (i : SIdx) (n : Nat) : State :=
  { s with sReg := s.sReg.set i ⟨BitVec.ofNat 255 n, true⟩ }

/-- `p[i] <- v` (R11, R35). -/
def State.writeP (s : State) (i : PIdx) (v : Ext) : State := { s with pReg := s.pReg.set i ⟨v, true⟩ }

/-- `c[i] <- v` (R11, R37). -/
def State.writeC (s : State) (i : CIdx) (v : Bool) : State := { s with cReg := s.cReg.set i ⟨v, true⟩ }

/-- `f[i] <- INVALID`: zero contents, valid 0 (R11, R33). -/
def State.clearF (s : State) (i : FIdx) : State := { s with fReg := s.fReg.set i ⟨.zero, false⟩ }

/-- `s[i] <- INVALID` (R11, R33). -/
def State.clearS (s : State) (i : SIdx) : State := { s with sReg := s.sReg.set i ⟨0, false⟩ }

/-- `p[i] <- INVALID` (R11, R33). -/
def State.clearP (s : State) (i : PIdx) : State := { s with pReg := s.pReg.set i ⟨.zero, false⟩ }

/-- `c[i] <- INVALID` (R11, R33). -/
def State.clearC (s : State) (i : CIdx) : State := { s with cReg := s.cReg.set i ⟨false, false⟩ }

/-- Write the key slot (R38). -/
def State.setKey (s : State) (k : KeySlot) : State := { s with key := k }

/-- Write the batch accumulator (R39). -/
def State.setBatch (s : State) (b : Batch) : State := { s with batch := b }

/-- Write data memory as a whole. -/
def State.setDm (s : State) (m : Memory) : State := { s with dm := m }

/-- `RESULT <- k` (R11, R64). -/
def State.setResult (s : State) (r : ResultCode) : State := { s with result := r }

/-- `RngDraw(n)`: the bytes of the next draw (R503, log 2). -/
def State.rngBytes (s : State) (n : Nat) : List Byte := (List.range n).map (Config.rngByte s.rngDraws)

/-- The draw has been answered (R503). -/
def State.noteDraw (s : State) : State := { s with rngDraws := s.rngDraws + 1 }

/-- Retiring: CC <- CC + 1 mod 2^32 (R58). -/
def State.retire (s : State) : State := { s with cc := s.cc + 1 }

/-- TAKING A FAULT e with command word w: ERR, ERRINFO and HALT are written and nothing else changes (R472). -/
def State.takeFault (s : State) (e : ErrCode) (w : Word) : State := { s with err := e, errInfo := w, halt := true }

/-- RETURN FROM A FAULT, CTRL.CLR: HALT <- 0, ERR <- 0, ERRINFO <- 0 (R72, R479). -/
def State.clearFault (s : State) : State := { s with halt := false, err := .none, errInfo := 0 }

/-- Reset by `rst` or CTRL.SRST: the state of R511 (R510). The ports are not touched (R512): the draw counter, the
queue of host moves and the bus answer are the environment's (logs 2, 3, 4). -/
def State.resetBlock (s : State) : State :=
  { State.reset with host := s.host, busData := s.busData, rngDraws := s.rngDraws }

/-- A command ends in one of two ways (R470, R472, R520): with a result it retires, with a fault it is as if it
had done nothing but R472's three writes. ERRINFO gets the command's word, `encode i` (log 18). -/
def complete (i : Instr) (s : State) (r : Except ErrCode State) : Outcome :=
  .next (match r with
    | .ok t => t.retire
    | .error e => s.takeFault e (encode i))

/-- The result of a decode command into a point register: the point and flag 1, or INVALID and flag 0 (R294, R299,
R301, R370). -/
def State.decodedP (s : State) (pd : PIdx) (cd : CIdx) : Option Ext → State
  | none => (s.clearP pd).writeC cd false
  | some P => (s.writeP pd P).writeC cd true

end Sys2Proof.Machine
end

