-- ==== Sys2Proof/Machine/Operands.lean ====
section
/-! DEFINITION. The operand forms with their checks (00_scope.md R11; 60_exceptions.md R473 to R477): a source register
must be valid, a memory region must lie inside DM, a gate must be open. -/

namespace Sys2Proof.Machine

/-- `raise e` unless the condition holds (R11, R471). -/
def require (ok : Prop) [Decidable ok] (e : ErrCode) : Except ErrCode Unit := if ok then .ok () else .error e

/-- A register's contents, or E_UNWRITTEN when its valid bit is 0 (R33, R474). -/
def Reg.read {α : Type} (r : Reg α) : Except ErrCode α := if r.valid then .ok r.val else .error .unwritten

/-- Source operand f[i] (R474). -/
def State.readF (s : State) (i : FIdx) : Except ErrCode Fe := (s.fReg.get i).read

/-- Source operand s[i], as the integer it holds (R34, R474). -/
def State.readS (s : State) (i : SIdx) : Except ErrCode Nat := (s.sReg.get i).read.map BitVec.toNat

/-- Source operand p[i] (R474). -/
def State.readP (s : State) (i : PIdx) : Except ErrCode Ext := (s.pReg.get i).read

/-- Source operand c[i] (R474). -/
def State.readC (s : State) (i : CIdx) : Except ErrCode Bool := (s.cReg.get i).read

/-- The key slot as a source (R474). -/
def State.readKey (s : State) : Except ErrCode KeySlot := if s.key.valid then .ok s.key else .error .unwritten

/-- Whether the n bytes from address a lie inside DM (R84, R475). -/
abbrev inDm (a n : Nat) : Prop := a + n ≤ Config.memSize

/-- `MemRead(addr, n)` (R11, R84). -/
def State.memRead (s : State) (a n : Nat) : Except ErrCode (List Byte) :=
  if inDm a n then .ok (s.dm.readBytes a n) else .error .addr

/-- `MemWrite(addr, n, v)` of an n-byte string v (R11, R84). -/
def State.memWrite (s : State) (a n : Nat) (v : List Byte) : Except ErrCode State :=
  if inDm a n then .ok (s.setDm (s.dm.writeBytes a v)) else .error .addr

/-- `Msg()` (R88). -/
def State.msg (s : State) : Except ErrCode (List Byte) := s.memRead s.maddr.toNat s.mlen.toNat

/-- `Ctx()` (R88). -/
def State.ctx (s : State) : Except ErrCode (List Byte) := s.memRead s.caddr.toNat s.clen.toNat

end Sys2Proof.Machine
end

