-- ==== Sys2Proof/Machine/Edwards.lean ====
section
/-! DEFINITION. The Edwards point commands (42_edwards.md R285 to R301). -/

namespace Sys2Proof.Machine

/-- A point command of one source and one destination (format DA). -/
def point1 (i : Instr) (op : Ext → Ext) (pd pa : PIdx) (s : State) : Outcome :=
  complete i s do
    let a ← s.readP pa
    return s.writeP pd (op a)

/-- A point command of two sources and one destination (format DAB). -/
def point2 (i : Instr) (op : Ext → Ext → Ext) (pd pa pb : PIdx) (s : State) : Outcome :=
  complete i s do
    let a ← s.readP pa
    let b ← s.readP pb
    return s.writeP pd (op a b)

/-- A point predicate of one source (format DA). -/
def pointTest (i : Instr) (p : Ext → Bool) (cd : CIdx) (pa : PIdx) (s : State) : Outcome :=
  complete i s do
    let a ← s.readP pa
    return s.writeC cd (p a)

/-- A point predicate of two sources (format DAB). -/
def pointTest2 (i : Instr) (p : Ext → Ext → Bool) (cd : CIdx) (pa pb : PIdx) (s : State) : Outcome :=
  complete i s do
    let a ← s.readP pa
    let b ← s.readP pb
    return s.writeC cd (p a b)

/-- A point encoder: 32 bytes stored (format DI). -/
def pointEncode (i : Instr) (enc : Ext → List Byte) (ps : PIdx) (addr : Addr) (s : State) : Outcome :=
  complete i s do
    let a ← s.readP ps
    s.memWrite addr.toNat 32 (enc a)

/-- A point decoder of 32 bytes (format DAI). -/
def pointDecode (i : Instr) (dec : List Byte → Option Ext) (pd : PIdx) (cd : CIdx) (addr : Addr) (s : State) :
    Outcome :=
  complete i s do
    let b ← s.memRead addr.toNat 32
    return s.decodedP pd cd (dec b)

/-- PID (R285). -/
def execPid (pd : PIdx) (s : State) : Outcome := complete (.pid pd) s (.ok (s.writeP pd edIdentity))

/-- PBASE (R286). -/
def execPbase (pd : PIdx) (s : State) : Outcome := complete (.pbase pd) s (.ok (s.writeP pd basePoint))

/-- PMOV (R287). -/
def execPmov (pd pa : PIdx) (s : State) : Outcome := point1 (.pmov pd pa) id pd pa s

/-- PNEG (R288). -/
def execPneg (pd pa : PIdx) (s : State) : Outcome := point1 (.pneg pd pa) edNeg pd pa s

/-- PDBL (R289). -/
def execPdbl (pd pa : PIdx) (s : State) : Outcome := point1 (.pdbl pd pa) edDouble pd pa s

/-- PADD (R290). -/
def execPadd (pd pa pb : PIdx) (s : State) : Outcome := point2 (.padd pd pa pb) edAdd pd pa pb s

/-- PSUB (R291). -/
def execPsub (pd pa pb : PIdx) (s : State) : Outcome := point2 (.psub pd pa pb) edSub pd pa pb s

/-- PMUL8 (R292). -/
def execPmul8 (pd pa : PIdx) (s : State) : Outcome := point1 (.pmul8 pd pa) edMul8 pd pa s

/-- PCMP (R293). -/
def execPcmp (ps : PIdx) (addr : Addr) (s : State) : Outcome := pointEncode (.pcmp ps addr) edCompress ps addr s

/-- PDEC (R294). -/
def execPdec (pd : PIdx) (cd : CIdx) (addr : Addr) (s : State) : Outcome :=
  pointDecode (.pdec pd cd addr) edDecompress pd cd addr s

/-- PEQ (R295). -/
def execPeq (cd : CIdx) (pa pb : PIdx) (s : State) : Outcome := pointTest2 (.peq cd pa pb) edEq cd pa pb s

/-- PISID (R296). -/
def execPisid (cd : CIdx) (pa : PIdx) (s : State) : Outcome := pointTest (.pisid cd pa) edIsIdentity cd pa s

/-- PSMALL (R297). -/
def execPsmall (cd : CIdx) (pa : PIdx) (s : State) : Outcome := pointTest (.psmall cd pa) edIsSmallOrder cd pa s

/-- PTORF (R298). -/
def execPtorf (cd : CIdx) (pa : PIdx) (s : State) : Outcome := pointTest (.ptorf cd pa) edIsTorsionFree cd pa s

/-- PH2C (R299). -/
def execPh2c (pd : PIdx) (cd : CIdx) (s : State) : Outcome :=
  complete (.ph2c pd cd) s do
    let m ← s.msg
    return s.decodedP pd cd (hashToCurve (hashBytes m))

/-- PTOM (R300). -/
def execPtom (fd : FIdx) (pa : PIdx) (s : State) : Outcome :=
  complete (.ptom fd pa) s do
    let a ← s.readP pa
    return s.writeF fd (edToMont a)

/-- PFROMM (R301). -/
def execPfromm (pd : PIdx) (cd : CIdx) (fa : FIdx) (bit : BitVec 1) (s : State) : Outcome :=
  complete (.pfromm pd cd fa bit) s do
    let u ← s.readF fa
    return s.decodedP pd cd (montToEdwards u (bit.getLsbD 0))

end Sys2Proof.Machine
end

