-- ==== Sys2Proof/Machine/Field.lean ====
section
/-! DEFINITION. The field commands (40_field.md R163 to R181). -/

namespace Sys2Proof.Machine

/-- A field command of one source and one destination (formats DA). -/
def field1 (i : Instr) (op : Fe → Fe) (fd fa : FIdx) (s : State) : Outcome :=
  complete i s do
    let a ← s.readF fa
    return s.writeF fd (op a)

/-- A field command of two sources and one destination (format DAB). -/
def field2 (i : Instr) (op : Fe → Fe → Fe) (fd fa fb : FIdx) (s : State) : Outcome :=
  complete i s do
    let a ← s.readF fa
    let b ← s.readF fb
    return s.writeF fd (op a b)

/-- A field predicate of one source (R180, R181). -/
def fieldTest (i : Instr) (p : Fe → Bool) (cd : CIdx) (fa : FIdx) (s : State) : Outcome :=
  complete i s do
    let a ← s.readF fa
    return s.writeC cd (p a)

/-- FLD (R163). -/
def execFld (fd : FIdx) (addr : Addr) (s : State) : Outcome :=
  complete (.fld fd addr) s do
    let b ← s.memRead addr.toNat 32
    return s.writeF fd (feFromBytes b)

/-- FST (R164). -/
def execFst (fs : FIdx) (addr : Addr) (s : State) : Outcome :=
  complete (.fst fs addr) s do
    let a ← s.readF fs
    s.memWrite addr.toNat 32 (feToBytes a)

/-- FMOV (R166). -/
def execFmov (fd fa : FIdx) (s : State) : Outcome := field1 (.fmov fd fa) id fd fa s

/-- FCONST (R165). -/
def execFconst (fd : FIdx) (k : BitVec 4) (s : State) : Outcome :=
  complete (.fconst fd k) s do
    require (k.toNat ≤ 12) .illegal
    return s.writeF fd (feConst k.toNat)

/-- FADD (R167). -/
def execFadd (fd fa fb : FIdx) (s : State) : Outcome := field2 (.fadd fd fa fb) feAdd fd fa fb s

/-- FSUB (R168). -/
def execFsub (fd fa fb : FIdx) (s : State) : Outcome := field2 (.fsub fd fa fb) feSub fd fa fb s

/-- FNEG (R169). -/
def execFneg (fd fa : FIdx) (s : State) : Outcome := field1 (.fneg fd fa) feNeg fd fa s

/-- FMUL (R170). -/
def execFmul (fd fa fb : FIdx) (s : State) : Outcome := field2 (.fmul fd fa fb) feMul fd fa fb s

/-- FSQR (R171). -/
def execFsqr (fd fa : FIdx) (s : State) : Outcome := field1 (.fsqr fd fa) feSq fd fa s

/-- FINV (R172). -/
def execFinv (fd fa : FIdx) (s : State) : Outcome := field1 (.finv fd fa) feInv fd fa s

/-- FPOW58 (R173). -/
def execFpow58 (fd fa : FIdx) (s : State) : Outcome := field1 (.fpow58 fd fa) fePow58 fd fa s

/-- FSQRTR (R174). -/
def execFsqrtr (fd : FIdx) (cd : CIdx) (fa fb : FIdx) (s : State) : Outcome :=
  complete (.fsqrtr fd cd fa fb) s do
    let u ← s.readF fa
    let v ← s.readF fb
    let wr := sqrtRatioI u v
    return (s.writeF fd wr.2).writeC cd wr.1

/-- FCSEL (R175). -/
def execFcsel (fd fa fb : FIdx) (cc : CIdx) (s : State) : Outcome :=
  complete (.fcsel fd fa fb cc) s do
    let a ← s.readF fa
    let b ← s.readF fb
    let c ← s.readC cc
    return s.writeF fd (feSel a b c)

/-- FCSWAP (R176). -/
def execFcswap (fx fy : FIdx) (cc : CIdx) (s : State) : Outcome :=
  complete (.fcswap fx fy cc) s do
    let x ← s.readF fx
    let y ← s.readF fy
    let c ← s.readC cc
    return (s.writeF fx (feSel x y c)).writeF fy (feSel y x c)

/-- FCNEG (R177). -/
def execFcneg (fd fa : FIdx) (cc : CIdx) (s : State) : Outcome :=
  complete (.fcneg fd fa cc) s do
    let a ← s.readF fa
    let c ← s.readC cc
    return s.writeF fd (feCneg a c)

/-- FRED (R178). -/
def execFred (fd fa : FIdx) (s : State) : Outcome := field1 (.fred fd fa) feCanon fd fa s

/-- FEQ (R179). -/
def execFeq (cd : CIdx) (fa fb : FIdx) (s : State) : Outcome :=
  complete (.feq cd fa fb) s do
    let a ← s.readF fa
    let b ← s.readF fb
    return s.writeC cd (feEq a b)

/-- FISNEG (R180). -/
def execFisneg (cd : CIdx) (fa : FIdx) (s : State) : Outcome := fieldTest (.fisneg cd fa) feIsNeg cd fa s

/-- FISZERO (R181). -/
def execFiszero (cd : CIdx) (fa : FIdx) (s : State) : Outcome := fieldTest (.fiszero cd fa) feIsZero cd fa s

end Sys2Proof.Machine
end

