-- ==== Sys2Proof/Machine/Ladder.lean ====
section
/-! DEFINITION. The Montgomery-ladder commands (44_montgomery.md R348, R349). -/

namespace Sys2Proof.Machine

/-- X25519 (R348): the scalar is clamped here (R342). -/
def execX25519 (fd : FIdx) (sa : SIdx) (fb : FIdx) (s : State) : Outcome :=
  complete (.x25519 fd sa fb) s do
    let n ← s.readS sa
    let u ← s.readF fb
    return s.writeF fd (x25519Ladder (clampInteger n) u)

/-- XCHK (R349). -/
def execXchk (cd : CIdx) (fa : FIdx) (s : State) : Outcome :=
  complete (.xchk cd fa) s do
    let a ← s.readF fa
    return (s.writeC cd (feIsZero a)).setResult (if feIsZero a then .allZeroOutput else .ok)

end Sys2Proof.Machine
end

