-- ==== Sys2Proof/Machine/RistrettoMap.lean ====
section
/-! DEFINITION. The Ristretto functions: decode, encode, equality, Elligator map, hash to group (45_ristretto.md R361
to R366). -/

namespace Sys2Proof.Machine

/-- `ris_decode(b)` (R361). The arithmetic runs whatever the byte tests say; the tests are combined at the end. -/
def risDecode (b : List Byte) : Option Ext :=
  let s := feFromBytes b
  let ss := feSq s
  let u1 := feSub feOne ss
  let u2 := feAdd feOne ss
  let u2s := feSq u2
  let v := feSub (feNeg (feMul edwardsD (feSq u1))) u2s
  let root := sqrtRatioI feOne (feMul v u2s)
  let dx := feMul root.2 u2
  let dy := feMul (feMul root.2 dx) v
  let x := feMul (feAdd s s) dx
  let x := feCneg x (feIsNeg x)
  let y := feMul u1 dy
  let t := feMul x y
  if feToBytes s ≠ b then none
  else if feIsNeg s then none
  else if !root.1 || feIsNeg t || feIsZero y then none
  else some ⟨x, y, feOne, t⟩

/-- `ris_encode(P)` (R362). -/
def risEncode (P : Ext) : List Byte :=
  let u1 := feMul (feAdd P.Z P.Y) (feSub P.Z P.Y)
  let u2 := feMul P.X P.Y
  let inv := (sqrtRatioI feOne (feMul u1 (feSq u2))).2
  let i1 := feMul inv u1
  let i2 := feMul inv u2
  let zinv := feMul i1 (feMul i2 P.T)
  let rot := feIsNeg (feMul P.T zinv)
  let x' := feSel P.X (feMul P.Y sqrtM1) rot
  let y' := feSel P.Y (feMul P.X sqrtM1) rot
  let den := feSel i2 (feMul i1 invsqrtAMinusD) rot
  let y' := feCneg y' (feIsNeg (feMul x' zinv))
  let s := feMul den (feSub P.Z y')
  feToBytes (feCneg s (feIsNeg s))

/-- `ris_eq(P, Q)` (R363). -/
def risEq (P Q : Ext) : Bool :=
  feEq (feMul P.X Q.Y) (feMul P.Y Q.X) || feEq (feMul P.X Q.X) (feMul P.Y Q.Y)

/-- `ris_elligator(r0)` (R364). -/
def risElligator (r0 : Fe) : Ext :=
  let r := feMul sqrtM1 (feSq r0)
  let ns := feMul (feAdd r feOne) oneMinusDSq
  let c := feMinusOne
  let D := feMul (feSub c (feMul edwardsD r)) (feAdd r edwardsD)
  let root := sqrtRatioI ns D
  let s' := feMul root.2 r0
  let s' := feCneg s' (!feIsNeg s')
  let s := feSel root.2 s' (!root.1)
  let c := feSel c r (!root.1)
  let nt := feSub (feMul (feMul c (feSub r feOne)) dMinusOneSq) D
  let ss := feSq s
  compToExt ⟨feMul (feAdd s s) D, feSub feOne ss, feMul nt sqrtAdMinusOne, feAdd feOne ss⟩

/-- `ris_hash_to_group(b)` of 64 bytes (R365). -/
def risHashToGroup (b : List Byte) : Ext :=
  edMul8 (edAdd (risElligator (feFromBytes (slice b 0 32))) (risElligator (feFromBytes (slice b 32 32))))

end Sys2Proof.Machine
end

