-- ==== Sys2Proof/Machine/Ristretto.lean ====
section
/-! DEFINITION. The Ristretto commands (45_ristretto.md R370 to R374). -/

namespace Sys2Proof.Machine

/-- RDEC (R370). -/
def execRdec (pd : PIdx) (cd : CIdx) (addr : Addr) (s : State) : Outcome :=
  pointDecode (.rdec pd cd addr) risDecode pd cd addr s

/-- RENC (R371). -/
def execRenc (ps : PIdx) (addr : Addr) (s : State) : Outcome := pointEncode (.renc ps addr) risEncode ps addr s

/-- REQ (R372). -/
def execReq (cd : CIdx) (pa pb : PIdx) (s : State) : Outcome := pointTest2 (.req cd pa pb) risEq cd pa pb s

/-- RELL (R373). -/
def execRell (pd : PIdx) (fa : FIdx) (s : State) : Outcome :=
  complete (.rell pd fa) s do
    let r ← s.readF fa
    return s.writeP pd (risElligator r)

/-- RH2G (R374). -/
def execRh2g (pd : PIdx) (addr : Addr) (s : State) : Outcome :=
  complete (.rh2g pd addr) s do
    let b ← s.memRead addr.toNat 64
    return s.writeP pd (risHashToGroup b)

end Sys2Proof.Machine
end

