-- ==== Sys2Proof/Machine/Scalar.lean ====
section
/-! DEFINITION. The scalar commands (41_scalar.md R225 to R244). -/

namespace Sys2Proof.Machine

/-- A scalar load of n bytes (format DI). -/
def scalarLoad (i : Instr) (n : Nat) (op : Nat → Nat) (sd : SIdx) (addr : Addr) (s : State) : Outcome :=
  complete i s do
    let b ← s.memRead addr.toNat n
    return s.writeS sd (op (le b))

/-- A scalar command of one source and one destination (format DA). -/
def scalar1 (i : Instr) (op : Nat → Nat) (sd sa : SIdx) (s : State) : Outcome :=
  complete i s do
    let a ← s.readS sa
    return s.writeS sd (op a)

/-- A scalar command of two sources and one destination (format DAB). -/
def scalar2 (i : Instr) (op : Nat → Nat → Nat) (sd sa sb : SIdx) (s : State) : Outcome :=
  complete i s do
    let a ← s.readS sa
    let b ← s.readS sb
    return s.writeS sd (op a b)

/-- SLD (R225). -/
def execSld (sd : SIdx) (addr : Addr) (s : State) : Outcome := scalarLoad (.sld sd addr) 32 scReduce sd addr s

/-- SLDW (R226). -/
def execSldw (sd : SIdx) (addr : Addr) (s : State) : Outcome := scalarLoad (.sldw sd addr) 64 scReduceWide sd addr s

/-- SLDC (R227). -/
def execSldc (sd : SIdx) (cd : CIdx) (addr : Addr) (s : State) : Outcome :=
  complete (.sldc sd cd addr) s do
    let b ← s.memRead addr.toNat 32
    return if isCanonical (le b) then (s.writeS sd (le b)).writeC cd true else (s.clearS sd).writeC cd false

/-- SLDCL (R228). -/
def execSldcl (sd : SIdx) (addr : Addr) (s : State) : Outcome := scalarLoad (.sldcl sd addr) 32 clampInteger sd addr s

/-- SST (R229). -/
def execSst (ss : SIdx) (addr : Addr) (s : State) : Outcome :=
  complete (.sst ss addr) s do
    let a ← s.readS ss
    s.memWrite addr.toNat 32 (bytesOf 32 a)

/-- SMOV (R230). -/
def execSmov (sd sa : SIdx) (s : State) : Outcome := scalar1 (.smov sd sa) id sd sa s

/-- SCONST (R231). -/
def execSconst (sd : SIdx) (k : BitVec 3) (s : State) : Outcome :=
  complete (.sconst sd k) s do
    require (k.toNat ≤ 4) .illegal
    return s.writeS sd (scConst k.toNat)

/-- SADD (R232). -/
def execSadd (sd sa sb : SIdx) (s : State) : Outcome :=
  scalar2 (.sadd sd sa sb) (fun a b => scAddInt (scReduce a) (scReduce b)) sd sa sb s

/-- SSUB (R233). -/
def execSsub (sd sa sb : SIdx) (s : State) : Outcome :=
  scalar2 (.ssub sd sa sb) (fun a b => scSubInt (scReduce a) (scReduce b)) sd sa sb s

/-- SNEG (R234). -/
def execSneg (sd sa : SIdx) (s : State) : Outcome := scalar1 (.sneg sd sa) (fun a => scNeg (scReduce a)) sd sa s

/-- SMUL (R235). -/
def execSmul (sd sa sb : SIdx) (s : State) : Outcome := scalar2 (.smul sd sa sb) scMul sd sa sb s

/-- SINV (R236). -/
def execSinv (sd sa : SIdx) (s : State) : Outcome := scalar1 (.sinv sd sa) scInv sd sa s

/-- SMMUL (R237). -/
def execSmmul (sd sa sb : SIdx) (s : State) : Outcome := scalar2 (.smmul sd sa sb) scMontMulInt sd sa sb s

/-- STOM (R238). -/
def execStom (sd sa : SIdx) (s : State) : Outcome := scalar1 (.stom sd sa) toMont sd sa s

/-- SFRM (R239). -/
def execSfrm (sd sa : SIdx) (s : State) : Outcome := scalar1 (.sfrm sd sa) fromMont sd sa s

/-- SRED (R240). -/
def execSred (sd sa : SIdx) (s : State) : Outcome := scalar1 (.sred sd sa) scReduce sd sa s

/-- SEQ (R241): equality of the integers held, without reduction. -/
def execSeq (cd : CIdx) (sa sb : SIdx) (s : State) : Outcome :=
  complete (.seq cd sa sb) s do
    let a ← s.readS sa
    let b ← s.readS sb
    return s.writeC cd (a == b)

/-- SISCAN (R242). -/
def execSiscan (cd : CIdx) (sa : SIdx) (s : State) : Outcome :=
  complete (.siscan cd sa) s do
    let a ← s.readS sa
    return s.writeC cd (isCanonical a)

/-- SRDX16 (R243). -/
def execSrdx16 (ss : SIdx) (addr : Addr) (s : State) : Outcome :=
  complete (.srdx16 ss addr) s do
    let a ← s.readS ss
    s.memWrite addr.toNat 64 ((radix16 a).map digitByte)

/-- SNAF (R244). -/
def execSnaf (ss : SIdx) (w : BitVec 4) (addr : Addr) (s : State) : Outcome :=
  complete (.snaf ss w addr) s do
    require (2 ≤ w.toNat ∧ w.toNat ≤ 8) .illegal
    let a ← s.readS ss
    s.memWrite addr.toNat 256 ((naf a w.toNat).map digitByte)

end Sys2Proof.Machine
end

