-- ==== Sys2Proof/Machine/ScalarMul.lean ====
section
/-! DEFINITION. The scalar-multiplication commands (43_scalarmul.md R326 to R329). The engines take the integer held in
the scalar register, unreduced (R310, R311). -/

namespace Sys2Proof.Machine

/-- PMULV (R326). -/
def execPmulv (pd : PIdx) (sa : SIdx) (pb : PIdx) (s : State) : Outcome :=
  complete (.pmulv pd sa pb) s do
    let n ← s.readS sa
    let P ← s.readP pb
    return s.writeP pd (edMulVar n P)

/-- PMULB (R327). -/
def execPmulb (pd : PIdx) (sa : SIdx) (s : State) : Outcome :=
  complete (.pmulb pd sa) s do
    let n ← s.readS sa
    return s.writeP pd (edMulBase n)

/-- PDSM (R328). -/
def execPdsm (pd : PIdx) (sa : SIdx) (pb : PIdx) (sc : SIdx) (s : State) : Outcome :=
  complete (.pdsm pd sa pb sc) s do
    let a ← s.readS sa
    let A ← s.readP pb
    let b ← s.readS sc
    return s.writeP pd (edDoubleScalarMul a A b)

/-- PMAC (R329): pd is both source and destination. -/
def execPmac (pd : PIdx) (sa : SIdx) (pb : PIdx) (s : State) : Outcome :=
  complete (.pmac pd sa pb) s do
    let Q ← s.readP pd
    let n ← s.readS sa
    let P ← s.readP pb
    return s.writeP pd (edAdd Q (edDoubleScalarMul n P 0))

end Sys2Proof.Machine
end

