-- ==== Sys2Proof/Machine/Signing.lean ====
section
/-! DEFINITION. The signing commands (46_ed25519_sign.md R394 to R400). The order of the checks is that of R477:
E_ILLEGAL, E_UNWRITTEN, the ContextTooLong test, E_ADDR. -/

namespace Sys2Proof.Machine

/-- KEYGEN (R394). -/
def execKeygen (addr : Addr) (s : State) : Outcome :=
  complete (.keygen addr) s do
    let seed ← s.memRead addr.toNat 32
    return (s.setKey (expandKey seed)).setResult .ok

/-- KEYPUB (R395). -/
def execKeypub (addr : Addr) (s : State) : Outcome :=
  complete (.keypub addr) s do
    let k ← s.readKey
    s.memWrite addr.toNat 32 k.pub.toList

/-- SIGN (R396). -/
def execSign (addr : Addr) (s : State) : Outcome :=
  complete (.sign addr) s do
    let k ← s.readKey
    let m ← s.msg
    let t ← s.memWrite addr.toNat 64 (signCore k [] m [])
    return t.setResult .ok

/-- The common part of SIGNCTX and SIGNPH after their gates, with the domain flag F (R397, R398). -/
def signDom (flag : Byte) (addr : Addr) (s : State) : Except ErrCode State := do
  let k ← s.readKey
  if 255 < s.clen.toNat then return s.setResult .contextTooLong
  let m ← s.msg
  let c ← s.ctx
  let t ← s.memWrite addr.toNat 64 (signCore k (dom2 flag c) m [])
  return t.setResult .ok

/-- SIGNCTX (R397). -/
def execSignctx (addr : Addr) (s : State) : Outcome := complete (.signctx addr) s (signDom 0 addr s)

/-- SIGNPH (R398). -/
def execSignph (addr : Addr) (s : State) : Outcome :=
  complete (.signph addr) s do
    require (s.prehashOn = true) .illegal
    require (s.mlen.toNat = 64) .illegal
    signDom 1 addr s

/-- SIGNR (R399): one draw of 32 bytes. -/
def execSignr (addr : Addr) (s : State) : Outcome :=
  complete (.signr addr) s do
    let k ← s.readKey
    let m ← s.msg
    let t ← s.memWrite addr.toNat 64 (signCore k [] m (s.rngBytes 32))
    return t.noteDraw.setResult .ok

/-- KEYCLR (R400). -/
def execKeyclr (s : State) : Outcome := complete .keyclr s (.ok (s.setKey .cleared))

end Sys2Proof.Machine
end

