-- ==== Sys2Proof/Machine/System.lean ====
section
/-! DEFINITION. The system commands: NOP, scrub, choice logic, clears, digest (48_system.md R450 to R462). -/

namespace Sys2Proof.Machine

/-- NOP (R450): nothing but CC. -/
def execNop (s : State) : Outcome := complete .nop s (.ok s)

/-- Bits 0 to 3 of SCRUB's mask: the register files (R451). -/
def scrubFiles (k : BitVec 7) (s : State) : State :=
  { s with
    fReg := if k.getLsbD 0 then .replicate 16 ⟨.zero, false⟩ else s.fReg
    sReg := if k.getLsbD 1 then .replicate 8 ⟨0, false⟩ else s.sReg
    pReg := if k.getLsbD 2 then .replicate 8 ⟨.zero, false⟩ else s.pReg
    cReg := if k.getLsbD 3 then .replicate 8 ⟨false, false⟩ else s.cReg }

/-- Bits 4 to 6 of SCRUB's mask: key slot, batch accumulator, data memory (R451). -/
def scrubStores (k : BitVec 7) (s : State) : State :=
  { s with
    key := if k.getLsbD 4 then .cleared else s.key
    batch := if k.getLsbD 5 then .cleared else s.batch
    dm := if k.getLsbD 6 then [] else s.dm }

/-- SCRUB (R451). -/
def execScrub (k : BitVec 7) (s : State) : Outcome :=
  complete (.scrub k) s (.ok (scrubStores k (scrubFiles k s)))

/-- CSET (R452). -/
def execCset (cd : CIdx) (k : BitVec 1) (s : State) : Outcome :=
  complete (.cset cd k) s (.ok (s.writeC cd (k.getLsbD 0)))

/-- A choice command of one source (R453, R454). -/
def choice1 (i : Instr) (op : Bool → Bool) (cd ca : CIdx) (s : State) : Outcome :=
  complete i s do
    let a ← s.readC ca
    return s.writeC cd (op a)

/-- A choice command of two sources (R455 to R457). -/
def choice2 (i : Instr) (op : Bool → Bool → Bool) (cd ca cb : CIdx) (s : State) : Outcome :=
  complete i s do
    let a ← s.readC ca
    let b ← s.readC cb
    return s.writeC cd (op a b)

/-- CMOV (R453). -/
def execCmov (cd ca : CIdx) (s : State) : Outcome := choice1 (.cmov cd ca) id cd ca s

/-- CNOT (R454). -/
def execCnot (cd ca : CIdx) (s : State) : Outcome := choice1 (.cnot cd ca) (! ·) cd ca s

/-- CAND (R455). -/
def execCand (cd ca cb : CIdx) (s : State) : Outcome := choice2 (.cand cd ca cb) (· && ·) cd ca cb s

/-- COR (R456). -/
def execCor (cd ca cb : CIdx) (s : State) : Outcome := choice2 (.cor cd ca cb) (· || ·) cd ca cb s

/-- CXOR (R457). -/
def execCxor (cd ca cb : CIdx) (s : State) : Outcome := choice2 (.cxor cd ca cb) (· ^^ ·) cd ca cb s

/-- FCLR (R458). -/
def execFclr (fd : FIdx) (s : State) : Outcome := complete (.fclr fd) s (.ok (s.clearF fd))

/-- SCLR (R459). -/
def execSclr (sd : SIdx) (s : State) : Outcome := complete (.sclr sd) s (.ok (s.clearS sd))

/-- PCLR (R460). -/
def execPclr (pd : PIdx) (s : State) : Outcome := complete (.pclr pd) s (.ok (s.clearP pd))

/-- CCLR (R461). -/
def execCclr (cd : CIdx) (s : State) : Outcome := complete (.cclr cd) s (.ok (s.clearC cd))

/-- HASH (R462): the message region is read in full before the write. -/
def execHash (addr : Addr) (s : State) : Outcome :=
  complete (.hash addr) s do
    let m ← s.msg
    s.memWrite addr.toNat 64 (hashBytes m)

end Sys2Proof.Machine
end

