-- ==== Sys2Proof/Machine/Verify.lean ====
section
/-! DEFINITION. The verification commands (47_ed25519_verify.md R429 to R434). The order of the checks is that of R477:
E_ILLEGAL, E_SEQUENCE, the ContextTooLong test, E_ADDR. -/

namespace Sys2Proof.Machine

/-- `RESULT <- res; c[cd] <- 1 if res = 0 else 0` (R429). -/
def State.verdict (s : State) (cd : CIdx) (r : ResultCode) : State := (s.writeC cd r.accepted).setResult r

/-- The verification of the triple at addr under a domain string (R429). -/
def verifyTriple (dom : List Byte) (cd : CIdx) (addr : Addr) (s : State) : Except ErrCode State := do
  let t ← s.memRead addr.toNat 96
  let m ← s.msg
  return s.verdict cd (verifyCore s.knobs dom (slice t 0 32) (slice t 32 32) (slice t 64 32) m)

/-- VERIFY (R429). -/
def execVerify (cd : CIdx) (addr : Addr) (s : State) : Outcome :=
  complete (.verify cd addr) s (verifyTriple [] cd addr s)

/-- The common part of VERIFYCTX and VERIFYPH after their gates, with the domain flag F (R430, R431). -/
def verifyDom (flag : Byte) (cd : CIdx) (addr : Addr) (s : State) : Except ErrCode State := do
  if 255 < s.clen.toNat then return s.verdict cd .contextTooLong
  let c ← s.ctx
  verifyTriple (dom2 flag c) cd addr s

/-- VERIFYCTX (R430). -/
def execVerifyctx (cd : CIdx) (addr : Addr) (s : State) : Outcome :=
  complete (.verifyctx cd addr) s (verifyDom 0 cd addr s)

/-- VERIFYPH (R431). -/
def execVerifyph (cd : CIdx) (addr : Addr) (s : State) : Outcome :=
  complete (.verifyph cd addr) s do
    require (s.prehashOn = true) .illegal
    require (s.mlen.toNat = 64) .illegal
    verifyDom 1 cd addr s

/-- VBBEGIN (R432). -/
def execVbbegin (s : State) : Outcome :=
  complete .vbbegin s do
    require (s.batchOn = true) .illegal
    return (s.setBatch { sum := 0, point := edIdentity, count := 0, ok := true, active := true }).setResult .ok

/-- What VBADD does with its triple and message once its checks have passed (R433): a rejected entry makes OK 0 and
draws nothing; a taken one draws 16 bytes and joins the sums; both count in N. -/
def batchTake (t m : List Byte) (s : State) : State :=
  let b := { s.batch with count := s.batch.count + 1 }
  let ab := slice t 0 32
  let rb := slice t 32 32
  match batchEntry s.knobs.vrncs ab rb (slice t 64 32) with
  | none => (s.setBatch { b with ok := false }).setResult .invalidEncoding
  | some (A, R, n) =>
    ((s.setBatch (batchAccumulate b A R n (hashScalar (rb ++ ab ++ m)) (le (s.rngBytes 16)))).noteDraw).setResult .ok

/-- VBADD (R433). -/
def execVbadd (addr : Addr) (s : State) : Outcome :=
  complete (.vbadd addr) s do
    require (s.batchOn = true) .illegal
    require (s.batch.active = true) .sequence
    let t ← s.memRead addr.toNat 96
    let m ← s.msg
    return batchTake t m s

/-- VBEND (R434). -/
def execVbend (cd : CIdx) (s : State) : Outcome :=
  complete (.vbend cd) s do
    require (s.batchOn = true) .illegal
    require (s.batch.active = true) .sequence
    let ok := batchAccepts s.batch
    return ((s.writeC cd ok).setResult (if ok then .ok else .batchFailure)).setBatch { s.batch with active := false }

end Sys2Proof.Machine
end

