-- ==== Sys2Proof/Machine/Dispatch.lean ====
section
/-! DEFINITION. The dispatch of commands to their meanings, one arm per constructor (30_encoding.md R115). -/

namespace Sys2Proof.Machine

def exec (i : Instr) (s : State) : Host.Outcome State Fault Refusal :=
  match i with
  | .nop => Sys2Proof.Machine.execNop s
  | .scrub k => Sys2Proof.Machine.execScrub k s
  | .cset cd k => Sys2Proof.Machine.execCset cd k s
  | .cmov cd ca => Sys2Proof.Machine.execCmov cd ca s
  | .cnot cd ca => Sys2Proof.Machine.execCnot cd ca s
  | .cand cd ca cb => Sys2Proof.Machine.execCand cd ca cb s
  | .cor cd ca cb => Sys2Proof.Machine.execCor cd ca cb s
  | .cxor cd ca cb => Sys2Proof.Machine.execCxor cd ca cb s
  | .fclr fd => Sys2Proof.Machine.execFclr fd s
  | .sclr sd => Sys2Proof.Machine.execSclr sd s
  | .pclr pd => Sys2Proof.Machine.execPclr pd s
  | .cclr cd => Sys2Proof.Machine.execCclr cd s
  | .hash addr => Sys2Proof.Machine.execHash addr s
  | .fld fd addr => Sys2Proof.Machine.execFld fd addr s
  | .fst fs addr => Sys2Proof.Machine.execFst fs addr s
  | .fmov fd fa => Sys2Proof.Machine.execFmov fd fa s
  | .fconst fd k => Sys2Proof.Machine.execFconst fd k s
  | .fadd fd fa fb => Sys2Proof.Machine.execFadd fd fa fb s
  | .fsub fd fa fb => Sys2Proof.Machine.execFsub fd fa fb s
  | .fneg fd fa => Sys2Proof.Machine.execFneg fd fa s
  | .fmul fd fa fb => Sys2Proof.Machine.execFmul fd fa fb s
  | .fsqr fd fa => Sys2Proof.Machine.execFsqr fd fa s
  | .finv fd fa => Sys2Proof.Machine.execFinv fd fa s
  | .fpow58 fd fa => Sys2Proof.Machine.execFpow58 fd fa s
  | .fsqrtr fd cd fa fb => Sys2Proof.Machine.execFsqrtr fd cd fa fb s
  | .fcsel fd fa fb cc => Sys2Proof.Machine.execFcsel fd fa fb cc s
  | .fcswap fx fy cc => Sys2Proof.Machine.execFcswap fx fy cc s
  | .fcneg fd fa cc => Sys2Proof.Machine.execFcneg fd fa cc s
  | .fred fd fa => Sys2Proof.Machine.execFred fd fa s
  | .feq cd fa fb => Sys2Proof.Machine.execFeq cd fa fb s
  | .fisneg cd fa => Sys2Proof.Machine.execFisneg cd fa s
  | .fiszero cd fa => Sys2Proof.Machine.execFiszero cd fa s
  | .sld sd addr => Sys2Proof.Machine.execSld sd addr s
  | .sldw sd addr => Sys2Proof.Machine.execSldw sd addr s
  | .sldc sd cd addr => Sys2Proof.Machine.execSldc sd cd addr s
  | .sldcl sd addr => Sys2Proof.Machine.execSldcl sd addr s
  | .sst ss addr => Sys2Proof.Machine.execSst ss addr s
  | .smov sd sa => Sys2Proof.Machine.execSmov sd sa s
  | .sconst sd k => Sys2Proof.Machine.execSconst sd k s
  | .sadd sd sa sb => Sys2Proof.Machine.execSadd sd sa sb s
  | .ssub sd sa sb => Sys2Proof.Machine.execSsub sd sa sb s
  | .sneg sd sa => Sys2Proof.Machine.execSneg sd sa s
  | .smul sd sa sb => Sys2Proof.Machine.execSmul sd sa sb s
  | .sinv sd sa => Sys2Proof.Machine.execSinv sd sa s
  | .smmul sd sa sb => Sys2Proof.Machine.execSmmul sd sa sb s
  | .stom sd sa => Sys2Proof.Machine.execStom sd sa s
  | .sfrm sd sa => Sys2Proof.Machine.execSfrm sd sa s
  | .sred sd sa => Sys2Proof.Machine.execSred sd sa s
  | .seq cd sa sb => Sys2Proof.Machine.execSeq cd sa sb s
  | .siscan cd sa => Sys2Proof.Machine.execSiscan cd sa s
  | .srdx16 ss addr => Sys2Proof.Machine.execSrdx16 ss addr s
  | .snaf ss w addr => Sys2Proof.Machine.execSnaf ss w addr s
  | .pid pd => Sys2Proof.Machine.execPid pd s
  | .pbase pd => Sys2Proof.Machine.execPbase pd s
  | .pmov pd pa => Sys2Proof.Machine.execPmov pd pa s
  | .pneg pd pa => Sys2Proof.Machine.execPneg pd pa s
  | .pdbl pd pa => Sys2Proof.Machine.execPdbl pd pa s
  | .padd pd pa pb => Sys2Proof.Machine.execPadd pd pa pb s
  | .psub pd pa pb => Sys2Proof.Machine.execPsub pd pa pb s
  | .pmul8 pd pa => Sys2Proof.Machine.execPmul8 pd pa s
  | .pcmp ps addr => Sys2Proof.Machine.execPcmp ps addr s
  | .pdec pd cd addr => Sys2Proof.Machine.execPdec pd cd addr s
  | .peq cd pa pb => Sys2Proof.Machine.execPeq cd pa pb s
  | .pisid cd pa => Sys2Proof.Machine.execPisid cd pa s
  | .psmall cd pa => Sys2Proof.Machine.execPsmall cd pa s
  | .ptorf cd pa => Sys2Proof.Machine.execPtorf cd pa s
  | .ph2c pd cd => Sys2Proof.Machine.execPh2c pd cd s
  | .ptom fd pa => Sys2Proof.Machine.execPtom fd pa s
  | .pfromm pd cd fa bit => Sys2Proof.Machine.execPfromm pd cd fa bit s
  | .pmulv pd sa pb => Sys2Proof.Machine.execPmulv pd sa pb s
  | .pmulb pd sa => Sys2Proof.Machine.execPmulb pd sa s
  | .pdsm pd sa pb sc => Sys2Proof.Machine.execPdsm pd sa pb sc s
  | .pmac pd sa pb => Sys2Proof.Machine.execPmac pd sa pb s
  | .x25519 fd sa fb => Sys2Proof.Machine.execX25519 fd sa fb s
  | .xchk cd fa => Sys2Proof.Machine.execXchk cd fa s
  | .rdec pd cd addr => Sys2Proof.Machine.execRdec pd cd addr s
  | .renc ps addr => Sys2Proof.Machine.execRenc ps addr s
  | .req cd pa pb => Sys2Proof.Machine.execReq cd pa pb s
  | .rell pd fa => Sys2Proof.Machine.execRell pd fa s
  | .rh2g pd addr => Sys2Proof.Machine.execRh2g pd addr s
  | .keygen addr => Sys2Proof.Machine.execKeygen addr s
  | .keypub addr => Sys2Proof.Machine.execKeypub addr s
  | .sign addr => Sys2Proof.Machine.execSign addr s
  | .signctx addr => Sys2Proof.Machine.execSignctx addr s
  | .signph addr => Sys2Proof.Machine.execSignph addr s
  | .signr addr => Sys2Proof.Machine.execSignr addr s
  | .keyclr => Sys2Proof.Machine.execKeyclr s
  | .verify cd addr => Sys2Proof.Machine.execVerify cd addr s
  | .verifyctx cd addr => Sys2Proof.Machine.execVerifyctx cd addr s
  | .verifyph cd addr => Sys2Proof.Machine.execVerifyph cd addr s
  | .vbbegin => Sys2Proof.Machine.execVbbegin s
  | .vbadd addr => Sys2Proof.Machine.execVbadd addr s
  | .vbend cd => Sys2Proof.Machine.execVbend cd s

end Sys2Proof.Machine
end

