-- ==== Sys2Proof/Machine/HostBus.lean ====
section
/-! DEFINITION. The register bus and the host's moves (10_state.md R59 to R76; 70_reset_and_hazards.md R520). -/

namespace Sys2Proof.Machine

/-- The engine takes a command word: decode it, and execute it or raise E_ILLEGAL (30_encoding.md R110; R472). -/
def runWord (s : State) (w : Word) : Outcome :=
  match decode w with
  | .ok i => exec i s
  | .error _ => .next (s.takeFault .illegal w)

/-- A write to CMD: dropped while HALT = 1 (R73, R472). -/
def writeCmd (s : State) (w : Word) : Outcome := if s.halt then .next s else runWord s w

/-- A write to CTRL: bit 1 SRST, bit 0 CLR; SRST alone acts when both are 1 (R72). -/
def writeCtrl (s : State) (w : Word) : State :=
  if w.getLsbD 1 then s.resetBlock else if w.getLsbD 0 then s.clearFault else s

/-- Where an offset lies on the bus (R59, R74, R75). -/
inductive BusRegion where
  /-- The control registers, 0x000 to 0x037. -/
  | control
  /-- The DM window, 0x1000 to 0x1FFF. -/
  | window
  /-- Offsets not listed: read 0, ignore writes. -/
  | unlisted
  deriving DecidableEq, Repr

/-- The region of an offset (R59, R75). -/
def busRegion (o : Nat) : BusRegion :=
  if o < 0x038 then .control else if 0x1000 ≤ o ∧ o < 0x2000 then .window else .unlisted

/-- The value of the control register at an offset; write-only registers and reserved bits read 0 (R59 to R73). -/
def readControl (s : State) (o : Nat) : Word :=
  match o with
  | 0x000 => Config.idValue
  | 0x004 => s.cfg.setWidth 32
  | 0x008 => s.statusView
  | 0x00C => s.flagsView
  | 0x010 => BitVec.ofNat 32 s.result.code
  | 0x014 => BitVec.ofNat 32 s.err.code
  | 0x018 => s.errInfo
  | 0x01C => s.cc
  | 0x020 => s.maddr.setWidth 32
  | 0x024 => s.mlen.setWidth 32
  | 0x028 => s.caddr.setWidth 32
  | 0x02C => s.clen.setWidth 32
  | _ => 0

/-- A word written to the control register at an offset: reserved bits dropped, read-only registers unchanged (R59
to R73). -/
def writeControl (s : State) (o : Nat) (w : Word) : Outcome :=
  match o with
  | 0x004 => .next { s with cfg := w.setWidth 5 }
  | 0x020 => .next { s with maddr := w.setWidth 12 }
  | 0x024 => .next { s with mlen := w.setWidth 13 }
  | 0x028 => .next { s with caddr := w.setWidth 12 }
  | 0x02C => .next { s with clen := w.setWidth 9 }
  | 0x030 => .next (writeCtrl s w)
  | 0x034 => writeCmd s w
  | _ => .next s

/-- The host reads a value: it goes to `busData`, and no state of the block changes (R59, R520, log 4). -/
def State.answer (s : State) (w : Word) : State := { s with busData := w }

/-- A word read (R59, R74). -/
def readWordMove (s : State) (o : Nat) : Outcome :=
  match busRegion o with
  | .control => if o % 4 = 0 then .next (s.answer (readControl s o)) else .fault .undescribedBusAccess
  | .window =>
    if o % 4 = 0 then .next (s.answer (BitVec.ofNat 32 (le (s.dm.readBytes (o - 0x1000) 4))))
    else .fault .undescribedBusAccess
  | .unlisted => .next (s.answer 0)

/-- A word write; byte a of the window is in bits 7:0 (R59, R74). -/
def writeWordMove (s : State) (o : Nat) (w : Word) : Outcome :=
  match busRegion o with
  | .control => if o % 4 = 0 then writeControl s o w else .fault .undescribedBusAccess
  | .window =>
    if o % 4 = 0 then .next (s.setDm (s.dm.writeBytes (o - 0x1000) (bytesOf 4 w.toNat)))
    else .fault .undescribedBusAccess
  | .unlisted => .next s

/-- A byte read: a control register is accessed as one aligned word only (R59, R74, log 7). -/
def readByteMove (s : State) (o : Nat) : Outcome :=
  match busRegion o with
  | .control => .fault .undescribedBusAccess
  | .window => .next (s.answer ((s.dm.read (o - 0x1000)).setWidth 32))
  | .unlisted => .next (s.answer 0)

/-- A byte write (R59, R74, log 7). -/
def writeByteMove (s : State) (o : Nat) (b : Byte) : Outcome :=
  match busRegion o with
  | .control => .fault .undescribedBusAccess
  | .window => .next (s.setDm (s.dm.write (o - 0x1000) b))
  | .unlisted => .next s

/-- One host move (R520). -/
def hostMove (m : HostMove) (s : State) : Outcome :=
  match m with
  | .rst => .next s.resetBlock
  | .readWord o => readWordMove s o.toNat
  | .writeWord o w => writeWordMove s o.toNat w
  | .readByte o => readByteMove s o.toNat
  | .writeByte o b => writeByteMove s o.toNat b

/-- A host move at the head of the queue; an empty queue is a host that makes no move (R15, log 3). -/
def nextMove (s : State) : Outcome :=
  match s.host with
  | [] => .next s
  | m :: ms => hostMove m { s with host := ms }

end Sys2Proof.Machine
end

