-- ==== Sys2Proof/Machine/Step.lean ====
section
/-! DEFINITION. The machine's step: one move of the host, complete (70_reset_and_hazards.md R520; 00_scope.md R6). The
block fetches nothing by itself: the engine executes the word a move writes to CMD (R58, R510; log 3). -/

namespace Sys2Proof.Machine

/-- One step: the oldest pending host move (R520). -/
def step (s : State) : Outcome := nextMove s

/-- `s` with the command of `nbits` bits whose number is `w` as the next thing the host writes to CMD, and HALT clear, so that
the very next step executes it (log 3). -/
def State.withFetchWord (s : State) (nbits w : Nat) : State :=
  { s with halt := false, host := .writeWord 0x034#32 (BitVec.ofNat 32 (w % 2 ^ nbits)) :: s.host }

end Sys2Proof.Machine
end

