-- ==== Sys2Proof/Safety.lean ====
section
/-! DEFINITION. The terms the statements are made in: the invariant of a run (10_state.md R31, R33, R35, R38, R39), when a
command faults (60_exceptions.md R473 to R477), and what each command may write (10_state.md R76). -/

namespace Sys2Proof.Machine

/-- The opcodes of the engine's parts, to speak of a family at once (30_encoding.md R116). -/
inductive Family where
  | system
  | field
  | scalar
  | edwards
  | engines
  | ladder
  | ristretto
  | signing
  | verification
  deriving DecidableEq, Repr

/-- The family of a command, by its opcode (R116). -/
def family (i : Instr) : Family :=
  let op := (encode i).toNat / 2 ^ 24
  if op < 0x10 then .system
  else if op < 0x30 then .field
  else if op < 0x50 then .scalar
  else if op < 0x70 then .edwards
  else if op < 0x80 then .engines
  else if op < 0x90 then .ladder
  else if op < 0xA0 then .ristretto
  else if op < 0xB0 then .signing
  else .verification

/-- Every limb below 2^52, the machine's bound (R31, R143). -/
abbrev Fe.bounded (x : Fe) : Prop :=
  x.l0.toNat < 2 ^ 52 ∧ x.l1.toNat < 2 ^ 52 ∧ x.l2.toNat < 2 ^ 52 ∧ x.l3.toNat < 2 ^ 52 ∧ x.l4.toNat < 2 ^ 52

/-- Canonical limbs: every limb below 2^51 and the integer below p (R31). -/
abbrev Fe.canonical (x : Fe) : Prop :=
  x.l0.toNat < 2 ^ 51 ∧ x.l1.toNat < 2 ^ 51 ∧ x.l2.toNat < 2 ^ 51 ∧ x.l3.toNat < 2 ^ 51 ∧ x.l4.toNat < 2 ^ 51 ∧
    feInt x < fieldPrime

/-- The bound on all four coordinates (R31). -/
abbrev Ext.bounded (P : Ext) : Prop := P.X.bounded ∧ P.Y.bounded ∧ P.Z.bounded ∧ P.T.bounded

/-- X·Y = Z·T as values mod p (R35). -/
abbrev Ext.coherent (P : Ext) : Prop := feVal P.X * feVal P.Y % fieldPrime = feVal P.Z * feVal P.T % fieldPrime

/-- A coordinate's value in GF(p), for equations (R12). -/
abbrev Fe.gf (x : Fe) : ZMod fieldPrime := (feInt x : ZMod fieldPrime)

/-- The curve equation -x² + y² = 1 + d·x²·y² in extended coordinates, Y² - X² = Z² + d·T², with X·Y = Z·T: what
R12, R35 and R251 say of (X/Z, Y/Z), the denominators cleared. -/
def Ext.onCurve (P : Ext) : Prop :=
  P.Y.gf ^ 2 - P.X.gf ^ 2 = P.Z.gf ^ 2 + edwardsD.gf * P.T.gf ^ 2 ∧ P.X.gf * P.Y.gf = P.Z.gf * P.T.gf

/-- R represents the affine point P + Q: the addition law of R12, the denominators cleared. -/
def Ext.isSum (P Q R : Ext) : Prop :=
  R.X.gf * ((P.Z.gf * Q.Z.gf) ^ 2 + edwardsD.gf * P.X.gf * Q.X.gf * P.Y.gf * Q.Y.gf) =
      R.Z.gf * (P.Z.gf * Q.Z.gf) * (P.X.gf * Q.Y.gf + Q.X.gf * P.Y.gf) ∧
    R.Y.gf * ((P.Z.gf * Q.Z.gf) ^ 2 - edwardsD.gf * P.X.gf * Q.X.gf * P.Y.gf * Q.Y.gf) =
      R.Z.gf * (P.Z.gf * Q.Z.gf) * (P.Y.gf * Q.Y.gf + P.X.gf * Q.X.gf)

/-- What a valid point register holds (R35): a point of the curve with Z nonzero. -/
def Ext.isPoint (P : Ext) : Prop := P.onCurve ∧ P.Z.gf ≠ 0

/-- P and Q represent one affine point (R35, R272), the denominators cleared. -/
def Ext.same (P Q : Ext) : Prop := P.X.gf * Q.Z.gf = Q.X.gf * P.Z.gf ∧ P.Y.gf * Q.Z.gf = Q.Y.gf * P.Z.gf

/-- R represents -P: the x coordinate negated (R12). -/
def Ext.isNeg (P R : Ext) : Prop := R.X.gf * P.Z.gf = -(P.X.gf * R.Z.gf) ∧ R.Y.gf * P.Z.gf = P.Y.gf * R.Z.gf

/-- P represents the identity (0, 1) (R12). -/
def Ext.isIdentity (P : Ext) : Prop := P.X.gf = 0 ∧ P.Y.gf = P.Z.gf

/-- R represents [a]A + [b]B: it is reached from A, B and the identity by negations and by sums of the group law, with a
copies of A and b copies of B counted by sign (R311, R321). -/
inductive Ext.Combines (A B : Ext) : Int → Int → Ext → Prop
  | zero {R : Ext} : R.isPoint → R.isIdentity → Combines A B 0 0 R
  | left {R : Ext} : R.isPoint → R.same A → Combines A B 1 0 R
  | right {R : Ext} : R.isPoint → R.same B → Combines A B 0 1 R
  | neg {a b : Int} {P R : Ext} : Combines A B a b P → R.isPoint → P.isNeg R → Combines A B (-a) (-b) R
  | add {a b c d : Int} {P Q R : Ext} : Combines A B a b P → Combines A B c d Q → R.isPoint → P.isSum Q R →
      Combines A B (a + c) (b + d) R

/-- One step of the Montgomery ladder on (x2, z2, x3, z3) over GF(p), by the formulas of the curve of R340 with A = 486662:
the point doubled and the sum of the two points, whose difference has the u-coordinate x1 (R343, R344). -/
def gfLadderStep (x1 : ZMod fieldPrime) :
    ZMod fieldPrime × ZMod fieldPrime × ZMod fieldPrime × ZMod fieldPrime →
      ZMod fieldPrime × ZMod fieldPrime × ZMod fieldPrime × ZMod fieldPrime
  | (x2, z2, x3, z3) =>
    ((x2 ^ 2 - z2 ^ 2) ^ 2, 4 * x2 * z2 * (x2 ^ 2 + 486662 * x2 * z2 + z2 ^ 2), 4 * (x2 * x3 - z2 * z3) ^ 2,
      4 * x1 * (x3 * z2 - z3 * x2) ^ 2)

/-- The two points of the ladder exchanged. -/
def gfLadderSwap : ZMod fieldPrime × ZMod fieldPrime × ZMod fieldPrime × ZMod fieldPrime →
    ZMod fieldPrime × ZMod fieldPrime × ZMod fieldPrime × ZMod fieldPrime
  | (x2, z2, x3, z3) => (x3, z3, x2, z2)

/-- The ladder over GF(p) for the bits t-1 down to 0 of k: a bit of 1 steps on the exchanged points and exchanges them
back (R343, without the accumulated swap). -/
def gfLadder (k : Nat) (x1 : ZMod fieldPrime) :
    Nat → ZMod fieldPrime × ZMod fieldPrime × ZMod fieldPrime × ZMod fieldPrime →
      ZMod fieldPrime × ZMod fieldPrime × ZMod fieldPrime × ZMod fieldPrime
  | 0, v => v
  | t + 1, v =>
    gfLadder k x1 t
      (if k.testBit t then gfLadderSwap (gfLadderStep x1 (gfLadderSwap v)) else gfLadderStep x1 v)

/-- Whether the next host move resets the block: the pin, or a write to CTRL with SRST (R72, R510). -/
def resetsNext (s : State) : Bool :=
  match s.host with
  | .rst :: _ => true
  | .writeWord o w :: _ => o == 0x030#32 && w.getLsbD 1
  | _ => false

/-- The step of a block whose reset leaves the accumulator as the table of R30 prints it (log 5). -/
def stepR30 (s : State) : Outcome :=
  match step s with
  | .next t => .next (if resetsNext s then { t with batch := .resetR30 } else t)
  | o => o

/-- `n` steps of a block with a given step, as far as they answer a next state. -/
def runOf (next : State → Outcome) : (n : Nat) → State → Outcome
  | 0, s => .next s
  | n + 1, s =>
    match next s with
    | .next t => runOf next n t
    | o => o

/-- What holds of the state at every host move. -/
structure State.Inv (s : State) : Prop where
  /-- Data memory is in its canonical form. -/
  dmWf : s.dm.wf
  /-- R31. -/
  fBounded : ∀ i : FIdx, (s.fReg.get i).val.bounded
  /-- R31. -/
  pBounded : ∀ i : PIdx, (s.pReg.get i).val.bounded
  /-- R31, R39. -/
  batchBounded : s.batch.point.bounded
  /-- An invalid register has all-zero contents (R33). -/
  fZero : ∀ i : FIdx, (s.fReg.get i).valid = false → (s.fReg.get i).val = .zero
  /-- R33. -/
  sZero : ∀ i : SIdx, (s.sReg.get i).valid = false → (s.sReg.get i).val = 0
  /-- R33. -/
  pZero : ∀ i : PIdx, (s.pReg.get i).valid = false → (s.pReg.get i).val = .zero
  /-- R33. -/
  cZero : ∀ i : CIdx, (s.cReg.get i).valid = false → (s.cReg.get i).val = false
  /-- R33, R400. -/
  keyZero : s.key.valid = false → s.key = .cleared
  /-- a is a clamped scalar (R38). -/
  keyClamped : s.key.valid = true → 2 ^ 254 ≤ s.key.a.toNat ∧ s.key.a.toNat % 8 = 0
  /-- S is in [0, l) (R39). -/
  batchSum : s.batch.sum.toNat < groupOrder
  /-- HALT is 1 exactly after a fault (R62, R472). -/
  haltErr : s.halt = true ↔ s.err ≠ .none
  /-- ERRINFO is 0 when there is no fault (R66). -/
  errInfoZero : s.err = .none → s.errInfo = 0

/-- The commands of the signing pipeline that store a signature (R396 to R399). -/
def signs : Instr → Bool
  | .sign _ | .signctx _ | .signph _ | .signr _ => true
  | _ => false

/-- The three single verifications (R429 to R431). -/
def verifies : Instr → Bool
  | .verify _ _ | .verifyctx _ _ | .verifyph _ _ => true
  | _ => false

/-- The commands gated by CFG.PREHASH and MLEN = 64 (R473 (d)). -/
def gatedByPrehash : Instr → Bool
  | .signph _ | .verifyph _ _ => true
  | _ => false

/-- The commands gated by CFG.BATCH (R473 (e)). -/
def gatedByBatch : Instr → Bool
  | .vbbegin | .vbadd _ | .vbend _ => true
  | _ => false

/-- Bit `n` of SCRUB's mask; 0 for every other command (R451). -/
def scrubBit (n : Nat) : Instr → Bool
  | .scrub k => k.getLsbD n
  | _ => false

/-- Causes (c), (d), (e) of E_ILLEGAL (R473), for a word that passed the mask. -/
def illegalNow (i : Instr) (s : State) : Bool :=
  !i.wellFormed || (gatedByPrehash i && (!s.prehashOn || s.mlen.toNat != 64)) || (gatedByBatch i && !s.batchOn)

/-- The cause of E_SEQUENCE (R476). -/
def sequenceNow (i : Instr) (s : State) : Bool :=
  match i with
  | .vbadd _ | .vbend _ => !s.batch.active
  | _ => false

/-- The field registers a command reads (R474). -/
def fSources : Instr → List FIdx
  | .fst fs _ => [fs]
  | .fmov _ fa | .fneg _ fa | .fsqr _ fa | .finv _ fa | .fpow58 _ fa | .fred _ fa | .fcneg _ fa _ => [fa]
  | .fisneg _ fa | .fiszero _ fa | .xchk _ fa | .rell _ fa | .pfromm _ _ fa _ => [fa]
  | .fadd _ fa fb | .fsub _ fa fb | .fmul _ fa fb | .feq _ fa fb | .fsqrtr _ _ fa fb | .fcsel _ fa fb _ => [fa, fb]
  | .fcswap fx fy _ => [fx, fy]
  | .x25519 _ _ fb => [fb]
  | _ => []

/-- The scalar registers a command reads (R474). -/
def sSources : Instr → List SIdx
  | .sst ss _ | .srdx16 ss _ | .snaf ss _ _ => [ss]
  | .smov _ sa | .sneg _ sa | .sinv _ sa | .stom _ sa | .sfrm _ sa | .sred _ sa | .siscan _ sa => [sa]
  | .sadd _ sa sb | .ssub _ sa sb | .smul _ sa sb | .smmul _ sa sb | .seq _ sa sb => [sa, sb]
  | .pmulv _ sa _ | .pmulb _ sa | .pmac _ sa _ | .x25519 _ sa _ => [sa]
  | .pdsm _ sa _ sc => [sa, sc]
  | _ => []

/-- The point registers a command reads; PMAC's pd is one (R474). -/
def pSources : Instr → List PIdx
  | .pmov _ pa | .pneg _ pa | .pdbl _ pa | .pmul8 _ pa | .pisid _ pa | .psmall _ pa | .ptorf _ pa | .ptom _ pa => [pa]
  | .padd _ pa pb | .psub _ pa pb | .peq _ pa pb | .req _ pa pb => [pa, pb]
  | .pcmp ps _ | .renc ps _ => [ps]
  | .pmulv _ _ pb | .pdsm _ _ pb _ => [pb]
  | .pmac pd _ pb => [pd, pb]
  | _ => []

/-- The choice registers a command reads (R474, R488). -/
def cSources : Instr → List CIdx
  | .cmov _ ca | .cnot _ ca => [ca]
  | .cand _ ca cb | .cor _ ca cb | .cxor _ ca cb => [ca, cb]
  | .fcsel _ _ _ cc | .fcswap _ _ cc | .fcneg _ _ cc => [cc]
  | _ => []

/-- The commands that read the key slot (R474). -/
def readsKey : Instr → Bool
  | .keypub _ | .sign _ | .signctx _ | .signph _ | .signr _ => true
  | _ => false

/-- The cause of E_UNWRITTEN: some source is invalid (R474). -/
def unwrittenNow (i : Instr) (s : State) : Bool :=
  (fSources i).any (fun r => !(s.fReg.get r).valid) || (sSources i).any (fun r => !(s.sReg.get r).valid) ||
  (pSources i).any (fun r => !(s.pReg.get r).valid) || (cSources i).any (fun r => !(s.cReg.get r).valid) ||
  (readsKey i && !s.key.valid)

/-- The commands with a context string (R477 step 4, R485). -/
def usesContext : Instr → Bool
  | .signctx _ | .signph _ | .verifyctx _ _ | .verifyph _ _ => true
  | _ => false

/-- The commands with a message region (R88, R475). -/
def usesMessage : Instr → Bool
  | .hash _ | .ph2c _ _ | .sign _ | .signctx _ | .signph _ | .signr _ => true
  | .verify _ _ | .verifyctx _ _ | .verifyph _ _ | .vbadd _ => true
  | _ => false

/-- The `imm` region of a command: its address and length (R475). -/
def immRegion : Instr → Option (Nat × Nat)
  | .fld _ a | .fst _ a | .sld _ a | .sldc _ _ a | .sldcl _ a | .sst _ a => some (a.toNat, 32)
  | .pdec _ _ a | .pcmp _ a | .rdec _ _ a | .renc _ a | .keygen a | .keypub a => some (a.toNat, 32)
  | .sldw _ a | .rh2g _ a | .srdx16 _ a | .hash a => some (a.toNat, 64)
  | .sign a | .signctx a | .signph a | .signr a => some (a.toNat, 64)
  | .verify _ a | .verifyctx _ a | .verifyph _ a | .vbadd a => some (a.toNat, 96)
  | .snaf _ _ a => some (a.toNat, 256)
  | _ => none

/-- All regions a command touches, as R475 lists them. -/
def regions (i : Instr) (s : State) : List (Nat × Nat) :=
  (immRegion i).toList ++
  (if usesMessage i then [(s.maddr.toNat, s.mlen.toNat)] else []) ++
  (if usesContext i then [(s.caddr.toNat, s.clen.toNat)] else [])

/-- The cause of E_ADDR: some region does not lie inside DM (R475). -/
def addrNow (i : Instr) (s : State) : Bool := (regions i s).any fun r => decide (Config.memSize < r.1 + r.2)

/-- Step 4 of R477: the command retires with RESULT 5 (R485). -/
def contextTooLongNow (i : Instr) (s : State) : Bool := usesContext i && decide (255 < s.clen.toNat)

/-- The fault a command raises, in the order of R477, or none. -/
def faultOf (i : Instr) (s : State) : Option ErrCode :=
  if illegalNow i s then some .illegal
  else if sequenceNow i s then some .sequence
  else if unwrittenNow i s then some .unwritten
  else if contextTooLongNow i s then none
  else if addrNow i s then some .addr
  else none

/-- Command `i` ends well from `s`, in `t`: it retires, so CC goes up by one, and the fault registers are as before
(R470, R520). -/
def Retires (i : Instr) (s t : State) : Prop :=
  exec i s = .next t ∧ t.cc = s.cc + 1 ∧ t.err = s.err ∧ t.errInfo = s.errInfo ∧ t.halt = s.halt

/-- The field registers a command may write. -/
def fDests : Instr → List FIdx
  | .scrub k => if k.getLsbD 0 then List.finRange 16 else []
  | .fclr fd | .fld fd _ | .fmov fd _ | .fconst fd _ | .fneg fd _ | .fsqr fd _ | .finv fd _ | .fpow58 fd _ => [fd]
  | .fadd fd _ _ | .fsub fd _ _ | .fmul fd _ _ | .fred fd _ | .fcneg fd _ _ | .fcsel fd _ _ _ | .fsqrtr fd _ _ _ => [fd]
  | .fcswap fx fy _ => [fx, fy]
  | .ptom fd _ | .x25519 fd _ _ => [fd]
  | _ => []

/-- The scalar registers a command may write. -/
def sDests : Instr → List SIdx
  | .scrub k => if k.getLsbD 1 then List.finRange 8 else []
  | .sclr sd | .sld sd _ | .sldw sd _ | .sldc sd _ _ | .sldcl sd _ | .smov sd _ | .sconst sd _ => [sd]
  | .sadd sd _ _ | .ssub sd _ _ | .sneg sd _ | .smul sd _ _ | .sinv sd _ | .smmul sd _ _ => [sd]
  | .stom sd _ | .sfrm sd _ | .sred sd _ => [sd]
  | _ => []

/-- The point registers a command may write. -/
def pDests : Instr → List PIdx
  | .scrub k => if k.getLsbD 2 then List.finRange 8 else []
  | .pclr pd | .pid pd | .pbase pd | .pmov pd _ | .pneg pd _ | .pdbl pd _ | .padd pd _ _ | .psub pd _ _ => [pd]
  | .pmul8 pd _ | .pdec pd _ _ | .ph2c pd _ | .pfromm pd _ _ _ | .pmulv pd _ _ | .pmulb pd _ | .pdsm pd _ _ _ => [pd]
  | .pmac pd _ _ | .rdec pd _ _ | .rell pd _ | .rh2g pd _ => [pd]
  | _ => []

/-- The choice registers a command may write (R488). -/
def cDests : Instr → List CIdx
  | .scrub k => if k.getLsbD 3 then List.finRange 8 else []
  | .cset cd _ | .cmov cd _ | .cnot cd _ | .cand cd _ _ | .cor cd _ _ | .cxor cd _ _ | .cclr cd => [cd]
  | .fsqrtr _ cd _ _ | .feq cd _ _ | .fisneg cd _ | .fiszero cd _ | .sldc _ cd _ | .seq cd _ _ | .siscan cd _ => [cd]
  | .pdec _ cd _ | .peq cd _ _ | .pisid cd _ | .psmall cd _ | .ptorf cd _ | .ph2c _ cd | .pfromm _ cd _ _ => [cd]
  | .xchk cd _ | .rdec _ cd _ | .req cd _ _ | .verify cd _ | .verifyctx cd _ | .verifyph cd _ | .vbend cd => [cd]
  | _ => []

/-- The two commands that write the key slot as a whole (R394, R400). -/
def replacesKey : Instr → Bool
  | .keygen _ | .keyclr => true
  | _ => false

/-- The commands that may write the key slot (R38). -/
def writesKey (i : Instr) : Bool := scrubBit 4 i || replacesKey i

/-- The commands that may write the batch accumulator (R39). -/
def writesBatch (i : Instr) : Bool := scrubBit 5 i || gatedByBatch i

/-- The two commands outside signing and verification that write RESULT (R349, R394). -/
def reports : Instr → Bool
  | .xchk _ _ | .keygen _ => true
  | _ => false

/-- The commands that write RESULT (R64). -/
def writesResult (i : Instr) : Bool := reports i || signs i || verifies i || gatedByBatch i

/-- The commands that may draw from the random source (R503). -/
def maySample : Instr → Bool
  | .signr _ | .vbadd _ => true
  | _ => false

/-- The block of DM a command stores to: its address, as the meaning computes it, and its length. -/
def storeRegion : Instr → Option (Nat × Nat)
  | .scrub k => if k.getLsbD 6 then some (0, Config.memSize) else none
  | .hash a | .srdx16 _ a | .sign a | .signctx a | .signph a | .signr a => some (a.toNat, 64)
  | .fst _ a | .sst _ a | .pcmp _ a | .renc _ a | .keypub a => some (a.toNat, 32)
  | .snaf _ _ a => some (a.toNat, 256)
  | _ => none

/-- Whether address `a` lies in a region. -/
def inRegion (r : Option (Nat × Nat)) (a : Nat) : Prop := ∃ p, r = some p ∧ p.1 ≤ a ∧ a < p.1 + p.2

/-- Everything command `i` leaves unchanged between `s` and `t`: every register of every file but its destinations, the
key slot, the batch accumulator, RESULT and the draw counter unless it writes them, every byte of DM outside the block
it stores to, and all that only the host writes (R76). -/
structure Unchanged (i : Instr) (s t : State) : Prop where
  f : ∀ r, r ∉ fDests i → t.fReg.get r = s.fReg.get r
  sc : ∀ r, r ∉ sDests i → t.sReg.get r = s.sReg.get r
  p : ∀ r, r ∉ pDests i → t.pReg.get r = s.pReg.get r
  c : ∀ r, r ∉ cDests i → t.cReg.get r = s.cReg.get r
  key : writesKey i = false → t.key = s.key
  batch : writesBatch i = false → t.batch = s.batch
  result : writesResult i = false → t.result = s.result
  draws : maySample i = false → t.rngDraws = s.rngDraws
  mem : ∀ a, ¬ inRegion (storeRegion i) a → t.dm.read a = s.dm.read a
  cfg : t.cfg = s.cfg
  maddr : t.maddr = s.maddr
  mlen : t.mlen = s.mlen
  caddr : t.caddr = s.caddr
  clen : t.clen = s.clen
  host : t.host = s.host
  busData : t.busData = s.busData

/-- f[i] is valid, and its limbs. -/
abbrev State.fOk (s : State) (i : FIdx) : Prop := (s.fReg.get i).valid = true

/-- The limbs of f[i]. -/
abbrev State.fv (s : State) (i : FIdx) : Fe := (s.fReg.get i).val

/-- s[i] is valid. -/
abbrev State.sOk (s : State) (i : SIdx) : Prop := (s.sReg.get i).valid = true

/-- The integer of s[i]. -/
abbrev State.sv (s : State) (i : SIdx) : Nat := (s.sReg.get i).val.toNat

/-- p[i] is valid. -/
abbrev State.pOk (s : State) (i : PIdx) : Prop := (s.pReg.get i).valid = true

/-- The coordinates of p[i]. -/
abbrev State.pv (s : State) (i : PIdx) : Ext := (s.pReg.get i).val

/-- c[i] is valid. -/
abbrev State.cOk (s : State) (i : CIdx) : Prop := (s.cReg.get i).valid = true

/-- The bit of c[i]. -/
abbrev State.cv (s : State) (i : CIdx) : Bool := (s.cReg.get i).val

/-- The message region lies inside DM (R88, R475). -/
abbrev State.msgIn (s : State) : Prop := inDm s.maddr.toNat s.mlen.toNat

/-- The context region lies inside DM (R88, R475). -/
abbrev State.ctxIn (s : State) : Prop := inDm s.caddr.toNat s.clen.toNat

/-- The message bytes (R88). -/
abbrev State.msgBytes (s : State) : List Byte := s.dm.readBytes s.maddr.toNat s.mlen.toNat

/-- The context bytes (R88). -/
abbrev State.ctxBytes (s : State) : List Byte := s.dm.readBytes s.caddr.toNat s.clen.toNat

/-- The state of a command that raised `e` with word `w` (R472). -/
abbrev State.faulted (s : State) (e : ErrCode) (w : Word) : State := { s with err := e, errInfo := w, halt := true }

/-- The integer a digit list stands for, base b, low digit first (R217, R219). -/
def digitSum (b : Int) : List Int → Int
  | [] => 0
  | d :: ds => d + b * digitSum b ds

/-- The digits of a width-w form: each is 0, or odd, below 2^(w-1) in size and followed by w-1 zeros (R219). -/
def nafShape (w : Nat) (ds : List Int) : Prop :=
  ∀ i, ds.getD i 0 ≠ 0 → ds.getD i 0 % 2 = 1 ∧ (ds.getD i 0).natAbs < 2 ^ (w - 1) ∧
    ∀ j, i < j → j < i + w → ds.getD j 0 = 0

/-- The scalar of a digest, as a residue: le(H(b)) mod l (R392, R421). -/
def digestMod (b : List Byte) : Nat := le (Config.digest b).toList % groupOrder

/-- The signature R392 asks for, with its scalars as residues mod l. -/
def signatureOf (k : KeySlot) (dom m z : List Byte) : List Byte :=
  let r := digestMod (dom ++ k.pfx.toList ++ m ++ z)
  let rb := edCompress (edMulBase r)
  rb ++ bytesOf 32 ((r + digestMod (dom ++ rb ++ k.pub.toList ++ m) * k.a.toNat) % groupOrder)

/-- The state with the byte string `v` stored at `a` (R11). -/
abbrev State.stored (s : State) (a : Addr) (v : List Byte) : State := s.setDm (s.dm.writeBytes a.toNat v)

/-- The state with another seed in the key slot. -/
def State.withSeed (s : State) (x : Vector Byte 32) : State := { s with key := { s.key with seed := x } }

/-- The state with another secret key in the slot: seed, a and prefix (R38). -/
def State.withSecrets (s : State) (seed : Vector Byte 32) (a : ScalarInt) (pfx : Vector Byte 32) : State :=
  { s with key := { s.key with seed := seed, a := a, pfx := pfx } }

end Sys2Proof.Machine
end

