-- ==== Sys2Proof/Certificates/Slice0/Obligations.lean ====
section
/-! DEFINITION. The statements for the provers, one `def Obligations.<Name> : Prop` each, from the numbered rules of the
spec. What each says in words, its tier and its basis stand in OBLIGATIONS.json. -/

open Sys2Proof Sys2Proof.Machine

/-- Decoding an encoded command gives it back (R110, R111, R115). -/
def Obligations.DecodeOfEncode : Prop :=
  ∀ i : Instr, decode (encode i) = .ok i

/-- A word that decodes is the encoding of its command (R110, R111, R113, R115). -/
def Obligations.EncodeOfDecode : Prop :=
  ∀ (w : Word) (i : Instr), decode w = .ok i → encode i = w

/-- The decoder accepts exactly the words of the opcode map, and no two rows overlap (R110, R113, R114, R115). -/
def Obligations.DecodeAcceptsTheRows : Prop :=
  (∀ w : Word, (∃ i, decode w = .ok i) ↔ ∃ r ∈ opcodeRows, w &&& r.mask = r.pattern) ∧
    ∀ (w : Word), ∀ r ∈ opcodeRows, ∀ r' ∈ opcodeRows, w &&& r.mask = r.pattern → w &&& r'.mask = r'.pattern → r = r'

/-- The worked encodings and the illegal words of R129 (R129). -/
def Obligations.WorkedEncodings : Prop :=
  (∀ p ∈ ([(0x00000000#32, .nop), (0x10100020#32, .fld 1 0x020#12), (0x17201000#32, .fmul 2 0 1),
      (0x1B345001#32, .fsqrtr 3 1 4 5), (0x1C012007#32, .fcsel 0 1 2 7), (0x1D890000#32, .fcswap 8 9 0),
      (0x32230100#32, .sldc 2 3 0x100#12), (0x43050200#32, .snaf 0 5#4 0x200#12), (0x72012003#32, .pdsm 0 1 2 3),
      (0x61131002#32, .pfromm 1 2 3 1#1), (0x80001000#32, .x25519 0 0 1), (0xB0000020#32, .verify 0 0x020#12),
      (0x0100007F#32, .scrub 0x7F#7)] : List (Word × Instr)), decode p.1 = .ok p.2 ∧ encode p.2 = p.1) ∧
    (∀ w ∈ ([0x17201001#32, 0x35900000#32, 0x5E000000#32, 0x13000010#32, 0xFFFFFFFF#32] : List Word),
      ∀ i, decode w ≠ .ok i) ∧
    decode 0x1300000D#32 = .ok (.fconst 0 13#4) ∧
    ∀ s : State, exec (.fconst 0 13#4) s = .next (s.faulted .illegal 0x1300000D#32)

/-- A step that writes CMD runs the decoded command, and a halted block drops the word (R73). -/
def Obligations.StepRunsTheCommand : Prop :=
  (∀ s : State, readControl s 0x034 = 0) ∧
    ∀ (s : State) (w : Word) (ms : List HostMove), s.host = .writeWord 0x034#32 w :: ms →
      (s.halt = true → step s = .next { s with host := ms }) ∧
      (s.halt = false → ∀ i, decode w = .ok i → step s = exec i { s with host := ms }) ∧
      (s.halt = false → ∀ e, decode w = .error e → step s = .next (State.faulted { s with host := ms } .illegal w))

/-- CTRL: SRST resets, CLR clears the fault, SRST alone acts when both are written (R72). -/
def Obligations.CtrlPort : Prop :=
  (∀ s : State, readControl s 0x030 = 0) ∧
    ∀ (s : State) (w : Word) (ms : List HostMove), s.host = .writeWord 0x030#32 w :: ms →
      (w.getLsbD 1 = true → ∃ t, step s = .next t ∧
        t = { State.reset with host := t.host, busData := t.busData, rngDraws := t.rngDraws }) ∧
      (w.getLsbD 1 = false → w.getLsbD 0 = true →
        step s = .next { s with host := ms, halt := false, err := .none, errInfo := 0 }) ∧
      (w.getLsbD 1 = false → w.getLsbD 0 = false → step s = .next { s with host := ms })

/-- The reset input acts in any state as CTRL.SRST does (R510, R511, R512). -/
def Obligations.ResetPin : Prop :=
  ∀ (s : State) (ms : List HostMove), s.host = .rst :: ms →
    step s = .next { State.reset with host := ms, busData := s.busData, rngDraws := s.rngDraws }

/-- State after reset, item by item (R511, R510, R41, R93). The reset values of the batch fields P (all-zero limbs)
and OK (0) are those of R511 and R527; the table of R30 prints the identity and 1 for them. The choice is the model's:
log 5, DEDUCED. -/
def Obligations.ResetState : Prop :=
  let s := State.reset
  (∀ i, s.fReg.get i = ⟨⟨0, 0, 0, 0, 0⟩, false⟩) ∧ (∀ i, s.sReg.get i = ⟨0, false⟩) ∧
    (∀ i, s.pReg.get i = ⟨⟨⟨0, 0, 0, 0, 0⟩, ⟨0, 0, 0, 0, 0⟩, ⟨0, 0, 0, 0, 0⟩, ⟨0, 0, 0, 0, 0⟩⟩, false⟩) ∧
    (∀ i, s.cReg.get i = ⟨false, false⟩) ∧
    s.key.seed.toList = List.replicate 32 0 ∧ s.key.a = 0 ∧ s.key.pfx.toList = List.replicate 32 0 ∧
    s.key.pub.toList = List.replicate 32 0 ∧ s.key.valid = false ∧
    s.batch.sum = 0 ∧ s.batch.point = ⟨.zero, .zero, .zero, .zero⟩ ∧ s.batch.count = 0 ∧ s.batch.ok = false ∧
    s.batch.active = false ∧ (∀ a, s.dm.read a = 0x00#8) ∧ readControl s 0x000 = 0x444C0007#32 ∧ s.cfg = 0x03#5 ∧
    s.statusView = 0 ∧ s.flagsView = 0 ∧ s.halt = false ∧ s.result.code = 0 ∧ s.err.code = 0 ∧ s.errInfo = 0 ∧
    s.cc = 0 ∧ s.maddr = 0 ∧ s.mlen = 0 ∧ s.caddr = 0 ∧ s.clen = 0 ∧
    readControl s 0x030 = 0 ∧ readControl s 0x034 = 0

/-- The reset state meets the invariant (R31, R33, R38, R39, R511). -/
def Obligations.ResetInvariant : Prop :=
  State.reset.Inv

/-- Every step keeps the invariant of the machine (R31, R33, R38, R39, R62, R66, R143). -/
def Obligations.StepKeepsInvariant : Prop :=
  ∀ s t : State, s.Inv → step s = .next t → t.Inv

/-- Every step keeps X·Y = Z·T in every point register and in the batch point (R35, R252, R258, R261). -/
def Obligations.StepKeepsCoherence : Prop :=
  ∀ s t : State, s.Inv → (∀ i, (s.pv i).coherent) → s.batch.point.coherent → step s = .next t →
    (∀ i, (t.pv i).coherent) ∧ t.batch.point.coherent

/-- Point commands keep the curve equation (R12, R35, R251, R262, R265, R266, R268, R361). -/
def Obligations.CommandsKeepTheCurve : Prop :=
  ∀ (i : Instr) (s t : State), (∀ pd fa, i ≠ .rell pd fa) → (∀ pd a, i ≠ .rh2g pd a) → (∀ pd sa, i ≠ .pmulb pd sa) →
    s.Inv → (∀ r, (s.pv r).onCurve) → s.batch.point.onCurve → exec i s = .next t →
    (∀ r, (t.pv r).onCurve) ∧ t.batch.point.onCurve

/-- The first failing check decides the fault, a fault changes nothing else, and a command without one retires (R477,
R58, R470, R472, R485). -/
def Obligations.FaultPriority : Prop :=
  (∀ (s : State) (w : Word) (e : Reject), decode w = .error e → runWord s w = .next (s.faulted .illegal w)) ∧
    (∀ (s : State) (w : Word) (i : Instr), decode w = .ok i →
      (∀ e, faultOf i s = some e → runWord s w = .next (s.faulted e w)) ∧
      (faultOf i s = none → ∃ t, runWord s w = .next t ∧ Retires i s t ∧
        (contextTooLongNow i s = true → t.result = .contextTooLong))) ∧
    ∀ s : State,
      (s.cfg = 3 → faultOf (.signph 0xFC1#12) s = some .illegal) ∧
      (s.cfg = 0x13 → s.mlen = 64 → s.key.valid = false → faultOf (.signph 0xFC1#12) s = some .unwritten) ∧
      (s.cfg = 0x13 → s.mlen = 64 → s.key.valid = true → s.clen = 300 →
        faultOf (.signph 0xFC1#12) s = none ∧ contextTooLongNow (.signph 0xFC1#12) s = true) ∧
      (s.cfg = 0x13 → s.mlen = 64 → s.key.valid = true → s.clen = 0 → faultOf (.signph 0xFC1#12) s = some .addr)

/-- Every command retires from every state in which it has no cause of fault (R58, R470, R473, R474, R475, R476, R477,
R520). -/
def Obligations.CommandCompletes : Prop :=
  ∀ (i : Instr) (s : State), faultOf i s = none → ∃ t, Retires i s t

/-- What the system, field and scalar commands leave unchanged (R32, R33, R64, R76, R92, R472). -/
def Obligations.FrameFieldScalar : Prop :=
  ∀ (i : Instr) (s t : State), family i = .system ∨ family i = .field ∨ family i = .scalar →
    s.dm.wf → exec i s = .next t → Unchanged i s t

/-- What the Edwards, engine, ladder and Ristretto commands leave unchanged (R32, R33, R64, R76, R92, R472). -/
def Obligations.FramePoint : Prop :=
  ∀ (i : Instr) (s t : State), family i = .edwards ∨ family i = .engines ∨ family i = .ladder ∨ family i = .ristretto →
    s.dm.wf → exec i s = .next t → Unchanged i s t

/-- What the key and signing commands leave unchanged (R38, R64, R76, R92, R401, R472, R503). -/
def Obligations.FrameSigning : Prop :=
  ∀ (i : Instr) (s t : State), family i = .signing → s.dm.wf → exec i s = .next t → Unchanged i s t

/-- What the verification and batch commands leave unchanged (R39, R64, R76, R92, R472, R503). -/
def Obligations.FrameVerification : Prop :=
  ∀ (i : Instr) (s t : State), family i = .verification → s.dm.wf → exec i s = .next t → Unchanged i s t

/-- NOP changes CC only and has one word (R450). -/
def Obligations.NopOnlyCounts : Prop :=
  decode 0x00000000#32 = .ok .nop ∧
    (∀ w : Word, w.toNat / 2 ^ 24 = 0 → w ≠ 0 →
      decode w = .error .mustBeZero ∧ ∀ s, runWord s w = .next (s.faulted .illegal w)) ∧
    ∀ s : State, exec .nop s = .next { s with cc := s.cc + 1 }

/-- CSET, CMOV, CNOT, CAND, COR, CXOR write their function of the sources, and fault on an invalid source (R472, R452,
R453, R454, R455, R456, R457, R474). -/
def Obligations.ChoiceLogic : Prop :=
  ∀ (s : State) (cd ca cb : CIdx) (k : BitVec 1),
    exec (.cset cd k) s = .next (s.writeC cd (k == 1)).retire ∧
    (s.cOk ca →
      exec (.cmov cd ca) s = .next (s.writeC cd (s.cv ca)).retire ∧
      exec (.cnot cd ca) s = .next (s.writeC cd (!s.cv ca)).retire) ∧
    (¬ s.cOk ca →
      exec (.cmov cd ca) s = .next (s.faulted .unwritten (encode (.cmov cd ca))) ∧
      exec (.cnot cd ca) s = .next (s.faulted .unwritten (encode (.cnot cd ca)))) ∧
    (s.cOk ca → s.cOk cb →
      exec (.cand cd ca cb) s = .next (s.writeC cd (s.cv ca && s.cv cb)).retire ∧
      exec (.cor cd ca cb) s = .next (s.writeC cd (s.cv ca || s.cv cb)).retire ∧
      exec (.cxor cd ca cb) s = .next (s.writeC cd (s.cv ca != s.cv cb)).retire) ∧
    (¬ s.cOk ca ∨ ¬ s.cOk cb →
      exec (.cand cd ca cb) s = .next (s.faulted .unwritten (encode (.cand cd ca cb))) ∧
      exec (.cor cd ca cb) s = .next (s.faulted .unwritten (encode (.cor cd ca cb))) ∧
      exec (.cxor cd ca cb) s = .next (s.faulted .unwritten (encode (.cxor cd ca cb))))

/-- The clear commands zero a register, and a read after it faults (R33, R400, R458, R459, R460, R461, R474). -/
def Obligations.ClearsInvalidate : Prop :=
  ∀ s : State,
    (∀ fd f', exec (.fclr fd) s = .next (s.clearF fd).retire ∧ (s.clearF fd).retire.fReg.get fd = ⟨.zero, false⟩ ∧
      exec (.fmov f' fd) (s.clearF fd).retire =
        .next ((s.clearF fd).retire.faulted .unwritten (encode (.fmov f' fd)))) ∧
    (∀ sd s', exec (.sclr sd) s = .next (s.clearS sd).retire ∧ (s.clearS sd).retire.sReg.get sd = ⟨0, false⟩ ∧
      exec (.smov s' sd) (s.clearS sd).retire =
        .next ((s.clearS sd).retire.faulted .unwritten (encode (.smov s' sd)))) ∧
    (∀ pd p', exec (.pclr pd) s = .next (s.clearP pd).retire ∧ (s.clearP pd).retire.pReg.get pd = ⟨.zero, false⟩ ∧
      exec (.pmov p' pd) (s.clearP pd).retire =
        .next ((s.clearP pd).retire.faulted .unwritten (encode (.pmov p' pd)))) ∧
    (∀ cd c', exec (.cclr cd) s = .next (s.clearC cd).retire ∧ (s.clearC cd).retire.cReg.get cd = ⟨false, false⟩ ∧
      exec (.cmov c' cd) (s.clearC cd).retire =
        .next ((s.clearC cd).retire.faulted .unwritten (encode (.cmov c' cd)))) ∧
    (∀ a, exec .keyclr s = .next (s.setKey .cleared).retire ∧
      exec (.keypub a) (s.setKey .cleared).retire =
        .next ((s.setKey .cleared).retire.faulted .unwritten (encode (.keypub a))))

/-- SCRUB clears exactly what its mask names (R33, R93, R451). -/
def Obligations.ScrubClearsByMask : Prop :=
  ∀ (k : BitVec 7) (s : State), ∃ t, exec (.scrub k) s = .next t ∧
    (∀ i, t.fReg.get i = if k.getLsbD 0 then ⟨.zero, false⟩ else s.fReg.get i) ∧
    (∀ i, t.sReg.get i = if k.getLsbD 1 then ⟨0, false⟩ else s.sReg.get i) ∧
    (∀ i, t.pReg.get i = if k.getLsbD 2 then ⟨.zero, false⟩ else s.pReg.get i) ∧
    (∀ i, t.cReg.get i = if k.getLsbD 3 then ⟨false, false⟩ else s.cReg.get i) ∧
    (t.key = if k.getLsbD 4 then .cleared else s.key) ∧
    (t.batch = if k.getLsbD 5 then .cleared else s.batch) ∧
    (∀ a, t.dm.read a = if k.getLsbD 6 then 0x00#8 else s.dm.read a) ∧
    t.cfg = s.cfg ∧ t.maddr = s.maddr ∧ t.mlen = s.mlen ∧ t.caddr = s.caddr ∧ t.clen = s.clen ∧
    t.result = s.result ∧ t.err = s.err ∧ t.cc = s.cc + 1

/-- HASH stores the digest of the old message bytes (R88, R89, R462, R475). -/
def Obligations.HashStoresTheDigest : Prop :=
  ∀ (s : State) (addr : Addr),
    (s.msgIn → inDm addr.toNat 64 →
      exec (.hash addr) s = .next (s.stored addr (Config.digest s.msgBytes).toList).retire) ∧
    (¬ s.msgIn ∨ ¬ inDm addr.toNat 64 → exec (.hash addr) s = .next (s.faulted .addr (encode (.hash addr))))

/-- FLD takes the low 255 bits, without reduction (R86, R142, R163, R475). -/
def Obligations.FieldLoad : Prop :=
  ∀ (s : State) (fd : FIdx) (addr : Addr),
    (inDm addr.toNat 32 → ∃ x : Fe, exec (.fld fd addr) s = .next (s.writeF fd x).retire ∧
      feInt x = le (s.dm.readBytes addr.toNat 32) % 2 ^ 255 ∧
      ∀ l ∈ [x.l0, x.l1, x.l2, x.l3, x.l4], l.toNat < 2 ^ 51) ∧
    (¬ inDm addr.toNat 32 → exec (.fld fd addr) s = .next (s.faulted .addr (encode (.fld fd addr))))

/-- FST stores the canonical 32 bytes of the value (R86, R151, R152, R164). -/
def Obligations.FieldStore : Prop :=
  ∀ (s : State) (fs : FIdx) (addr : Addr), s.fOk fs → (s.fv fs).bounded → inDm addr.toNat 32 →
    exec (.fst fs addr) s = .next (s.stored addr (bytesOf 32 (feVal (s.fv fs)))).retire

/-- FCONST loads the named constants, and FMOV copies limbs (R13, R158, R165, R166). -/
def Obligations.FieldConstants : Prop :=
  (∀ (s : State) (fd fa : FIdx) (k : BitVec 4),
    (k.toNat ≤ 12 → exec (.fconst fd k) s = .next (s.writeF fd (feConst k.toNat)).retire ∧ (feConst k.toNat).canonical) ∧
    (12 < k.toNat → exec (.fconst fd k) s = .next (s.faulted .illegal (encode (.fconst fd k)))) ∧
    (s.fOk fa → exec (.fmov fd fa) s = .next (s.writeF fd (s.fv fa)).retire)) ∧
    feVal (feConst 0) = 0 ∧ feVal (feConst 1) = 1 ∧ feVal (feConst 2) = fieldPrime - 1 ∧
    (feVal (feConst 3) * 121666 + 121665) % fieldPrime = 0 ∧
    feVal (feConst 4) = 2 * feVal (feConst 3) % fieldPrime ∧
    feVal (feConst 5) ^ 2 % fieldPrime = fieldPrime - 1 ∧ feVal (feConst 5) % 2 = 0 ∧
    feVal (feConst 6) = 121665 ∧ feVal (feConst 7) = 486662 ∧
    feVal (feConst 8) ^ 2 * (2 * fieldPrime - 1 - feVal (feConst 3)) % fieldPrime = 1 ∧ feVal (feConst 8) % 2 = 0 ∧
    (feVal (feConst 9) ^ 2 + feVal (feConst 3) + 1) % fieldPrime = 0 ∧ feVal (feConst 9) % 2 = 1 ∧
    (feVal (feConst 10) + feVal (feConst 3) ^ 2) % fieldPrime = 1 ∧
    feVal (feConst 11) = (feVal (feConst 3) - 1) ^ 2 % fieldPrime ∧
    feVal (feConst 12) = fieldPrime - 486662

/-- FADD, FSUB, FNEG compute in GF(p) and keep limbs below 2^52 (R143, R144, R145, R146, R147, R167, R168, R169). -/
def Obligations.FieldAddSubNeg : Prop :=
  ∀ (s : State) (fd fa fb : FIdx), s.fOk fa → (s.fv fa).bounded →
    (s.fOk fb → (s.fv fb).bounded →
      (∃ x, exec (.fadd fd fa fb) s = .next (s.writeF fd x).retire ∧ x.bounded ∧
        feVal x = (feVal (s.fv fa) + feVal (s.fv fb)) % fieldPrime) ∧
      (∃ x, exec (.fsub fd fa fb) s = .next (s.writeF fd x).retire ∧ x.bounded ∧
        (feVal x + feVal (s.fv fb)) % fieldPrime = feVal (s.fv fa))) ∧
    ∃ x, exec (.fneg fd fa) s = .next (s.writeF fd x).retire ∧ x.bounded ∧
      (feVal x + feVal (s.fv fa)) % fieldPrime = 0

/-- FMUL and FSQR compute in GF(p), and a square has the limbs of the product (R148, R149, R150, R162, R170, R171). -/
def Obligations.FieldMulSquare : Prop :=
  ∀ (s : State) (fd fa fb : FIdx), s.fOk fa → (s.fv fa).bounded →
    (s.fOk fb → (s.fv fb).bounded → ∃ x, exec (.fmul fd fa fb) s = .next (s.writeF fd x).retire ∧ x.bounded ∧
      feVal x = feVal (s.fv fa) * feVal (s.fv fb) % fieldPrime) ∧
    (∃ x, exec (.fsqr fd fa) s = .next (s.writeF fd x).retire ∧ x.bounded ∧
      feVal x = feVal (s.fv fa) ^ 2 % fieldPrime) ∧
    exec (.fsqr fd fa) s = exec (.fmul fd fa fa) s

/-- FINV computes x^(p-2) and FPOW58 x^((p-5)/8) (R155, R156, R157, R172, R173). -/
def Obligations.FieldPowers : Prop :=
  ∀ (s : State) (fd fa : FIdx), s.fOk fa → (s.fv fa).bounded →
    (∃ x, exec (.finv fd fa) s = .next (s.writeF fd x).retire ∧ x.bounded ∧ x.gf = (s.fv fa).gf ^ (2 ^ 255 - 21) ∧
      (feVal (s.fv fa) = 0 → feVal x = 0)) ∧
    ∃ x, exec (.fpow58 fd fa) s = .next (s.writeF fd x).retire ∧ x.bounded ∧ x.gf = (s.fv fa).gf ^ (2 ^ 252 - 3)

/-- FSQRTR: the flag tells whether u/v is a square; the root is the even root of u/v or of i u/v; the corner cases of
R161 (R159, R160, R161, R174). -/
def Obligations.FieldSquareRoot : Prop :=
  ∀ (s : State) (fd fa fb : FIdx) (cd : CIdx), s.fOk fa → s.fOk fb → (s.fv fa).bounded → (s.fv fb).bounded →
    ∃ w r, exec (.fsqrtr fd cd fa fb) s = .next ((s.writeF fd r).writeC cd w).retire ∧ r.bounded ∧
      feVal r % 2 = 0 ∧ (w = true → feVal (s.fv fb) * feVal r ^ 2 % fieldPrime = feVal (s.fv fa)) ∧
      (feVal (s.fv fa) = 0 → w = true ∧ feVal r = 0) ∧
      (feVal (s.fv fa) ≠ 0 → feVal (s.fv fb) = 0 → w = false ∧ feVal r = 0) ∧
      (feVal (s.fv fb) ≠ 0 → (w = true ↔ ∃ x : ZMod fieldPrime, (s.fv fb).gf * x ^ 2 = (s.fv fa).gf)) ∧
      (feVal (s.fv fa) ≠ 0 → feVal (s.fv fb) ≠ 0 → w = false →
        (s.fv fb).gf * r.gf ^ 2 = sqrtM1.gf * (s.fv fa).gf)

/-- FCSEL selects, FCSWAP exchanges, FCNEG negates, by one choice bit (R154, R175, R176, R177, R521). -/
def Obligations.FieldSelect : Prop :=
  ∀ (s : State) (fd fa fb : FIdx) (cc : CIdx), s.fOk fa → s.cOk cc →
    (s.fOk fb →
      exec (.fcsel fd fa fb cc) s = .next (s.writeF fd (if s.cv cc then s.fv fb else s.fv fa)).retire ∧
      ∃ t, exec (.fcswap fa fb cc) s = .next t ∧
        t.fReg.get fa = ⟨if s.cv cc then s.fv fb else s.fv fa, true⟩ ∧
        t.fReg.get fb = ⟨if s.cv cc then s.fv fa else s.fv fb, true⟩ ∧
        ∀ r, r ≠ fa → r ≠ fb → t.fReg.get r = s.fReg.get r) ∧
    ((s.fv fa).bounded → ∃ x, exec (.fcneg fd fa cc) s = .next (s.writeF fd x).retire ∧
      (s.cv cc = false → x = s.fv fa) ∧ (s.cv cc = true → (feVal x + feVal (s.fv fa)) % fieldPrime = 0))

/-- FRED gives canonical limbs of the same value; FEQ, FISNEG, FISZERO test values, not limbs (R151, R153, R178, R179,
R180, R181). -/
def Obligations.FieldReduceAndTest : Prop :=
  ∀ (s : State) (fd fa fb : FIdx) (cd : CIdx), s.fOk fa → (s.fv fa).bounded →
    (∃ x, exec (.fred fd fa) s = .next (s.writeF fd x).retire ∧ x.canonical ∧ feInt x = feVal (s.fv fa)) ∧
    (s.fOk fb → (s.fv fb).bounded → exec (.feq cd fa fb) s =
      .next (s.writeC cd (decide (feVal (s.fv fa) = feVal (s.fv fb)))).retire) ∧
    exec (.fisneg cd fa) s = .next (s.writeC cd (decide (feVal (s.fv fa) % 2 = 1))).retire ∧
    exec (.fiszero cd fa) s = .next (s.writeC cd (decide (feVal (s.fv fa) = 0))).retire

/-- SLD and SLDW reduce, SLDC accepts only canonical strings, SLDCL clamps (R210, R211, R213, R214, R225, R226, R227,
R228). -/
def Obligations.ScalarLoads : Prop :=
  ∀ (s : State) (sd : SIdx) (cd : CIdx) (addr : Addr), inDm addr.toNat 32 →
    (exec (.sld sd addr) s = .next (s.writeS sd (le (s.dm.readBytes addr.toNat 32) % groupOrder)).retire) ∧
    (inDm addr.toNat 64 →
      exec (.sldw sd addr) s = .next (s.writeS sd (le (s.dm.readBytes addr.toNat 64) % groupOrder)).retire) ∧
    (le (s.dm.readBytes addr.toNat 32) < groupOrder →
      exec (.sldc sd cd addr) s =
        .next ((s.writeS sd (le (s.dm.readBytes addr.toNat 32))).writeC cd true).retire) ∧
    (groupOrder ≤ le (s.dm.readBytes addr.toNat 32) →
      exec (.sldc sd cd addr) s = .next ((s.clearS sd).writeC cd false).retire) ∧
    ∃ n, exec (.sldcl sd addr) s = .next (s.writeS sd n).retire ∧ 2 ^ 254 ≤ n ∧ n < 2 ^ 255 ∧ n % 8 = 0 ∧
      ∀ j, 3 ≤ j → j < 254 → n.testBit j = (le (s.dm.readBytes addr.toNat 32)).testBit j

/-- SADD, SSUB, SNEG, SRED compute mod l on any register contents (R203, R204, R210, R212, R232, R233, R234, R240). -/
def Obligations.ScalarAddSubNeg : Prop :=
  ∀ (s : State) (sd sa sb : SIdx), s.sOk sa →
    (s.sOk sb →
      exec (.sadd sd sa sb) s = .next (s.writeS sd ((s.sv sa + s.sv sb) % groupOrder)).retire ∧
      ∃ n, exec (.ssub sd sa sb) s = .next (s.writeS sd n).retire ∧ n < groupOrder ∧
        (n + s.sv sb) % groupOrder = s.sv sa % groupOrder) ∧
    (∃ n, exec (.sneg sd sa) s = .next (s.writeS sd n).retire ∧ n < groupOrder ∧ (n + s.sv sa) % groupOrder = 0) ∧
    exec (.sred sd sa) s = .next (s.writeS sd (s.sv sa % groupOrder)).retire

/-- SMUL multiplies mod l; SMMUL, STOM, SFRM are the Montgomery product and the two conversions (R202, R205, R206,
R207, R208, R209, R235, R237, R238, R239). -/
def Obligations.ScalarMulMontgomery : Prop :=
  ∀ (s : State) (sd sa sb : SIdx), s.sOk sa →
    (s.sOk sb →
      exec (.smul sd sa sb) s = .next (s.writeS sd (s.sv sa * s.sv sb % groupOrder)).retire ∧
      ∃ n, exec (.smmul sd sa sb) s = .next (s.writeS sd n).retire ∧ n < groupOrder ∧
        n * 2 ^ 260 % groupOrder = s.sv sa * s.sv sb % groupOrder) ∧
    exec (.stom sd sa) s = .next (s.writeS sd (s.sv sa * 2 ^ 260 % groupOrder)).retire ∧
    ∃ n, exec (.sfrm sd sa) s = .next (s.writeS sd n).retire ∧ n < groupOrder ∧
      n * 2 ^ 260 % groupOrder = s.sv sa % groupOrder

/-- SINV computes a^(l-2) mod l (R215, R216, R236). -/
def Obligations.ScalarInverse : Prop :=
  ∀ (s : State) (sd sa : SIdx), s.sOk sa → ∃ n, exec (.sinv sd sa) s = .next (s.writeS sd n).retire ∧
    n < groupOrder ∧ ((n : ZMod groupOrder) = (s.sv sa : ZMod groupOrder) ^ (groupOrder - 2)) ∧
    (s.sv sa % groupOrder = 0 → n = 0)

/-- SMOV, SCONST, SEQ, SISCAN, SST act on the integer as held, unreduced (R202, R229, R230, R231, R241, R242). -/
def Obligations.ScalarMoveCompareStore : Prop :=
  (∀ (s : State) (sd sa sb : SIdx) (cd : CIdx) (addr : Addr), s.sOk sa →
    exec (.smov sd sa) s = .next { s with sReg := s.sReg.set sd (s.sReg.get sa), cc := s.cc + 1 } ∧
    (s.sOk sb → exec (.seq cd sa sb) s = .next (s.writeC cd (decide (s.sv sa = s.sv sb))).retire) ∧
    exec (.siscan cd sa) s = .next (s.writeC cd (decide (s.sv sa < groupOrder))).retire ∧
    (inDm addr.toNat 32 → exec (.sst sa addr) s = .next (s.stored addr (bytesOf 32 (s.sv sa))).retire)) ∧
    ∀ (s : State) (sd : SIdx) (k : BitVec 3),
      (∀ n, (k.toNat, n) ∈ [(0, 0), (1, 1), (2, 2 ^ 260 % groupOrder), (3, 2 ^ 520 % groupOrder), (4, groupOrder - 1)] →
        exec (.sconst sd k) s = .next (s.writeS sd n).retire) ∧
      (4 < k.toNat → exec (.sconst sd k) s = .next (s.faulted .illegal (encode (.sconst sd k))))

/-- SRDX16 stores 64 signed digits that stand for the integer (R217, R218, R243). -/
def Obligations.Radix16Digits : Prop :=
  ∀ (s : State) (ss : SIdx) (addr : Addr), s.sOk ss → inDm addr.toNat 64 →
    ∃ ds : List Int, exec (.srdx16 ss addr) s = .next (s.stored addr (ds.map digitByte)).retire ∧ ds.length = 64 ∧
      digitSum 16 ds = s.sv ss ∧ (∀ i, i < 63 → -8 ≤ ds.getD i 0 ∧ ds.getD i 0 ≤ 7) ∧
      0 ≤ ds.getD 63 0 ∧ ds.getD 63 0 ≤ 8

/-- SNAF stores a non-adjacent form of the integer (R219, R220, R244). -/
def Obligations.NafDigits : Prop :=
  ∀ (s : State) (ss : SIdx) (w : BitVec 4) (addr : Addr),
    (2 ≤ w.toNat → w.toNat ≤ 8 → s.sOk ss → inDm addr.toNat 256 →
      ∃ ds : List Int, exec (.snaf ss w addr) s = .next (s.stored addr (ds.map digitByte)).retire ∧ ds.length = 256 ∧
        digitSum 2 ds = s.sv ss ∧ nafShape w.toNat ds) ∧
    (w.toNat < 2 ∨ 8 < w.toNat → exec (.snaf ss w addr) s = .next (s.faulted .illegal (encode (.snaf ss w addr))))

/-- PID, PBASE, PMOV, PNEG (R13, R252, R269, R285, R286, R287, R288). -/
def Obligations.PointSetup : Prop :=
  (∀ (s : State) (pd pa : PIdx),
    exec (.pid pd) s = .next (s.writeP pd ⟨⟨0, 0, 0, 0, 0⟩, ⟨1, 0, 0, 0, 0⟩, ⟨1, 0, 0, 0, 0⟩, ⟨0, 0, 0, 0, 0⟩⟩).retire ∧
    exec (.pbase pd) s = .next (s.writeP pd basePoint).retire ∧
    (s.pOk pa → exec (.pmov pd pa) s = .next (s.writeP pd (s.pv pa)).retire ∧
      ((s.pv pa).bounded → ∃ Q : Ext, exec (.pneg pd pa) s = .next (s.writeP pd Q).retire ∧
        Q.X.gf = -(s.pv pa).X.gf ∧ Q.Y = (s.pv pa).Y ∧ Q.Z = (s.pv pa).Z ∧ Q.T.gf = -(s.pv pa).T.gf))) ∧
    basePoint.Z = ⟨1, 0, 0, 0, 0⟩ ∧ 5 * feVal basePoint.Y % fieldPrime = 4 ∧ feVal basePoint.X % 2 = 0 ∧
    feVal basePoint.T = feVal basePoint.X * feVal basePoint.Y % fieldPrime ∧ basePoint.onCurve

/-- PADD, PSUB, PDBL, PMUL8 compute the group law of the curve, and their results are points again (R12, R35, R264,
R265, R266, R268, R270, R289, R290, R291, R292). -/
def Obligations.PointGroupLaw : Prop :=
  ∀ (s : State) (pd pa pb : PIdx), s.pOk pa → (s.pv pa).bounded → (s.pv pa).onCurve →
    (s.pOk pb → (s.pv pb).bounded → (s.pv pb).onCurve →
      (∃ R : Ext, exec (.padd pd pa pb) s = .next (s.writeP pd R).retire ∧ Ext.isSum (s.pv pa) (s.pv pb) R ∧
        ((s.pv pa).isPoint → (s.pv pb).isPoint → R.isPoint)) ∧
      ∃ R : Ext, exec (.psub pd pa pb) s = .next (s.writeP pd R).retire ∧
        Ext.isSum (s.pv pa) (edNeg (s.pv pb)) R ∧ ((s.pv pa).isPoint → (s.pv pb).isPoint → R.isPoint)) ∧
    (∃ R : Ext, exec (.pdbl pd pa) s = .next (s.writeP pd R).retire ∧ Ext.isSum (s.pv pa) (s.pv pa) R ∧
      ((s.pv pa).isPoint → R.isPoint)) ∧
    ∃ R2 R4 R8 : Ext, exec (.pdbl pd pa) s = .next (s.writeP pd R2).retire ∧
      exec (.pdbl pd pd) (s.writeP pd R2) = .next ((s.writeP pd R2).writeP pd R4).retire ∧
      exec (.pdbl pd pd) (s.writeP pd R4) = .next ((s.writeP pd R4).writeP pd R8).retire ∧
      exec (.pmul8 pd pa) s = .next (s.writeP pd R8).retire ∧ ((s.pv pa).isPoint → R8.isPoint)

/-- PCMP writes y and the parity of x; PDEC accepts exactly such strings of curve points and gives the point back
(R262, R263, R271, R284, R293, R294, R474). -/
def Obligations.PointEncodeDecode : Prop :=
  ∀ (s : State) (pd ps : PIdx) (cd : CIdx) (addr : Addr), inDm addr.toNat 32 →
    (s.pOk ps → exec (.pcmp ps addr) s = .next (s.stored addr (edCompress (s.pv ps))).retire ∧
      (edCompress (s.pv ps)).length = 32 ∧
      ((s.pv ps).bounded → (s.pv ps).isPoint → ∃ x y : Nat, x < fieldPrime ∧ y < fieldPrime ∧
        (x : ZMod fieldPrime) * (s.pv ps).Z.gf = (s.pv ps).X.gf ∧
        (y : ZMod fieldPrime) * (s.pv ps).Z.gf = (s.pv ps).Y.gf ∧
        edCompress (s.pv ps) = bytesOf 32 (y + 2 ^ 255 * (x % 2)))) ∧
    ((∃ P : Ext, exec (.pdec pd cd addr) s = .next ((s.writeP pd P).writeC cd true).retire ∧
        P.bounded ∧ P.onCurve ∧ P.Z = feOne ∧ feVal P.Y = le (s.dm.readBytes addr.toNat 32) % 2 ^ 255 ∧
        edCompress P = s.dm.readBytes addr.toNat 32) ∨
      exec (.pdec pd cd addr) s = .next ((s.clearP pd).writeC cd false).retire ∧
        edDecompress (s.dm.readBytes addr.toNat 32) = none) ∧
    ∀ P : Ext, P.bounded → P.isPoint → s.dm.readBytes addr.toNat 32 = edCompress P →
      ∃ Q : Ext, exec (.pdec pd cd addr) s = .next ((s.writeP pd Q).writeC cd true).retire ∧ Q.isPoint ∧ Q.same P

/-- PEQ and PISID compare affine points; PSMALL tests [8]P, PTORF tests [l]P (R272, R273, R295, R296, R297, R298). -/
def Obligations.PointTests : Prop :=
  ∀ (s : State) (pa pb : PIdx) (cd : CIdx), s.pOk pa → (s.pv pa).bounded →
    (s.pOk pb → (s.pv pb).bounded → exec (.peq cd pa pb) s = .next (s.writeC cd (decide (
      feVal (s.pv pa).X * feVal (s.pv pb).Z % fieldPrime = feVal (s.pv pb).X * feVal (s.pv pa).Z % fieldPrime ∧
      feVal (s.pv pa).Y * feVal (s.pv pb).Z % fieldPrime = feVal (s.pv pb).Y * feVal (s.pv pa).Z % fieldPrime))).retire) ∧
    exec (.pisid cd pa) s = .next (s.writeC cd (decide (
      feVal (s.pv pa).X = 0 ∧ feVal (s.pv pa).Y = feVal (s.pv pa).Z))).retire ∧
    (∃ R b, exec (.pmul8 pa pa) s = .next (s.writeP pa R).retire ∧
      exec (.pisid cd pa) (s.writeP pa R) = .next ((s.writeP pa R).writeC cd b).retire ∧
      exec (.psmall cd pa) s = .next (s.writeC cd b).retire) ∧
    ∃ R b, R = edMulVar groupOrder (s.pv pa) ∧
      exec (.pisid cd pa) (s.writeP pa R) = .next ((s.writeP pa R).writeC cd b).retire ∧
      exec (.ptorf cd pa) s = .next (s.writeC cd b).retire

/-- PTOM, PFROMM and PH2C: the maps to and from the Montgomery curve, and when PFROMM accepts (R262, R275, R276, R282,
R299, R300, R301). -/
def Obligations.PointMaps : Prop :=
  ∀ (s : State) (fd fa : FIdx) (pd pa : PIdx) (cd : CIdx) (bit : BitVec 1),
    (s.pOk pa → (s.pv pa).bounded → ∃ x, exec (.ptom fd pa) s = .next (s.writeF fd x).retire ∧
      x.gf = ((s.pv pa).Z.gf + (s.pv pa).Y.gf) * ((s.pv pa).Z.gf - (s.pv pa).Y.gf) ^ (2 ^ 255 - 21)) ∧
    (s.fOk fa → (s.fv fa).bounded →
      (∀ y, y = ((s.fv fa).gf - 1) * ((s.fv fa).gf + 1) ^ (2 ^ 255 - 21) →
        ((feVal (s.fv fa) = fieldPrime - 1 ∨
            ∀ x : ZMod fieldPrime, y ^ 2 - x ^ 2 ≠ 1 + edwardsD.gf * x ^ 2 * y ^ 2) →
          exec (.pfromm pd cd fa bit) s = .next ((s.clearP pd).writeC cd false).retire ∧
          montToEdwards (s.fv fa) (bit.getLsbD 0) = none) ∧
        (feVal (s.fv fa) ≠ fieldPrime - 1 →
          ∀ x : ZMod fieldPrime, y ^ 2 - x ^ 2 = 1 + edwardsD.gf * x ^ 2 * y ^ 2 →
            ∃ P : Ext, exec (.pfromm pd cd fa bit) s = .next ((s.writeP pd P).writeC cd true).retire ∧
              P.bounded ∧ P.onCurve ∧ P.Z = feOne ∧ P.Y.gf = y ∧ (P.X.gf = x ∨ P.X.gf = -x) ∧
              (feVal P.X = 0 ∨ feVal P.X % 2 = bit.toNat)))) ∧
    (s.msgIn →
      (exec (.ph2c pd cd) s = .next ((s.clearP pd).writeC cd false).retire ∧
        hashToCurve (Config.digest s.msgBytes).toList = none) ∨
      ∃ P E : Ext, exec (.ph2c pd cd) s = .next ((s.writeP pd P).writeC cd true).retire ∧
        hashToCurve (Config.digest s.msgBytes).toList = some P ∧ E.onCurve ∧ P = edMul8 E)

/-- PMULV, PMULB, PDSM, PMAC compute [n]P, [n]B, [a]P + [b]B and Q + [n]P for the integers held; zero gives the
identity (R310, R311, R314, R315, R317, R321, R326, R327, R328, R329). -/
def Obligations.EngineCommands : Prop :=
  ∀ (s : State) (pd pb : PIdx) (sa sc : SIdx), s.sOk sa →
    (∃ Q, exec (.pmulb pd sa) s = .next (s.writeP pd Q).retire ∧ Q = edMulBase (s.sv sa) ∧
      (∀ A : Ext, Ext.Combines A basePoint 0 (s.sv sa) Q) ∧
      (s.sv sa = 0 → feVal Q.X = 0 ∧ feVal Q.Y = feVal Q.Z ∧ feVal Q.Z ≠ 0)) ∧
    (s.pOk pb → ∃ Q, exec (.pmulv pd sa pb) s = .next (s.writeP pd Q).retire ∧ Q = edMulVar (s.sv sa) (s.pv pb) ∧
      ((s.pv pb).bounded → (s.pv pb).isPoint → Ext.Combines (s.pv pb) basePoint (s.sv sa) 0 Q) ∧
      (s.sv sa = 0 → feVal Q.X = 0 ∧ feVal Q.Y = feVal Q.Z ∧ feVal Q.Z ≠ 0)) ∧
    (s.pOk pb → s.sOk sc → ∃ Q, exec (.pdsm pd sa pb sc) s = .next (s.writeP pd Q).retire ∧
      Q = edDoubleScalarMul (s.sv sa) (s.pv pb) (s.sv sc) ∧
      ((s.pv pb).bounded → (s.pv pb).isPoint → Ext.Combines (s.pv pb) basePoint (s.sv sa) (s.sv sc) Q) ∧
      (s.sv sa = 0 → s.sv sc = 0 → Q = edIdentity)) ∧
    (s.pOk pb → s.pOk pd → exec (.pmac pd sa pb) s =
        .next (s.writeP pd (edAdd (s.pv pd) (edDoubleScalarMul (s.sv sa) (s.pv pb) 0))).retire ∧
      ((s.pv pb).bounded → (s.pv pb).isPoint → (s.pv pd).bounded → (s.pv pd).isPoint →
        ∃ M Q : Ext, exec (.pmac pd sa pb) s = .next (s.writeP pd Q).retire ∧
          Ext.Combines (s.pv pb) basePoint (s.sv sa) 0 M ∧ Ext.isSum (s.pv pd) M Q ∧ Q.isPoint))

/-- The constant-time table scan selects the entry |d|, negated for d < 0 (R312, R313, R316). -/
def Obligations.TableScanSelects : Prop :=
  (∀ (table : List PNiels) (d : Int), table.length = 8 → -8 ≤ d → d ≤ 8 →
    selPniels table d =
      if 0 < d then table.getD (d.natAbs - 1) PNiels.neutral
      else if d = 0 then PNiels.neutral
      else
        let e := table.getD (d.natAbs - 1) PNiels.neutral
        ⟨e.YmX, e.YpX, e.Z, feNeg e.T2d⟩) ∧
    ∀ (table : List ANiels) (d : Int), table.length = 8 → -8 ≤ d → d ≤ 8 →
      selAniels table d =
        if 0 < d then table.getD (d.natAbs - 1) ANiels.neutral
        else if d = 0 then ANiels.neutral
        else
          let e := table.getD (d.natAbs - 1) ANiels.neutral
          ⟨e.ymx, e.ypx, feNeg e.xy2d⟩

/-- X25519 clamps the scalar and runs the Montgomery ladder of the curve A = 486662; XCHK reports the zero value
(R213, R340, R341, R342, R343, R344, R345, R348, R349, R486). -/
def Obligations.LadderCommands : Prop :=
  ∀ (s : State) (fd fb : FIdx) (sa : SIdx) (cd : CIdx), s.fOk fb → (s.fv fb).bounded →
    (s.sOk sa → ∃ x, exec (.x25519 fd sa fb) s = .next (s.writeF fd x).retire ∧
      x = x25519Ladder (clampInteger (s.sv sa)) (s.fv fb) ∧
      x.gf = (gfLadder (clampInteger (s.sv sa)) (s.fv fb).gf 255 (1, 0, (s.fv fb).gf, 1)).1 *
        (gfLadder (clampInteger (s.sv sa)) (s.fv fb).gf 255 (1, 0, (s.fv fb).gf, 1)).2.1 ^ (2 ^ 255 - 21) ∧
      clampInteger (clampInteger (s.sv sa)) = clampInteger (s.sv sa) ∧
      (∀ j, (clampInteger (s.sv sa)).testBit j =
        if j < 3 then false else if j < 254 then (s.sv sa).testBit j else decide (j = 254)) ∧
      (feVal (s.fv fb) = 0 → feVal x = 0)) ∧
    (feVal (s.fv fb) = 0 → exec (.xchk cd fb) s = .next ((s.writeC cd true).setResult .allZeroOutput).retire) ∧
    (feVal (s.fv fb) ≠ 0 → exec (.xchk cd fb) s = .next ((s.writeC cd false).setResult .ok).retire)

/-- RDEC and RENC decode and encode; RDEC accepts only canonical non-negative strings; REQ is the quotient relation;
RELL, RH2G (R361, R362, R363, R365, R370, R371, R372, R373, R374). -/
def Obligations.RistrettoCommands : Prop :=
  ∀ (s : State) (pd pa pb : PIdx) (cd : CIdx) (fa : FIdx) (addr : Addr),
    (inDm addr.toNat 32 →
      exec (.rdec pd cd addr) s = .next ((s.clearP pd).writeC cd false).retire ∧
        risDecode (s.dm.readBytes addr.toNat 32) = none ∨
      ∃ (P : Ext) (n : Nat), exec (.rdec pd cd addr) s = .next ((s.writeP pd P).writeC cd true).retire ∧
        risDecode (s.dm.readBytes addr.toNat 32) = some P ∧
        n = le (s.dm.readBytes addr.toNat 32) ∧ n < fieldPrime ∧ n % 2 = 0 ∧
        P.Z = feOne ∧ P.coherent ∧ feVal P.X % 2 = 0 ∧ feVal P.T % 2 = 0 ∧ feVal P.Y ≠ 0 ∧
        P.Y.gf * (1 + (n : ZMod fieldPrime) ^ 2) = 1 - (n : ZMod fieldPrime) ^ 2 ∧
        P.X.gf ^ 2 * (-edwardsD.gf * (1 - (n : ZMod fieldPrime) ^ 2) ^ 2 - (1 + (n : ZMod fieldPrime) ^ 2) ^ 2) =
          4 * (n : ZMod fieldPrime) ^ 2) ∧
    (inDm addr.toNat 32 → s.pOk pa → (s.pv pa).bounded → ∃ b, exec (.renc pa addr) s = .next (s.stored addr b).retire ∧
      b = risEncode (s.pv pa) ∧
      b.length = 32 ∧ le b < fieldPrime ∧ le b % 2 = 0) ∧
    (s.pOk pa → s.pOk pb → (s.pv pa).bounded → (s.pv pb).bounded → exec (.req cd pa pb) s = .next (s.writeC cd (decide (
      feVal (s.pv pa).X * feVal (s.pv pb).Y % fieldPrime = feVal (s.pv pa).Y * feVal (s.pv pb).X % fieldPrime ∨
      feVal (s.pv pa).X * feVal (s.pv pb).X % fieldPrime = feVal (s.pv pa).Y * feVal (s.pv pb).Y % fieldPrime))).retire) ∧
    (s.fOk fa → exec (.rell pd fa) s = .next (s.writeP pd (risElligator (s.fv fa))).retire) ∧
    (inDm addr.toNat 64 → exec (.rh2g pd addr) s = .next (s.writeP pd (edMul8 (edAdd
      (risElligator (feFromBytes (s.dm.readBytes addr.toNat 32)))
      (risElligator (feFromBytes (s.dm.readBytes (addr.toNat + 32) 32)))))).retire)

/-- KEYGEN expands the seed, KEYPUB exports A, KEYCLR clears the slot (R38, R391, R394, R395, R400). -/
def Obligations.KeyCommands : Prop :=
  ∀ (s : State) (addr : Addr),
    (inDm addr.toNat 32 → ∃ k : KeySlot, exec (.keygen addr) s = .next ((s.setKey k).setResult .ok).retire ∧
      k.valid = true ∧ k.seed.toList = s.dm.readBytes addr.toNat 32 ∧
      k.a.toNat = clampInteger (le ((Config.digest (s.dm.readBytes addr.toNat 32)).toList.take 32)) ∧
      2 ^ 254 ≤ k.a.toNat ∧ k.a.toNat % 8 = 0 ∧
      k.pfx.toList = (Config.digest (s.dm.readBytes addr.toNat 32)).toList.drop 32 ∧
      k.pub.toList = edCompress (edMulBase k.a.toNat)) ∧
    (s.key.valid = true → inDm addr.toNat 32 →
      exec (.keypub addr) s = .next (s.stored addr s.key.pub.toList).retire) ∧
    exec .keyclr s = .next { s with key := ⟨.replicate 32 0, 0, .replicate 32 0, .replicate 32 0, false⟩, cc := s.cc + 1 }

/-- SIGN, SIGNCTX, SIGNPH, SIGNR store the signature of R392 (R392, R393, R396, R397, R398, R399, R503). -/
def Obligations.SignCommands : Prop :=
  ∀ (s : State) (addr : Addr), s.key.valid = true → s.msgIn → inDm addr.toNat 64 →
    exec (.sign addr) s = .next ((s.stored addr (signatureOf s.key [] s.msgBytes [])).setResult .ok).retire ∧
    (exec (.signr addr) s = .next
      ((s.stored addr (signatureOf s.key [] s.msgBytes (s.rngBytes 32))).noteDraw.setResult .ok).retire) ∧
    (s.clen.toNat ≤ 255 → s.ctxIn →
      exec (.signctx addr) s = .next
        ((s.stored addr (signatureOf s.key (dom2 0 s.ctxBytes) s.msgBytes [])).setResult .ok).retire ∧
      (s.prehashOn = true → s.mlen = 64 →
        exec (.signph addr) s = .next
          ((s.stored addr (signatureOf s.key (dom2 1 s.ctxBytes) s.msgBytes [])).setResult .ok).retire))

/-- CLEN > 255 retires the four context commands with RESULT 5 (R485). -/
def Obligations.ContextTooLong : Prop :=
  ∀ (s : State) (cd : CIdx) (addr : Addr), 255 < s.clen.toNat →
    (s.key.valid = true → exec (.signctx addr) s = .next (s.setResult .contextTooLong).retire) ∧
    (s.key.valid = true → s.prehashOn = true → s.mlen = 64 →
      exec (.signph addr) s = .next (s.setResult .contextTooLong).retire) ∧
    exec (.verifyctx cd addr) s = .next ((s.writeC cd false).setResult .contextTooLong).retire ∧
    (s.prehashOn = true → s.mlen = 64 →
      exec (.verifyph cd addr) s = .next ((s.writeC cd false).setResult .contextTooLong).retire)

/-- VERIFY, VERIFYCTX, VERIFYPH write one verdict of the triple, the message and the knobs (R420, R421, R429, R430,
R431). -/
def Obligations.VerifyCommands : Prop :=
  ∀ (s : State) (cd : CIdx) (addr : Addr), inDm addr.toNat 96 → s.msgIn →
    let code := fun dom => verifyCore s.knobs dom (s.dm.readBytes addr.toNat 32) (s.dm.readBytes (addr.toNat + 32) 32)
      (s.dm.readBytes (addr.toNat + 64) 32) s.msgBytes
    let done := fun r : ResultCode => Host.Outcome.next (φ := Fault) (ρ := Refusal) ((s.writeC cd (decide (r = .ok))).setResult r).retire
    exec (.verify cd addr) s = done (code []) ∧
    (s.clen.toNat ≤ 255 → s.ctxIn → exec (.verifyctx cd addr) s = done (code (dom2 0 s.ctxBytes)) ∧
      (s.prehashOn = true → s.mlen = 64 → exec (.verifyph cd addr) s = done (code (dom2 1 s.ctxBytes))))

/-- The first failing check of verification decides the result code; the strict and the cofactored equation (R421,
R422, R423, R424, R425, R426, R427, R480, R481, R482, R483). -/
def Obligations.VerifyCheckOrder : Prop :=
  (∀ Q R : Ext, Q.bounded → R.bounded →
    (acceptEquation false Q R = true ↔ Q.same R) ∧
    (Q.isPoint → R.isPoint → (acceptEquation true Q R = true ↔ ∃ D D2 D4 D8 : Ext,
      D.isPoint ∧ D2.isPoint ∧ D4.isPoint ∧ D8.isPoint ∧ Ext.isSum Q (edNeg R) D ∧ Ext.isSum D D D2 ∧
      Ext.isSum D2 D2 D4 ∧ Ext.isSum D4 D4 D8 ∧ D8.isIdentity))) ∧
  ∀ (cfg : Knobs) (dom ab rb sb m : List Byte),
    (edDecompress ab = none → verifyCore cfg dom ab rb sb m = .invalidEncoding) ∧
    ∀ A, edDecompress ab = some A →
      (cfg.vsso = true → edIsSmallOrder A = true → verifyCore cfg dom ab rb sb m = .weakPublicKey) ∧
      (¬ (cfg.vsso = true ∧ edIsSmallOrder A = true) →
        (edDecompress rb = none → verifyCore cfg dom ab rb sb m = .invalidEncoding) ∧
        ∀ R, edDecompress rb = some R →
          (groupOrder ≤ le sb → cfg.vrncs = true → verifyCore cfg dom ab rb sb m = .invalidEncoding) ∧
          (¬ (groupOrder ≤ le sb ∧ cfg.vrncs = true) →
            verifyCore cfg dom ab rb sb m =
              if acceptEquation cfg.vcof
                (edDoubleScalarMul ((groupOrder - digestMod (dom ++ rb ++ ab ++ m)) % groupOrder) A (le sb % groupOrder)) R
              then .ok else .signatureMismatch))

/-- Relaxing VSSO, VRNCS or strictness lifts only the rejection that knob makes (R61, R426, R427, R435). -/
def Obligations.VerifyKnobsAreMonotone : Prop :=
  ∀ (cfg : Knobs) (dom ab rb sb m : List Byte),
    (verifyCore { cfg with vsso := false } dom ab rb sb m = verifyCore cfg dom ab rb sb m ∨
      verifyCore cfg dom ab rb sb m = .weakPublicKey) ∧
    (verifyCore { cfg with vrncs := false } dom ab rb sb m = verifyCore cfg dom ab rb sb m ∨
      verifyCore cfg dom ab rb sb m = .invalidEncoding ∧ groupOrder ≤ le sb) ∧
    (verifyCore { cfg with vcof := true } dom ab rb sb m = verifyCore cfg dom ab rb sb m ∨
      verifyCore cfg dom ab rb sb m = .signatureMismatch)

/-- VBBEGIN opens, VBADD adds or rejects one entry, VBEND evaluates; the order is enforced (R39, R428, R432, R433,
R434, R476, R484, R503). -/
def Obligations.BatchCommands : Prop :=
  ∀ (s : State) (cd : CIdx) (addr : Addr),
    (s.batchOn = true →
      exec .vbbegin s = .next ((s.setBatch ⟨0, edIdentity, 0, true, true⟩).setResult .ok).retire ∧
      (s.batch.active = true →
        (inDm addr.toNat 96 → s.msgIn →
          let ab := s.dm.readBytes addr.toNat 32
          let rb := s.dm.readBytes (addr.toNat + 32) 32
          let n := le (s.dm.readBytes (addr.toNat + 64) 32)
          let z := le (s.rngBytes 16)
          ((edDecompress ab = none ∨ edDecompress rb = none ∨ groupOrder ≤ n ∧ s.knobs.vrncs = true) →
            exec (.vbadd addr) s = .next ((s.setBatch { s.batch with count := s.batch.count + 1, ok := false }).setResult
              .invalidEncoding).retire) ∧
          ∀ A R, edDecompress ab = some A → edDecompress rb = some R → ¬ (groupOrder ≤ n ∧ s.knobs.vrncs = true) →
            exec (.vbadd addr) s = .next ((s.setBatch ⟨BitVec.ofNat 255 ((s.batch.sum.toNat + z * (n % groupOrder)) % groupOrder),
              edAdd (edAdd s.batch.point (edMulVar (z * digestMod (rb ++ ab ++ s.msgBytes) % groupOrder) A))
                (edMulVar z R), s.batch.count + 1, s.batch.ok, s.batch.active⟩).noteDraw.setResult .ok).retire) ∧
        ∃ ok, ok = (s.batch.ok && edIsIdentity (edSub (edMulBase s.batch.sum.toNat) s.batch.point)) ∧
          exec (.vbend cd) s = .next (((s.writeC cd ok).setResult (if ok then .ok else .batchFailure)).setBatch
            { s.batch with active := false }).retire) ∧
      (s.batch.active = false →
        exec (.vbadd addr) s = .next (s.faulted .sequence (encode (.vbadd addr))) ∧
        exec (.vbend cd) s = .next (s.faulted .sequence (encode (.vbend cd))))) ∧
    (s.batchOn = false →
      exec .vbbegin s = .next (s.faulted .illegal (encode .vbbegin)) ∧
      exec (.vbadd addr) s = .next (s.faulted .illegal (encode (.vbadd addr))) ∧
      exec (.vbend cd) s = .next (s.faulted .illegal (encode (.vbend cd))))

/-- No step lets the seed of the key slot reach any other state (R38, R76, R520). -/
def Obligations.SeedNeverLeaks : Prop :=
  ∀ (s t : State) (x : Vector Byte 32), step s = .next t →
    ∃ t', step (s.withSeed x) = .next t' ∧ ∀ y, t'.withSeed y = t.withSeed y

/-- No bus read shows the seed, a or the prefix of the key slot (R38, R59, R62, R74). -/
def Obligations.BusHidesTheSecretKey : Prop :=
  ∀ (s t : State) (m : HostMove) (ms : List HostMove) (seed pfx : Vector Byte 32) (a : ScalarInt),
    s.host = m :: ms → (∃ o, m = .readWord o ∨ m = .readByte o) → step s = .next t →
    step (s.withSecrets seed a pfx) = .next (t.withSecrets seed a pfx)

/-- CFG, MADDR, MLEN, CADDR, CLEN read back what was written, reserved bits 0 (R59, R61, R68, R69, R70, R71). -/
def Obligations.HostRegistersKeepTheirBits : Prop :=
  ∀ (s : State) (w : Word) (ms : List HostMove),
    ∀ p ∈ ([(0x004#32, 0x1F#32), (0x020#32, 0xFFF#32), (0x024#32, 0x1FFF#32), (0x028#32, 0xFFF#32),
      (0x02C#32, 0x1FF#32)] : List (Word × Word)),
      s.host = .writeWord p.1 w :: .readWord p.1 :: ms →
      ∃ t, step s = .next t ∧ step t = .next { t with host := ms, busData := w &&& p.2 } ∧
        t.host = .readWord p.1 :: ms ∧ t.busData = s.busData ∧ t.dm = s.dm ∧ t.result = s.result ∧ t.cc = s.cc

/-- What the host reads at ID, STATUS, FLAGS, RESULT, ERR, ERRINFO, CC; word writes to these and to unlisted offsets
are ignored (R59, R60, R62, R63, R64, R65, R66, R67, R522). That the answer stands in the field busData is log 4, a
DESIGN CHOICE; that a word write to an unlisted offset that is no multiple of 4 is ignored too, as R59 says of every
access there, is log 7. -/
def Obligations.HostViews : Prop :=
  ∀ (s : State) (ms : List HostMove),
    (∀ o, s.host = .readWord o :: ms → o ∈ ([0x000#32, 0x008#32, 0x00C#32, 0x010#32, 0x014#32, 0x018#32, 0x01C#32] : List Word) →
      ∃ v, step s = .next { s with host := ms, busData := v } ∧
        (o = 0x000#32 → v = 0x444C0007#32) ∧
        (o = 0x008#32 → ∀ j, v.getLsbD j = if j = 1 then s.halt else if j = 2 then s.key.valid else false) ∧
        (o = 0x00C#32 → (∀ i : CIdx, v.getLsbD i.val = (s.cv i && (s.cReg.get i).valid) ∧
          v.getLsbD (8 + i.val) = (s.cReg.get i).valid) ∧ ∀ j, 16 ≤ j → v.getLsbD j = false) ∧
        (o = 0x010#32 → v = BitVec.ofNat 32 s.result.code) ∧
        (o = 0x014#32 → v = BitVec.ofNat 32 s.err.code) ∧
        (o = 0x018#32 → v = s.errInfo) ∧ (o = 0x01C#32 → v = s.cc)) ∧
    (∀ o w, s.host = .writeWord o w :: ms →
      o ∈ ([0x000#32, 0x008#32, 0x00C#32, 0x010#32, 0x014#32, 0x018#32, 0x01C#32] : List Word) ∨
        0x038 ≤ o.toNat ∧ o.toNat < 0x1000 ∨ 0x2000 ≤ o.toNat →
      step s = .next { s with host := ms })

/-- The DM window stores and loads bytes and little-endian aligned words (R74, R81, R85, R90). That a byte read
answers with bits 31:8 zero is the model's choice, because the spec gives a byte access no 32-bit value: log 4, DESIGN
CHOICE. -/
def Obligations.DmWindow : Prop :=
  ∀ (s : State) (ms : List HostMove) (a : Nat), s.dm.wf → a < 4096 →
    (∀ b, s.host = .writeByte (BitVec.ofNat 32 (0x1000 + a)) b :: ms → ∃ t, step s = .next t ∧
      (∀ k, t.dm.read k = if k = a then b else s.dm.read k) ∧ t = { s with host := ms, dm := t.dm }) ∧
    (s.host = .readByte (BitVec.ofNat 32 (0x1000 + a)) :: ms →
      step s = .next { s with host := ms, busData := (s.dm.read a).setWidth 32 }) ∧
    (a % 4 = 0 →
      (∀ w, s.host = .writeWord (BitVec.ofNat 32 (0x1000 + a)) w :: ms → ∃ t, step s = .next t ∧
        (∀ j, j < 4 → t.dm.read (a + j) = w.extractLsb' (8 * j) 8) ∧
        (∀ k, k < a ∨ a + 4 ≤ k → t.dm.read k = s.dm.read k) ∧ t = { s with host := ms, dm := t.dm }) ∧
      (s.host = .readWord (BitVec.ofNat 32 (0x1000 + a)) :: ms →
        step s = .next (State.answer { s with host := ms }
          (s.dm.read (a + 3) ++ s.dm.read (a + 2) ++ s.dm.read (a + 1) ++ s.dm.read a))))
end

