-- ==== Sys2Proof/Laws/State.lean ====
section
/-! SUPPORT. One lemma per field of State per update, so that no proof unfolds a record update, and the register a
write leaves at each number. -/

namespace Sys2Proof.Machine

variable (s : State)

@[simp] theorem State.writeF_fReg (i : FIdx) (v : Fe) : (s.writeF i v).fReg = s.fReg.set i ⟨v, true⟩ := rfl
@[simp] theorem State.writeF_sReg (i : FIdx) (v : Fe) : (s.writeF i v).sReg = s.sReg := rfl
@[simp] theorem State.writeF_pReg (i : FIdx) (v : Fe) : (s.writeF i v).pReg = s.pReg := rfl
@[simp] theorem State.writeF_cReg (i : FIdx) (v : Fe) : (s.writeF i v).cReg = s.cReg := rfl
@[simp] theorem State.writeF_key (i : FIdx) (v : Fe) : (s.writeF i v).key = s.key := rfl
@[simp] theorem State.writeF_batch (i : FIdx) (v : Fe) : (s.writeF i v).batch = s.batch := rfl
@[simp] theorem State.writeF_dm (i : FIdx) (v : Fe) : (s.writeF i v).dm = s.dm := rfl
@[simp] theorem State.writeF_cfg (i : FIdx) (v : Fe) : (s.writeF i v).cfg = s.cfg := rfl
@[simp] theorem State.writeF_halt (i : FIdx) (v : Fe) : (s.writeF i v).halt = s.halt := rfl
@[simp] theorem State.writeF_result (i : FIdx) (v : Fe) : (s.writeF i v).result = s.result := rfl
@[simp] theorem State.writeF_err (i : FIdx) (v : Fe) : (s.writeF i v).err = s.err := rfl
@[simp] theorem State.writeF_errInfo (i : FIdx) (v : Fe) : (s.writeF i v).errInfo = s.errInfo := rfl
@[simp] theorem State.writeF_cc (i : FIdx) (v : Fe) : (s.writeF i v).cc = s.cc := rfl
@[simp] theorem State.writeF_maddr (i : FIdx) (v : Fe) : (s.writeF i v).maddr = s.maddr := rfl
@[simp] theorem State.writeF_mlen (i : FIdx) (v : Fe) : (s.writeF i v).mlen = s.mlen := rfl
@[simp] theorem State.writeF_caddr (i : FIdx) (v : Fe) : (s.writeF i v).caddr = s.caddr := rfl
@[simp] theorem State.writeF_clen (i : FIdx) (v : Fe) : (s.writeF i v).clen = s.clen := rfl
@[simp] theorem State.writeF_host (i : FIdx) (v : Fe) : (s.writeF i v).host = s.host := rfl
@[simp] theorem State.writeF_busData (i : FIdx) (v : Fe) : (s.writeF i v).busData = s.busData := rfl
@[simp] theorem State.writeF_rngDraws (i : FIdx) (v : Fe) : (s.writeF i v).rngDraws = s.rngDraws := rfl

@[simp] theorem State.writeS_fReg (i : SIdx) (n : Nat) : (s.writeS i n).fReg = s.fReg := rfl
@[simp] theorem State.writeS_sReg (i : SIdx) (n : Nat) : (s.writeS i n).sReg = s.sReg.set i ⟨BitVec.ofNat 255 n, true⟩ := rfl
@[simp] theorem State.writeS_pReg (i : SIdx) (n : Nat) : (s.writeS i n).pReg = s.pReg := rfl
@[simp] theorem State.writeS_cReg (i : SIdx) (n : Nat) : (s.writeS i n).cReg = s.cReg := rfl
@[simp] theorem State.writeS_key (i : SIdx) (n : Nat) : (s.writeS i n).key = s.key := rfl
@[simp] theorem State.writeS_batch (i : SIdx) (n : Nat) : (s.writeS i n).batch = s.batch := rfl
@[simp] theorem State.writeS_dm (i : SIdx) (n : Nat) : (s.writeS i n).dm = s.dm := rfl
@[simp] theorem State.writeS_cfg (i : SIdx) (n : Nat) : (s.writeS i n).cfg = s.cfg := rfl
@[simp] theorem State.writeS_halt (i : SIdx) (n : Nat) : (s.writeS i n).halt = s.halt := rfl
@[simp] theorem State.writeS_result (i : SIdx) (n : Nat) : (s.writeS i n).result = s.result := rfl
@[simp] theorem State.writeS_err (i : SIdx) (n : Nat) : (s.writeS i n).err = s.err := rfl
@[simp] theorem State.writeS_errInfo (i : SIdx) (n : Nat) : (s.writeS i n).errInfo = s.errInfo := rfl
@[simp] theorem State.writeS_cc (i : SIdx) (n : Nat) : (s.writeS i n).cc = s.cc := rfl
@[simp] theorem State.writeS_maddr (i : SIdx) (n : Nat) : (s.writeS i n).maddr = s.maddr := rfl
@[simp] theorem State.writeS_mlen (i : SIdx) (n : Nat) : (s.writeS i n).mlen = s.mlen := rfl
@[simp] theorem State.writeS_caddr (i : SIdx) (n : Nat) : (s.writeS i n).caddr = s.caddr := rfl
@[simp] theorem State.writeS_clen (i : SIdx) (n : Nat) : (s.writeS i n).clen = s.clen := rfl
@[simp] theorem State.writeS_host (i : SIdx) (n : Nat) : (s.writeS i n).host = s.host := rfl
@[simp] theorem State.writeS_busData (i : SIdx) (n : Nat) : (s.writeS i n).busData = s.busData := rfl
@[simp] theorem State.writeS_rngDraws (i : SIdx) (n : Nat) : (s.writeS i n).rngDraws = s.rngDraws := rfl

@[simp] theorem State.writeP_fReg (i : PIdx) (v : Ext) : (s.writeP i v).fReg = s.fReg := rfl
@[simp] theorem State.writeP_sReg (i : PIdx) (v : Ext) : (s.writeP i v).sReg = s.sReg := rfl
@[simp] theorem State.writeP_pReg (i : PIdx) (v : Ext) : (s.writeP i v).pReg = s.pReg.set i ⟨v, true⟩ := rfl
@[simp] theorem State.writeP_cReg (i : PIdx) (v : Ext) : (s.writeP i v).cReg = s.cReg := rfl
@[simp] theorem State.writeP_key (i : PIdx) (v : Ext) : (s.writeP i v).key = s.key := rfl
@[simp] theorem State.writeP_batch (i : PIdx) (v : Ext) : (s.writeP i v).batch = s.batch := rfl
@[simp] theorem State.writeP_dm (i : PIdx) (v : Ext) : (s.writeP i v).dm = s.dm := rfl
@[simp] theorem State.writeP_cfg (i : PIdx) (v : Ext) : (s.writeP i v).cfg = s.cfg := rfl
@[simp] theorem State.writeP_halt (i : PIdx) (v : Ext) : (s.writeP i v).halt = s.halt := rfl
@[simp] theorem State.writeP_result (i : PIdx) (v : Ext) : (s.writeP i v).result = s.result := rfl
@[simp] theorem State.writeP_err (i : PIdx) (v : Ext) : (s.writeP i v).err = s.err := rfl
@[simp] theorem State.writeP_errInfo (i : PIdx) (v : Ext) : (s.writeP i v).errInfo = s.errInfo := rfl
@[simp] theorem State.writeP_cc (i : PIdx) (v : Ext) : (s.writeP i v).cc = s.cc := rfl
@[simp] theorem State.writeP_maddr (i : PIdx) (v : Ext) : (s.writeP i v).maddr = s.maddr := rfl
@[simp] theorem State.writeP_mlen (i : PIdx) (v : Ext) : (s.writeP i v).mlen = s.mlen := rfl
@[simp] theorem State.writeP_caddr (i : PIdx) (v : Ext) : (s.writeP i v).caddr = s.caddr := rfl
@[simp] theorem State.writeP_clen (i : PIdx) (v : Ext) : (s.writeP i v).clen = s.clen := rfl
@[simp] theorem State.writeP_host (i : PIdx) (v : Ext) : (s.writeP i v).host = s.host := rfl
@[simp] theorem State.writeP_busData (i : PIdx) (v : Ext) : (s.writeP i v).busData = s.busData := rfl
@[simp] theorem State.writeP_rngDraws (i : PIdx) (v : Ext) : (s.writeP i v).rngDraws = s.rngDraws := rfl

@[simp] theorem State.writeC_fReg (i : CIdx) (v : Bool) : (s.writeC i v).fReg = s.fReg := rfl
@[simp] theorem State.writeC_sReg (i : CIdx) (v : Bool) : (s.writeC i v).sReg = s.sReg := rfl
@[simp] theorem State.writeC_pReg (i : CIdx) (v : Bool) : (s.writeC i v).pReg = s.pReg := rfl
@[simp] theorem State.writeC_cReg (i : CIdx) (v : Bool) : (s.writeC i v).cReg = s.cReg.set i ⟨v, true⟩ := rfl
@[simp] theorem State.writeC_key (i : CIdx) (v : Bool) : (s.writeC i v).key = s.key := rfl
@[simp] theorem State.writeC_batch (i : CIdx) (v : Bool) : (s.writeC i v).batch = s.batch := rfl
@[simp] theorem State.writeC_dm (i : CIdx) (v : Bool) : (s.writeC i v).dm = s.dm := rfl
@[simp] theorem State.writeC_cfg (i : CIdx) (v : Bool) : (s.writeC i v).cfg = s.cfg := rfl
@[simp] theorem State.writeC_halt (i : CIdx) (v : Bool) : (s.writeC i v).halt = s.halt := rfl
@[simp] theorem State.writeC_result (i : CIdx) (v : Bool) : (s.writeC i v).result = s.result := rfl
@[simp] theorem State.writeC_err (i : CIdx) (v : Bool) : (s.writeC i v).err = s.err := rfl
@[simp] theorem State.writeC_errInfo (i : CIdx) (v : Bool) : (s.writeC i v).errInfo = s.errInfo := rfl
@[simp] theorem State.writeC_cc (i : CIdx) (v : Bool) : (s.writeC i v).cc = s.cc := rfl
@[simp] theorem State.writeC_maddr (i : CIdx) (v : Bool) : (s.writeC i v).maddr = s.maddr := rfl
@[simp] theorem State.writeC_mlen (i : CIdx) (v : Bool) : (s.writeC i v).mlen = s.mlen := rfl
@[simp] theorem State.writeC_caddr (i : CIdx) (v : Bool) : (s.writeC i v).caddr = s.caddr := rfl
@[simp] theorem State.writeC_clen (i : CIdx) (v : Bool) : (s.writeC i v).clen = s.clen := rfl
@[simp] theorem State.writeC_host (i : CIdx) (v : Bool) : (s.writeC i v).host = s.host := rfl
@[simp] theorem State.writeC_busData (i : CIdx) (v : Bool) : (s.writeC i v).busData = s.busData := rfl
@[simp] theorem State.writeC_rngDraws (i : CIdx) (v : Bool) : (s.writeC i v).rngDraws = s.rngDraws := rfl

@[simp] theorem State.clearF_fReg (i : FIdx) : (s.clearF i).fReg = s.fReg.set i ⟨.zero, false⟩ := rfl
@[simp] theorem State.clearF_sReg (i : FIdx) : (s.clearF i).sReg = s.sReg := rfl
@[simp] theorem State.clearF_pReg (i : FIdx) : (s.clearF i).pReg = s.pReg := rfl
@[simp] theorem State.clearF_cReg (i : FIdx) : (s.clearF i).cReg = s.cReg := rfl
@[simp] theorem State.clearF_key (i : FIdx) : (s.clearF i).key = s.key := rfl
@[simp] theorem State.clearF_batch (i : FIdx) : (s.clearF i).batch = s.batch := rfl
@[simp] theorem State.clearF_dm (i : FIdx) : (s.clearF i).dm = s.dm := rfl
@[simp] theorem State.clearF_cfg (i : FIdx) : (s.clearF i).cfg = s.cfg := rfl
@[simp] theorem State.clearF_halt (i : FIdx) : (s.clearF i).halt = s.halt := rfl
@[simp] theorem State.clearF_result (i : FIdx) : (s.clearF i).result = s.result := rfl
@[simp] theorem State.clearF_err (i : FIdx) : (s.clearF i).err = s.err := rfl
@[simp] theorem State.clearF_errInfo (i : FIdx) : (s.clearF i).errInfo = s.errInfo := rfl
@[simp] theorem State.clearF_cc (i : FIdx) : (s.clearF i).cc = s.cc := rfl
@[simp] theorem State.clearF_maddr (i : FIdx) : (s.clearF i).maddr = s.maddr := rfl
@[simp] theorem State.clearF_mlen (i : FIdx) : (s.clearF i).mlen = s.mlen := rfl
@[simp] theorem State.clearF_caddr (i : FIdx) : (s.clearF i).caddr = s.caddr := rfl
@[simp] theorem State.clearF_clen (i : FIdx) : (s.clearF i).clen = s.clen := rfl
@[simp] theorem State.clearF_host (i : FIdx) : (s.clearF i).host = s.host := rfl
@[simp] theorem State.clearF_busData (i : FIdx) : (s.clearF i).busData = s.busData := rfl
@[simp] theorem State.clearF_rngDraws (i : FIdx) : (s.clearF i).rngDraws = s.rngDraws := rfl

@[simp] theorem State.clearS_fReg (i : SIdx) : (s.clearS i).fReg = s.fReg := rfl
@[simp] theorem State.clearS_sReg (i : SIdx) : (s.clearS i).sReg = s.sReg.set i ⟨0, false⟩ := rfl
@[simp] theorem State.clearS_pReg (i : SIdx) : (s.clearS i).pReg = s.pReg := rfl
@[simp] theorem State.clearS_cReg (i : SIdx) : (s.clearS i).cReg = s.cReg := rfl
@[simp] theorem State.clearS_key (i : SIdx) : (s.clearS i).key = s.key := rfl
@[simp] theorem State.clearS_batch (i : SIdx) : (s.clearS i).batch = s.batch := rfl
@[simp] theorem State.clearS_dm (i : SIdx) : (s.clearS i).dm = s.dm := rfl
@[simp] theorem State.clearS_cfg (i : SIdx) : (s.clearS i).cfg = s.cfg := rfl
@[simp] theorem State.clearS_halt (i : SIdx) : (s.clearS i).halt = s.halt := rfl
@[simp] theorem State.clearS_result (i : SIdx) : (s.clearS i).result = s.result := rfl
@[simp] theorem State.clearS_err (i : SIdx) : (s.clearS i).err = s.err := rfl
@[simp] theorem State.clearS_errInfo (i : SIdx) : (s.clearS i).errInfo = s.errInfo := rfl
@[simp] theorem State.clearS_cc (i : SIdx) : (s.clearS i).cc = s.cc := rfl
@[simp] theorem State.clearS_maddr (i : SIdx) : (s.clearS i).maddr = s.maddr := rfl
@[simp] theorem State.clearS_mlen (i : SIdx) : (s.clearS i).mlen = s.mlen := rfl
@[simp] theorem State.clearS_caddr (i : SIdx) : (s.clearS i).caddr = s.caddr := rfl
@[simp] theorem State.clearS_clen (i : SIdx) : (s.clearS i).clen = s.clen := rfl
@[simp] theorem State.clearS_host (i : SIdx) : (s.clearS i).host = s.host := rfl
@[simp] theorem State.clearS_busData (i : SIdx) : (s.clearS i).busData = s.busData := rfl
@[simp] theorem State.clearS_rngDraws (i : SIdx) : (s.clearS i).rngDraws = s.rngDraws := rfl

@[simp] theorem State.clearP_fReg (i : PIdx) : (s.clearP i).fReg = s.fReg := rfl
@[simp] theorem State.clearP_sReg (i : PIdx) : (s.clearP i).sReg = s.sReg := rfl
@[simp] theorem State.clearP_pReg (i : PIdx) : (s.clearP i).pReg = s.pReg.set i ⟨.zero, false⟩ := rfl
@[simp] theorem State.clearP_cReg (i : PIdx) : (s.clearP i).cReg = s.cReg := rfl
@[simp] theorem State.clearP_key (i : PIdx) : (s.clearP i).key = s.key := rfl
@[simp] theorem State.clearP_batch (i : PIdx) : (s.clearP i).batch = s.batch := rfl
@[simp] theorem State.clearP_dm (i : PIdx) : (s.clearP i).dm = s.dm := rfl
@[simp] theorem State.clearP_cfg (i : PIdx) : (s.clearP i).cfg = s.cfg := rfl
@[simp] theorem State.clearP_halt (i : PIdx) : (s.clearP i).halt = s.halt := rfl
@[simp] theorem State.clearP_result (i : PIdx) : (s.clearP i).result = s.result := rfl
@[simp] theorem State.clearP_err (i : PIdx) : (s.clearP i).err = s.err := rfl
@[simp] theorem State.clearP_errInfo (i : PIdx) : (s.clearP i).errInfo = s.errInfo := rfl
@[simp] theorem State.clearP_cc (i : PIdx) : (s.clearP i).cc = s.cc := rfl
@[simp] theorem State.clearP_maddr (i : PIdx) : (s.clearP i).maddr = s.maddr := rfl
@[simp] theorem State.clearP_mlen (i : PIdx) : (s.clearP i).mlen = s.mlen := rfl
@[simp] theorem State.clearP_caddr (i : PIdx) : (s.clearP i).caddr = s.caddr := rfl
@[simp] theorem State.clearP_clen (i : PIdx) : (s.clearP i).clen = s.clen := rfl
@[simp] theorem State.clearP_host (i : PIdx) : (s.clearP i).host = s.host := rfl
@[simp] theorem State.clearP_busData (i : PIdx) : (s.clearP i).busData = s.busData := rfl
@[simp] theorem State.clearP_rngDraws (i : PIdx) : (s.clearP i).rngDraws = s.rngDraws := rfl

@[simp] theorem State.clearC_fReg (i : CIdx) : (s.clearC i).fReg = s.fReg := rfl
@[simp] theorem State.clearC_sReg (i : CIdx) : (s.clearC i).sReg = s.sReg := rfl
@[simp] theorem State.clearC_pReg (i : CIdx) : (s.clearC i).pReg = s.pReg := rfl
@[simp] theorem State.clearC_cReg (i : CIdx) : (s.clearC i).cReg = s.cReg.set i ⟨false, false⟩ := rfl
@[simp] theorem State.clearC_key (i : CIdx) : (s.clearC i).key = s.key := rfl
@[simp] theorem State.clearC_batch (i : CIdx) : (s.clearC i).batch = s.batch := rfl
@[simp] theorem State.clearC_dm (i : CIdx) : (s.clearC i).dm = s.dm := rfl
@[simp] theorem State.clearC_cfg (i : CIdx) : (s.clearC i).cfg = s.cfg := rfl
@[simp] theorem State.clearC_halt (i : CIdx) : (s.clearC i).halt = s.halt := rfl
@[simp] theorem State.clearC_result (i : CIdx) : (s.clearC i).result = s.result := rfl
@[simp] theorem State.clearC_err (i : CIdx) : (s.clearC i).err = s.err := rfl
@[simp] theorem State.clearC_errInfo (i : CIdx) : (s.clearC i).errInfo = s.errInfo := rfl
@[simp] theorem State.clearC_cc (i : CIdx) : (s.clearC i).cc = s.cc := rfl
@[simp] theorem State.clearC_maddr (i : CIdx) : (s.clearC i).maddr = s.maddr := rfl
@[simp] theorem State.clearC_mlen (i : CIdx) : (s.clearC i).mlen = s.mlen := rfl
@[simp] theorem State.clearC_caddr (i : CIdx) : (s.clearC i).caddr = s.caddr := rfl
@[simp] theorem State.clearC_clen (i : CIdx) : (s.clearC i).clen = s.clen := rfl
@[simp] theorem State.clearC_host (i : CIdx) : (s.clearC i).host = s.host := rfl
@[simp] theorem State.clearC_busData (i : CIdx) : (s.clearC i).busData = s.busData := rfl
@[simp] theorem State.clearC_rngDraws (i : CIdx) : (s.clearC i).rngDraws = s.rngDraws := rfl

@[simp] theorem State.setKey_fReg (k : KeySlot) : (s.setKey k).fReg = s.fReg := rfl
@[simp] theorem State.setKey_sReg (k : KeySlot) : (s.setKey k).sReg = s.sReg := rfl
@[simp] theorem State.setKey_pReg (k : KeySlot) : (s.setKey k).pReg = s.pReg := rfl
@[simp] theorem State.setKey_cReg (k : KeySlot) : (s.setKey k).cReg = s.cReg := rfl
@[simp] theorem State.setKey_key (k : KeySlot) : (s.setKey k).key = k := rfl
@[simp] theorem State.setKey_batch (k : KeySlot) : (s.setKey k).batch = s.batch := rfl
@[simp] theorem State.setKey_dm (k : KeySlot) : (s.setKey k).dm = s.dm := rfl
@[simp] theorem State.setKey_cfg (k : KeySlot) : (s.setKey k).cfg = s.cfg := rfl
@[simp] theorem State.setKey_halt (k : KeySlot) : (s.setKey k).halt = s.halt := rfl
@[simp] theorem State.setKey_result (k : KeySlot) : (s.setKey k).result = s.result := rfl
@[simp] theorem State.setKey_err (k : KeySlot) : (s.setKey k).err = s.err := rfl
@[simp] theorem State.setKey_errInfo (k : KeySlot) : (s.setKey k).errInfo = s.errInfo := rfl
@[simp] theorem State.setKey_cc (k : KeySlot) : (s.setKey k).cc = s.cc := rfl
@[simp] theorem State.setKey_maddr (k : KeySlot) : (s.setKey k).maddr = s.maddr := rfl
@[simp] theorem State.setKey_mlen (k : KeySlot) : (s.setKey k).mlen = s.mlen := rfl
@[simp] theorem State.setKey_caddr (k : KeySlot) : (s.setKey k).caddr = s.caddr := rfl
@[simp] theorem State.setKey_clen (k : KeySlot) : (s.setKey k).clen = s.clen := rfl
@[simp] theorem State.setKey_host (k : KeySlot) : (s.setKey k).host = s.host := rfl
@[simp] theorem State.setKey_busData (k : KeySlot) : (s.setKey k).busData = s.busData := rfl
@[simp] theorem State.setKey_rngDraws (k : KeySlot) : (s.setKey k).rngDraws = s.rngDraws := rfl

@[simp] theorem State.setBatch_fReg (b : Batch) : (s.setBatch b).fReg = s.fReg := rfl
@[simp] theorem State.setBatch_sReg (b : Batch) : (s.setBatch b).sReg = s.sReg := rfl
@[simp] theorem State.setBatch_pReg (b : Batch) : (s.setBatch b).pReg = s.pReg := rfl
@[simp] theorem State.setBatch_cReg (b : Batch) : (s.setBatch b).cReg = s.cReg := rfl
@[simp] theorem State.setBatch_key (b : Batch) : (s.setBatch b).key = s.key := rfl
@[simp] theorem State.setBatch_batch (b : Batch) : (s.setBatch b).batch = b := rfl
@[simp] theorem State.setBatch_dm (b : Batch) : (s.setBatch b).dm = s.dm := rfl
@[simp] theorem State.setBatch_cfg (b : Batch) : (s.setBatch b).cfg = s.cfg := rfl
@[simp] theorem State.setBatch_halt (b : Batch) : (s.setBatch b).halt = s.halt := rfl
@[simp] theorem State.setBatch_result (b : Batch) : (s.setBatch b).result = s.result := rfl
@[simp] theorem State.setBatch_err (b : Batch) : (s.setBatch b).err = s.err := rfl
@[simp] theorem State.setBatch_errInfo (b : Batch) : (s.setBatch b).errInfo = s.errInfo := rfl
@[simp] theorem State.setBatch_cc (b : Batch) : (s.setBatch b).cc = s.cc := rfl
@[simp] theorem State.setBatch_maddr (b : Batch) : (s.setBatch b).maddr = s.maddr := rfl
@[simp] theorem State.setBatch_mlen (b : Batch) : (s.setBatch b).mlen = s.mlen := rfl
@[simp] theorem State.setBatch_caddr (b : Batch) : (s.setBatch b).caddr = s.caddr := rfl
@[simp] theorem State.setBatch_clen (b : Batch) : (s.setBatch b).clen = s.clen := rfl
@[simp] theorem State.setBatch_host (b : Batch) : (s.setBatch b).host = s.host := rfl
@[simp] theorem State.setBatch_busData (b : Batch) : (s.setBatch b).busData = s.busData := rfl
@[simp] theorem State.setBatch_rngDraws (b : Batch) : (s.setBatch b).rngDraws = s.rngDraws := rfl

@[simp] theorem State.setDm_fReg (m : Memory) : (s.setDm m).fReg = s.fReg := rfl
@[simp] theorem State.setDm_sReg (m : Memory) : (s.setDm m).sReg = s.sReg := rfl
@[simp] theorem State.setDm_pReg (m : Memory) : (s.setDm m).pReg = s.pReg := rfl
@[simp] theorem State.setDm_cReg (m : Memory) : (s.setDm m).cReg = s.cReg := rfl
@[simp] theorem State.setDm_key (m : Memory) : (s.setDm m).key = s.key := rfl
@[simp] theorem State.setDm_batch (m : Memory) : (s.setDm m).batch = s.batch := rfl
@[simp] theorem State.setDm_dm (m : Memory) : (s.setDm m).dm = m := rfl
@[simp] theorem State.setDm_cfg (m : Memory) : (s.setDm m).cfg = s.cfg := rfl
@[simp] theorem State.setDm_halt (m : Memory) : (s.setDm m).halt = s.halt := rfl
@[simp] theorem State.setDm_result (m : Memory) : (s.setDm m).result = s.result := rfl
@[simp] theorem State.setDm_err (m : Memory) : (s.setDm m).err = s.err := rfl
@[simp] theorem State.setDm_errInfo (m : Memory) : (s.setDm m).errInfo = s.errInfo := rfl
@[simp] theorem State.setDm_cc (m : Memory) : (s.setDm m).cc = s.cc := rfl
@[simp] theorem State.setDm_maddr (m : Memory) : (s.setDm m).maddr = s.maddr := rfl
@[simp] theorem State.setDm_mlen (m : Memory) : (s.setDm m).mlen = s.mlen := rfl
@[simp] theorem State.setDm_caddr (m : Memory) : (s.setDm m).caddr = s.caddr := rfl
@[simp] theorem State.setDm_clen (m : Memory) : (s.setDm m).clen = s.clen := rfl
@[simp] theorem State.setDm_host (m : Memory) : (s.setDm m).host = s.host := rfl
@[simp] theorem State.setDm_busData (m : Memory) : (s.setDm m).busData = s.busData := rfl
@[simp] theorem State.setDm_rngDraws (m : Memory) : (s.setDm m).rngDraws = s.rngDraws := rfl

@[simp] theorem State.setResult_fReg (r : ResultCode) : (s.setResult r).fReg = s.fReg := rfl
@[simp] theorem State.setResult_sReg (r : ResultCode) : (s.setResult r).sReg = s.sReg := rfl
@[simp] theorem State.setResult_pReg (r : ResultCode) : (s.setResult r).pReg = s.pReg := rfl
@[simp] theorem State.setResult_cReg (r : ResultCode) : (s.setResult r).cReg = s.cReg := rfl
@[simp] theorem State.setResult_key (r : ResultCode) : (s.setResult r).key = s.key := rfl
@[simp] theorem State.setResult_batch (r : ResultCode) : (s.setResult r).batch = s.batch := rfl
@[simp] theorem State.setResult_dm (r : ResultCode) : (s.setResult r).dm = s.dm := rfl
@[simp] theorem State.setResult_cfg (r : ResultCode) : (s.setResult r).cfg = s.cfg := rfl
@[simp] theorem State.setResult_halt (r : ResultCode) : (s.setResult r).halt = s.halt := rfl
@[simp] theorem State.setResult_result (r : ResultCode) : (s.setResult r).result = r := rfl
@[simp] theorem State.setResult_err (r : ResultCode) : (s.setResult r).err = s.err := rfl
@[simp] theorem State.setResult_errInfo (r : ResultCode) : (s.setResult r).errInfo = s.errInfo := rfl
@[simp] theorem State.setResult_cc (r : ResultCode) : (s.setResult r).cc = s.cc := rfl
@[simp] theorem State.setResult_maddr (r : ResultCode) : (s.setResult r).maddr = s.maddr := rfl
@[simp] theorem State.setResult_mlen (r : ResultCode) : (s.setResult r).mlen = s.mlen := rfl
@[simp] theorem State.setResult_caddr (r : ResultCode) : (s.setResult r).caddr = s.caddr := rfl
@[simp] theorem State.setResult_clen (r : ResultCode) : (s.setResult r).clen = s.clen := rfl
@[simp] theorem State.setResult_host (r : ResultCode) : (s.setResult r).host = s.host := rfl
@[simp] theorem State.setResult_busData (r : ResultCode) : (s.setResult r).busData = s.busData := rfl
@[simp] theorem State.setResult_rngDraws (r : ResultCode) : (s.setResult r).rngDraws = s.rngDraws := rfl

@[simp] theorem State.noteDraw_fReg : (s.noteDraw).fReg = s.fReg := rfl
@[simp] theorem State.noteDraw_sReg : (s.noteDraw).sReg = s.sReg := rfl
@[simp] theorem State.noteDraw_pReg : (s.noteDraw).pReg = s.pReg := rfl
@[simp] theorem State.noteDraw_cReg : (s.noteDraw).cReg = s.cReg := rfl
@[simp] theorem State.noteDraw_key : (s.noteDraw).key = s.key := rfl
@[simp] theorem State.noteDraw_batch : (s.noteDraw).batch = s.batch := rfl
@[simp] theorem State.noteDraw_dm : (s.noteDraw).dm = s.dm := rfl
@[simp] theorem State.noteDraw_cfg : (s.noteDraw).cfg = s.cfg := rfl
@[simp] theorem State.noteDraw_halt : (s.noteDraw).halt = s.halt := rfl
@[simp] theorem State.noteDraw_result : (s.noteDraw).result = s.result := rfl
@[simp] theorem State.noteDraw_err : (s.noteDraw).err = s.err := rfl
@[simp] theorem State.noteDraw_errInfo : (s.noteDraw).errInfo = s.errInfo := rfl
@[simp] theorem State.noteDraw_cc : (s.noteDraw).cc = s.cc := rfl
@[simp] theorem State.noteDraw_maddr : (s.noteDraw).maddr = s.maddr := rfl
@[simp] theorem State.noteDraw_mlen : (s.noteDraw).mlen = s.mlen := rfl
@[simp] theorem State.noteDraw_caddr : (s.noteDraw).caddr = s.caddr := rfl
@[simp] theorem State.noteDraw_clen : (s.noteDraw).clen = s.clen := rfl
@[simp] theorem State.noteDraw_host : (s.noteDraw).host = s.host := rfl
@[simp] theorem State.noteDraw_busData : (s.noteDraw).busData = s.busData := rfl
@[simp] theorem State.noteDraw_rngDraws : (s.noteDraw).rngDraws = s.rngDraws + 1 := rfl

@[simp] theorem State.retire_fReg : (s.retire).fReg = s.fReg := rfl
@[simp] theorem State.retire_sReg : (s.retire).sReg = s.sReg := rfl
@[simp] theorem State.retire_pReg : (s.retire).pReg = s.pReg := rfl
@[simp] theorem State.retire_cReg : (s.retire).cReg = s.cReg := rfl
@[simp] theorem State.retire_key : (s.retire).key = s.key := rfl
@[simp] theorem State.retire_batch : (s.retire).batch = s.batch := rfl
@[simp] theorem State.retire_dm : (s.retire).dm = s.dm := rfl
@[simp] theorem State.retire_cfg : (s.retire).cfg = s.cfg := rfl
@[simp] theorem State.retire_halt : (s.retire).halt = s.halt := rfl
@[simp] theorem State.retire_result : (s.retire).result = s.result := rfl
@[simp] theorem State.retire_err : (s.retire).err = s.err := rfl
@[simp] theorem State.retire_errInfo : (s.retire).errInfo = s.errInfo := rfl
@[simp] theorem State.retire_cc : (s.retire).cc = s.cc + 1 := rfl
@[simp] theorem State.retire_maddr : (s.retire).maddr = s.maddr := rfl
@[simp] theorem State.retire_mlen : (s.retire).mlen = s.mlen := rfl
@[simp] theorem State.retire_caddr : (s.retire).caddr = s.caddr := rfl
@[simp] theorem State.retire_clen : (s.retire).clen = s.clen := rfl
@[simp] theorem State.retire_host : (s.retire).host = s.host := rfl
@[simp] theorem State.retire_busData : (s.retire).busData = s.busData := rfl
@[simp] theorem State.retire_rngDraws : (s.retire).rngDraws = s.rngDraws := rfl

@[simp] theorem State.takeFault_fReg (e : ErrCode) (w : Word) : (s.takeFault e w).fReg = s.fReg := rfl
@[simp] theorem State.takeFault_sReg (e : ErrCode) (w : Word) : (s.takeFault e w).sReg = s.sReg := rfl
@[simp] theorem State.takeFault_pReg (e : ErrCode) (w : Word) : (s.takeFault e w).pReg = s.pReg := rfl
@[simp] theorem State.takeFault_cReg (e : ErrCode) (w : Word) : (s.takeFault e w).cReg = s.cReg := rfl
@[simp] theorem State.takeFault_key (e : ErrCode) (w : Word) : (s.takeFault e w).key = s.key := rfl
@[simp] theorem State.takeFault_batch (e : ErrCode) (w : Word) : (s.takeFault e w).batch = s.batch := rfl
@[simp] theorem State.takeFault_dm (e : ErrCode) (w : Word) : (s.takeFault e w).dm = s.dm := rfl
@[simp] theorem State.takeFault_cfg (e : ErrCode) (w : Word) : (s.takeFault e w).cfg = s.cfg := rfl
@[simp] theorem State.takeFault_halt (e : ErrCode) (w : Word) : (s.takeFault e w).halt = true := rfl
@[simp] theorem State.takeFault_result (e : ErrCode) (w : Word) : (s.takeFault e w).result = s.result := rfl
@[simp] theorem State.takeFault_err (e : ErrCode) (w : Word) : (s.takeFault e w).err = e := rfl
@[simp] theorem State.takeFault_errInfo (e : ErrCode) (w : Word) : (s.takeFault e w).errInfo = w := rfl
@[simp] theorem State.takeFault_cc (e : ErrCode) (w : Word) : (s.takeFault e w).cc = s.cc := rfl
@[simp] theorem State.takeFault_maddr (e : ErrCode) (w : Word) : (s.takeFault e w).maddr = s.maddr := rfl
@[simp] theorem State.takeFault_mlen (e : ErrCode) (w : Word) : (s.takeFault e w).mlen = s.mlen := rfl
@[simp] theorem State.takeFault_caddr (e : ErrCode) (w : Word) : (s.takeFault e w).caddr = s.caddr := rfl
@[simp] theorem State.takeFault_clen (e : ErrCode) (w : Word) : (s.takeFault e w).clen = s.clen := rfl
@[simp] theorem State.takeFault_host (e : ErrCode) (w : Word) : (s.takeFault e w).host = s.host := rfl
@[simp] theorem State.takeFault_busData (e : ErrCode) (w : Word) : (s.takeFault e w).busData = s.busData := rfl
@[simp] theorem State.takeFault_rngDraws (e : ErrCode) (w : Word) : (s.takeFault e w).rngDraws = s.rngDraws := rfl

@[simp] theorem State.clearFault_fReg : (s.clearFault).fReg = s.fReg := rfl
@[simp] theorem State.clearFault_sReg : (s.clearFault).sReg = s.sReg := rfl
@[simp] theorem State.clearFault_pReg : (s.clearFault).pReg = s.pReg := rfl
@[simp] theorem State.clearFault_cReg : (s.clearFault).cReg = s.cReg := rfl
@[simp] theorem State.clearFault_key : (s.clearFault).key = s.key := rfl
@[simp] theorem State.clearFault_batch : (s.clearFault).batch = s.batch := rfl
@[simp] theorem State.clearFault_dm : (s.clearFault).dm = s.dm := rfl
@[simp] theorem State.clearFault_cfg : (s.clearFault).cfg = s.cfg := rfl
@[simp] theorem State.clearFault_halt : (s.clearFault).halt = false := rfl
@[simp] theorem State.clearFault_result : (s.clearFault).result = s.result := rfl
@[simp] theorem State.clearFault_err : (s.clearFault).err = .none := rfl
@[simp] theorem State.clearFault_errInfo : (s.clearFault).errInfo = 0 := rfl
@[simp] theorem State.clearFault_cc : (s.clearFault).cc = s.cc := rfl
@[simp] theorem State.clearFault_maddr : (s.clearFault).maddr = s.maddr := rfl
@[simp] theorem State.clearFault_mlen : (s.clearFault).mlen = s.mlen := rfl
@[simp] theorem State.clearFault_caddr : (s.clearFault).caddr = s.caddr := rfl
@[simp] theorem State.clearFault_clen : (s.clearFault).clen = s.clen := rfl
@[simp] theorem State.clearFault_host : (s.clearFault).host = s.host := rfl
@[simp] theorem State.clearFault_busData : (s.clearFault).busData = s.busData := rfl
@[simp] theorem State.clearFault_rngDraws : (s.clearFault).rngDraws = s.rngDraws := rfl

@[simp] theorem State.answer_fReg (w : Word) : (s.answer w).fReg = s.fReg := rfl
@[simp] theorem State.answer_sReg (w : Word) : (s.answer w).sReg = s.sReg := rfl
@[simp] theorem State.answer_pReg (w : Word) : (s.answer w).pReg = s.pReg := rfl
@[simp] theorem State.answer_cReg (w : Word) : (s.answer w).cReg = s.cReg := rfl
@[simp] theorem State.answer_key (w : Word) : (s.answer w).key = s.key := rfl
@[simp] theorem State.answer_batch (w : Word) : (s.answer w).batch = s.batch := rfl
@[simp] theorem State.answer_dm (w : Word) : (s.answer w).dm = s.dm := rfl
@[simp] theorem State.answer_cfg (w : Word) : (s.answer w).cfg = s.cfg := rfl
@[simp] theorem State.answer_halt (w : Word) : (s.answer w).halt = s.halt := rfl
@[simp] theorem State.answer_result (w : Word) : (s.answer w).result = s.result := rfl
@[simp] theorem State.answer_err (w : Word) : (s.answer w).err = s.err := rfl
@[simp] theorem State.answer_errInfo (w : Word) : (s.answer w).errInfo = s.errInfo := rfl
@[simp] theorem State.answer_cc (w : Word) : (s.answer w).cc = s.cc := rfl
@[simp] theorem State.answer_maddr (w : Word) : (s.answer w).maddr = s.maddr := rfl
@[simp] theorem State.answer_mlen (w : Word) : (s.answer w).mlen = s.mlen := rfl
@[simp] theorem State.answer_caddr (w : Word) : (s.answer w).caddr = s.caddr := rfl
@[simp] theorem State.answer_clen (w : Word) : (s.answer w).clen = s.clen := rfl
@[simp] theorem State.answer_host (w : Word) : (s.answer w).host = s.host := rfl
@[simp] theorem State.answer_busData (w : Word) : (s.answer w).busData = w := rfl
@[simp] theorem State.answer_rngDraws (w : Word) : (s.answer w).rngDraws = s.rngDraws := rfl

@[simp] theorem State.resetBlock_fReg : s.resetBlock.fReg = .replicate 16 ⟨.zero, false⟩ := rfl
@[simp] theorem State.resetBlock_sReg : s.resetBlock.sReg = .replicate 8 ⟨0, false⟩ := rfl
@[simp] theorem State.resetBlock_pReg : s.resetBlock.pReg = .replicate 8 ⟨.zero, false⟩ := rfl
@[simp] theorem State.resetBlock_cReg : s.resetBlock.cReg = .replicate 8 ⟨false, false⟩ := rfl
@[simp] theorem State.resetBlock_key : s.resetBlock.key = .cleared := rfl
@[simp] theorem State.resetBlock_batch : s.resetBlock.batch = .cleared := rfl
@[simp] theorem State.resetBlock_dm : s.resetBlock.dm = [] := rfl
@[simp] theorem State.resetBlock_cfg : s.resetBlock.cfg = 0x03#5 := rfl
@[simp] theorem State.resetBlock_halt : s.resetBlock.halt = false := rfl
@[simp] theorem State.resetBlock_result : s.resetBlock.result = .ok := rfl
@[simp] theorem State.resetBlock_err : s.resetBlock.err = .none := rfl
@[simp] theorem State.resetBlock_errInfo : s.resetBlock.errInfo = 0 := rfl
@[simp] theorem State.resetBlock_cc : s.resetBlock.cc = 0 := rfl
@[simp] theorem State.resetBlock_maddr : s.resetBlock.maddr = 0 := rfl
@[simp] theorem State.resetBlock_mlen : s.resetBlock.mlen = 0 := rfl
@[simp] theorem State.resetBlock_caddr : s.resetBlock.caddr = 0 := rfl
@[simp] theorem State.resetBlock_clen : s.resetBlock.clen = 0 := rfl
@[simp] theorem State.resetBlock_host : s.resetBlock.host = s.host := rfl
@[simp] theorem State.resetBlock_busData : s.resetBlock.busData = s.busData := rfl
@[simp] theorem State.resetBlock_rngDraws : s.resetBlock.rngDraws = s.rngDraws := rfl

/-- A register file read after a write. -/
@[simp] theorem get_set_fin {α : Type} {n : Nat} (v : Vector α n) (i r : Fin n) (x : α) :
    (v.set i x).get r = if i = r then x else v.get r := by
  rw [Vector.get_eq_getElem, Vector.getElem_set, Vector.get_eq_getElem]
  simp [Fin.ext_iff]

/-- A register file whose registers are all the same. -/
@[simp] theorem get_replicate_fin {α : Type} {n : Nat} (r : Fin n) (x : α) : (Vector.replicate n x).get r = x := by
  rw [Vector.get_eq_getElem, Vector.getElem_replicate]

end Sys2Proof.Machine
end

