-- ==== Sys2Proof/Laws/Commands.lean ====
section
/-! SUPPORT. What the shared operations can do, said once: operand reads, region checks, and the two ways a command
ends. -/

namespace Sys2Proof.Machine

variable {s t : State} {e : ErrCode}

@[simp] theorem bind_ok {α β : Type} (a : α) (k : α → Except ErrCode β) : (Except.ok a >>= k) = k a := rfl

@[simp] theorem bind_error {α β : Type} (e : ErrCode) (k : α → Except ErrCode β) :
    ((Except.error e : Except ErrCode α) >>= k) = .error e := rfl

@[simp] theorem pure_ok {α : Type} (a : α) : (pure a : Except ErrCode α) = .ok a := rfl

/-- A chain of checks and reads succeeds exactly when each link does. -/
theorem bind_eq_ok {α β : Type} {x : Except ErrCode α} {k : α → Except ErrCode β} {b : β} :
    (x >>= k) = .ok b ↔ ∃ a, x = .ok a ∧ k a = .ok b := by
  cases x <;> simp

theorem require_true {p : Prop} [Decidable p] (h : p) : require p e = .ok () := by simp [require, h]

theorem require_false {p : Prop} [Decidable p] (h : ¬ p) : require p e = .error e := by simp [require, h]

theorem require_eq_ok {p : Prop} [Decidable p] {u : Unit} : require p e = .ok u ↔ p := by
  unfold require; split <;> simp_all

theorem Reg.read_valid {α : Type} {r : Reg α} (h : r.valid = true) : r.read = .ok r.val := by simp [Reg.read, h]

theorem Reg.read_invalid {α : Type} {r : Reg α} (h : r.valid = false) : r.read = .error .unwritten := by
  simp [Reg.read, h]

theorem Reg.read_eq_ok {α : Type} {r : Reg α} {a : α} : r.read = .ok a ↔ r.valid = true ∧ r.val = a := by
  unfold Reg.read; split <;> simp_all

theorem readF_valid {i : FIdx} (h : (s.fReg.get i).valid = true) : s.readF i = .ok (s.fReg.get i).val :=
  Reg.read_valid h

theorem readF_invalid {i : FIdx} (h : (s.fReg.get i).valid = false) : s.readF i = .error .unwritten :=
  Reg.read_invalid h

theorem readF_eq_ok {i : FIdx} {a : Fe} : s.readF i = .ok a ↔ (s.fReg.get i).valid = true ∧ (s.fReg.get i).val = a :=
  Reg.read_eq_ok

theorem readP_valid {i : PIdx} (h : (s.pReg.get i).valid = true) : s.readP i = .ok (s.pReg.get i).val :=
  Reg.read_valid h

theorem readP_invalid {i : PIdx} (h : (s.pReg.get i).valid = false) : s.readP i = .error .unwritten :=
  Reg.read_invalid h

theorem readP_eq_ok {i : PIdx} {a : Ext} :
    s.readP i = .ok a ↔ (s.pReg.get i).valid = true ∧ (s.pReg.get i).val = a :=
  Reg.read_eq_ok

theorem readC_valid {i : CIdx} (h : (s.cReg.get i).valid = true) : s.readC i = .ok (s.cReg.get i).val :=
  Reg.read_valid h

theorem readC_invalid {i : CIdx} (h : (s.cReg.get i).valid = false) : s.readC i = .error .unwritten :=
  Reg.read_invalid h

theorem readC_eq_ok {i : CIdx} {a : Bool} :
    s.readC i = .ok a ↔ (s.cReg.get i).valid = true ∧ (s.cReg.get i).val = a :=
  Reg.read_eq_ok

theorem readS_valid {i : SIdx} (h : (s.sReg.get i).valid = true) : s.readS i = .ok (s.sReg.get i).val.toNat := by
  rw [State.readS, Reg.read_valid h]; rfl

theorem readS_invalid {i : SIdx} (h : (s.sReg.get i).valid = false) : s.readS i = .error .unwritten := by
  rw [State.readS, Reg.read_invalid h]; rfl

theorem readS_eq_ok {i : SIdx} {a : Nat} :
    s.readS i = .ok a ↔ (s.sReg.get i).valid = true ∧ (s.sReg.get i).val.toNat = a := by
  cases h : (s.sReg.get i).valid
  · simp [readS_invalid h]
  · simp [readS_valid h]

theorem readKey_valid (h : s.key.valid = true) : s.readKey = .ok s.key := by simp [State.readKey, h]

theorem readKey_invalid (h : s.key.valid = false) : s.readKey = .error .unwritten := by simp [State.readKey, h]

theorem readKey_eq_ok {k : KeySlot} : s.readKey = .ok k ↔ s.key.valid = true ∧ s.key = k := by
  unfold State.readKey; split <;> simp_all

theorem memRead_in {a n : Nat} (h : inDm a n) : s.memRead a n = .ok (s.dm.readBytes a n) := by
  simp only [State.memRead, if_pos h]

theorem memRead_out {a n : Nat} (h : ¬ inDm a n) : s.memRead a n = .error .addr := by
  simp only [State.memRead, if_neg h]

theorem memRead_eq_ok {a n : Nat} {b : List Byte} : s.memRead a n = .ok b ↔ inDm a n ∧ s.dm.readBytes a n = b := by
  unfold State.memRead; split <;> simp_all

theorem memWrite_in {a n : Nat} {v : List Byte} (h : inDm a n) :
    s.memWrite a n v = .ok (s.setDm (s.dm.writeBytes a v)) := by
  simp only [State.memWrite, if_pos h]

theorem memWrite_out {a n : Nat} {v : List Byte} (h : ¬ inDm a n) : s.memWrite a n v = .error .addr := by
  simp only [State.memWrite, if_neg h]

theorem memWrite_eq_ok {a n : Nat} {v : List Byte} {t : State} :
    s.memWrite a n v = .ok t ↔ inDm a n ∧ t = s.setDm (s.dm.writeBytes a v) := by
  unfold State.memWrite; split <;> simp_all [eq_comm]

theorem msg_in (h : inDm s.maddr.toNat s.mlen.toNat) :
    s.msg = .ok (s.dm.readBytes s.maddr.toNat s.mlen.toNat) := memRead_in h

theorem msg_out (h : ¬ inDm s.maddr.toNat s.mlen.toNat) : s.msg = .error .addr := memRead_out h

theorem ctx_in (h : inDm s.caddr.toNat s.clen.toNat) :
    s.ctx = .ok (s.dm.readBytes s.caddr.toNat s.clen.toNat) := memRead_in h

theorem ctx_out (h : ¬ inDm s.caddr.toNat s.clen.toNat) : s.ctx = .error .addr := memRead_out h

@[simp] theorem complete_ok (i : Instr) (t : State) : complete i s (.ok t) = .next t.retire := rfl

@[simp] theorem complete_error (i : Instr) (e : ErrCode) : complete i s (.error e) = .next (s.takeFault e (encode i)) := rfl

/-- A command that answers a next state has retired or has taken a fault (R470, R520). -/
theorem complete_cases {i : Instr} {r : Except ErrCode State} (h : complete i s r = .next t) :
    (∃ u, r = .ok u ∧ t = u.retire) ∨ ∃ e, r = .error e ∧ t = s.takeFault e (encode i) := by
  cases r with
  | ok u => exact .inl ⟨u, rfl, by simpa using h.symm⟩
  | error e => exact .inr ⟨e, rfl, by simpa using h.symm⟩

/-- A one-source field command on a valid source. -/
theorem field1_next {i : Instr} {op : Fe → Fe} {fd fa : FIdx} (h : (s.fReg.get fa).valid = true) :
    field1 i op fd fa s = .next (s.writeF fd (op (s.fReg.get fa).val)).retire := by
  simp [field1, readF_valid h]

/-- A two-source field command on valid sources. -/
theorem field2_next {i : Instr} {op : Fe → Fe → Fe} {fd fa fb : FIdx} (ha : (s.fReg.get fa).valid = true)
    (hb : (s.fReg.get fb).valid = true) :
    field2 i op fd fa fb s = .next (s.writeF fd (op (s.fReg.get fa).val (s.fReg.get fb).val)).retire := by
  simp [field2, readF_valid ha, readF_valid hb]

/-- A field predicate on a valid source. -/
theorem fieldTest_next {i : Instr} {p : Fe → Bool} {cd : CIdx} {fa : FIdx} (h : (s.fReg.get fa).valid = true) :
    fieldTest i p cd fa s = .next (s.writeC cd (p (s.fReg.get fa).val)).retire := by
  simp [fieldTest, readF_valid h]

/-- A one-source scalar command on a valid source. -/
theorem scalar1_next {i : Instr} {op : Nat → Nat} {sd sa : SIdx} (h : (s.sReg.get sa).valid = true) :
    scalar1 i op sd sa s = .next (s.writeS sd (op (s.sReg.get sa).val.toNat)).retire := by
  simp [scalar1, readS_valid h]

/-- A two-source scalar command on valid sources. -/
theorem scalar2_next {i : Instr} {op : Nat → Nat → Nat} {sd sa sb : SIdx} (ha : (s.sReg.get sa).valid = true)
    (hb : (s.sReg.get sb).valid = true) :
    scalar2 i op sd sa sb s =
      .next (s.writeS sd (op (s.sReg.get sa).val.toNat (s.sReg.get sb).val.toNat)).retire := by
  simp [scalar2, readS_valid ha, readS_valid hb]

/-- A scalar load whose block lies in DM. -/
theorem scalarLoad_next {i : Instr} {n : Nat} {op : Nat → Nat} {sd : SIdx} {addr : Addr} (h : inDm addr.toNat n) :
    scalarLoad i n op sd addr s = .next (s.writeS sd (op (le (s.dm.readBytes addr.toNat n)))).retire := by
  simp [scalarLoad, memRead_in h]

/-- A one-source point command on a valid source. -/
theorem point1_next {i : Instr} {op : Ext → Ext} {pd pa : PIdx} (h : (s.pReg.get pa).valid = true) :
    point1 i op pd pa s = .next (s.writeP pd (op (s.pReg.get pa).val)).retire := by
  simp [point1, readP_valid h]

/-- A two-source point command on valid sources. -/
theorem point2_next {i : Instr} {op : Ext → Ext → Ext} {pd pa pb : PIdx} (ha : (s.pReg.get pa).valid = true)
    (hb : (s.pReg.get pb).valid = true) :
    point2 i op pd pa pb s = .next (s.writeP pd (op (s.pReg.get pa).val (s.pReg.get pb).val)).retire := by
  simp [point2, readP_valid ha, readP_valid hb]

/-- A point predicate of one source on a valid source. -/
theorem pointTest_next {i : Instr} {p : Ext → Bool} {cd : CIdx} {pa : PIdx} (h : (s.pReg.get pa).valid = true) :
    pointTest i p cd pa s = .next (s.writeC cd (p (s.pReg.get pa).val)).retire := by
  simp [pointTest, readP_valid h]

/-- A point predicate of two sources on valid sources. -/
theorem pointTest2_next {i : Instr} {p : Ext → Ext → Bool} {cd : CIdx} {pa pb : PIdx}
    (ha : (s.pReg.get pa).valid = true) (hb : (s.pReg.get pb).valid = true) :
    pointTest2 i p cd pa pb s = .next (s.writeC cd (p (s.pReg.get pa).val (s.pReg.get pb).val)).retire := by
  simp [pointTest2, readP_valid ha, readP_valid hb]

/-- A point encoder on a valid source and a block in DM. -/
theorem pointEncode_next {i : Instr} {enc : Ext → List Byte} {ps : PIdx} {addr : Addr}
    (h : (s.pReg.get ps).valid = true) (ha : inDm addr.toNat 32) :
    pointEncode i enc ps addr s = .next (s.setDm (s.dm.writeBytes addr.toNat (enc (s.pReg.get ps).val))).retire := by
  simp [pointEncode, readP_valid h, memWrite_in ha]

/-- A point decoder on a block in DM. -/
theorem pointDecode_next {i : Instr} {dec : List Byte → Option Ext} {pd : PIdx} {cd : CIdx} {addr : Addr}
    (ha : inDm addr.toNat 32) :
    pointDecode i dec pd cd addr s = .next (s.decodedP pd cd (dec (s.dm.readBytes addr.toNat 32))).retire := by
  simp [pointDecode, memRead_in ha]

/-- A choice command of one source on a valid source. -/
theorem choice1_next {i : Instr} {op : Bool → Bool} {cd ca : CIdx} (h : (s.cReg.get ca).valid = true) :
    choice1 i op cd ca s = .next (s.writeC cd (op (s.cReg.get ca).val)).retire := by
  simp [choice1, readC_valid h]

/-- A choice command of two sources on valid sources. -/
theorem choice2_next {i : Instr} {op : Bool → Bool → Bool} {cd ca cb : CIdx} (ha : (s.cReg.get ca).valid = true)
    (hb : (s.cReg.get cb).valid = true) :
    choice2 i op cd ca cb s = .next (s.writeC cd (op (s.cReg.get ca).val (s.cReg.get cb).val)).retire := by
  simp [choice2, readC_valid ha, readC_valid hb]

end Sys2Proof.Machine
end

