-- ==== Sys2Proof/Laws/Exec.lean ====
section
/-! SUPPORT. Which meaning each command has, one lemma per arm of `exec`, so that no proof unfolds the dispatch; and that
every command ends in one of the two ways of `complete`. -/

namespace Sys2Proof.Machine

variable (s : State)

@[simp] theorem exec_nop : exec (.nop) s = execNop s := rfl
@[simp] theorem exec_scrub (k : BitVec 7) : exec (.scrub k) s = execScrub k s := rfl
@[simp] theorem exec_cset (cd : CIdx) (k : BitVec 1) : exec (.cset cd k) s = execCset cd k s := rfl
@[simp] theorem exec_cmov (cd ca : CIdx) : exec (.cmov cd ca) s = execCmov cd ca s := rfl
@[simp] theorem exec_cnot (cd ca : CIdx) : exec (.cnot cd ca) s = execCnot cd ca s := rfl
@[simp] theorem exec_cand (cd ca cb : CIdx) : exec (.cand cd ca cb) s = execCand cd ca cb s := rfl
@[simp] theorem exec_cor (cd ca cb : CIdx) : exec (.cor cd ca cb) s = execCor cd ca cb s := rfl
@[simp] theorem exec_cxor (cd ca cb : CIdx) : exec (.cxor cd ca cb) s = execCxor cd ca cb s := rfl
@[simp] theorem exec_fclr (fd : FIdx) : exec (.fclr fd) s = execFclr fd s := rfl
@[simp] theorem exec_sclr (sd : SIdx) : exec (.sclr sd) s = execSclr sd s := rfl
@[simp] theorem exec_pclr (pd : PIdx) : exec (.pclr pd) s = execPclr pd s := rfl
@[simp] theorem exec_cclr (cd : CIdx) : exec (.cclr cd) s = execCclr cd s := rfl
@[simp] theorem exec_hash (addr : Addr) : exec (.hash addr) s = execHash addr s := rfl
@[simp] theorem exec_fld (fd : FIdx) (addr : Addr) : exec (.fld fd addr) s = execFld fd addr s := rfl
@[simp] theorem exec_fst (fs : FIdx) (addr : Addr) : exec (.fst fs addr) s = execFst fs addr s := rfl
@[simp] theorem exec_fmov (fd fa : FIdx) : exec (.fmov fd fa) s = execFmov fd fa s := rfl
@[simp] theorem exec_fconst (fd : FIdx) (k : BitVec 4) : exec (.fconst fd k) s = execFconst fd k s := rfl
@[simp] theorem exec_fadd (fd fa fb : FIdx) : exec (.fadd fd fa fb) s = execFadd fd fa fb s := rfl
@[simp] theorem exec_fsub (fd fa fb : FIdx) : exec (.fsub fd fa fb) s = execFsub fd fa fb s := rfl
@[simp] theorem exec_fneg (fd fa : FIdx) : exec (.fneg fd fa) s = execFneg fd fa s := rfl
@[simp] theorem exec_fmul (fd fa fb : FIdx) : exec (.fmul fd fa fb) s = execFmul fd fa fb s := rfl
@[simp] theorem exec_fsqr (fd fa : FIdx) : exec (.fsqr fd fa) s = execFsqr fd fa s := rfl
@[simp] theorem exec_finv (fd fa : FIdx) : exec (.finv fd fa) s = execFinv fd fa s := rfl
@[simp] theorem exec_fpow58 (fd fa : FIdx) : exec (.fpow58 fd fa) s = execFpow58 fd fa s := rfl
@[simp] theorem exec_fsqrtr (fd : FIdx) (cd : CIdx) (fa fb : FIdx) : exec (.fsqrtr fd cd fa fb) s = execFsqrtr fd cd fa fb s := rfl
@[simp] theorem exec_fcsel (fd fa fb : FIdx) (cc : CIdx) : exec (.fcsel fd fa fb cc) s = execFcsel fd fa fb cc s := rfl
@[simp] theorem exec_fcswap (fx fy : FIdx) (cc : CIdx) : exec (.fcswap fx fy cc) s = execFcswap fx fy cc s := rfl
@[simp] theorem exec_fcneg (fd fa : FIdx) (cc : CIdx) : exec (.fcneg fd fa cc) s = execFcneg fd fa cc s := rfl
@[simp] theorem exec_fred (fd fa : FIdx) : exec (.fred fd fa) s = execFred fd fa s := rfl
@[simp] theorem exec_feq (cd : CIdx) (fa fb : FIdx) : exec (.feq cd fa fb) s = execFeq cd fa fb s := rfl
@[simp] theorem exec_fisneg (cd : CIdx) (fa : FIdx) : exec (.fisneg cd fa) s = execFisneg cd fa s := rfl
@[simp] theorem exec_fiszero (cd : CIdx) (fa : FIdx) : exec (.fiszero cd fa) s = execFiszero cd fa s := rfl
@[simp] theorem exec_sld (sd : SIdx) (addr : Addr) : exec (.sld sd addr) s = execSld sd addr s := rfl
@[simp] theorem exec_sldw (sd : SIdx) (addr : Addr) : exec (.sldw sd addr) s = execSldw sd addr s := rfl
@[simp] theorem exec_sldc (sd : SIdx) (cd : CIdx) (addr : Addr) : exec (.sldc sd cd addr) s = execSldc sd cd addr s := rfl
@[simp] theorem exec_sldcl (sd : SIdx) (addr : Addr) : exec (.sldcl sd addr) s = execSldcl sd addr s := rfl
@[simp] theorem exec_sst (ss : SIdx) (addr : Addr) : exec (.sst ss addr) s = execSst ss addr s := rfl
@[simp] theorem exec_smov (sd sa : SIdx) : exec (.smov sd sa) s = execSmov sd sa s := rfl
@[simp] theorem exec_sconst (sd : SIdx) (k : BitVec 3) : exec (.sconst sd k) s = execSconst sd k s := rfl
@[simp] theorem exec_sadd (sd sa sb : SIdx) : exec (.sadd sd sa sb) s = execSadd sd sa sb s := rfl
@[simp] theorem exec_ssub (sd sa sb : SIdx) : exec (.ssub sd sa sb) s = execSsub sd sa sb s := rfl
@[simp] theorem exec_sneg (sd sa : SIdx) : exec (.sneg sd sa) s = execSneg sd sa s := rfl
@[simp] theorem exec_smul (sd sa sb : SIdx) : exec (.smul sd sa sb) s = execSmul sd sa sb s := rfl
@[simp] theorem exec_sinv (sd sa : SIdx) : exec (.sinv sd sa) s = execSinv sd sa s := rfl
@[simp] theorem exec_smmul (sd sa sb : SIdx) : exec (.smmul sd sa sb) s = execSmmul sd sa sb s := rfl
@[simp] theorem exec_stom (sd sa : SIdx) : exec (.stom sd sa) s = execStom sd sa s := rfl
@[simp] theorem exec_sfrm (sd sa : SIdx) : exec (.sfrm sd sa) s = execSfrm sd sa s := rfl
@[simp] theorem exec_sred (sd sa : SIdx) : exec (.sred sd sa) s = execSred sd sa s := rfl
@[simp] theorem exec_seq (cd : CIdx) (sa sb : SIdx) : exec (.seq cd sa sb) s = execSeq cd sa sb s := rfl
@[simp] theorem exec_siscan (cd : CIdx) (sa : SIdx) : exec (.siscan cd sa) s = execSiscan cd sa s := rfl
@[simp] theorem exec_srdx16 (ss : SIdx) (addr : Addr) : exec (.srdx16 ss addr) s = execSrdx16 ss addr s := rfl
@[simp] theorem exec_snaf (ss : SIdx) (w : BitVec 4) (addr : Addr) : exec (.snaf ss w addr) s = execSnaf ss w addr s := rfl
@[simp] theorem exec_pid (pd : PIdx) : exec (.pid pd) s = execPid pd s := rfl
@[simp] theorem exec_pbase (pd : PIdx) : exec (.pbase pd) s = execPbase pd s := rfl
@[simp] theorem exec_pmov (pd pa : PIdx) : exec (.pmov pd pa) s = execPmov pd pa s := rfl
@[simp] theorem exec_pneg (pd pa : PIdx) : exec (.pneg pd pa) s = execPneg pd pa s := rfl
@[simp] theorem exec_pdbl (pd pa : PIdx) : exec (.pdbl pd pa) s = execPdbl pd pa s := rfl
@[simp] theorem exec_padd (pd pa pb : PIdx) : exec (.padd pd pa pb) s = execPadd pd pa pb s := rfl
@[simp] theorem exec_psub (pd pa pb : PIdx) : exec (.psub pd pa pb) s = execPsub pd pa pb s := rfl
@[simp] theorem exec_pmul8 (pd pa : PIdx) : exec (.pmul8 pd pa) s = execPmul8 pd pa s := rfl
@[simp] theorem exec_pcmp (ps : PIdx) (addr : Addr) : exec (.pcmp ps addr) s = execPcmp ps addr s := rfl
@[simp] theorem exec_pdec (pd : PIdx) (cd : CIdx) (addr : Addr) : exec (.pdec pd cd addr) s = execPdec pd cd addr s := rfl
@[simp] theorem exec_peq (cd : CIdx) (pa pb : PIdx) : exec (.peq cd pa pb) s = execPeq cd pa pb s := rfl
@[simp] theorem exec_pisid (cd : CIdx) (pa : PIdx) : exec (.pisid cd pa) s = execPisid cd pa s := rfl
@[simp] theorem exec_psmall (cd : CIdx) (pa : PIdx) : exec (.psmall cd pa) s = execPsmall cd pa s := rfl
@[simp] theorem exec_ptorf (cd : CIdx) (pa : PIdx) : exec (.ptorf cd pa) s = execPtorf cd pa s := rfl
@[simp] theorem exec_ph2c (pd : PIdx) (cd : CIdx) : exec (.ph2c pd cd) s = execPh2c pd cd s := rfl
@[simp] theorem exec_ptom (fd : FIdx) (pa : PIdx) : exec (.ptom fd pa) s = execPtom fd pa s := rfl
@[simp] theorem exec_pfromm (pd : PIdx) (cd : CIdx) (fa : FIdx) (bit : BitVec 1) : exec (.pfromm pd cd fa bit) s = execPfromm pd cd fa bit s := rfl
@[simp] theorem exec_pmulv (pd : PIdx) (sa : SIdx) (pb : PIdx) : exec (.pmulv pd sa pb) s = execPmulv pd sa pb s := rfl
@[simp] theorem exec_pmulb (pd : PIdx) (sa : SIdx) : exec (.pmulb pd sa) s = execPmulb pd sa s := rfl
@[simp] theorem exec_pdsm (pd : PIdx) (sa : SIdx) (pb : PIdx) (sc : SIdx) : exec (.pdsm pd sa pb sc) s = execPdsm pd sa pb sc s := rfl
@[simp] theorem exec_pmac (pd : PIdx) (sa : SIdx) (pb : PIdx) : exec (.pmac pd sa pb) s = execPmac pd sa pb s := rfl
@[simp] theorem exec_x25519 (fd : FIdx) (sa : SIdx) (fb : FIdx) : exec (.x25519 fd sa fb) s = execX25519 fd sa fb s := rfl
@[simp] theorem exec_xchk (cd : CIdx) (fa : FIdx) : exec (.xchk cd fa) s = execXchk cd fa s := rfl
@[simp] theorem exec_rdec (pd : PIdx) (cd : CIdx) (addr : Addr) : exec (.rdec pd cd addr) s = execRdec pd cd addr s := rfl
@[simp] theorem exec_renc (ps : PIdx) (addr : Addr) : exec (.renc ps addr) s = execRenc ps addr s := rfl
@[simp] theorem exec_req (cd : CIdx) (pa pb : PIdx) : exec (.req cd pa pb) s = execReq cd pa pb s := rfl
@[simp] theorem exec_rell (pd : PIdx) (fa : FIdx) : exec (.rell pd fa) s = execRell pd fa s := rfl
@[simp] theorem exec_rh2g (pd : PIdx) (addr : Addr) : exec (.rh2g pd addr) s = execRh2g pd addr s := rfl
@[simp] theorem exec_keygen (addr : Addr) : exec (.keygen addr) s = execKeygen addr s := rfl
@[simp] theorem exec_keypub (addr : Addr) : exec (.keypub addr) s = execKeypub addr s := rfl
@[simp] theorem exec_sign (addr : Addr) : exec (.sign addr) s = execSign addr s := rfl
@[simp] theorem exec_signctx (addr : Addr) : exec (.signctx addr) s = execSignctx addr s := rfl
@[simp] theorem exec_signph (addr : Addr) : exec (.signph addr) s = execSignph addr s := rfl
@[simp] theorem exec_signr (addr : Addr) : exec (.signr addr) s = execSignr addr s := rfl
@[simp] theorem exec_keyclr : exec (.keyclr) s = execKeyclr s := rfl
@[simp] theorem exec_verify (cd : CIdx) (addr : Addr) : exec (.verify cd addr) s = execVerify cd addr s := rfl
@[simp] theorem exec_verifyctx (cd : CIdx) (addr : Addr) : exec (.verifyctx cd addr) s = execVerifyctx cd addr s := rfl
@[simp] theorem exec_verifyph (cd : CIdx) (addr : Addr) : exec (.verifyph cd addr) s = execVerifyph cd addr s := rfl
@[simp] theorem exec_vbbegin : exec (.vbbegin) s = execVbbegin s := rfl
@[simp] theorem exec_vbadd (addr : Addr) : exec (.vbadd addr) s = execVbadd addr s := rfl
@[simp] theorem exec_vbend (cd : CIdx) : exec (.vbend cd) s = execVbend cd s := rfl

/-- Every command retires or takes a fault; none stops the machine (R470, R472, R520). -/
theorem exec_eq_complete (i : Instr) : ∃ r, exec i s = complete i s r := by
  cases i <;> first | exact ⟨_, rfl⟩ | exact ⟨.ok _, rfl⟩

/-- Every command answers a next state. -/
theorem exec_next (i : Instr) : ∃ t, exec i s = .next t := by
  obtain ⟨r, h⟩ := exec_eq_complete s i
  exact ⟨_, h⟩

end Sys2Proof.Machine
end

