-- ==== Sys2Proof/Laws/BatchIdle.lean ====
section
/-! SUPPORT. While the batch accumulator is inactive its other fields influence nothing: a machine whose inactive
accumulator holds other contents takes the same steps, until VBBEGIN or a reset or a SCRUB writes all of it. So the
identity and 1 that the table of 10_state.md R30 prints for P and OK at reset, and the zeros of
70_reset_and_hazards.md R511, cannot be told apart (log 5). -/

namespace Sys2Proof.Machine

variable {s t : State} {b : Batch}

/-- Two outcomes are the same, or both are the same next state with an inactive accumulator whose contents may
differ. -/
def idleAgree (b : Batch) (o o' : Outcome) : Prop :=
  o' = o ∨ ∃ t, o = .next t ∧ t.batch.active = false ∧ o' = .next (t.setBatch b)

/-- A command body that does not look at the accumulator: from another accumulator it ends alike and leaves that one
as it is. -/
def batchBlind (s : State) (b : Batch) (r r' : Except ErrCode State) : Prop :=
  (∃ e, r = .error e ∧ r' = .error e) ∨ ∃ t, r = .ok t ∧ t.batch = s.batch ∧ r' = .ok (t.setBatch b)

theorem blind_error (e : ErrCode) : batchBlind s b (.error e) (.error e) := .inl ⟨e, rfl, rfl⟩

theorem blind_ok (h : t.batch = s.batch) : batchBlind s b (.ok t) (.ok (t.setBatch b)) := .inr ⟨t, rfl, h, rfl⟩

theorem blind_writeF (i : FIdx) (v : Fe) :
    batchBlind s b (pure (s.writeF i v)) (pure ((s.setBatch b).writeF i v)) := .inr ⟨_, rfl, rfl, rfl⟩

theorem blind_writeS (i : SIdx) (n : Nat) :
    batchBlind s b (pure (s.writeS i n)) (pure ((s.setBatch b).writeS i n)) := .inr ⟨_, rfl, rfl, rfl⟩

theorem blind_writeP (i : PIdx) (v : Ext) :
    batchBlind s b (pure (s.writeP i v)) (pure ((s.setBatch b).writeP i v)) := .inr ⟨_, rfl, rfl, rfl⟩

theorem blind_writeC (i : CIdx) (v : Bool) :
    batchBlind s b (pure (s.writeC i v)) (pure ((s.setBatch b).writeC i v)) := .inr ⟨_, rfl, rfl, rfl⟩

theorem blind_writeFC (i : FIdx) (v : Fe) (j : CIdx) (c : Bool) :
    batchBlind s b (pure ((s.writeF i v).writeC j c)) (pure (((s.setBatch b).writeF i v).writeC j c)) :=
  .inr ⟨_, rfl, rfl, rfl⟩

theorem blind_writeFF (i : FIdx) (v : Fe) (j : FIdx) (w : Fe) :
    batchBlind s b (pure ((s.writeF i v).writeF j w)) (pure (((s.setBatch b).writeF i v).writeF j w)) :=
  .inr ⟨_, rfl, rfl, rfl⟩

theorem blind_writeCR (i : CIdx) (c : Bool) (r : ResultCode) :
    batchBlind s b (pure ((s.writeC i c).setResult r)) (pure (((s.setBatch b).writeC i c).setResult r)) :=
  .inr ⟨_, rfl, rfl, rfl⟩

theorem blind_setKeyR (k : KeySlot) (r : ResultCode) :
    batchBlind s b (pure ((s.setKey k).setResult r)) (pure (((s.setBatch b).setKey k).setResult r)) :=
  .inr ⟨_, rfl, rfl, rfl⟩

theorem blind_sldc (p : Prop) [Decidable p] (i : SIdx) (n : Nat) (j : CIdx) :
    batchBlind s b (pure (if p then (s.writeS i n).writeC j true else (s.clearS i).writeC j false))
      (pure (if p then ((s.setBatch b).writeS i n).writeC j true else ((s.setBatch b).clearS i).writeC j false)) := by
  split <;> exact .inr ⟨_, rfl, rfl, rfl⟩

theorem blind_read {α : Type} {x : Except ErrCode α} {k k' : α → Except ErrCode State}
    (h : ∀ a, batchBlind s b (k a) (k' a)) : batchBlind s b (x >>= k) (x >>= k') := by
  cases x with
  | error e => exact blind_error e
  | ok a => exact h a

theorem blind_then {x x' : Except ErrCode State} {k : State → Except ErrCode State} (hx : batchBlind s b x x')
    (h : ∀ t, t.batch = s.batch → batchBlind s b (k t) (k (t.setBatch b))) : batchBlind s b (x >>= k) (x' >>= k) := by
  rcases hx with ⟨e, rfl, rfl⟩ | ⟨t, rfl, ht, rfl⟩
  · exact blind_error e
  · exact h t ht

theorem blind_ite {p : Prop} [Decidable p] {x x' y y' : Except ErrCode State} (hx : batchBlind s b x x')
    (hy : batchBlind s b y y') : batchBlind s b (if p then x else y) (if p then x' else y') := by
  split <;> assumption

theorem blind_memWrite (a n : Nat) (v : List Byte) : batchBlind s b (s.memWrite a n v) ((s.setBatch b).memWrite a n v) :=
  blind_ite (blind_ok rfl) (blind_error _)

theorem blind_decodedP (pd : PIdx) (cd : CIdx) (o : Option Ext) :
    batchBlind s b (.ok (s.decodedP pd cd o)) (.ok ((s.setBatch b).decodedP pd cd o)) := by
  cases o <;> exact blind_ok rfl

theorem blind_signDom (flag : Byte) (addr : Addr) :
    batchBlind s b (signDom flag addr s) (signDom flag addr (s.setBatch b)) :=
  blind_read fun _ => blind_ite (blind_ok rfl) <| blind_read fun _ => blind_read fun _ =>
    blind_then (blind_memWrite _ _ _) fun _ h => blind_ok h

theorem blind_verifyTriple (dom : List Byte) (cd : CIdx) (addr : Addr) :
    batchBlind s b (verifyTriple dom cd addr s) (verifyTriple dom cd addr (s.setBatch b)) :=
  blind_read fun _ => blind_read fun _ => blind_ok rfl

theorem blind_verifyDom (flag : Byte) (cd : CIdx) (addr : Addr) :
    batchBlind s b (verifyDom flag cd addr s) (verifyDom flag cd addr (s.setBatch b)) :=
  blind_ite (blind_ok rfl) <| blind_read fun _ => blind_verifyTriple _ _ _

theorem complete_blind {i : Instr} {r r' : Except ErrCode State} (hs : s.batch.active = false)
    (h : batchBlind s b r r') : idleAgree b (complete i s r) (complete i (s.setBatch b) r') := by
  rcases h with ⟨e, rfl, rfl⟩ | ⟨t, rfl, ht, rfl⟩
  · exact .inr ⟨_, rfl, hs, rfl⟩
  · exact .inr ⟨_, rfl, by simpa [ht] using hs, rfl⟩

theorem ok_idle {i : Instr} (hs : s.batch.active = false) (ht : t.batch = s.batch) :
    idleAgree b (complete i s (.ok t)) (complete i (s.setBatch b) (.ok (t.setBatch b))) :=
  complete_blind hs (blind_ok ht)

/-- VBBEGIN writes all of the accumulator (R432). -/
theorem vbbegin_idle (hs : s.batch.active = false) : idleAgree b (execVbbegin s) (execVbbegin (s.setBatch b)) := by
  by_cases h : s.batchOn = true
  · refine .inl ?_
    have h' : (s.setBatch b).batchOn = true := h
    simp only [execVbbegin, require_true h, require_true h', bind_ok]
    rfl
  · exact complete_blind hs (.inl ⟨.illegal, by simp only [require_false h, bind_error],
      by simp only [require_false (show ¬ (s.setBatch b).batchOn = true from h), bind_error]⟩)

/-- SCRUB clears the accumulator whole or leaves it alone (R451). -/
theorem scrub_idle {k : BitVec 7} (hs : s.batch.active = false) :
    idleAgree b (execScrub k s) (execScrub k (s.setBatch b)) := by
  cases h : k.getLsbD 5
  · refine .inr ⟨_, rfl, ?_, ?_⟩ <;>
      simp only [execScrub, scrubStores, scrubFiles, complete_ok, State.setBatch, State.retire, h, Bool.false_eq_true,
        if_false, hs]
  · refine .inl ?_
    simp only [execScrub, scrubStores, scrubFiles, complete_ok, h, State.setBatch, if_true]

/-- VBADD and VBEND stop before they look at an inactive accumulator (R433, R434). -/
theorem gate_idle {i : Instr} {k k' : Unit → Except ErrCode State} (hs : s.batch.active = false) (hb : b.active = false) :
    idleAgree b
      (complete i s (require (s.batchOn = true) .illegal >>= fun _ => require (s.batch.active = true) .sequence >>= k))
      (complete i (s.setBatch b) (require ((s.setBatch b).batchOn = true) .illegal >>= fun _ =>
        require ((s.setBatch b).batch.active = true) .sequence >>= k')) := by
  refine complete_blind hs (blind_read fun _ => .inl ⟨.sequence, ?_, ?_⟩)
  · rw [require_false (by simp [hs]), bind_error]
  · rw [require_false (by simp [hb]), bind_error]

theorem field1_idle {i : Instr} {op : Fe → Fe} {fd fa : FIdx} (hs : s.batch.active = false) :
    idleAgree b (field1 i op fd fa s) (field1 i op fd fa (s.setBatch b)) :=
  complete_blind hs (blind_read fun _ => blind_writeF _ _)

theorem field2_idle {i : Instr} {op : Fe → Fe → Fe} {fd fa fb : FIdx} (hs : s.batch.active = false) :
    idleAgree b (field2 i op fd fa fb s) (field2 i op fd fa fb (s.setBatch b)) :=
  complete_blind hs (blind_read fun _ => blind_read fun _ => blind_writeF _ _)

theorem fieldTest_idle {i : Instr} {p : Fe → Bool} {cd : CIdx} {fa : FIdx} (hs : s.batch.active = false) :
    idleAgree b (fieldTest i p cd fa s) (fieldTest i p cd fa (s.setBatch b)) :=
  complete_blind hs (blind_read fun _ => blind_writeC _ _)

theorem scalar1_idle {i : Instr} {op : Nat → Nat} {sd sa : SIdx} (hs : s.batch.active = false) :
    idleAgree b (scalar1 i op sd sa s) (scalar1 i op sd sa (s.setBatch b)) :=
  complete_blind hs (blind_read fun _ => blind_writeS _ _)

theorem scalar2_idle {i : Instr} {op : Nat → Nat → Nat} {sd sa sb : SIdx} (hs : s.batch.active = false) :
    idleAgree b (scalar2 i op sd sa sb s) (scalar2 i op sd sa sb (s.setBatch b)) :=
  complete_blind hs (blind_read fun _ => blind_read fun _ => blind_writeS _ _)

theorem scalarLoad_idle {i : Instr} {n : Nat} {op : Nat → Nat} {sd : SIdx} {addr : Addr} (hs : s.batch.active = false) :
    idleAgree b (scalarLoad i n op sd addr s) (scalarLoad i n op sd addr (s.setBatch b)) :=
  complete_blind hs (blind_read fun _ => blind_writeS _ _)

theorem point1_idle {i : Instr} {op : Ext → Ext} {pd pa : PIdx} (hs : s.batch.active = false) :
    idleAgree b (point1 i op pd pa s) (point1 i op pd pa (s.setBatch b)) :=
  complete_blind hs (blind_read fun _ => blind_writeP _ _)

theorem point2_idle {i : Instr} {op : Ext → Ext → Ext} {pd pa pb : PIdx} (hs : s.batch.active = false) :
    idleAgree b (point2 i op pd pa pb s) (point2 i op pd pa pb (s.setBatch b)) :=
  complete_blind hs (blind_read fun _ => blind_read fun _ => blind_writeP _ _)

theorem pointTest_idle {i : Instr} {p : Ext → Bool} {cd : CIdx} {pa : PIdx} (hs : s.batch.active = false) :
    idleAgree b (pointTest i p cd pa s) (pointTest i p cd pa (s.setBatch b)) :=
  complete_blind hs (blind_read fun _ => blind_writeC _ _)

theorem pointTest2_idle {i : Instr} {p : Ext → Ext → Bool} {cd : CIdx} {pa pb : PIdx} (hs : s.batch.active = false) :
    idleAgree b (pointTest2 i p cd pa pb s) (pointTest2 i p cd pa pb (s.setBatch b)) :=
  complete_blind hs (blind_read fun _ => blind_read fun _ => blind_writeC _ _)

theorem pointEncode_idle {i : Instr} {enc : Ext → List Byte} {ps : PIdx} {addr : Addr} (hs : s.batch.active = false) :
    idleAgree b (pointEncode i enc ps addr s) (pointEncode i enc ps addr (s.setBatch b)) :=
  complete_blind hs (blind_read fun _ => blind_memWrite _ _ _)

theorem pointDecode_idle {i : Instr} {dec : List Byte → Option Ext} {pd : PIdx} {cd : CIdx} {addr : Addr}
    (hs : s.batch.active = false) :
    idleAgree b (pointDecode i dec pd cd addr s) (pointDecode i dec pd cd addr (s.setBatch b)) :=
  complete_blind hs (blind_read fun _ => blind_decodedP _ _ _)

theorem choice1_idle {i : Instr} {op : Bool → Bool} {cd ca : CIdx} (hs : s.batch.active = false) :
    idleAgree b (choice1 i op cd ca s) (choice1 i op cd ca (s.setBatch b)) :=
  complete_blind hs (blind_read fun _ => blind_writeC _ _)

theorem choice2_idle {i : Instr} {op : Bool → Bool → Bool} {cd ca cb : CIdx} (hs : s.batch.active = false) :
    idleAgree b (choice2 i op cd ca cb s) (choice2 i op cd ca cb (s.setBatch b)) :=
  complete_blind hs (blind_read fun _ => blind_read fun _ => blind_writeC _ _)

/-- No command looks at the contents of an inactive accumulator. -/
theorem exec_idleAgree (i : Instr) (hs : s.batch.active = false) (hb : b.active = false) :
    idleAgree b (exec i s) (exec i (s.setBatch b)) := by
  cases i with
  | scrub k => exact scrub_idle hs
  | vbbegin => exact vbbegin_idle hs
  | vbadd | vbend => exact gate_idle hs hb
  | nop => exact ok_idle (i := .nop) hs rfl
  | cset cd k => exact ok_idle (i := .cset cd k) hs rfl
  | fclr fd => exact ok_idle (i := .fclr fd) hs rfl
  | sclr sd => exact ok_idle (i := .sclr sd) hs rfl
  | pclr pd => exact ok_idle (i := .pclr pd) hs rfl
  | cclr cd => exact ok_idle (i := .cclr cd) hs rfl
  | keyclr => exact ok_idle (i := .keyclr) hs rfl
  | pid pd => exact ok_idle (i := .pid pd) hs rfl
  | pbase pd => exact ok_idle (i := .pbase pd) hs rfl
  | cmov | cnot => exact choice1_idle hs
  | cand | cor | cxor => exact choice2_idle hs
  | fmov | fneg | fsqr | finv | fpow58 | fred => exact field1_idle hs
  | fadd | fsub | fmul => exact field2_idle hs
  | fisneg | fiszero => exact fieldTest_idle hs
  | fld | fconst => exact complete_blind hs (blind_read fun _ => blind_writeF _ _)
  | fcneg => exact complete_blind hs (blind_read fun _ => blind_read fun _ => blind_writeF _ _)
  | fcsel => exact complete_blind hs (blind_read fun _ => blind_read fun _ => blind_read fun _ => blind_writeF _ _)
  | fsqrtr => exact complete_blind hs (blind_read fun _ => blind_read fun _ => blind_writeFC _ _ _ _)
  | fcswap =>
    exact complete_blind hs (blind_read fun _ => blind_read fun _ => blind_read fun _ => blind_writeFF _ _ _ _)
  | feq | seq => exact complete_blind hs (blind_read fun _ => blind_read fun _ => blind_writeC _ _)
  | siscan => exact complete_blind hs (blind_read fun _ => blind_writeC _ _)
  | sld | sldw | sldcl => exact scalarLoad_idle hs
  | sldc => exact complete_blind hs (blind_read fun _ => blind_sldc _ _ _ _)
  | smov | sneg | sinv | stom | sfrm | sred => exact scalar1_idle hs
  | sadd | ssub | smul | smmul => exact scalar2_idle hs
  | sconst => exact complete_blind hs (blind_read fun _ => blind_writeS _ _)
  | pmov | pneg | pdbl | pmul8 => exact point1_idle hs
  | padd | psub => exact point2_idle hs
  | pisid | psmall | ptorf => exact pointTest_idle hs
  | peq | req => exact pointTest2_idle hs
  | pcmp | renc => exact pointEncode_idle hs
  | pdec | rdec => exact pointDecode_idle hs
  | ph2c | pfromm => exact complete_blind hs (blind_read fun _ => blind_decodedP _ _ _)
  | ptom => exact complete_blind hs (blind_read fun _ => blind_writeF _ _)
  | pmulv => exact complete_blind hs (blind_read fun _ => blind_read fun _ => blind_writeP _ _)
  | pmulb | rell | rh2g => exact complete_blind hs (blind_read fun _ => blind_writeP _ _)
  | pdsm | pmac =>
    exact complete_blind hs (blind_read fun _ => blind_read fun _ => blind_read fun _ => blind_writeP _ _)
  | x25519 => exact complete_blind hs (blind_read fun _ => blind_read fun _ => blind_writeF _ _)
  | xchk => exact complete_blind hs (blind_read fun _ => blind_writeCR _ _ _)
  | hash | fst | sst | srdx16 | keypub => exact complete_blind hs (blind_read fun _ => blind_memWrite _ _ _)
  | snaf => exact complete_blind hs (blind_read fun _ => blind_read fun _ => blind_memWrite _ _ _)
  | keygen => exact complete_blind hs (blind_read fun _ => blind_setKeyR _ _)
  | sign | signr =>
    exact complete_blind hs (blind_read fun _ => blind_read fun _ =>
      blind_then (blind_memWrite _ _ _) fun _ h => blind_ok h)
  | signctx => exact complete_blind hs (blind_signDom _ _)
  | signph => exact complete_blind hs (blind_read fun _ => blind_read fun _ => blind_signDom _ _)
  | verify => exact complete_blind hs (blind_verifyTriple _ _ _)
  | verifyctx => exact complete_blind hs (blind_verifyDom _ _ _)
  | verifyph => exact complete_blind hs (blind_read fun _ => blind_read fun _ => blind_verifyDom _ _ _)

theorem idleAgree_next (h : t.batch.active = false) : idleAgree b (.next t) (.next (t.setBatch b)) :=
  .inr ⟨t, rfl, h, rfl⟩

theorem runWord_idleAgree (w : Word) (hs : s.batch.active = false) (hb : b.active = false) :
    idleAgree b (runWord s w) (runWord (s.setBatch b) w) := by
  unfold runWord
  split
  · exact exec_idleAgree _ hs hb
  · exact idleAgree_next hs

theorem writeControl_idleAgree (o : Nat) (w : Word) (hs : s.batch.active = false) (hb : b.active = false) :
    idleAgree b (writeControl s o w) (writeControl (s.setBatch b) o w) := by
  unfold writeControl
  split
  case h_6 =>
    unfold writeCtrl
    split
    · exact .inl rfl
    · split <;> exact idleAgree_next hs
  case h_7 =>
    unfold writeCmd
    change idleAgree b _ (if s.halt then _ else _)
    split
    · exact idleAgree_next hs
    · exact runWord_idleAgree w hs hb
  all_goals exact idleAgree_next hs

/-- No host move looks at them either. -/
theorem hostMove_idleAgree (m : HostMove) (hs : s.batch.active = false) (hb : b.active = false) :
    idleAgree b (hostMove m s) (hostMove m (s.setBatch b)) := by
  cases m with
  | rst => exact .inl rfl
  | readWord o =>
    change idleAgree b (readWordMove s o.toNat) (readWordMove (s.setBatch b) o.toNat)
    unfold readWordMove
    split
    · split
      · exact idleAgree_next hs
      · exact .inl rfl
    · split
      · exact idleAgree_next hs
      · exact .inl rfl
    · exact idleAgree_next hs
  | writeWord o w =>
    change idleAgree b (writeWordMove s o.toNat w) (writeWordMove (s.setBatch b) o.toNat w)
    unfold writeWordMove
    split
    · split
      · exact writeControl_idleAgree _ w hs hb
      · exact .inl rfl
    · split
      · exact idleAgree_next hs
      · exact .inl rfl
    · exact idleAgree_next hs
  | readByte o =>
    change idleAgree b (readByteMove s o.toNat) (readByteMove (s.setBatch b) o.toNat)
    unfold readByteMove
    split
    · exact .inl rfl
    · exact idleAgree_next hs
    · exact idleAgree_next hs
  | writeByte o v =>
    change idleAgree b (writeByteMove s o.toNat v) (writeByteMove (s.setBatch b) o.toNat v)
    unfold writeByteMove
    split
    · exact .inl rfl
    · exact idleAgree_next hs
    · exact idleAgree_next hs

/-- A step from a state whose accumulator is inactive does not depend on the accumulator's other fields: from any
other inactive contents the same step is taken, and either the accumulator was written whole, or it is still inactive
and the states differ in it alone. -/
theorem step_idleAgree (hs : s.batch.active = false) (hb : b.active = false) :
    idleAgree b (step s) (step (s.setBatch b)) := by
  have run : ∀ h : List HostMove, s.host = h → idleAgree b (step s) (step (s.setBatch b)) := by
    intro h e
    have e' : (s.setBatch b).host = h := e
    unfold step nextMove
    rw [e, e']
    cases h with
    | nil => exact idleAgree_next hs
    | cons m ms => exact hostMove_idleAgree (s := { s with host := ms }) m hs hb
  exact run _ rfl

/-- The states differ at most in the contents of an inactive accumulator. -/
def sameButIdle (s s' : State) : Prop :=
  s' = s ∨ s.batch.active = false ∧ ∃ b : Batch, b.active = false ∧ s' = s.setBatch b

/-- What the host can see of two such states is the same: the answer on the bus and every control register, and so is
every item of the state but the accumulator. -/
theorem sameButIdle.observed {s' : State} (h : sameButIdle s s') : s'.busData = s.busData ∧
    (∀ o, readControl s' o = readControl s o) ∧ s'.dm = s.dm ∧ s'.setBatch s.batch = s := by
  rcases h with rfl | ⟨-, b, -, rfl⟩
  · exact ⟨rfl, fun _ => rfl, rfl, rfl⟩
  · exact ⟨rfl, fun _ => rfl, rfl, rfl⟩

/-- Two outcomes that stop alike, or go on to states that differ at most in an inactive accumulator. -/
def outcomesAgree (o o' : Outcome) : Prop := o' = o ∨ ∃ t t', o = .next t ∧ o' = .next t' ∧ sameButIdle t t'

/-- A reset leaves the accumulator inactive, whatever it was. -/
theorem reset_step (h : resetsNext s = true) : ∃ t, step s = .next t ∧ t.batch.active = false := by
  unfold resetsNext at h
  split at h
  · next e => exact ⟨_, by rw [step, nextMove, e]; rfl, rfl⟩
  · next o w ms e =>
    obtain ⟨ho, hw⟩ : o = 0x030#32 ∧ w.getLsbD 1 = true := by simpa using h
    subst ho
    refine ⟨State.resetBlock { s with host := ms }, ?_, rfl⟩
    rw [step, nextMove, e]
    change Host.Outcome.next (writeCtrl _ w) = _
    rw [writeCtrl, if_pos hw]
  · cases h

/-- A step of the block of R511 and one of the block of R30 agree. -/
theorem stepR30_agrees {s' : State} (h : sameButIdle s s') : outcomesAgree (step s) (stepR30 s') := by
  have resets : resetsNext s' = resetsNext s := by rcases h with rfl | ⟨-, b, -, rfl⟩ <;> rfl
  have agree : outcomesAgree (step s) (step s') := by
    rcases h with rfl | ⟨hs, b, hb, rfl⟩
    · exact .inl rfl
    · rcases step_idleAgree hs hb with e | ⟨t, e, ht, e'⟩
      · exact .inl e
      · exact .inr ⟨t, _, e, e', .inr ⟨ht, b, hb, rfl⟩⟩
  unfold stepR30
  rw [resets]
  cases r : resetsNext s
  · rcases agree with e | ⟨t, t', e, e', i⟩
    · left
      rw [e]
      cases step s <;> rfl
    · exact .inr ⟨t, t', e, by rw [e']; rfl, i⟩
  · obtain ⟨t, e, ht⟩ := reset_step r
    rcases agree with e' | ⟨u, t', eu, e', i⟩
    · rw [e', e]
      exact .inr ⟨t, _, rfl, rfl, .inr ⟨ht, .resetR30, rfl, rfl⟩⟩
    · obtain rfl : t = u := by rw [e] at eu; exact Host.Outcome.next.inj eu
      rw [e, e']
      refine .inr ⟨t, _, rfl, rfl, .inr ⟨ht, .resetR30, rfl, ?_⟩⟩
      rcases i with rfl | ⟨-, b, -, rfl⟩ <;> rfl

theorem runs_agree_from (n : Nat) : ∀ {s s' : State}, sameButIdle s s' →
    outcomesAgree (runOf step n s) (runOf stepR30 n s') := by
  induction n with
  | zero => intro s s' h; exact .inr ⟨s, s', rfl, rfl, h⟩
  | succ n ih =>
    intro s s' h
    rw [runOf, runOf]
    rcases stepR30_agrees h with e | ⟨t, t', e, e', i⟩
    · rw [e]
      cases step s with
      | next t => exact ih (.inl rfl)
      | fault f => exact .inl rfl
      | refused f => exact .inl rfl
    · rw [e, e']
      exact ih i

/-- THE TWO READINGS OF RESET. Whatever the host does, the block that resets as R511 says and the block that resets as
the table of R30 prints give the host the same answers: after any number of moves both have stopped alike, or their
states differ at most in the contents of an inactive accumulator (`sameButIdle.observed` says what that leaves equal). -/
theorem runs_agree (n : Nat) (ms : List HostMove) :
    outcomesAgree (runOf step n { State.reset with host := ms }) (runOf stepR30 n { State.resetR30 with host := ms }) :=
  runs_agree_from n (.inr ⟨rfl, .resetR30, rfl, rfl⟩)

end Sys2Proof.Machine
end

