-- ==== Sys2Proof/Laws/FieldBounds.lean ====
section
/-! SUPPORT. The limb bound lemma of 40_field.md R143, function by function. -/

namespace Sys2Proof.Machine

theorem Fe.bounded_ofNats {l0 l1 l2 l3 l4 : Nat} (h0 : l0 < 2 ^ 52) (h1 : l1 < 2 ^ 52) (h2 : l2 < 2 ^ 52)
    (h3 : l3 < 2 ^ 52) (h4 : l4 < 2 ^ 52) : (Fe.ofNats l0 l1 l2 l3 l4).bounded := by
  simp only [Fe.bounded, Fe.ofNats, BitVec.toNat_ofNat]
  refine ⟨?_, ?_, ?_, ?_, ?_⟩ <;> omega

theorem Fe.bounded_zero : Fe.zero.bounded := by decide

theorem feOne_bounded : feOne.bounded := by decide

theorem feFromBytes_bounded (b : List Byte) : (feFromBytes b).bounded := by
  refine Fe.bounded_ofNats ?_ ?_ ?_ ?_ ?_ <;> omega

/-- The weak carry pass on limbs below 2^56. -/
theorem feCarry_bounded {x0 x1 x2 x3 x4 : Nat} (h0 : x0 < 2 ^ 56) (h1 : x1 < 2 ^ 56) (h2 : x2 < 2 ^ 56)
    (h3 : x3 < 2 ^ 56) (h4 : x4 < 2 ^ 56) : (feCarry x0 x1 x2 x3 x4).bounded := by
  refine Fe.bounded_ofNats ?_ ?_ ?_ ?_ ?_ <;> omega

theorem feAdd_bounded {a b : Fe} (ha : a.bounded) (hb : b.bounded) : (feAdd a b).bounded := by
  obtain ⟨a0, a1, a2, a3, a4⟩ := ha
  obtain ⟨b0, b1, b2, b3, b4⟩ := hb
  refine feCarry_bounded ?_ ?_ ?_ ?_ ?_ <;> omega

theorem feSub_bounded {a b : Fe} (ha : a.bounded) : (feSub a b).bounded := by
  obtain ⟨a0, a1, a2, a3, a4⟩ := ha
  refine feCarry_bounded ?_ ?_ ?_ ?_ ?_ <;> simp only [p16Low, p16High] <;> omega

theorem feNeg_bounded (a : Fe) : (feNeg a).bounded := by
  refine feCarry_bounded ?_ ?_ ?_ ?_ ?_ <;> simp only [p16Low, p16High] <;> omega

/-- The carry chain after a product bounds its limbs whatever it is given. -/
theorem feCarryWide_bounded (c0 c1 c2 c3 c4 : Nat) : (feCarryWide c0 c1 c2 c3 c4).bounded := by
  simp only [feCarryWide, lo64]
  refine Fe.bounded_ofNats ?_ ?_ ?_ ?_ ?_ <;> omega

theorem feMul_bounded (a b : Fe) : (feMul a b).bounded := feCarryWide_bounded ..

theorem feSq_bounded (a : Fe) : (feSq a).bounded := feCarryWide_bounded ..

theorem feCanon_bounded (a : Fe) : (feCanon a).bounded := by
  simp only [feCanon]
  refine Fe.bounded_ofNats ?_ ?_ ?_ ?_ ?_ <;> omega

theorem selLimb_eq (a b : BitVec 64) (c : Bool) : selLimb a b c = if c then b else a := by
  cases c
  · simp [selLimb]
  · simp only [selLimb, if_true]
    rw [show (0 - 1 : BitVec 64) = BitVec.allOnes 64 by decide, BitVec.allOnes_and, ← BitVec.xor_assoc,
      BitVec.xor_self, BitVec.zero_xor]

/-- `fe_sel` selects, limb for limb (R154). -/
theorem feSel_eq (a b : Fe) (c : Bool) : feSel a b c = if c then b else a := by
  cases c <;> simp [feSel, selLimb_eq]

theorem feSel_bounded {a b : Fe} (ha : a.bounded) (hb : b.bounded) (c : Bool) : (feSel a b c).bounded := by
  rw [feSel_eq]; split <;> assumption

theorem feCneg_bounded {a : Fe} (ha : a.bounded) (c : Bool) : (feCneg a c).bounded :=
  feSel_bounded ha (feNeg_bounded a) c

theorem feInv_bounded (a : Fe) : (feInv a).bounded := feMul_bounded ..

theorem fePow58_bounded (a : Fe) : (fePow58 a).bounded := feMul_bounded ..

theorem feConst_bounded (k : Nat) : (feConst k).bounded := by
  have all : ∀ x ∈ fieldConstants, x.bounded := by decide
  unfold feConst
  rw [List.getD_eq_getElem?_getD]
  cases h : fieldConstants[k]? with
  | none => exact Fe.bounded_zero
  | some x => exact all x (List.mem_of_getElem? h)

theorem sqrtRatioI_bounded (u v : Fe) : (sqrtRatioI u v).2.bounded :=
  feCneg_bounded (feSel_bounded (feMul_bounded ..) (feMul_bounded ..) _) _

theorem compToExt_bounded (C : Comp) : (compToExt C).bounded :=
  ⟨feMul_bounded .., feMul_bounded .., feMul_bounded .., feMul_bounded ..⟩

theorem edIdentity_bounded : edIdentity.bounded := by decide

theorem basePoint_bounded : basePoint.bounded := by decide

theorem edNeg_bounded {P : Ext} (h : P.bounded) : (edNeg P).bounded :=
  ⟨feNeg_bounded _, h.2.1, h.2.2.1, feNeg_bounded _⟩

theorem projToExt_bounded (R : Proj) : (projToExt R).bounded :=
  ⟨feMul_bounded .., feMul_bounded .., feSq_bounded _, feMul_bounded ..⟩

theorem edLift_bounded {y : Fe} {sign : Bool} {P : Ext} (hy : y.bounded) (h : edLift y sign = some P) : P.bounded := by
  simp only [edLift] at h
  split at h
  · cases h
    exact ⟨feCneg_bounded (sqrtRatioI_bounded ..) _, hy, feOne_bounded, feMul_bounded ..⟩
  · cases h

end Sys2Proof.Machine
end

