-- ==== Sys2Proof/Laws/FieldPrime.lean ====
section
/-! SUPPORT. p = 2^255 - 19 is a prime (00_scope.md R7, R12): a certificate of primitive roots, checked by the kernel. -/

namespace Sys2Proof.Machine

/-- `h * h % p`, times `a` for an odd `n`; the match makes the kernel evaluate `h` once. -/
def powModStep (p a n : Nat) : Nat → Nat
  | 0 => 0
  | k + 1 => if n % 2 = 0 then (k + 1) * (k + 1) % p else a * ((k + 1) * (k + 1) % p) % p

theorem powModStep_eq (p a n h : Nat) :
    powModStep p a n h = if n % 2 = 0 then h * h % p else a * (h * h % p) % p := by
  cases h <;> simp [powModStep]

/-- `a ^ n % p` by squaring and multiplying; `fuel` bounds the bits of `n`. -/
def powMod (p a : Nat) : (fuel n : Nat) → Nat
  | 0, _ => 1 % p
  | fuel + 1, n => powModStep p a n (powMod p a fuel (n / 2))

theorem powMod_eq (p a : Nat) : ∀ (fuel n : Nat), n < 2 ^ fuel → powMod p a fuel n = a ^ n % p
  | 0, n, h => by
    obtain rfl : n = 0 := by simpa using h
    rfl
  | fuel + 1, n, h => by
    have half : n / 2 < 2 ^ fuel := by omega
    have split : a ^ n = a ^ (n % 2) * (a ^ (n / 2) * a ^ (n / 2)) := by
      rw [← pow_add, ← pow_add]; congr 1; omega
    rw [powMod, powMod_eq p a fuel _ half, powModStep_eq, ← Nat.mul_mod]
    rcases Nat.mod_two_eq_zero_or_one n with e | e
    · rw [if_pos e, split, e, pow_zero, one_mul]
    · rw [if_neg (by omega), split, e, pow_one, Nat.mul_mod_mod]

theorem prime_of_factors (p a : Nat) (fs : List Nat) (hprime : ∀ q ∈ fs, q.Prime)
    (h : 1 < p ∧ p < 2 ^ 256 ∧ fs.prod = p - 1 ∧ powMod p a 256 (p - 1) = 1 ∧
      ∀ q ∈ fs, powMod p a 256 ((p - 1) / q) ≠ 1) : p.Prime := by
  obtain ⟨hp, hb, hprod, h1, h2⟩ := h
  have cast : ∀ n, n ≤ p → ((a : ZMod p) ^ n = 1 ↔ powMod p a 256 n = 1) := fun n hn => by
    rw [powMod_eq _ _ _ _ (lt_of_le_of_lt hn hb)]
    have := ZMod.natCast_eq_natCast_iff' (a ^ n) 1 p
    rw [Nat.mod_eq_of_lt hp] at this
    simpa using this
  refine lucas_primality p (a : ZMod p) ((cast _ (by omega)).2 h1) fun q hq hd => ?_
  rw [Ne, cast _ (le_trans (Nat.div_le_self _ _) (by omega))]
  refine h2 q ?_
  rw [← hprod] at hd
  obtain ⟨r, hr, hqr⟩ := (Prime.dvd_prod_iff hq.prime).1 hd
  rwa [(Nat.prime_dvd_prime_iff_eq hq (hprime r hr)).1 hqr]

theorem prime_2773320623 : Nat.Prime 2773320623 :=
  prime_of_factors _ 5 [2, 2437, 569003] (by norm_num) (by decide +kernel)

theorem prime_72106336199 : Nat.Prime 72106336199 :=
  prime_of_factors _ 7 [2, 13, 2773320623] (by simp only [List.forall_mem_cons, prime_2773320623]; norm_num) (by decide +kernel)

theorem prime_1919519569386763 : Nat.Prime 1919519569386763 :=
  prime_of_factors _ 2 [2, 3, 7, 19, 47, 47, 127, 8574133] (by norm_num) (by decide +kernel)

theorem prime_31757755568855353 : Nat.Prime 31757755568855353 :=
  prime_of_factors _ 10 [2, 2, 2, 3, 31, 107, 223, 4153, 430751] (by norm_num) (by decide +kernel)

theorem prime_75445702479781427272750846543864801 : Nat.Prime 75445702479781427272750846543864801 :=
  prime_of_factors _ 7 [2, 2, 2, 2, 2, 3, 3, 5, 5, 75707, 72106336199, 1919519569386763]
    (by simp only [List.forall_mem_cons, prime_72106336199, prime_1919519569386763]; norm_num) (by decide +kernel)

theorem prime_cofactor : Nat.Prime 74058212732561358302231226437062788676166966415465897661863160754340907 :=
  prime_of_factors _ 2 [2, 3, 353, 57467, 132049, 1923133, 31757755568855353, 75445702479781427272750846543864801]
    (by simp only [List.forall_mem_cons, prime_31757755568855353, prime_75445702479781427272750846543864801]; norm_num) (by decide +kernel)

theorem fieldPrime_prime : Nat.Prime (2 ^ 255 - 19) :=
  prime_of_factors _ 2 [2, 2, 3, 65147, 74058212732561358302231226437062788676166966415465897661863160754340907]
    (by simp only [List.forall_mem_cons, prime_cofactor]; norm_num) (by decide +kernel)

end Sys2Proof.Machine
end

