-- ==== Sys2Proof/Laws/Memory.lean ====
section
/-! SUPPORT. The laws of data memory: a read after a write, and that every memory operation keeps the canonical form;
and of byte strings: lengths and the round trip of `le` and `bytesOf`. -/

namespace Sys2Proof.Machine

/-- Reading after one byte was written. -/
@[simp] theorem Memory.read_write (m : Memory) (a k : Nat) (b : Byte) (h : m.Pairwise fun c d => c.1 < d.1) :
    (m.write a b).read k = if k = a then b else m.read k := by
  induction m with
  | nil => unfold Memory.write; split <;> simp_all [Memory.read, eq_comm]
  | cons c m ih =>
    obtain ⟨key, old⟩ := c
    rw [List.pairwise_cons] at h
    have later : ∀ j, j ≤ key → j ≠ key → Memory.read m j = Memory.unlisted := by
      intro j hj hne
      clear ih
      induction m with
      | nil => rfl
      | cons c m ih =>
        obtain ⟨k', v'⟩ := c
        have h1 := h.1 _ (List.mem_cons_self ..)
        simp only [Memory.read]
        rw [if_neg (by simp at h1; omega)]
        exact ih ⟨fun d hd => h.1 d (List.mem_cons_of_mem _ hd), (List.pairwise_cons.1 h.2).2⟩
    have self : Memory.read m key = Memory.unlisted := by
      clear ih later
      induction m with
      | nil => rfl
      | cons c m ih =>
        obtain ⟨k', v'⟩ := c
        have h1 := h.1 _ (List.mem_cons_self ..)
        simp only [Memory.read]
        rw [if_neg (by simp at h1; omega)]
        exact ih ⟨fun d hd => h.1 d (List.mem_cons_of_mem _ hd), (List.pairwise_cons.1 h.2).2⟩
    unfold Memory.write
    by_cases h1 : a < key
    · rw [if_pos h1]
      by_cases hb : b = Memory.unlisted
      · rw [if_pos hb]
        by_cases hk : k = a
        · subst hk
          rw [if_pos rfl, hb]
          simp only [Memory.read]
          rw [if_neg (by omega)]
          exact later k (by omega) (by omega)
        · rw [if_neg hk]
      · rw [if_neg hb]
        simp only [Memory.read]
        by_cases hk : k = a
        · simp [hk]
        · rw [if_neg (by omega), if_neg hk]
    · rw [if_neg h1]
      by_cases h2 : a = key
      · rw [if_pos h2]
        subst h2
        by_cases hb : b = Memory.unlisted
        · rw [if_pos hb]
          by_cases hk : k = a
          · subst hk; rw [if_pos rfl, hb, self]
          · rw [if_neg hk]; simp only [Memory.read]; rw [if_neg (by omega)]
        · rw [if_neg hb]
          simp only [Memory.read]
          by_cases hk : k = a
          · simp [hk]
          · rw [if_neg (by omega), if_neg hk, if_neg (by omega)]
      · rw [if_neg h2]
        simp only [Memory.read]
        by_cases hk : key = k
        · rw [if_pos hk, if_pos hk, if_neg (by omega)]
        · rw [if_neg hk, if_neg hk, ih h.2]

/-- What a write may list: the written address, or what was listed. -/
theorem Memory.mem_write {m : Memory} {a : Nat} {b : Byte} {c : Host.Cell} (h : c ∈ m.write a b) :
    (c = (a, b) ∧ b ≠ Memory.unlisted) ∨ c ∈ m := by
  induction m with
  | nil => unfold Memory.write at h; split at h <;> simp_all
  | cons d m ih =>
    obtain ⟨key, old⟩ := d
    unfold Memory.write at h
    split at h
    · split at h
      · exact .inr h
      · rcases List.mem_cons.1 h with h | h
        · exact .inl ⟨h, ‹_›⟩
        · exact .inr h
    · split at h
      · split at h
        · exact .inr (List.mem_cons_of_mem _ h)
        · rcases List.mem_cons.1 h with h | h
          · exact .inl ⟨h, ‹_›⟩
          · exact .inr (List.mem_cons_of_mem _ h)
      · rcases List.mem_cons.1 h with h | h
        · exact .inr (h ▸ List.mem_cons_self ..)
        · rcases ih h with h | h
          · exact .inl h
          · exact .inr (List.mem_cons_of_mem _ h)

/-- A write keeps the addresses strictly rising. -/
theorem Memory.write_pairwise {m : Memory} (a : Nat) (b : Byte) (h : m.Pairwise fun c d => c.1 < d.1) :
    (m.write a b).Pairwise fun c d => c.1 < d.1 := by
  induction m with
  | nil => unfold Memory.write; split <;> simp
  | cons c m ih =>
    obtain ⟨key, old⟩ := c
    have h' := List.pairwise_cons.1 h
    unfold Memory.write
    split
    · split
      · exact h
      · refine List.pairwise_cons.2 ⟨?_, h⟩
        intro d hd
        rcases List.mem_cons.1 hd with rfl | hd
        · assumption
        · have := h'.1 d hd; simp at *; omega
    · split
      · split
        · exact h'.2
        · refine List.pairwise_cons.2 ⟨fun d hd => ?_, h'.2⟩
          have := h'.1 d hd; simp at *; omega
      · refine List.pairwise_cons.2 ⟨fun d hd => ?_, ih h'.2⟩
        rcases Memory.mem_write hd with ⟨rfl, -⟩ | hd
        · simp at *; omega
        · exact h'.1 d hd

/-- A write inside the address space keeps the canonical form. -/
theorem Memory.write_wf {m : Memory} {a : Nat} (b : Byte) (h : m.wf) (ha : a < Config.memSize) : (m.write a b).wf := by
  refine ⟨Memory.write_pairwise a b h.1, fun c hc => ?_⟩
  rcases Memory.mem_write hc with ⟨rfl, hb⟩ | hc
  · exact ⟨ha, hb⟩
  · exact h.2 c hc

/-- A block write inside the address space keeps the canonical form. -/
theorem Memory.writeBytes_wf {m : Memory} {a : Nat} {v : List Byte} (h : m.wf) (ha : a + v.length ≤ Config.memSize) :
    (m.writeBytes a v).wf := by
  induction v generalizing m a with
  | nil => exact h
  | cons b v ih =>
    simp only [List.length_cons] at ha
    exact ih (Memory.write_wf b h (by omega)) (by omega)

/-- Reading after a block was written. -/
theorem Memory.read_writeBytes (m : Memory) (a k : Nat) (v : List Byte) (h : m.Pairwise fun c d => c.1 < d.1) :
    (m.writeBytes a v).read k = if a ≤ k ∧ k < a + v.length then v.getD (k - a) 0 else m.read k := by
  induction v generalizing m a with
  | nil =>
    simp only [List.length_nil, Nat.add_zero]
    rw [if_neg (by omega)]
    rfl
  | cons b v ih =>
    simp only [Memory.writeBytes]
    rw [ih _ _ (Memory.write_pairwise a b h), Memory.read_write _ _ _ _ h]
    simp only [List.length_cons]
    by_cases hk : k = a
    · subst hk
      rw [if_neg (by omega), if_pos rfl, if_pos (by omega)]
      simp
    · by_cases h1 : a + 1 ≤ k ∧ k < a + 1 + v.length
      · rw [if_pos h1, if_pos (by omega)]
        obtain ⟨j, rfl⟩ : ∃ j, k = a + 1 + j := ⟨k - (a + 1), by omega⟩
        rw [show a + 1 + j - (a + 1) = j by omega, show a + 1 + j - a = j + 1 by omega]
        simp
      · rw [if_neg h1, if_neg hk, if_neg (by omega)]

@[simp] theorem Memory.length_readBytes (m : Memory) (a n : Nat) : (m.readBytes a n).length = n := by
  induction n generalizing a with
  | zero => rfl
  | succ n ih => simp [Memory.readBytes, ih]

@[simp] theorem length_bytesOf (n v : Nat) : (bytesOf n v).length = n := by
  induction n generalizing v with
  | zero => rfl
  | succ n ih => simp [bytesOf, ih]

/-- `le(bytes_n(v)) = v mod 256^n`. -/
theorem le_bytesOf (n v : Nat) : le (bytesOf n v) = v % 256 ^ n := by
  induction n generalizing v with
  | zero => simp [bytesOf, le, Nat.mod_one]
  | succ n ih =>
    simp only [bytesOf, le, ih, BitVec.toNat_ofNat]
    rw [show 256 ^ (n + 1) = 256 * 256 ^ n from Nat.pow_succ', Nat.mod_mul]

/-- A byte string's integer is below 256 to its length. -/
theorem le_lt (b : List Byte) : le b < 256 ^ b.length := by
  induction b with
  | nil => simp [le]
  | cons x b ih =>
    simp only [le, List.length_cons, Nat.pow_succ']
    have := x.isLt
    omega

/-- `bytes_n(le(b)) = b`. -/
theorem bytesOf_le (b : List Byte) : bytesOf b.length (le b) = b := by
  induction b with
  | nil => rfl
  | cons x b ih =>
    simp only [le, List.length_cons, bytesOf]
    have hx := x.isLt
    rw [show (x.toNat + 256 * le b) / 256 = le b by omega, ih]
    congr 1
    apply BitVec.eq_of_toNat_eq
    simp
    exact hx

end Sys2Proof.Machine
end

