-- ==== Sys2Proof/Laws/FieldValues.lean ====
section
/-! SUPPORT. What the limb functions compute in GF(p): one lemma per function, on limbs below 2^52 (40_field.md R144 to
R157). -/

namespace Sys2Proof.Machine

/-- 2^255 = 19 in GF(p), the folding rule of R148. -/
theorem two_pow_255 : (2 : ZMod fieldPrime) ^ 255 = 19 := by
  have h : ((2 ^ 255 : Nat) : ZMod fieldPrime) = ((19 : Nat) : ZMod fieldPrime) :=
    (ZMod.natCast_eq_natCast_iff' _ _ _).2 (by norm_num)
  exact_mod_cast h

/-- Two elements have one value in GF(p) exactly when their `fe_val` agree (R31). -/
theorem gf_eq_iff {x y : Fe} : x.gf = y.gf ↔ feVal x = feVal y := ZMod.natCast_eq_natCast_iff' ..

theorem feVal_lt (x : Fe) : feVal x < fieldPrime := Nat.mod_lt _ (by norm_num)

theorem feVal_cast (x : Fe) : (feVal x : ZMod fieldPrime) = x.gf := by
  rw [feVal, ZMod.natCast_mod]

theorem gf_eq_zero_iff {x : Fe} : x.gf = 0 ↔ feVal x = 0 := by
  rw [Fe.gf, ZMod.natCast_eq_zero_iff, Nat.dvd_iff_mod_eq_zero, feVal]

/-- The integer of five narrowed limbs that fit. -/
theorem feInt_ofNats {a b c d e : Nat} (ha : a < 2 ^ 64) (hb : b < 2 ^ 64) (hc : c < 2 ^ 64) (hd : d < 2 ^ 64)
    (he : e < 2 ^ 64) :
    feInt (.ofNats a b c d e) = a + b * 2 ^ 51 + c * 2 ^ 102 + d * 2 ^ 153 + e * 2 ^ 204 := by
  simp only [feInt, Fe.ofNats, BitVec.toNat_ofNat, Nat.mod_eq_of_lt, ha, hb, hc, hd, he]

/-- The weak carry pass subtracts a multiple of p (R144). -/
theorem feCarry_int {a b c d e : Nat} (ha : a < 2 ^ 56) (hb : b < 2 ^ 56) (hc : c < 2 ^ 56) (hd : d < 2 ^ 56)
    (he : e < 2 ^ 56) :
    feInt (feCarry a b c d e) + fieldPrime * (e / 2 ^ 51) =
      a + b * 2 ^ 51 + c * 2 ^ 102 + d * 2 ^ 153 + e * 2 ^ 204 := by
  rw [feCarry, feInt_ofNats] <;> (try simp only [fieldPrime]) <;> omega

theorem feCarry_gf {a b c d e : Nat} (ha : a < 2 ^ 56) (hb : b < 2 ^ 56) (hc : c < 2 ^ 56) (hd : d < 2 ^ 56)
    (he : e < 2 ^ 56) :
    (feCarry a b c d e).gf = ((a + b * 2 ^ 51 + c * 2 ^ 102 + d * 2 ^ 153 + e * 2 ^ 204 : Nat) : ZMod fieldPrime) := by
  rw [← feCarry_int ha hb hc hd he, Nat.cast_add, Nat.cast_mul, ZMod.natCast_self, zero_mul, add_zero]

theorem feAdd_gf {a b : Fe} (ha : a.bounded) (hb : b.bounded) : (feAdd a b).gf = a.gf + b.gf := by
  obtain ⟨a0, a1, a2, a3, a4⟩ := ha
  obtain ⟨b0, b1, b2, b3, b4⟩ := hb
  rw [feAdd, feCarry_gf (by omega) (by omega) (by omega) (by omega) (by omega)]
  simp only [Fe.gf, feInt]
  push_cast
  ring

/-- The limbs of 16·p make a multiple of p (R141). -/
theorem p16_sum : p16Low + p16High * 2 ^ 51 + p16High * 2 ^ 102 + p16High * 2 ^ 153 + p16High * 2 ^ 204 = fieldPrime * 16 := by
  decide

/-- A difference of limbs with 16·p added is a difference in GF(p) (R146). -/
theorem feSub_gf {a b : Fe} (ha : a.bounded) (hb : b.bounded) : (feSub a b).gf = a.gf - b.gf := by
  obtain ⟨a0, a1, a2, a3, a4⟩ := ha
  obtain ⟨b0, b1, b2, b3, b4⟩ := hb
  have wide : ∀ x : BitVec 64, x.toNat < 2 ^ 52 → x.toNat ≤ p16Low ∧ x.toNat ≤ p16High := by
    intro x hx
    exact ⟨by simp only [p16Low]; omega, by simp only [p16High]; omega⟩
  have key : feInt (feSub a b) + fieldPrime * ((a.l4.toNat + p16High - b.l4.toNat) / 2 ^ 51) + feInt b =
      feInt a + fieldPrime * 16 := by
    rw [feSub, feCarry_int] <;> (try simp only [feInt, p16Low, p16High, fieldPrime]) <;> omega
  have := congrArg (Nat.cast (R := ZMod fieldPrime)) key
  simp only [Nat.cast_add, Nat.cast_mul, ZMod.natCast_self, zero_mul, add_zero] at this
  exact eq_sub_of_add_eq this

theorem feNeg_gf {a : Fe} (ha : a.bounded) : (feNeg a).gf = -a.gf := by
  obtain ⟨a0, a1, a2, a3, a4⟩ := ha
  have key : feInt (feNeg a) + fieldPrime * ((p16High - a.l4.toNat) / 2 ^ 51) + feInt a = fieldPrime * 16 := by
    rw [feNeg, feCarry_int] <;> (try simp only [feInt, p16Low, p16High, fieldPrime]) <;> omega
  have := congrArg (Nat.cast (R := ZMod fieldPrime)) key
  simp only [Nat.cast_add, Nat.cast_mul, ZMod.natCast_self, zero_mul, add_zero] at this
  exact eq_neg_of_add_eq_zero_left this

/-- The carry chain after a product subtracts a multiple of p (R148). -/
theorem feCarryWide_gf {c0 c1 c2 c3 c4 : Nat} (h0 : c0 < 2 ^ 112) (h1 : c1 < 2 ^ 112) (h2 : c2 < 2 ^ 112)
    (h3 : c3 < 2 ^ 112) (h4 : c4 < 2 ^ 112) :
    (feCarryWide c0 c1 c2 c3 c4).gf =
      ((c0 + c1 * 2 ^ 51 + c2 * 2 ^ 102 + c3 * 2 ^ 153 + c4 * 2 ^ 204 : Nat) : ZMod fieldPrime) := by
  have key : ∃ q, feInt (feCarryWide c0 c1 c2 c3 c4) + fieldPrime * q =
      c0 + c1 * 2 ^ 51 + c2 * 2 ^ 102 + c3 * 2 ^ 153 + c4 * 2 ^ 204 := by
    have fits : ∀ v, v < 2 ^ 114 → lo64 (v / 2 ^ 51) = v / 2 ^ 51 := fun v hv => by
      rw [lo64, Nat.mod_eq_of_lt]; omega
    simp only [feCarryWide]
    rw [fits c0 (by omega), fits (c1 + _) (by omega), fits (c2 + _) (by omega), fits (c3 + _) (by omega),
      fits (c4 + _) (by omega)]
    generalize hd1 : c1 + c0 / 2 ^ 51 = d1
    generalize hd2 : c2 + d1 / 2 ^ 51 = d2
    generalize hd3 : c3 + d2 / 2 ^ 51 = d3
    generalize hd4 : c4 + d3 / 2 ^ 51 = d4
    refine ⟨d4 / 2 ^ 51, ?_⟩
    rw [feInt_ofNats] <;> (try simp only [fieldPrime]) <;> omega
  obtain ⟨q, hq⟩ := key
  rw [← hq, Nat.cast_add, Nat.cast_mul, ZMod.natCast_self, zero_mul, add_zero]

theorem mul_lt_104 {x y : Nat} (hx : x < 2 ^ 52) (hy : y < 2 ^ 52) : x * y < 2 ^ 104 :=
  lt_of_lt_of_le (Nat.mul_lt_mul'' hx hy) (by norm_num)

theorem feMul_gf {a b : Fe} (ha : a.bounded) (hb : b.bounded) : (feMul a b).gf = a.gf * b.gf := by
  obtain ⟨a0, a1, a2, a3, a4⟩ := ha
  obtain ⟨b0, b1, b2, b3, b4⟩ := hb
  simp only [feMul, Nat.mul_left_comm _ 19]
  rw [feCarryWide_gf]
  · simp only [Fe.gf, feInt]
    push_cast
    generalize (a.l0.toNat : ZMod fieldPrime) = x0, (a.l1.toNat : ZMod fieldPrime) = x1,
      (a.l2.toNat : ZMod fieldPrime) = x2, (a.l3.toNat : ZMod fieldPrime) = x3,
      (a.l4.toNat : ZMod fieldPrime) = x4, (b.l0.toNat : ZMod fieldPrime) = y0,
      (b.l1.toNat : ZMod fieldPrime) = y1, (b.l2.toNat : ZMod fieldPrime) = y2,
      (b.l3.toNat : ZMod fieldPrime) = y3, (b.l4.toNat : ZMod fieldPrime) = y4
    linear_combination (-(x4 * y1 + x3 * y2 + x2 * y3 + x1 * y4) - (x4 * y2 + x3 * y3 + x2 * y4) * 2 ^ 51 -
      (x4 * y3 + x3 * y4) * 2 ^ 102 - x4 * y4 * 2 ^ 153) * two_pow_255
  all_goals
    have := mul_lt_104 a0 b0
    have := mul_lt_104 a0 b1
    have := mul_lt_104 a0 b2
    have := mul_lt_104 a0 b3
    have := mul_lt_104 a0 b4
    have := mul_lt_104 a1 b0
    have := mul_lt_104 a1 b1
    have := mul_lt_104 a1 b2
    have := mul_lt_104 a1 b3
    have := mul_lt_104 a1 b4
    have := mul_lt_104 a2 b0
    have := mul_lt_104 a2 b1
    have := mul_lt_104 a2 b2
    have := mul_lt_104 a2 b3
    have := mul_lt_104 a2 b4
    have := mul_lt_104 a3 b0
    have := mul_lt_104 a3 b1
    have := mul_lt_104 a3 b2
    have := mul_lt_104 a3 b3
    have := mul_lt_104 a3 b4
    have := mul_lt_104 a4 b0
    have := mul_lt_104 a4 b1
    have := mul_lt_104 a4 b2
    have := mul_lt_104 a4 b3
    have := mul_lt_104 a4 b4
    omega

/-- A square has the limbs of the product (R150). -/
theorem feSq_eq_feMul (a : Fe) : feSq a = feMul a a := by
  simp only [feSq, feMul]
  congr 1 <;> ring

theorem feSq_gf {a : Fe} (ha : a.bounded) : (feSq a).gf = a.gf ^ 2 := by
  rw [feSq_eq_feMul, feMul_gf ha ha, pow_two]

/-- Canonical reduction on limbs below 2^52: the integer is `fe_val` (R151). -/
theorem feCanon_int {x : Fe} (hx : x.bounded) : feInt (feCanon x) = feVal x := by
  obtain ⟨h0, h1, h2, h3, h4⟩ := hx
  have carried := feCarry_int (a := x.l0.toNat) (b := x.l1.toNat) (c := x.l2.toNat) (d := x.l3.toNat)
    (e := x.l4.toNat) (by omega) (by omega) (by omega) (by omega) (by omega)
  have limb : ∀ {a b c d e : Nat}, a < 2 ^ 52 → b < 2 ^ 52 → c < 2 ^ 52 → d < 2 ^ 52 → e < 2 ^ 52 →
      (feCarry a b c d e).l0.toNat < 2 ^ 51 + 38 ∧ (feCarry a b c d e).l1.toNat < 2 ^ 51 + 2 ∧
      (feCarry a b c d e).l2.toNat < 2 ^ 51 + 2 ∧ (feCarry a b c d e).l3.toNat < 2 ^ 51 + 2 ∧
      (feCarry a b c d e).l4.toNat < 2 ^ 51 + 2 := by
    intro a b c d e ha hb hc hd he
    simp only [feCarry, Fe.ofNats, BitVec.toNat_ofNat]
    refine ⟨?_, ?_, ?_, ?_, ?_⟩ <;> refine lt_of_le_of_lt (Nat.mod_le _ _) ?_ <;> omega
  obtain ⟨c0, c1, c2, c3, c4⟩ := limb h0 h1 h2 h3 h4
  have val : feVal x = feInt (feCarry x.l0.toNat x.l1.toNat x.l2.toNat x.l3.toNat x.l4.toNat) % fieldPrime := by
    rw [feVal, show feInt x = _ from carried.symm, Nat.add_mul_mod_self_left]
  rw [val]
  unfold feCanon
  generalize feCarry x.l0.toNat x.l1.toNat x.l2.toNat x.l3.toNat x.l4.toNat = l at *
  obtain ⟨l0, l1, l2, l3, l4⟩ := l
  clear limb val carried h0 h1 h2 h3 h4
  simp only [canonQuotient]
  simp only at c0 c1 c2 c3 c4
  rw [feInt_ofNats (by omega) (by omega) (by omega) (by omega) (by omega)]
  simp only [fieldPrime, feInt]
  generalize l0.toNat = a0, l1.toNat = a1, l2.toNat = a2, l3.toNat = a3, l4.toNat = a4 at *
  generalize hq : (a4 + (a3 + (a2 + (a1 + (a0 + 19) / 2 ^ 51) / 2 ^ 51) / 2 ^ 51) / 2 ^ 51) / 2 ^ 51 = q
  generalize hm : (a4 + (a3 + (a2 + (a1 + (a0 + 19 * q) / 2 ^ 51) / 2 ^ 51) / 2 ^ 51) / 2 ^ 51) / 2 ^ 51 = m
  generalize hS : a0 + a1 * 2 ^ 51 + a2 * 2 ^ 102 + a3 * 2 ^ 153 + a4 * 2 ^ 204 = S
  have quotient : 2 ^ 255 * q ≤ S + 19 ∧ S + 19 < 2 ^ 255 * (q + 1) := by omega
  have reduced : ∀ R, R + 2 ^ 255 * m = S + 19 * q → R < 2 ^ 255 → R = S % (2 ^ 255 - 19) := by
    intro R hR hlt
    have small : S < 2 * (2 ^ 255 - 19) := by omega
    have hq1 : q = 0 ∨ q = 1 := by omega
    rcases hq1 with rfl | rfl
    · rw [Nat.mod_eq_of_lt (by omega)]; omega
    · rw [Nat.mod_eq_sub_mod (by omega), Nat.mod_eq_of_lt (by omega)]; omega
  refine reduced _ ?_ ?_ <;> omega

/-- The canonical bytes of an element are those of its value (R152). -/
theorem feToBytes_eq {x : Fe} (hx : x.bounded) : feToBytes x = bytesOf 32 (feVal x) := by
  rw [feToBytes, feCanon_int hx]

theorem feVal_lt_bytes (x : Fe) : feVal x < 256 ^ 32 := lt_trans (feVal_lt x) (by norm_num)

/-- Byte strings of one length are equal exactly when their integers are. -/
theorem bytesOf_inj {n v w : Nat} (hv : v < 256 ^ n) (hw : w < 256 ^ n) : bytesOf n v = bytesOf n w ↔ v = w := by
  refine ⟨fun h => ?_, fun h => h ▸ rfl⟩
  have := congrArg le h
  rwa [le_bytesOf, le_bytesOf, Nat.mod_eq_of_lt hv, Nat.mod_eq_of_lt hw] at this

theorem feEq_iff {a b : Fe} (ha : a.bounded) (hb : b.bounded) : feEq a b = true ↔ a.gf = b.gf := by
  rw [feEq, beq_iff_eq, feToBytes_eq ha, feToBytes_eq hb, bytesOf_inj (feVal_lt_bytes a) (feVal_lt_bytes b), gf_eq_iff]

theorem feIsZero_iff {a : Fe} (ha : a.bounded) : feIsZero a = true ↔ a.gf = 0 := by
  rw [feIsZero, beq_iff_eq, feToBytes_eq ha, show List.replicate 32 (0 : Byte) = bytesOf 32 0 by decide,
    bytesOf_inj (feVal_lt_bytes a) (by norm_num), gf_eq_zero_iff]

/-- `fe_isneg` is the parity of the value (R153). -/
theorem feIsNeg_iff {a : Fe} (ha : a.bounded) : feIsNeg a = true ↔ feVal a % 2 = 1 := by
  rw [feIsNeg, feToBytes_eq ha]
  simp only [bytesOf, List.getD_cons_zero, BitVec.getLsbD_ofNat]
  simp [Nat.testBit_zero]

theorem feSel_gf (a b : Fe) (c : Bool) : (feSel a b c).gf = if c then b.gf else a.gf := by
  rw [feSel_eq]; split <;> rfl

theorem feCneg_gf {a : Fe} (ha : a.bounded) (c : Bool) : (feCneg a c).gf = if c then -a.gf else a.gf := by
  rw [feCneg, feSel_gf, feNeg_gf ha]

theorem feSqn_bounded {a : Fe} (ha : a.bounded) : ∀ k, (feSqn a k).bounded
  | 0 => ha
  | _ + 1 => feSq_bounded _

theorem feSqn_gf {a : Fe} (ha : a.bounded) : ∀ k, (feSqn a k).gf = a.gf ^ 2 ^ k
  | 0 => by simp [feSqn]
  | k + 1 => by rw [feSqn, feSq_gf (feSqn_bounded ha k), feSqn_gf ha k, ← pow_mul, pow_succ]

/-- The shared start of the two chains (R155). -/
theorem fePow22501_gf {x : Fe} (hx : x.bounded) :
    (fePow22501 x).1.bounded ∧ (fePow22501 x).2.bounded ∧
      (fePow22501 x).1.gf = x.gf ^ (2 ^ 250 - 1) ∧ (fePow22501 x).2.gf = x.gf ^ 11 := by
  have sq : ∀ {y : Fe} {n : Nat}, y.bounded ∧ y.gf = x.gf ^ n → ∀ k, (feSqn y k).bounded ∧ (feSqn y k).gf = x.gf ^ (n * 2 ^ k) :=
    fun h k => ⟨feSqn_bounded h.1 k, by rw [feSqn_gf h.1, h.2, ← pow_mul]⟩
  have mul : ∀ {y z : Fe} {n m : Nat}, y.bounded ∧ y.gf = x.gf ^ n → z.bounded ∧ z.gf = x.gf ^ m →
      (feMul y z).bounded ∧ (feMul y z).gf = x.gf ^ (n + m) :=
    fun h k => ⟨feMul_bounded .., by rw [feMul_gf h.1 k.1, h.2, k.2, ← pow_add]⟩
  have one : x.bounded ∧ x.gf = x.gf ^ 1 := ⟨hx, (pow_one _).symm⟩
  have h0 := sq one 1
  have h3 := mul h0 (mul one (sq h0 2))
  have h5 := mul (mul one (sq h0 2)) (sq h3 1)
  have h7 := mul (sq h5 5) h5
  have h9 := mul (sq h7 10) h7
  have h11 := mul (sq h9 20) h9
  have h13 := mul (sq h11 10) h7
  have h15 := mul (sq h13 50) h13
  have h17 := mul (sq h15 100) h15
  have h19 := mul (sq h17 50) h13
  exact ⟨h19.1, h3.1, h19.2.trans (congrArg _ (by norm_num)), h3.2⟩

/-- `fe_inv` is the power p - 2 (R156). -/
theorem feInv_gf {x : Fe} (hx : x.bounded) : (feInv x).gf = x.gf ^ (2 ^ 255 - 21) := by
  obtain ⟨b1, b2, h1, h2⟩ := fePow22501_gf hx
  rw [feInv, feMul_gf (feSqn_bounded b1 5) b2, feSqn_gf b1, h1, h2, ← pow_mul, ← pow_add]
  exact congrArg _ (by norm_num)

/-- `fe_pow58` is the power (p - 5) / 8 (R157). -/
theorem fePow58_gf {x : Fe} (hx : x.bounded) : (fePow58 x).gf = x.gf ^ (2 ^ 252 - 3) := by
  obtain ⟨b1, b2, h1, -⟩ := fePow22501_gf hx
  rw [fePow58, feMul_gf hx (feSqn_bounded b1 2), feSqn_gf b1, h1, ← pow_mul, ← pow_succ']
  exact congrArg _ (by norm_num)

end Sys2Proof.Machine
end

