-- ==== Sys2Proof/Laws/SquareRoot.lean ====
section
/-! SUPPORT. Squares and nonsquares of GF(p), and the contract of `sqrt_ratio_i` (40_field.md R159 to R161). -/

namespace Sys2Proof.Machine

/-- SQRT_M1 is a square root of -1 (R13). -/
theorem sqrtM1_sq : sqrtM1.gf ^ 2 = -1 := by
  have h : ((feInt sqrtM1 ^ 2 + 1 : Nat) : ZMod fieldPrime) = 0 :=
    (ZMod.natCast_eq_zero_iff _ _).2 (Nat.dvd_of_mod_eq_zero (by decide +kernel))
  push_cast at h
  exact eq_neg_of_add_eq_zero_left h

theorem one_lt_fieldPrime : 1 < fieldPrime := by norm_num

theorem neg_one_ne_one : (-1 : ZMod fieldPrime) ≠ 1 := by
  intro h
  have two : ((2 : Nat) : ZMod fieldPrime) = 0 := by push_cast; linear_combination -h
  exact absurd ((ZMod.natCast_eq_zero_iff _ _).1 two) (by norm_num)

/-- Fermat: x^(p-1) = 1 (R156). -/
theorem gf_pow_card {x : ZMod fieldPrime} (h : x ≠ 0) : x ^ (fieldPrime - 1) = 1 :=
  haveI : Fact fieldPrime.Prime := ⟨fieldPrime_prime⟩
  ZMod.pow_card_sub_one_eq_one h

theorem gf_mul_eq_zero {x y : ZMod fieldPrime} : x * y = 0 ↔ x = 0 ∨ y = 0 :=
  haveI : Fact fieldPrime.Prime := ⟨fieldPrime_prime⟩
  mul_eq_zero

theorem gf_mul_ne_zero {x y : ZMod fieldPrime} (hx : x ≠ 0) (hy : y ≠ 0) : x * y ≠ 0 :=
  fun h => (gf_mul_eq_zero.1 h).elim hx hy

theorem gf_pow_ne_zero {x : ZMod fieldPrime} (hx : x ≠ 0) (n : Nat) : x ^ n ≠ 0 :=
  haveI : Fact fieldPrime.Prime := ⟨fieldPrime_prime⟩
  pow_ne_zero n hx

theorem gf_mul_cancel {x y z : ZMod fieldPrime} (hx : x ≠ 0) : x * y = x * z ↔ y = z :=
  haveI : Fact fieldPrime.Prime := ⟨fieldPrime_prime⟩
  mul_right_inj' hx

/-- The power p - 2 is the inverse (R156). -/
theorem gf_mul_inv {x : ZMod fieldPrime} (h : x ≠ 0) : x * x ^ (2 ^ 255 - 21) = 1 := by
  rw [← pow_succ', ← gf_pow_card h]
  exact congrArg _ (by norm_num)

/-- The fourth roots of 1 are 1, -1, i and -i. -/
theorem gf_fourth_root {t : ZMod fieldPrime} (h : t ^ 4 = 1) :
    t = 1 ∨ t = -1 ∨ t = sqrtM1.gf ∨ t = -sqrtM1.gf := by
  have f : (t - 1) * ((t + 1) * ((t - sqrtM1.gf) * (t + sqrtM1.gf))) = 0 := by
    linear_combination h - (t ^ 2 - 1) * sqrtM1_sq
  rcases gf_mul_eq_zero.1 f with f | f
  · exact .inl (sub_eq_zero.1 f)
  rcases gf_mul_eq_zero.1 f with f | f
  · exact .inr (.inl (eq_neg_of_add_eq_zero_left f))
  rcases gf_mul_eq_zero.1 f with f | f
  · exact .inr (.inr (.inl (sub_eq_zero.1 f)))
  · exact .inr (.inr (.inr (eq_neg_of_add_eq_zero_left f)))

/-- i is no square: p - 1 is 4 modulo 8. -/
theorem sqrtM1_nonsquare (x : ZMod fieldPrime) : x ^ 2 ≠ sqrtM1.gf := by
  intro h
  have h4 : x ^ 4 = -1 := by linear_combination (x ^ 2 + sqrtM1.gf) * h + sqrtM1_sq
  have hx : x ≠ 0 := by
    rintro rfl
    refine neg_one_ne_one ?_
    linear_combination (-2 : ZMod fieldPrime) * h4
  have e : fieldPrime - 1 = 4 * (2 * (2 ^ 252 - 3) + 1) := by norm_num
  have := gf_pow_card hx
  rw [e, pow_mul, h4, pow_succ, pow_mul, neg_one_sq, one_pow, one_mul] at this
  exact neg_one_ne_one this

/-- d is no square (R35): its power (p-1)/2 is -1. -/
theorem edwardsD_nonsquare (x : ZMod fieldPrime) : x ^ 2 ≠ edwardsD.gf := by
  intro h
  have half : edwardsD.gf ^ ((fieldPrime - 1) / 2) = -1 := by
    have k : (feInt edwardsD ^ ((fieldPrime - 1) / 2) + 1) % fieldPrime = 0 := by
      rw [Nat.add_mod, ← powMod_eq fieldPrime (feInt edwardsD) 256 _ (by norm_num)]
      decide +kernel
    have z : ((feInt edwardsD ^ ((fieldPrime - 1) / 2) + 1 : Nat) : ZMod fieldPrime) = 0 :=
      (ZMod.natCast_eq_zero_iff _ _).2 (Nat.dvd_of_mod_eq_zero k)
    rw [Nat.cast_add, Nat.cast_pow, Nat.cast_one] at z
    exact eq_neg_of_add_eq_zero_left z
  have hx : x ≠ 0 := by
    rintro rfl
    have h0 : edwardsD.gf = 0 := by rw [← h]; exact zero_pow (by norm_num)
    exact absurd (gf_eq_zero_iff.1 h0) (by decide +kernel)
  have := gf_pow_card hx
  rw [show fieldPrime - 1 = 2 * ((fieldPrime - 1) / 2) by norm_num, pow_mul, h, half] at this
  exact neg_one_ne_one this

theorem sqrtM1_bounded : sqrtM1.bounded := by decide

/-- The sign rule: negating an odd element makes it even, and its square stays (R159). -/
theorem feCneg_isNeg {x : Fe} (hx : x.bounded) :
    feVal (feCneg x (feIsNeg x)) % 2 = 0 ∧ (feCneg x (feIsNeg x)).gf ^ 2 = x.gf ^ 2 ∧
      ((feCneg x (feIsNeg x)).gf = x.gf ∨ (feCneg x (feIsNeg x)).gf = -x.gf) := by
  have g := feCneg_gf hx (feIsNeg x)
  cases h : feIsNeg x
  · rw [h, if_neg (by simp)] at g
    have e := mt (feIsNeg_iff hx).2 (by simp [h])
    rw [gf_eq_iff.1 g, g]
    exact ⟨by omega, rfl, .inl rfl⟩
  · rw [h, if_pos rfl] at g
    have e := (feIsNeg_iff hx).1 h
    refine ⟨?_, by rw [g, neg_sq], .inr g⟩
    have sum : feVal (feCneg x true) + feVal x = fieldPrime := by
      have z : ((feVal (feCneg x true) + feVal x : Nat) : ZMod fieldPrime) = 0 := by
        rw [Nat.cast_add, feVal_cast, feVal_cast, g, neg_add_cancel]
      obtain ⟨k, hk⟩ := (ZMod.natCast_eq_zero_iff _ _).1 z
      have l1 := feVal_lt x
      have l2 := feVal_lt (feCneg x true)
      have hk1 : k = 1 := by
        have : k < 2 := by
          by_contra hc
          have := Nat.mul_le_mul_left fieldPrime (not_lt.1 hc)
          omega
        rcases k with _ | _ | k
        · simp only [mul_zero] at hk; omega
        · rfl
        · omega
      rw [hk, hk1, mul_one]
    have odd : fieldPrime % 2 = 1 := by norm_num
    omega

/-- `sqrt_ratio_i` keeps its contract (R159, R161): the root is even; with u and v nonzero, either the flag is 1 and
v·r² = u, or it is 0 and v·r² = i·u; u = 0 gives (1, 0), and v = 0 with u nonzero gives (0, 0). -/
theorem sqrtRatioI_spec {u v : Fe} (hu : u.bounded) (hv : v.bounded) :
    feVal (sqrtRatioI u v).2 % 2 = 0 ∧
      (u.gf ≠ 0 → v.gf ≠ 0 →
        (sqrtRatioI u v).1 = true ∧ v.gf * (sqrtRatioI u v).2.gf ^ 2 = u.gf ∨
        (sqrtRatioI u v).1 = false ∧ v.gf * (sqrtRatioI u v).2.gf ^ 2 = sqrtM1.gf * u.gf) ∧
      (u.gf = 0 → (sqrtRatioI u v).1 = true ∧ (sqrtRatioI u v).2.gf = 0) ∧
      (u.gf ≠ 0 → v.gf = 0 → (sqrtRatioI u v).1 = false ∧ (sqrtRatioI u v).2.gf = 0) := by
  simp only [sqrtRatioI]
  have b3 := feMul_bounded (feSq v) v
  have b7 := feMul_bounded (feSq (feMul (feSq v) v)) v
  have g3 : (feMul (feSq v) v).gf = v.gf ^ 3 := by rw [feMul_gf (feSq_bounded v) hv, feSq_gf hv, ← pow_succ]
  have g7 : (feMul (feSq (feMul (feSq v) v)) v).gf = v.gf ^ 7 := by
    rw [feMul_gf (feSq_bounded _) hv, feSq_gf b3, g3, ← pow_mul, ← pow_succ]
  generalize hc : feMul (feMul u (feMul (feSq v) v)) (fePow58 (feMul u (feMul (feSq (feMul (feSq v) v)) v))) = c
  have bc : c.bounded := hc ▸ feMul_bounded ..
  have gc : c.gf = u.gf * v.gf ^ 3 * (u.gf * v.gf ^ 7) ^ (2 ^ 252 - 3) := by
    rw [← hc, feMul_gf (feMul_bounded ..) (fePow58_bounded _), feMul_gf hu b3, fePow58_gf (feMul_bounded ..),
      feMul_gf hu b7, g3, g7]
  have gcheck : (feMul v (feSq c)).gf = v.gf * c.gf ^ 2 := by rw [feMul_gf hv (feSq_bounded c), feSq_gf bc]
  have bcheck := feMul_bounded v (feSq c)
  have gn := feNeg_gf hu
  have hcorrect := feEq_iff bcheck hu
  have hflipped := feEq_iff bcheck (feNeg_bounded u)
  have hflippedI := feEq_iff bcheck (feMul_bounded (feNeg u) sqrtM1)
  rw [gcheck] at hcorrect hflipped hflippedI
  rw [gn] at hflipped
  rw [feMul_gf (feNeg_bounded u) sqrtM1_bounded, gn] at hflippedI
  generalize feEq (feMul v (feSq c)) u = correct at *
  generalize feEq (feMul v (feSq c)) (feNeg u) = flipped at *
  generalize feEq (feMul v (feSq c)) (feMul (feNeg u) sqrtM1) = flippedI at *
  have bsel := feSel_bounded bc (feMul_bounded sqrtM1 c) (flipped || flippedI)
  obtain ⟨even, square, sign⟩ := feCneg_isNeg bsel
  have gsel : (feSel c (feMul sqrtM1 c) (flipped || flippedI)).gf =
      if (flipped || flippedI) = true then sqrtM1.gf * c.gf else c.gf := by
    rw [feSel_gf, feMul_gf sqrtM1_bounded bc]
  generalize feCneg (feSel c (feMul sqrtM1 c) (flipped || flippedI)) _ = r at *
  rw [gsel] at square sign
  clear gsel bsel
  refine ⟨even, fun u0 v0 => ?_, fun u0 => ?_, fun u0 v0 => ?_⟩
  · have t4 := gf_pow_card (gf_mul_ne_zero u0 (gf_pow_ne_zero v0 7))
    rw [show fieldPrime - 1 = (2 ^ 253 - 5) * 4 by norm_num, pow_mul] at t4
    have check : v.gf * c.gf ^ 2 = u.gf * (u.gf * v.gf ^ 7) ^ (2 ^ 253 - 5) := by
      rw [gc, show (2 : Nat) ^ 253 - 5 = 1 + (2 ^ 252 - 3) * 2 by norm_num, pow_add, pow_mul, pow_one]
      ring
    generalize (u.gf * v.gf ^ 7) ^ (2 ^ 253 - 5) = t at *
    have i2 := sqrtM1_sq
    have cancel : ∀ x y, u.gf * x = u.gf * y ↔ x = y := fun x y => gf_mul_cancel u0
    have two : (2 : ZMod fieldPrime) ≠ 0 := fun h => neg_one_ne_one (by linear_combination -h)
    have i0 : sqrtM1.gf ≠ 0 := fun h => neg_one_ne_one (by rw [h] at i2; linear_combination -2 * i2)
    rw [check] at hcorrect hflipped hflippedI
    have f1 : correct = true ↔ t = 1 := by rw [hcorrect, ← cancel t 1, mul_one]
    have f2 : flipped = true ↔ t = -1 := by rw [hflipped, ← cancel t (-1), mul_neg_one]
    have f3 : flippedI = true ↔ t = -sqrtM1.gf := by rw [hflippedI, ← cancel t (-sqrtM1.gf), mul_neg, neg_mul]
    have ni : sqrtM1.gf ≠ 1 := fun h => neg_one_ne_one (by rw [h] at i2; linear_combination -i2)
    have nni : sqrtM1.gf ≠ -1 := fun h => neg_one_ne_one (by rw [h] at i2; linear_combination -i2)
    have nii : sqrtM1.gf ≠ -sqrtM1.gf := fun h =>
      (gf_mul_ne_zero two i0) (by linear_combination h)
    rcases gf_fourth_root t4 with rfl | rfl | rfl | rfl
    · have e1 : correct = true := f1.2 rfl
      have e2 : flipped = false := by rw [← Bool.not_eq_true, f2]; exact fun h => neg_one_ne_one h.symm
      have e3 : flippedI = false := by rw [← Bool.not_eq_true, f3]; exact fun h => nni (by rw [h, neg_neg])
      simp only [e1, e2, e3, Bool.or_false] at square ⊢
      refine .inl ⟨trivial, ?_⟩
      rw [square]
      simpa using check
    · have e1 : correct = false := by rw [← Bool.not_eq_true, f1]; exact neg_one_ne_one
      have e2 : flipped = true := f2.2 rfl
      simp only [e1, e2, Bool.true_or, if_true] at square ⊢
      refine .inl ⟨rfl, ?_⟩
      rw [square]
      linear_combination sqrtM1.gf ^ 2 * check - u.gf * i2
    · have e1 : correct = false := by rw [← Bool.not_eq_true, f1]; exact ni
      have e2 : flipped = false := by rw [← Bool.not_eq_true, f2]; exact nni
      have e3 : flippedI = false := by rw [← Bool.not_eq_true, f3]; exact nii
      simp only [e1, e2, e3, Bool.or_false] at square ⊢
      refine .inr ⟨trivial, ?_⟩
      rw [square]
      simp only [Bool.false_eq_true, if_false]
      linear_combination check
    · have e1 : correct = false := by rw [← Bool.not_eq_true, f1]; exact fun h => nni (by rw [← h, neg_neg])
      have e2 : flipped = false := by rw [← Bool.not_eq_true, f2]; exact fun h => ni (neg_injective h)
      have e3 : flippedI = true := f3.2 rfl
      simp only [e1, e2, e3, Bool.or_true, Bool.or_false, if_true] at square ⊢
      refine .inr ⟨trivial, ?_⟩
      rw [square]
      linear_combination sqrtM1.gf ^ 2 * check - u.gf * sqrtM1.gf * i2
  · have c0 : c.gf = 0 := by rw [gc, u0]; ring
    have e1 : correct = true := hcorrect.2 (by rw [c0, u0]; ring)
    refine ⟨by simp [e1], ?_⟩
    rcases sign with h | h <;> rw [h, c0] <;> simp
  · have c0 : c.gf = 0 := by rw [gc, v0]; ring
    rw [v0, c0] at hcorrect hflipped
    have e1 : correct = false := by rw [← Bool.not_eq_true, hcorrect]; exact fun h => u0 (by rw [← h]; ring)
    have e2 : flipped = false := by
      rw [← Bool.not_eq_true, hflipped]; exact fun h => u0 (by rw [← neg_eq_zero, ← h]; ring)
    refine ⟨by simp [e1, e2], ?_⟩
    rcases sign with h | h <;> rw [h, c0] <;> simp

/-- The flag is 0 only where the ratio has no square root (R159). -/
theorem sqrtRatioI_nonsquare {u v : Fe} (hu : u.bounded) (hv : v.bounded) (h : (sqrtRatioI u v).1 = false)
    (x : ZMod fieldPrime) : v.gf * x ^ 2 ≠ u.gf := by
  obtain ⟨-, main, uzero, vzero⟩ := sqrtRatioI_spec hu hv
  intro hx
  have u0 : u.gf ≠ 0 := fun e => by simp [(uzero e).1] at h
  by_cases v0 : v.gf = 0
  · exact u0 (by rw [← hx, v0, zero_mul])
  obtain ⟨e, -⟩ | ⟨-, e⟩ := main u0 v0
  · simp [e] at h
  have x0 : x ≠ 0 := by rintro rfl; exact u0 (by rw [← hx]; ring)
  refine sqrtM1_nonsquare ((sqrtRatioI u v).2.gf * x ^ (2 ^ 255 - 21)) ?_
  have inv := gf_mul_inv x0
  generalize x ^ (2 ^ 255 - 21) = y at *
  rw [← hx] at e
  have e' : (sqrtRatioI u v).2.gf ^ 2 = sqrtM1.gf * x ^ 2 := (gf_mul_cancel v0).1 (by linear_combination e)
  linear_combination y ^ 2 * e' + sqrtM1.gf * (x * y + 1) * inv

end Sys2Proof.Machine
end

