-- ==== Sys2Proof/Laws/CurveLaw.lean ====
section
/-! SUPPORT. The group law of the curve on coordinates: completeness, and the sums that `ed_add`, `ed_sub` and
`ed_double` compute (00_scope.md R12; 10_state.md R35; 42_edwards.md R264 to R270). -/

namespace Sys2Proof.Machine

/-- The curve in affine coordinates (R12). -/
def affineCurve (x y : ZMod fieldPrime) : Prop := y ^ 2 - x ^ 2 = 1 + edwardsD.gf * x ^ 2 * y ^ 2

/-- P has the affine coordinates x, y, and Z nonzero. -/
def Ext.at (P : Ext) (x y : ZMod fieldPrime) : Prop :=
  P.Z.gf ≠ 0 ∧ P.X.gf = P.Z.gf * x ∧ P.Y.gf = P.Z.gf * y ∧ P.T.gf = P.Z.gf * (x * y)

/-- A point has affine coordinates on the curve (R35). -/
theorem Ext.isPoint.affine {P : Ext} (h : P.isPoint) : ∃ x y, P.at x y ∧ affineCurve x y := by
  obtain ⟨⟨curve, seg⟩, z0⟩ := h
  have inv := gf_mul_inv z0
  generalize P.Z.gf ^ (2 ^ 255 - 21) = w at inv
  have tz : P.T.gf = P.Z.gf * (P.X.gf * w * (P.Y.gf * w)) := by
    linear_combination (-P.T.gf - P.Z.gf * P.T.gf * w) * inv - P.Z.gf * w ^ 2 * seg
  refine ⟨P.X.gf * w, P.Y.gf * w, ⟨z0, by linear_combination -P.X.gf * inv, by linear_combination -P.Y.gf * inv, tz⟩, ?_⟩
  rw [affineCurve]
  have tw : P.T.gf * w = P.X.gf * w * (P.Y.gf * w) := by
    linear_combination w * tz + P.X.gf * w * (P.Y.gf * w) * inv
  linear_combination w ^ 2 * curve + (P.Z.gf * w + 1) * inv + edwardsD.gf * (P.T.gf * w + P.X.gf * w * (P.Y.gf * w)) * tw

/-- Affine coordinates on the curve make a point (R35). -/
theorem Ext.at.isPoint {P : Ext} {x y : ZMod fieldPrime} (h : P.at x y) (c : affineCurve x y) : P.isPoint := by
  obtain ⟨z0, hx, hy, ht⟩ := h
  rw [affineCurve] at c
  refine ⟨⟨?_, ?_⟩, z0⟩
  · rw [hx, hy, ht]; linear_combination P.Z.gf ^ 2 * c
  · rw [hx, hy, ht]; ring

/-- The law has no exceptional inputs: d·x1·x2·y1·y2 is never 1 or -1 on the curve (R35, R268). -/
theorem curve_complete {x y u v : ZMod fieldPrime} (h : affineCurve x y) (k : affineCurve u v) :
    1 + edwardsD.gf * x * u * y * v ≠ 0 ∧ 1 - edwardsD.gf * x * u * y * v ≠ 0 := by
  rw [affineCurve] at h k
  have i2 := sqrtM1_sq
  -- with s = i·x and t = i·u the curve is s² + y² = 1 + e·s²·y² for the nonsquare e = -d
  have main : ∀ ε : ZMod fieldPrime, ε ^ 2 = 1 → edwardsD.gf * x * u * y * v ≠ ε := by
    intro ε e2 heq
    have ε0 : ε ≠ 0 := by rintro rfl; exact neg_one_ne_one (by linear_combination 2 * e2)
    have prod0 : edwardsD.gf * x * u * y * v ≠ 0 := heq ▸ ε0
    have x0 : x ≠ 0 := by rintro rfl; exact prod0 (by ring)
    have u0 : u ≠ 0 := by rintro rfl; exact prod0 (by ring)
    have y0 : y ≠ 0 := by rintro rfl; exact prod0 (by ring)
    have i0 : sqrtM1.gf ≠ 0 := fun z => neg_one_ne_one (by rw [z] at i2; linear_combination -2 * i2)
    have xy0 := gf_mul_ne_zero x0 y0
    -- a nonzero factor makes d a square
    have square : ∀ A B : ZMod fieldPrime, B ≠ 0 → A ^ 2 = edwardsD.gf * B ^ 2 → False := by
      intro A B B0 hAB
      have inv := gf_mul_inv B0
      generalize B ^ (2 ^ 255 - 21) = w at inv
      refine edwardsD_nonsquare (A * w) ?_
      linear_combination w ^ 2 * hAB + edwardsD.gf * (B * w + 1) * inv
    have plus : (sqrtM1.gf * x + ε * y) ^ 2 = edwardsD.gf * (x * y * (sqrtM1.gf * u + v)) ^ 2 := by
      linear_combination h + (x ^ 2 - edwardsD.gf * x ^ 2 * y ^ 2 * u ^ 2) * i2 + y ^ 2 * e2 -
        edwardsD.gf * x ^ 2 * y ^ 2 * k - (edwardsD.gf * x * u * y * v + ε + 2 * sqrtM1.gf * x * y) * heq - e2
    have minus : (sqrtM1.gf * x - ε * y) ^ 2 = edwardsD.gf * (x * y * (sqrtM1.gf * u - v)) ^ 2 := by
      linear_combination h + (x ^ 2 - edwardsD.gf * x ^ 2 * y ^ 2 * u ^ 2) * i2 + y ^ 2 * e2 -
        edwardsD.gf * x ^ 2 * y ^ 2 * k - (edwardsD.gf * x * u * y * v + ε - 2 * sqrtM1.gf * x * y) * heq - e2
    by_cases c : sqrtM1.gf * u + v = 0
    · have c' : sqrtM1.gf * u - v ≠ 0 := by
        intro c'
        have z : (2 : ZMod fieldPrime) * (sqrtM1.gf * u) = 0 := by linear_combination c + c'
        have two : (2 : ZMod fieldPrime) ≠ 0 := fun z => neg_one_ne_one (by linear_combination -z)
        exact gf_mul_ne_zero two (gf_mul_ne_zero i0 u0) z
      exact square _ _ (gf_mul_ne_zero xy0 c') minus
    · exact square _ _ (gf_mul_ne_zero xy0 c) plus
  refine ⟨fun z => main (-1) (by ring) (by linear_combination z), fun z => main 1 (by ring) (by linear_combination -z)⟩

/-- The sum of two points of the curve is on the curve (R12). -/
theorem curve_closed {x1 y1 x2 y2 d : ZMod fieldPrime} (c1 : y1 ^ 2 - x1 ^ 2 = 1 + d * x1 ^ 2 * y1 ^ 2)
    (c2 : y2 ^ 2 - x2 ^ 2 = 1 + d * x2 ^ 2 * y2 ^ 2) :
    (y1 * y2 + x1 * x2) ^ 2 * (1 + d * x1 * x2 * y1 * y2) ^ 2 -
        (x1 * y2 + y1 * x2) ^ 2 * (1 - d * x1 * x2 * y1 * y2) ^ 2 =
      (1 - (d * x1 * x2 * y1 * y2) ^ 2) ^ 2 + d * (x1 * y2 + y1 * x2) ^ 2 * (y1 * y2 + x1 * x2) ^ 2 := by
  linear_combination (x1^2 * y1^2 * x2^4 * y2^4 * d^3 - x1^2 * x2^4 * y2^4 * d^2 - x1^2 * x2^4 * y2^2 * d +
    x1^2 * x2^2 * y2^4 * d + y1^2 * x2^4 * y2^4 * d^2 + y1^2 * x2^4 * y2^2 * d - y1^2 * x2^2 * y2^4 * d -
    x2^4 * y2^4 * d^2 - 2 * x2^4 * y2^4 * d - 2 * x2^4 * y2^2 + x2^4 + 2 * x2^2 * y2^4 - 2 * x2^2 * y2^2 * d -
    4 * x2^2 * y2^2 + y2^4) * c1 +
    (x1^4 * x2^2 * y2^2 * d + 2 * x1^2 * x2^2 * y2^2 * d + 2 * x1^2 * x2^2 * y2^2 - x1^2 * x2^2 + x1^2 * y2^2 +
    y1^4 * x2^2 * y2^2 * d - 2 * y1^2 * x2^2 * y2^2 * d - 2 * y1^2 * x2^2 * y2^2 + y1^2 * x2^2 - y1^2 * y2^2 +
    x2^2 * y2^2 * d + 2 * x2^2 * y2^2 - x2^2 + y2^2 + 1) * c2

/-- (x3, y3) is the sum of (x1, y1) and (x2, y2) (R12), the denominators on the left. -/
def affineSum (x1 y1 x2 y2 x3 y3 : ZMod fieldPrime) : Prop :=
  x3 * (1 + edwardsD.gf * x1 * x2 * y1 * y2) = x1 * y2 + y1 * x2 ∧
    y3 * (1 - edwardsD.gf * x1 * x2 * y1 * y2) = y1 * y2 + x1 * x2

/-- Coordinates of a point in model Proj (R253). -/
def Proj.at (P : Proj) (x y : ZMod fieldPrime) : Prop := P.Z.gf ≠ 0 ∧ P.X.gf = P.Z.gf * x ∧ P.Y.gf = P.Z.gf * y

/-- Coordinates of a projective Niels entry (R256). -/
def PNiels.at (t : PNiels) (x y : ZMod fieldPrime) : Prop :=
  t.Z.gf ≠ 0 ∧ t.YpX.gf = t.Z.gf * (y + x) ∧ t.YmX.gf = t.Z.gf * (y - x) ∧
    t.T2d.gf = t.Z.gf * (2 * edwardsD.gf * x * y)

/-- Coordinates of an affine Niels entry (R255). -/
def ANiels.at (t : ANiels) (x y : ZMod fieldPrime) : Prop :=
  t.ypx.gf = y + x ∧ t.ymx.gf = y - x ∧ t.xy2d.gf = 2 * edwardsD.gf * x * y

/-- Limb bounds of the other models (R31, R143). -/
abbrev Comp.bounded (C : Comp) : Prop := C.X.bounded ∧ C.Y.bounded ∧ C.Z.bounded ∧ C.T.bounded

abbrev Proj.bounded (P : Proj) : Prop := P.X.bounded ∧ P.Y.bounded ∧ P.Z.bounded

abbrev PNiels.bounded (t : PNiels) : Prop := t.YpX.bounded ∧ t.YmX.bounded ∧ t.Z.bounded ∧ t.T2d.bounded

abbrev ANiels.bounded (t : ANiels) : Prop := t.ypx.bounded ∧ t.ymx.bounded ∧ t.xy2d.bounded

/-- Four coordinates l·(sum numerators and denominators), the shape every adder and doubler answers (R254, R264 to
R267). -/
def Comp.sums (C : Comp) (x1 y1 x2 y2 : ZMod fieldPrime) : Prop :=
  ∃ l, l ≠ 0 ∧ C.X.gf = l * (x1 * y2 + y1 * x2) ∧ C.Y.gf = l * (y1 * y2 + x1 * x2) ∧
    C.Z.gf = l * (1 + edwardsD.gf * x1 * x2 * y1 * y2) ∧ C.T.gf = l * (1 - edwardsD.gf * x1 * x2 * y1 * y2)

/-- The sum of two points exists and is on the curve. -/
theorem affineSum_exists {x1 y1 x2 y2 : ZMod fieldPrime} (c1 : affineCurve x1 y1) (c2 : affineCurve x2 y2) :
    ∃ x3 y3, affineSum x1 y1 x2 y2 x3 y3 ∧ affineCurve x3 y3 := by
  obtain ⟨p0, m0⟩ := curve_complete c1 c2
  have closed := curve_closed c1 c2
  have ip := gf_mul_inv p0
  have im := gf_mul_inv m0
  generalize (1 + edwardsD.gf * x1 * x2 * y1 * y2) ^ (2 ^ 255 - 21) = u at ip
  generalize (1 - edwardsD.gf * x1 * x2 * y1 * y2) ^ (2 ^ 255 - 21) = v at im
  have hx : (x1 * y2 + y1 * x2) * u * (1 + edwardsD.gf * x1 * x2 * y1 * y2) = x1 * y2 + y1 * x2 := by
    linear_combination (x1 * y2 + y1 * x2) * ip
  have hy : (y1 * y2 + x1 * x2) * v * (1 - edwardsD.gf * x1 * x2 * y1 * y2) = y1 * y2 + x1 * x2 := by
    linear_combination (y1 * y2 + x1 * x2) * im
  refine ⟨_, _, ⟨hx, hy⟩, ?_⟩
  generalize (x1 * y2 + y1 * x2) * u = x3 at hx
  generalize (y1 * y2 + x1 * x2) * v = y3 at hy
  rw [affineCurve]
  generalize edwardsD.gf = d at *
  have q0 := gf_pow_ne_zero (gf_mul_ne_zero p0 m0) 2
  refine (gf_mul_cancel q0).1 ?_
  rw [← hx, ← hy] at closed
  linear_combination closed

/-- Both conversions of a completed sum have the coordinates of the sum (R258). -/
theorem Comp.sums_at {C : Comp} {x1 y1 x2 y2 x3 y3 : ZMod fieldPrime} (b : C.bounded) (h : C.sums x1 y1 x2 y2)
    (c1 : affineCurve x1 y1) (c2 : affineCurve x2 y2) (s : affineSum x1 y1 x2 y2 x3 y3) :
    (compToExt C).at x3 y3 ∧ (compToProj C).at x3 y3 := by
  obtain ⟨bx, bY, bz, bt⟩ := b
  obtain ⟨l, l0, hX, hY, hZ, hT⟩ := h
  obtain ⟨p0, m0⟩ := curve_complete c1 c2
  obtain ⟨sx, sy⟩ := s
  have z0 : C.Z.gf * C.T.gf ≠ 0 := by
    rw [hZ, hT]
    exact gf_mul_ne_zero (gf_mul_ne_zero l0 p0) (gf_mul_ne_zero l0 m0)
  rw [← sx] at hX
  rw [← sy] at hY
  refine ⟨⟨?_, ?_, ?_, ?_⟩, ⟨?_, ?_, ?_⟩⟩ <;> simp (disch := assumption) only [compToExt, compToProj, feMul_gf]
  · exact z0
  · rw [hX, hZ, hT]; ring
  · rw [hY, hZ, hT]; ring
  · rw [hX, hY, hZ, hT]; ring
  · exact z0
  · rw [hX, hZ, hT]; ring
  · rw [hY, hZ, hT]; ring

theorem gf_two_ne_zero : (2 : ZMod fieldPrime) ≠ 0 := fun z => neg_one_ne_one (by linear_combination -z)

theorem addPniels_bounded (P : Ext) (t : PNiels) : (addPniels P t).bounded :=
  ⟨feSub_bounded (feMul_bounded ..), feAdd_bounded (feMul_bounded ..) (feMul_bounded ..),
    feAdd_bounded (feAdd_bounded (feMul_bounded ..) (feMul_bounded ..)) (feMul_bounded ..),
    feSub_bounded (feAdd_bounded (feMul_bounded ..) (feMul_bounded ..))⟩

theorem subPniels_bounded (P : Ext) (t : PNiels) : (subPniels P t).bounded :=
  ⟨feSub_bounded (feMul_bounded ..), feAdd_bounded (feMul_bounded ..) (feMul_bounded ..),
    feSub_bounded (feAdd_bounded (feMul_bounded ..) (feMul_bounded ..)),
    feAdd_bounded (feAdd_bounded (feMul_bounded ..) (feMul_bounded ..)) (feMul_bounded ..)⟩

theorem addAniels_bounded (P : Ext) (t : ANiels) (bP : P.bounded) : (addAniels P t).bounded :=
  ⟨feSub_bounded (feMul_bounded ..), feAdd_bounded (feMul_bounded ..) (feMul_bounded ..),
    feAdd_bounded (feAdd_bounded bP.2.2.1 bP.2.2.1) (feMul_bounded ..),
    feSub_bounded (feAdd_bounded bP.2.2.1 bP.2.2.1)⟩

theorem projDouble_bounded (P : Proj) : (projDouble P).bounded :=
  ⟨feSub_bounded (feSq_bounded _), feAdd_bounded (feSq_bounded _) (feSq_bounded _), feSub_bounded (feSq_bounded _),
    feSub_bounded (feAdd_bounded (feSq_bounded _) (feSq_bounded _))⟩

theorem compToProj_bounded (C : Comp) : (compToProj C).bounded := ⟨feMul_bounded .., feMul_bounded .., feMul_bounded ..⟩

/-- `add_pniels` adds (R265). -/
theorem addPniels_sums {P : Ext} {t : PNiels} {x1 y1 x2 y2 : ZMod fieldPrime} (bP : P.bounded) (bt : t.bounded)
    (hP : P.at x1 y1) (ht : t.at x2 y2) : (addPniels P t).sums x1 y1 x2 y2 := by
  obtain ⟨bX, bY, bZ, bT⟩ := bP
  obtain ⟨b1, b2, b3, b4⟩ := bt
  obtain ⟨z0, hX, hY, hT⟩ := hP
  obtain ⟨w0, h1, h2, h4⟩ := ht
  refine ⟨2 * (P.Z.gf * t.Z.gf), gf_mul_ne_zero gf_two_ne_zero (gf_mul_ne_zero z0 w0), ?_, ?_, ?_, ?_⟩ <;>
    simp (disch := first | assumption | apply_rules [feMul_bounded, feAdd_bounded, feSub_bounded, feSq_bounded]) only 
      [addPniels, feMul_gf, feAdd_gf, feSub_gf, hX, hY, hT, h1, h2, h4] <;> ring

/-- `sub_pniels` adds the negated entry (R266). -/
theorem subPniels_sums {P : Ext} {t : PNiels} {x1 y1 x2 y2 : ZMod fieldPrime} (bP : P.bounded) (bt : t.bounded)
    (hP : P.at x1 y1) (ht : t.at x2 y2) : (subPniels P t).sums x1 y1 (-x2) y2 := by
  obtain ⟨bX, bY, bZ, bT⟩ := bP
  obtain ⟨b1, b2, b3, b4⟩ := bt
  obtain ⟨z0, hX, hY, hT⟩ := hP
  obtain ⟨w0, h1, h2, h4⟩ := ht
  refine ⟨2 * (P.Z.gf * t.Z.gf), gf_mul_ne_zero gf_two_ne_zero (gf_mul_ne_zero z0 w0), ?_, ?_, ?_, ?_⟩ <;>
    simp (disch := first | assumption | apply_rules [feMul_bounded, feAdd_bounded, feSub_bounded, feSq_bounded]) only 
      [subPniels, feMul_gf, feAdd_gf, feSub_gf, hX, hY, hT, h1, h2, h4] <;> ring

/-- `add_aniels` adds (R267). -/
theorem addAniels_sums {P : Ext} {t : ANiels} {x1 y1 x2 y2 : ZMod fieldPrime} (bP : P.bounded) (bt : t.bounded)
    (hP : P.at x1 y1) (ht : t.at x2 y2) : (addAniels P t).sums x1 y1 x2 y2 := by
  obtain ⟨bX, bY, bZ, bT⟩ := bP
  obtain ⟨b1, b2, b4⟩ := bt
  obtain ⟨z0, hX, hY, hT⟩ := hP
  obtain ⟨h1, h2, h4⟩ := ht
  refine ⟨2 * P.Z.gf, gf_mul_ne_zero gf_two_ne_zero z0, ?_, ?_, ?_, ?_⟩ <;>
    simp (disch := first | assumption | apply_rules [feMul_bounded, feAdd_bounded, feSub_bounded, feSq_bounded]) only 
      [addAniels, feMul_gf, feAdd_gf, feSub_gf, hX, hY, hT, h1, h2, h4] <;> ring

/-- `proj_double` adds a point to itself (R264). -/
theorem projDouble_sums {P : Proj} {x y : ZMod fieldPrime} (b : P.bounded) (h : P.at x y) (c : affineCurve x y) :
    (projDouble P).sums x y x y := by
  obtain ⟨bX, bY, bZ⟩ := b
  obtain ⟨z0, hX, hY⟩ := h
  rw [affineCurve] at c
  have xx := feSq_gf bX
  have yy := feSq_gf bY
  have zz := feSq_gf bZ
  have ss := feSq_gf (feAdd_bounded bX bY)
  have sum := feAdd_gf (feSq_bounded P.Y) (feSq_bounded P.X)
  have dif := feSub_gf (feSq_bounded P.Y) (feSq_bounded P.X)
  have zz2 := feAdd_gf (feSq_bounded P.Z) (feSq_bounded P.Z)
  have cx := feSub_gf (feSq_bounded (feAdd P.X P.Y)) (feAdd_bounded (feSq_bounded P.Y) (feSq_bounded P.X))
  have ct := feSub_gf (feAdd_bounded (feSq_bounded P.Z) (feSq_bounded P.Z)) (feSub_bounded (b := feSq P.X) (feSq_bounded P.Y))
  rw [feAdd_gf bX bY, hX, hY] at ss
  rw [hX] at xx
  rw [hY] at yy
  rw [zz] at zz2
  rw [xx, yy] at sum dif
  rw [ss, sum] at cx
  rw [zz2, dif] at ct
  refine ⟨P.Z.gf ^ 2, gf_pow_ne_zero z0 2, cx.trans ?_, sum.trans ?_, dif.trans ?_, ct.trans ?_⟩
  · ring
  · ring
  · linear_combination P.Z.gf ^ 2 * c
  · linear_combination -P.Z.gf ^ 2 * c

theorem edwardsD2_gf : edwardsD2.gf = 2 * edwardsD.gf := by
  have h : ((feInt edwardsD2 : Nat) : ZMod fieldPrime) = ((2 * feInt edwardsD : Nat) : ZMod fieldPrime) :=
    (ZMod.natCast_eq_natCast_iff' _ _ _).2 (by decide +kernel)
  rwa [Nat.cast_mul, Nat.cast_ofNat] at h

theorem edwardsD2_bounded : edwardsD2.bounded := by decide

theorem extToPniels_bounded {P : Ext} (b : P.bounded) : (extToPniels P).bounded :=
  ⟨feAdd_bounded b.2.1 b.1, feSub_bounded b.2.1, b.2.2.1, feMul_bounded ..⟩

/-- R259. -/
theorem extToPniels_at {P : Ext} {x y : ZMod fieldPrime} (b : P.bounded) (h : P.at x y) : (extToPniels P).at x y := by
  obtain ⟨bX, bY, bZ, bT⟩ := b
  obtain ⟨z0, hX, hY, hT⟩ := h
  refine ⟨z0, ?_, ?_, ?_⟩ <;>
    simp (disch := first | assumption | exact edwardsD2_bounded) only
      [extToPniels, feMul_gf, feAdd_gf, feSub_gf, edwardsD2_gf, hX, hY, hT] <;>
    ring

theorem extToProj_at {P : Ext} {x y : ZMod fieldPrime} (h : P.at x y) : (extToProj P).at x y := ⟨h.1, h.2.1, h.2.2.1⟩

/-- `ed_add` adds (R268). -/
theorem edAdd_at {P Q : Ext} {x1 y1 x2 y2 x3 y3 : ZMod fieldPrime} (bP : P.bounded) (bQ : Q.bounded) (hP : P.at x1 y1)
    (hQ : Q.at x2 y2) (c1 : affineCurve x1 y1) (c2 : affineCurve x2 y2) (s : affineSum x1 y1 x2 y2 x3 y3) :
    (edAdd P Q).at x3 y3 :=
  (Comp.sums_at (addPniels_bounded ..)
    (addPniels_sums bP (extToPniels_bounded bQ) hP (extToPniels_at bQ hQ)) c1 c2 s).1

/-- `ed_sub` adds the negated point (R268). -/
theorem edSub_at {P Q : Ext} {x1 y1 x2 y2 x3 y3 : ZMod fieldPrime} (bP : P.bounded) (bQ : Q.bounded) (hP : P.at x1 y1)
    (hQ : Q.at x2 y2) (c1 : affineCurve x1 y1) (c2 : affineCurve (-x2) y2) (s : affineSum x1 y1 (-x2) y2 x3 y3) :
    (edSub P Q).at x3 y3 :=
  (Comp.sums_at (subPniels_bounded ..)
    (subPniels_sums bP (extToPniels_bounded bQ) hP (extToPniels_at bQ hQ)) c1 c2 s).1

/-- `ed_double` doubles (R268). -/
theorem edDouble_at {P : Ext} {x y x3 y3 : ZMod fieldPrime} (b : P.bounded) (h : P.at x y) (c : affineCurve x y)
    (s : affineSum x y x y x3 y3) : (edDouble P).at x3 y3 :=
  (Comp.sums_at (projDouble_bounded _) (projDouble_sums ⟨b.1, b.2.1, b.2.2.1⟩ (extToProj_at h) c) c c s).1

theorem edNeg_at {P : Ext} {x y : ZMod fieldPrime} (b : P.bounded) (h : P.at x y) : (edNeg P).at (-x) y := by
  obtain ⟨z0, hX, hY, hT⟩ := h
  refine ⟨z0, ?_, hY, ?_⟩ <;> simp only [edNeg, feNeg_gf b.1, feNeg_gf b.2.2.2, hX, hT] <;> ring

theorem affineCurve_neg {x y : ZMod fieldPrime} (c : affineCurve x y) : affineCurve (-x) y := by
  rw [affineCurve] at *; linear_combination c

/-- A sum in affine coordinates is a sum in the projective form of R12. -/
theorem affineSum.isSum {P Q R : Ext} {x1 y1 x2 y2 x3 y3 : ZMod fieldPrime} (s : affineSum x1 y1 x2 y2 x3 y3)
    (hP : P.at x1 y1) (hQ : Q.at x2 y2) (hR : R.at x3 y3) : P.isSum Q R := by
  obtain ⟨sx, sy⟩ := s
  obtain ⟨-, hX, hY, -⟩ := hP
  obtain ⟨-, kX, kY, -⟩ := hQ
  obtain ⟨-, rX, rY, -⟩ := hR
  rw [Ext.isSum, hX, hY, kX, kY, rX, rY]
  exact ⟨by linear_combination R.Z.gf * (P.Z.gf * Q.Z.gf) ^ 2 * sx, by linear_combination R.Z.gf * (P.Z.gf * Q.Z.gf) ^ 2 * sy⟩

end Sys2Proof.Machine
end

