-- ==== Sys2Proof/Laws/Encoding.lean ====
section
/-! SUPPORT. The fields of a packed word, and the ranges that make decoding an encoded command give it back. -/

namespace Sys2Proof

/-- Fields in range are read back from the word they were packed into. -/
theorem Fields.ofWord_pack {op rd ra rb imm : Nat} (h0 : op < 256) (h1 : rd < 16) (h2 : ra < 16) (h3 : rb < 16)
    (h4 : imm < 4096) : Fields.ofWord (pack op rd ra rb imm) = ⟨op, rd, ra, rb, imm⟩ := by
  simp only [Fields.ofWord, pack, BitVec.toNat_ofNat, Fields.mk.injEq]
  refine ⟨?_, ?_, ?_, ?_, ?_⟩ <;> omega

/-- A word is packed from its own fields. -/
theorem pack_ofWord (w : Word) :
    pack (Fields.ofWord w).op (Fields.ofWord w).rd (Fields.ofWord w).ra (Fields.ofWord w).rb (Fields.ofWord w).imm = w := by
  apply BitVec.eq_of_toNat_eq
  have := w.isLt
  simp only [Fields.ofWord, pack, BitVec.toNat_ofNat]
  omega

/-- The opcode of a packed word. -/
theorem pack_op {op rd ra rb imm : Nat} (h0 : op < 256) (h1 : rd < 16) (h2 : ra < 16) (h3 : rb < 16)
    (h4 : imm < 4096) : (pack op rd ra rb imm).toNat / 2 ^ 24 = op := by
  simp only [pack, BitVec.toNat_ofNat]; omega

@[simp] theorem regF_val (i : FIdx) : regF i.val = i := by simp [regF]

@[simp] theorem reg8_val (i : Fin 8) : reg8 i.val = i := by simp [reg8]

@[simp] theorem constOf_toNat {k : Nat} (x : BitVec k) : constOf k x.toNat = x := by simp [constOf]

theorem reg8_toNat {n : Nat} (h : n < 8) : (reg8 n).val = n := by simp [reg8, Nat.mod_eq_of_lt h]

theorem regF_toNat {n : Nat} (h : n < 16) : (regF n).val = n := by simp [regF, Nat.mod_eq_of_lt h]

theorem constOf_val {k n : Nat} (h : n < 2 ^ k) : (constOf k n).toNat = n := by simp [constOf, Nat.mod_eq_of_lt h]

/-- A register number of any file fits its 4-bit field. -/
theorem fidx_lt (i : FIdx) : i.val < 16 := i.isLt

theorem idx8_lt (i : Fin 8) : i.val < 16 := by omega

/-- A 12-bit address fits the `imm` field. -/
theorem addr_lt (a : Addr) : a.toNat < 4096 := a.isLt

/-- `need` answers the command exactly when its condition holds. -/
theorem need_eq_ok {ok : Prop} [Decidable ok] {i j : Instr} : need ok i = .ok j ↔ ok ∧ i = j := by
  unfold need; split <;> simp_all

end Sys2Proof
end

