-- ==== Sys2Proof/Laws/DecodeRows.lean ====
section
/-! SUPPORT. What the decoder does with each opcode, one lemma per row of R115, so that no proof unfolds the table. -/

namespace Sys2Proof

variable (rd ra rb imm : Nat)

theorem decodeFields_nop : decodeFields ⟨0x00, rd, ra, rb, imm⟩ =
    need (rd = 0 ∧ ra = 0 ∧ rb = 0 ∧ imm = 0) (.nop) := rfl
theorem decodeFields_scrub : decodeFields ⟨0x01, rd, ra, rb, imm⟩ =
    need (rd = 0 ∧ ra = 0 ∧ rb = 0 ∧ imm < 128) (.scrub (constOf 7 imm)) := rfl
theorem decodeFields_cset : decodeFields ⟨0x02, rd, ra, rb, imm⟩ =
    need (rd < 8 ∧ ra = 0 ∧ rb = 0 ∧ imm < 2) (.cset (reg8 rd) (constOf 1 imm)) := rfl
theorem decodeFields_cmov : decodeFields ⟨0x03, rd, ra, rb, imm⟩ =
    need (rd < 8 ∧ ra < 8 ∧ rb = 0 ∧ imm = 0) (.cmov (reg8 rd) (reg8 ra)) := rfl
theorem decodeFields_cnot : decodeFields ⟨0x04, rd, ra, rb, imm⟩ =
    need (rd < 8 ∧ ra < 8 ∧ rb = 0 ∧ imm = 0) (.cnot (reg8 rd) (reg8 ra)) := rfl
theorem decodeFields_cand : decodeFields ⟨0x05, rd, ra, rb, imm⟩ =
    need (rd < 8 ∧ ra < 8 ∧ rb < 8 ∧ imm = 0) (.cand (reg8 rd) (reg8 ra) (reg8 rb)) := rfl
theorem decodeFields_cor : decodeFields ⟨0x06, rd, ra, rb, imm⟩ =
    need (rd < 8 ∧ ra < 8 ∧ rb < 8 ∧ imm = 0) (.cor (reg8 rd) (reg8 ra) (reg8 rb)) := rfl
theorem decodeFields_cxor : decodeFields ⟨0x07, rd, ra, rb, imm⟩ =
    need (rd < 8 ∧ ra < 8 ∧ rb < 8 ∧ imm = 0) (.cxor (reg8 rd) (reg8 ra) (reg8 rb)) := rfl
theorem decodeFields_fclr : decodeFields ⟨0x08, rd, ra, rb, imm⟩ =
    need (ra = 0 ∧ rb = 0 ∧ imm = 0) (.fclr (regF rd)) := rfl
theorem decodeFields_sclr : decodeFields ⟨0x09, rd, ra, rb, imm⟩ =
    need (rd < 8 ∧ ra = 0 ∧ rb = 0 ∧ imm = 0) (.sclr (reg8 rd)) := rfl
theorem decodeFields_pclr : decodeFields ⟨0x0A, rd, ra, rb, imm⟩ =
    need (rd < 8 ∧ ra = 0 ∧ rb = 0 ∧ imm = 0) (.pclr (reg8 rd)) := rfl
theorem decodeFields_cclr : decodeFields ⟨0x0B, rd, ra, rb, imm⟩ =
    need (rd < 8 ∧ ra = 0 ∧ rb = 0 ∧ imm = 0) (.cclr (reg8 rd)) := rfl
theorem decodeFields_hash : decodeFields ⟨0x0C, rd, ra, rb, imm⟩ =
    need (rd = 0 ∧ ra = 0 ∧ rb = 0) (.hash (constOf 12 imm)) := rfl
theorem decodeFields_fld : decodeFields ⟨0x10, rd, ra, rb, imm⟩ =
    need (ra = 0 ∧ rb = 0) (.fld (regF rd) (constOf 12 imm)) := rfl
theorem decodeFields_fst : decodeFields ⟨0x11, rd, ra, rb, imm⟩ =
    need (ra = 0 ∧ rb = 0) (.fst (regF rd) (constOf 12 imm)) := rfl
theorem decodeFields_fmov : decodeFields ⟨0x12, rd, ra, rb, imm⟩ =
    need (rb = 0 ∧ imm = 0) (.fmov (regF rd) (regF ra)) := rfl
theorem decodeFields_fconst : decodeFields ⟨0x13, rd, ra, rb, imm⟩ =
    need (ra = 0 ∧ rb = 0 ∧ imm < 16) (.fconst (regF rd) (constOf 4 imm)) := rfl
theorem decodeFields_fadd : decodeFields ⟨0x14, rd, ra, rb, imm⟩ =
    need (imm = 0) (.fadd (regF rd) (regF ra) (regF rb)) := rfl
theorem decodeFields_fsub : decodeFields ⟨0x15, rd, ra, rb, imm⟩ =
    need (imm = 0) (.fsub (regF rd) (regF ra) (regF rb)) := rfl
theorem decodeFields_fneg : decodeFields ⟨0x16, rd, ra, rb, imm⟩ =
    need (rb = 0 ∧ imm = 0) (.fneg (regF rd) (regF ra)) := rfl
theorem decodeFields_fmul : decodeFields ⟨0x17, rd, ra, rb, imm⟩ =
    need (imm = 0) (.fmul (regF rd) (regF ra) (regF rb)) := rfl
theorem decodeFields_fsqr : decodeFields ⟨0x18, rd, ra, rb, imm⟩ =
    need (rb = 0 ∧ imm = 0) (.fsqr (regF rd) (regF ra)) := rfl
theorem decodeFields_finv : decodeFields ⟨0x19, rd, ra, rb, imm⟩ =
    need (rb = 0 ∧ imm = 0) (.finv (regF rd) (regF ra)) := rfl
theorem decodeFields_fpow58 : decodeFields ⟨0x1A, rd, ra, rb, imm⟩ =
    need (rb = 0 ∧ imm = 0) (.fpow58 (regF rd) (regF ra)) := rfl
theorem decodeFields_fsqrtr : decodeFields ⟨0x1B, rd, ra, rb, imm⟩ =
    need (imm < 8) (.fsqrtr (regF rd) (reg8 imm) (regF ra) (regF rb)) := rfl
theorem decodeFields_fcsel : decodeFields ⟨0x1C, rd, ra, rb, imm⟩ =
    need (imm < 8) (.fcsel (regF rd) (regF ra) (regF rb) (reg8 imm)) := rfl
theorem decodeFields_fcswap : decodeFields ⟨0x1D, rd, ra, rb, imm⟩ =
    need (rb = 0 ∧ imm < 8) (.fcswap (regF rd) (regF ra) (reg8 imm)) := rfl
theorem decodeFields_fcneg : decodeFields ⟨0x1E, rd, ra, rb, imm⟩ =
    need (rb = 0 ∧ imm < 8) (.fcneg (regF rd) (regF ra) (reg8 imm)) := rfl
theorem decodeFields_fred : decodeFields ⟨0x1F, rd, ra, rb, imm⟩ =
    need (rb = 0 ∧ imm = 0) (.fred (regF rd) (regF ra)) := rfl
theorem decodeFields_feq : decodeFields ⟨0x20, rd, ra, rb, imm⟩ =
    need (rd < 8 ∧ imm = 0) (.feq (reg8 rd) (regF ra) (regF rb)) := rfl
theorem decodeFields_fisneg : decodeFields ⟨0x21, rd, ra, rb, imm⟩ =
    need (rd < 8 ∧ rb = 0 ∧ imm = 0) (.fisneg (reg8 rd) (regF ra)) := rfl
theorem decodeFields_fiszero : decodeFields ⟨0x22, rd, ra, rb, imm⟩ =
    need (rd < 8 ∧ rb = 0 ∧ imm = 0) (.fiszero (reg8 rd) (regF ra)) := rfl
theorem decodeFields_sld : decodeFields ⟨0x30, rd, ra, rb, imm⟩ =
    need (rd < 8 ∧ ra = 0 ∧ rb = 0) (.sld (reg8 rd) (constOf 12 imm)) := rfl
theorem decodeFields_sldw : decodeFields ⟨0x31, rd, ra, rb, imm⟩ =
    need (rd < 8 ∧ ra = 0 ∧ rb = 0) (.sldw (reg8 rd) (constOf 12 imm)) := rfl
theorem decodeFields_sldc : decodeFields ⟨0x32, rd, ra, rb, imm⟩ =
    need (rd < 8 ∧ ra < 8 ∧ rb = 0) (.sldc (reg8 rd) (reg8 ra) (constOf 12 imm)) := rfl
theorem decodeFields_sldcl : decodeFields ⟨0x33, rd, ra, rb, imm⟩ =
    need (rd < 8 ∧ ra = 0 ∧ rb = 0) (.sldcl (reg8 rd) (constOf 12 imm)) := rfl
theorem decodeFields_sst : decodeFields ⟨0x34, rd, ra, rb, imm⟩ =
    need (rd < 8 ∧ ra = 0 ∧ rb = 0) (.sst (reg8 rd) (constOf 12 imm)) := rfl
theorem decodeFields_smov : decodeFields ⟨0x35, rd, ra, rb, imm⟩ =
    need (rd < 8 ∧ ra < 8 ∧ rb = 0 ∧ imm = 0) (.smov (reg8 rd) (reg8 ra)) := rfl
theorem decodeFields_sconst : decodeFields ⟨0x36, rd, ra, rb, imm⟩ =
    need (rd < 8 ∧ ra = 0 ∧ rb = 0 ∧ imm < 8) (.sconst (reg8 rd) (constOf 3 imm)) := rfl
theorem decodeFields_sadd : decodeFields ⟨0x37, rd, ra, rb, imm⟩ =
    need (rd < 8 ∧ ra < 8 ∧ rb < 8 ∧ imm = 0) (.sadd (reg8 rd) (reg8 ra) (reg8 rb)) := rfl
theorem decodeFields_ssub : decodeFields ⟨0x38, rd, ra, rb, imm⟩ =
    need (rd < 8 ∧ ra < 8 ∧ rb < 8 ∧ imm = 0) (.ssub (reg8 rd) (reg8 ra) (reg8 rb)) := rfl
theorem decodeFields_sneg : decodeFields ⟨0x39, rd, ra, rb, imm⟩ =
    need (rd < 8 ∧ ra < 8 ∧ rb = 0 ∧ imm = 0) (.sneg (reg8 rd) (reg8 ra)) := rfl
theorem decodeFields_smul : decodeFields ⟨0x3A, rd, ra, rb, imm⟩ =
    need (rd < 8 ∧ ra < 8 ∧ rb < 8 ∧ imm = 0) (.smul (reg8 rd) (reg8 ra) (reg8 rb)) := rfl
theorem decodeFields_sinv : decodeFields ⟨0x3B, rd, ra, rb, imm⟩ =
    need (rd < 8 ∧ ra < 8 ∧ rb = 0 ∧ imm = 0) (.sinv (reg8 rd) (reg8 ra)) := rfl
theorem decodeFields_smmul : decodeFields ⟨0x3C, rd, ra, rb, imm⟩ =
    need (rd < 8 ∧ ra < 8 ∧ rb < 8 ∧ imm = 0) (.smmul (reg8 rd) (reg8 ra) (reg8 rb)) := rfl
theorem decodeFields_stom : decodeFields ⟨0x3D, rd, ra, rb, imm⟩ =
    need (rd < 8 ∧ ra < 8 ∧ rb = 0 ∧ imm = 0) (.stom (reg8 rd) (reg8 ra)) := rfl
theorem decodeFields_sfrm : decodeFields ⟨0x3E, rd, ra, rb, imm⟩ =
    need (rd < 8 ∧ ra < 8 ∧ rb = 0 ∧ imm = 0) (.sfrm (reg8 rd) (reg8 ra)) := rfl
theorem decodeFields_sred : decodeFields ⟨0x3F, rd, ra, rb, imm⟩ =
    need (rd < 8 ∧ ra < 8 ∧ rb = 0 ∧ imm = 0) (.sred (reg8 rd) (reg8 ra)) := rfl
theorem decodeFields_seq : decodeFields ⟨0x40, rd, ra, rb, imm⟩ =
    need (rd < 8 ∧ ra < 8 ∧ rb < 8 ∧ imm = 0) (.seq (reg8 rd) (reg8 ra) (reg8 rb)) := rfl
theorem decodeFields_siscan : decodeFields ⟨0x41, rd, ra, rb, imm⟩ =
    need (rd < 8 ∧ ra < 8 ∧ rb = 0 ∧ imm = 0) (.siscan (reg8 rd) (reg8 ra)) := rfl
theorem decodeFields_srdx16 : decodeFields ⟨0x42, rd, ra, rb, imm⟩ =
    need (rd < 8 ∧ ra = 0 ∧ rb = 0) (.srdx16 (reg8 rd) (constOf 12 imm)) := rfl
theorem decodeFields_snaf : decodeFields ⟨0x43, rd, ra, rb, imm⟩ =
    need (rd < 8 ∧ rb = 0) (.snaf (reg8 rd) (constOf 4 ra) (constOf 12 imm)) := rfl
theorem decodeFields_pid : decodeFields ⟨0x50, rd, ra, rb, imm⟩ =
    need (rd < 8 ∧ ra = 0 ∧ rb = 0 ∧ imm = 0) (.pid (reg8 rd)) := rfl
theorem decodeFields_pbase : decodeFields ⟨0x51, rd, ra, rb, imm⟩ =
    need (rd < 8 ∧ ra = 0 ∧ rb = 0 ∧ imm = 0) (.pbase (reg8 rd)) := rfl
theorem decodeFields_pmov : decodeFields ⟨0x52, rd, ra, rb, imm⟩ =
    need (rd < 8 ∧ ra < 8 ∧ rb = 0 ∧ imm = 0) (.pmov (reg8 rd) (reg8 ra)) := rfl
theorem decodeFields_pneg : decodeFields ⟨0x53, rd, ra, rb, imm⟩ =
    need (rd < 8 ∧ ra < 8 ∧ rb = 0 ∧ imm = 0) (.pneg (reg8 rd) (reg8 ra)) := rfl
theorem decodeFields_pdbl : decodeFields ⟨0x54, rd, ra, rb, imm⟩ =
    need (rd < 8 ∧ ra < 8 ∧ rb = 0 ∧ imm = 0) (.pdbl (reg8 rd) (reg8 ra)) := rfl
theorem decodeFields_padd : decodeFields ⟨0x55, rd, ra, rb, imm⟩ =
    need (rd < 8 ∧ ra < 8 ∧ rb < 8 ∧ imm = 0) (.padd (reg8 rd) (reg8 ra) (reg8 rb)) := rfl
theorem decodeFields_psub : decodeFields ⟨0x56, rd, ra, rb, imm⟩ =
    need (rd < 8 ∧ ra < 8 ∧ rb < 8 ∧ imm = 0) (.psub (reg8 rd) (reg8 ra) (reg8 rb)) := rfl
theorem decodeFields_pmul8 : decodeFields ⟨0x57, rd, ra, rb, imm⟩ =
    need (rd < 8 ∧ ra < 8 ∧ rb = 0 ∧ imm = 0) (.pmul8 (reg8 rd) (reg8 ra)) := rfl
theorem decodeFields_pcmp : decodeFields ⟨0x58, rd, ra, rb, imm⟩ =
    need (rd < 8 ∧ ra = 0 ∧ rb = 0) (.pcmp (reg8 rd) (constOf 12 imm)) := rfl
theorem decodeFields_pdec : decodeFields ⟨0x59, rd, ra, rb, imm⟩ =
    need (rd < 8 ∧ ra < 8 ∧ rb = 0) (.pdec (reg8 rd) (reg8 ra) (constOf 12 imm)) := rfl
theorem decodeFields_peq : decodeFields ⟨0x5A, rd, ra, rb, imm⟩ =
    need (rd < 8 ∧ ra < 8 ∧ rb < 8 ∧ imm = 0) (.peq (reg8 rd) (reg8 ra) (reg8 rb)) := rfl
theorem decodeFields_pisid : decodeFields ⟨0x5B, rd, ra, rb, imm⟩ =
    need (rd < 8 ∧ ra < 8 ∧ rb = 0 ∧ imm = 0) (.pisid (reg8 rd) (reg8 ra)) := rfl
theorem decodeFields_psmall : decodeFields ⟨0x5C, rd, ra, rb, imm⟩ =
    need (rd < 8 ∧ ra < 8 ∧ rb = 0 ∧ imm = 0) (.psmall (reg8 rd) (reg8 ra)) := rfl
theorem decodeFields_ptorf : decodeFields ⟨0x5D, rd, ra, rb, imm⟩ =
    need (rd < 8 ∧ ra < 8 ∧ rb = 0 ∧ imm = 0) (.ptorf (reg8 rd) (reg8 ra)) := rfl
theorem decodeFields_ph2c : decodeFields ⟨0x5F, rd, ra, rb, imm⟩ =
    need (rd < 8 ∧ ra < 8 ∧ rb = 0 ∧ imm = 0) (.ph2c (reg8 rd) (reg8 ra)) := rfl
theorem decodeFields_ptom : decodeFields ⟨0x60, rd, ra, rb, imm⟩ =
    need (ra < 8 ∧ rb = 0 ∧ imm = 0) (.ptom (regF rd) (reg8 ra)) := rfl
theorem decodeFields_pfromm : decodeFields ⟨0x61, rd, ra, rb, imm⟩ =
    need (rd < 8 ∧ rb < 2 ∧ imm < 8) (.pfromm (reg8 rd) (reg8 imm) (regF ra) (constOf 1 rb)) := rfl
theorem decodeFields_pmulv : decodeFields ⟨0x70, rd, ra, rb, imm⟩ =
    need (rd < 8 ∧ ra < 8 ∧ rb < 8 ∧ imm = 0) (.pmulv (reg8 rd) (reg8 ra) (reg8 rb)) := rfl
theorem decodeFields_pmulb : decodeFields ⟨0x71, rd, ra, rb, imm⟩ =
    need (rd < 8 ∧ ra < 8 ∧ rb = 0 ∧ imm = 0) (.pmulb (reg8 rd) (reg8 ra)) := rfl
theorem decodeFields_pdsm : decodeFields ⟨0x72, rd, ra, rb, imm⟩ =
    need (rd < 8 ∧ ra < 8 ∧ rb < 8 ∧ imm < 8) (.pdsm (reg8 rd) (reg8 ra) (reg8 rb) (reg8 imm)) := rfl
theorem decodeFields_pmac : decodeFields ⟨0x73, rd, ra, rb, imm⟩ =
    need (rd < 8 ∧ ra < 8 ∧ rb < 8 ∧ imm = 0) (.pmac (reg8 rd) (reg8 ra) (reg8 rb)) := rfl
theorem decodeFields_x25519 : decodeFields ⟨0x80, rd, ra, rb, imm⟩ =
    need (ra < 8 ∧ imm = 0) (.x25519 (regF rd) (reg8 ra) (regF rb)) := rfl
theorem decodeFields_xchk : decodeFields ⟨0x81, rd, ra, rb, imm⟩ =
    need (rd < 8 ∧ rb = 0 ∧ imm = 0) (.xchk (reg8 rd) (regF ra)) := rfl
theorem decodeFields_rdec : decodeFields ⟨0x90, rd, ra, rb, imm⟩ =
    need (rd < 8 ∧ ra < 8 ∧ rb = 0) (.rdec (reg8 rd) (reg8 ra) (constOf 12 imm)) := rfl
theorem decodeFields_renc : decodeFields ⟨0x91, rd, ra, rb, imm⟩ =
    need (rd < 8 ∧ ra = 0 ∧ rb = 0) (.renc (reg8 rd) (constOf 12 imm)) := rfl
theorem decodeFields_req : decodeFields ⟨0x92, rd, ra, rb, imm⟩ =
    need (rd < 8 ∧ ra < 8 ∧ rb < 8 ∧ imm = 0) (.req (reg8 rd) (reg8 ra) (reg8 rb)) := rfl
theorem decodeFields_rell : decodeFields ⟨0x93, rd, ra, rb, imm⟩ =
    need (rd < 8 ∧ rb = 0 ∧ imm = 0) (.rell (reg8 rd) (regF ra)) := rfl
theorem decodeFields_rh2g : decodeFields ⟨0x94, rd, ra, rb, imm⟩ =
    need (rd < 8 ∧ ra = 0 ∧ rb = 0) (.rh2g (reg8 rd) (constOf 12 imm)) := rfl
theorem decodeFields_keygen : decodeFields ⟨0xA0, rd, ra, rb, imm⟩ =
    need (rd = 0 ∧ ra = 0 ∧ rb = 0) (.keygen (constOf 12 imm)) := rfl
theorem decodeFields_keypub : decodeFields ⟨0xA1, rd, ra, rb, imm⟩ =
    need (rd = 0 ∧ ra = 0 ∧ rb = 0) (.keypub (constOf 12 imm)) := rfl
theorem decodeFields_sign : decodeFields ⟨0xA2, rd, ra, rb, imm⟩ =
    need (rd = 0 ∧ ra = 0 ∧ rb = 0) (.sign (constOf 12 imm)) := rfl
theorem decodeFields_signctx : decodeFields ⟨0xA3, rd, ra, rb, imm⟩ =
    need (rd = 0 ∧ ra = 0 ∧ rb = 0) (.signctx (constOf 12 imm)) := rfl
theorem decodeFields_signph : decodeFields ⟨0xA4, rd, ra, rb, imm⟩ =
    need (rd = 0 ∧ ra = 0 ∧ rb = 0) (.signph (constOf 12 imm)) := rfl
theorem decodeFields_signr : decodeFields ⟨0xA5, rd, ra, rb, imm⟩ =
    need (rd = 0 ∧ ra = 0 ∧ rb = 0) (.signr (constOf 12 imm)) := rfl
theorem decodeFields_keyclr : decodeFields ⟨0xA6, rd, ra, rb, imm⟩ =
    need (rd = 0 ∧ ra = 0 ∧ rb = 0 ∧ imm = 0) (.keyclr) := rfl
theorem decodeFields_verify : decodeFields ⟨0xB0, rd, ra, rb, imm⟩ =
    need (rd < 8 ∧ ra = 0 ∧ rb = 0) (.verify (reg8 rd) (constOf 12 imm)) := rfl
theorem decodeFields_verifyctx : decodeFields ⟨0xB1, rd, ra, rb, imm⟩ =
    need (rd < 8 ∧ ra = 0 ∧ rb = 0) (.verifyctx (reg8 rd) (constOf 12 imm)) := rfl
theorem decodeFields_verifyph : decodeFields ⟨0xB2, rd, ra, rb, imm⟩ =
    need (rd < 8 ∧ ra = 0 ∧ rb = 0) (.verifyph (reg8 rd) (constOf 12 imm)) := rfl
theorem decodeFields_vbbegin : decodeFields ⟨0xB3, rd, ra, rb, imm⟩ =
    need (rd = 0 ∧ ra = 0 ∧ rb = 0 ∧ imm = 0) (.vbbegin) := rfl
theorem decodeFields_vbadd : decodeFields ⟨0xB4, rd, ra, rb, imm⟩ =
    need (rd = 0 ∧ ra = 0 ∧ rb = 0) (.vbadd (constOf 12 imm)) := rfl
theorem decodeFields_vbend : decodeFields ⟨0xB5, rd, ra, rb, imm⟩ =
    need (rd < 8 ∧ ra = 0 ∧ rb = 0 ∧ imm = 0) (.vbend (reg8 rd)) := rfl

end Sys2Proof
end

