-- ==== Sys2Proof/Laws/Lengths.lean ====
section
/-! SUPPORT. The lengths of the byte strings and digit lists the commands store (20_memory.md R86), and the bytes a
stored block leaves alone. -/

namespace Sys2Proof.Machine

@[simp] theorem length_hashBytes (b : List Byte) : (hashBytes b).length = 64 := by simp [hashBytes]

@[simp] theorem length_feToBytes (x : Fe) : (feToBytes x).length = 32 := by simp only [feToBytes, length_bytesOf]

@[simp] theorem length_edCompress (P : Ext) : (edCompress P).length = 32 := by
  simp only [edCompress, List.length_set, length_feToBytes]

@[simp] theorem length_risEncode (P : Ext) : (risEncode P).length = 32 := by simp only [risEncode, length_feToBytes]

@[simp] theorem length_signCore (k : KeySlot) (dom m z : List Byte) : (signCore k dom m z).length = 64 := by
  simp only [signCore, List.length_append, length_edCompress, length_bytesOf]

theorem length_radix16Carry (c : Int) (ds : List Int) : (radix16Carry c ds).length = ds.length := by
  fun_induction radix16Carry c ds <;> simp_all

@[simp] theorem length_radix16 (n : Nat) : (radix16 n).length = 64 := by
  simp only [radix16, length_radix16Carry, nibbles, List.length_flatMap, List.length_cons, List.length_nil,
    List.map_const', length_bytesOf]
  decide

theorem length_nafLoop (n w fuel pos carry : Nat) (ds : List Int) :
    (nafLoop n w fuel pos carry ds).length = ds.length := by
  induction fuel generalizing pos carry ds with
  | zero => rfl
  | succ fuel ih =>
    simp only [nafLoop]
    split
    · rfl
    · split
      · exact ih ..
      · split <;> rw [ih, List.length_set]

@[simp] theorem length_naf (n w : Nat) : (naf n w).length = 256 := by
  unfold naf
  rw [length_nafLoop, List.length_replicate]

/-- A byte outside a stored block is unchanged. -/
theorem Memory.read_writeBytes_outside {m : Memory} (h : m.wf) {a k : Nat} {v : List Byte}
    (hk : ¬ (a ≤ k ∧ k < a + v.length)) : (m.writeBytes a v).read k = m.read k := by
  rw [Memory.read_writeBytes _ _ _ _ h.1, if_neg hk]

end Sys2Proof.Machine
end

