-- ==== Sys2Proof/Laws/PointCodec.lean ====
section
/-! SUPPORT. Lifting a y coordinate, compressing a point and decompressing a string (42_edwards.md R262, R263, R271,
R276). -/

namespace Sys2Proof.Machine

theorem feOne_gf : feOne.gf = 1 := by
  have h : feInt feOne = 1 := by decide
  rw [Fe.gf, h, Nat.cast_one]

theorem edwardsD_bounded : edwardsD.bounded := by decide

/-- The denominator of R262 is never 0, because -d is no square. -/
theorem lift_denominator (y : ZMod fieldPrime) : edwardsD.gf * y ^ 2 + 1 ≠ 0 := by
  intro h
  have y0 : y ≠ 0 := by
    rintro rfl
    exact neg_one_ne_one (by linear_combination -2 * h)
  have inv := gf_mul_inv y0
  generalize y ^ (2 ^ 255 - 21) = w at inv
  refine edwardsD_nonsquare (sqrtM1.gf * w) ?_
  linear_combination -w ^ 2 * h + w ^ 2 * sqrtM1_sq + edwardsD.gf * (y * w + 1) * inv

/-- The curve equation solved for x² (R262). -/
theorem affineCurve_iff {x y : ZMod fieldPrime} :
    affineCurve x y ↔ (edwardsD.gf * y ^ 2 + 1) * x ^ 2 = y ^ 2 - 1 := by
  rw [affineCurve]
  constructor <;> intro h <;> linear_combination -h

/-- The sign rule of R262: the even root, negated for a sign of 1. -/
theorem feCneg_sign {r : Fe} (b : r.bounded) (even : feVal r % 2 = 0) (sign : Bool) :
    ((feCneg r sign).gf = r.gf ∨ (feCneg r sign).gf = -r.gf) ∧
      (feVal (feCneg r sign) = 0 ∨ feVal (feCneg r sign) % 2 = sign.toNat) := by
  have g := feCneg_gf b sign
  cases sign
  · rw [if_neg (by simp)] at g
    rw [gf_eq_iff.1 g]
    exact ⟨.inl g, .inr even⟩
  · rw [if_pos rfl] at g
    refine ⟨.inr g, ?_⟩
    by_cases z : feVal r = 0
    · left
      rw [← gf_eq_zero_iff, g, gf_eq_zero_iff.2 z, neg_zero]
    · right
      have z' : ((feVal (feCneg r true) + feVal r : Nat) : ZMod fieldPrime) = 0 := by
        rw [Nat.cast_add, feVal_cast, feVal_cast, g, neg_add_cancel]
      obtain ⟨k, hk⟩ := (ZMod.natCast_eq_zero_iff _ _).1 z'
      have l1 := feVal_lt r
      have l2 := feVal_lt (feCneg r true)
      have hk1 : k = 1 := by
        rcases k with _ | _ | k
        · simp only [mul_zero] at hk; omega
        · rfl
        · have := Nat.mul_le_mul_left fieldPrime (show 2 ≤ k + 1 + 1 by omega)
          omega
      rw [hk1, mul_one] at hk
      have odd : fieldPrime % 2 = 1 := by norm_num
      simp only [Bool.toNat_true]
      omega

/-- What `ed_lift` answers (R262): none when no x goes with y, otherwise a point of coordinates ±x, y with Z = 1 whose x is
0 or has the parity asked for. -/
theorem edLift_spec {Y : Fe} (b : Y.bounded) (sign : Bool) :
    ((∀ x, ¬ affineCurve x Y.gf) ∧ edLift Y sign = none) ∨
      ∃ P x, edLift Y sign = some P ∧ affineCurve x Y.gf ∧ P.at x Y.gf ∧ P.bounded ∧ P.Z = feOne ∧ P.Y = Y ∧
        (feVal P.X = 0 ∨ feVal P.X % 2 = sign.toNat) := by
  have bu : (feSub (feSq Y) feOne).bounded := feSub_bounded (feSq_bounded Y)
  have bv : (feAdd (feMul (feSq Y) edwardsD) feOne).bounded := feAdd_bounded (feMul_bounded ..) feOne_bounded
  have gu : (feSub (feSq Y) feOne).gf = Y.gf ^ 2 - 1 := by
    rw [feSub_gf (feSq_bounded Y) feOne_bounded, feSq_gf b, feOne_gf]
  have gv : (feAdd (feMul (feSq Y) edwardsD) feOne).gf = edwardsD.gf * Y.gf ^ 2 + 1 := by
    rw [feAdd_gf (feMul_bounded ..) feOne_bounded, feMul_gf (feSq_bounded Y) edwardsD_bounded, feSq_gf b, feOne_gf,
      mul_comm]
  obtain ⟨even, main, uzero, -⟩ := sqrtRatioI_spec bu bv
  have non := sqrtRatioI_nonsquare bu bv
  have br := sqrtRatioI_bounded (feSub (feSq Y) feOne) (feAdd (feMul (feSq Y) edwardsD) feOne)
  rw [gu, gv] at main non
  rw [gu] at uzero
  have v0 := lift_denominator Y.gf
  simp only [edLift]
  generalize sqrtRatioI (feSub (feSq Y) feOne) (feAdd (feMul (feSq Y) edwardsD) feOne) = root at *
  obtain ⟨w, r⟩ := root
  simp only at even main uzero non br ⊢
  cases w
  · exact .inl ⟨fun x h => non rfl x (affineCurve_iff.1 h), rfl⟩
  · right
    have square : (edwardsD.gf * Y.gf ^ 2 + 1) * r.gf ^ 2 = Y.gf ^ 2 - 1 := by
      by_cases u0 : Y.gf ^ 2 - 1 = 0
      · rw [u0, (uzero u0).2]; ring
      · obtain ⟨-, h⟩ | ⟨h, -⟩ := main u0 v0
        · exact h
        · cases h
    have bx := feCneg_bounded br sign
    obtain ⟨sgn, parity⟩ := feCneg_sign br even sign
    refine ⟨_, (feCneg r sign).gf, rfl, affineCurve_iff.2 ?_, ⟨?_, ?_, ?_, ?_⟩, ⟨bx, b, feOne_bounded, feMul_bounded ..⟩,
      rfl, rfl, parity⟩
    · rcases sgn with h | h <;> rw [h]
      · exact square
      · rw [neg_sq]; exact square
    · simp only [feOne_gf]; exact fun h => neg_one_ne_one (by linear_combination -2 * h)
    · simp only [feOne_gf, one_mul]
    · simp only [feOne_gf, one_mul]
    · simp only [feOne_gf, one_mul, feMul_gf bx b]

theorem bytesOf_append (m : Nat) : ∀ n v, bytesOf (n + m) v = bytesOf n v ++ bytesOf m (v / 256 ^ n)
  | 0, v => by simp [bytesOf]
  | n + 1, v => by
    rw [Nat.add_right_comm, bytesOf, bytesOf_append m n, bytesOf, List.cons_append, Nat.div_div_eq_div_mul, ← Nat.pow_succ']

theorem bytesOf_add_mul (k : Nat) : ∀ n v, bytesOf n (v + 256 ^ n * k) = bytesOf n v
  | 0, _ => rfl
  | n + 1, v => by
    have h : (v + 256 ^ (n + 1) * k) / 256 = v / 256 + 256 ^ n * k := by
      rw [Nat.pow_succ', mul_assoc, Nat.add_mul_div_left _ _ (by norm_num)]
    have e : BitVec.ofNat 8 (v + 256 ^ (n + 1) * k) = BitVec.ofNat 8 v := by
      apply BitVec.eq_of_toNat_eq
      rw [BitVec.toNat_ofNat, BitVec.toNat_ofNat, Nat.pow_succ', mul_assoc]
      exact Nat.add_mul_mod_self_left ..
    rw [bytesOf, bytesOf, h, bytesOf_add_mul k n, e]

theorem le_append (a b : List Byte) : le (a ++ b) = le a + 256 ^ a.length * le b := by
  induction a with
  | nil => simp [le]
  | cons x xs ih => rw [List.cons_append, le, ih, le, List.length_cons, Nat.pow_succ']; ring

/-- The integer of a slice (R10). -/
theorem le_slice (b : List Byte) (o n : Nat) (h : o + n ≤ b.length) : le (slice b o n) = le b / 256 ^ o % 256 ^ n := by
  have split : b = b.take o ++ (slice b o n ++ (b.drop o).drop n) := by simp only [slice, List.take_append_drop]
  have l1 : (b.take o).length = o := by rw [List.length_take]; omega
  have l2 : (slice b o n).length = n := by rw [slice, List.length_take, List.length_drop]; omega
  have b1 := le_lt (b.take o)
  have b2 := le_lt (slice b o n)
  rw [l1] at b1
  rw [l2] at b2
  conv_rhs => rw [split, le_append, le_append, l1, l2]
  rw [Nat.add_mul_div_left _ _ (by positivity), Nat.div_eq_of_lt b1, zero_add, Nat.add_mul_mod_self_left,
    Nat.mod_eq_of_lt b2]

/-- `fe_from_bytes` keeps the low 255 bits (R142). -/
theorem feFromBytes_int {b : List Byte} (h : b.length = 32) : feInt (feFromBytes b) = le b % 2 ^ 255 := by
  have window : ∀ L k j : Nat, j ≤ 13 → L / 2 ^ k % 256 ^ 8 / 2 ^ j % 2 ^ 51 = L / 2 ^ (k + j) % 2 ^ 51 := by
    intro L k j hj
    rw [show (256 : Nat) ^ 8 = 2 ^ j * 2 ^ (64 - j) by rw [← pow_add, show j + (64 - j) = 64 by omega]; norm_num,
      Nat.mod_mul_right_div_self, Nat.div_div_eq_div_mul, ← pow_add,
      Nat.mod_mod_of_dvd _ (pow_dvd_pow 2 (by omega : 51 ≤ 64 - j))]
  have e0 := window (le b) 0 0 (by omega)
  have e1 := window (le b) 48 3 (by omega)
  have e2 := window (le b) 96 6 (by omega)
  have e3 := window (le b) 152 1 (by omega)
  have e4 := window (le b) 192 12 (by omega)
  simp only [pow_zero, Nat.div_one, Nat.reduceAdd] at e0 e1 e2 e3 e4
  simp only [feFromBytes, load8]
  rw [le_slice b 0 8 (by omega), le_slice b 6 8 (by omega), le_slice b 12 8 (by omega), le_slice b 19 8 (by omega),
    le_slice b 24 8 (by omega), show (256 : Nat) ^ 6 = 2 ^ 48 by norm_num, show (256 : Nat) ^ 12 = 2 ^ 96 by norm_num,
    show (256 : Nat) ^ 19 = 2 ^ 152 by norm_num, show (256 : Nat) ^ 24 = 2 ^ 192 by norm_num, pow_zero, Nat.div_one,
    e0, e1, e2, e3, e4, feInt_ofNats (by omega) (by omega) (by omega) (by omega) (by omega)]
  omega

/-- A 255-bit integer with a bit 255 (R271). -/
theorem bytesOf_signed {v : Nat} (hv : v < 2 ^ 255) (s : Bool) :
    (bytesOf 32 v).set 31 ((bytesOf 32 v).getD 31 0 ||| (if s then 0x80 else 0x00)) = bytesOf 32 (v + 2 ^ 255 * s.toNat) := by
  have top : bytesOf 32 v = bytesOf 31 v ++ [BitVec.ofNat 8 (v / 256 ^ 31)] := bytesOf_append 1 31 v
  have low : bytesOf 31 (v + 2 ^ 255 * s.toNat) = bytesOf 31 v := by
    rw [show v + 2 ^ 255 * s.toNat = v + 256 ^ 31 * (128 * s.toNat) by omega, bytesOf_add_mul]
  have high : (v + 2 ^ 255 * s.toNat) / 256 ^ 31 = v / 256 ^ 31 + 128 * s.toNat := by omega
  have all : bytesOf 32 (v + 2 ^ 255 * s.toNat) = bytesOf 31 v ++ [BitVec.ofNat 8 (v / 256 ^ 31 + 128 * s.toNat)] := by
    rw [← low, ← high]; exact bytesOf_append 1 31 _
  have small : v / 256 ^ 31 < 128 := by omega
  generalize v / 256 ^ 31 = t at *
  rw [all, top, List.getD_append_right _ _ _ _ (by simp), List.set_append_right _ _ (by simp)]
  simp only [length_bytesOf, Nat.sub_self, List.getD_cons_zero, List.set_cons_zero]
  congr 2
  cases s
  · simp
  · simp only [if_true, Bool.toNat_true, mul_one]
    have : ∀ t < 128, BitVec.ofNat 8 t ||| 0x80#8 = BitVec.ofNat 8 (t + 128) := by decide
    exact this t small

/-- The strings of R263 taken apart: bit 255 and the other bits. -/
theorem bytesOf_signed_parts {v : Nat} (hv : v < 2 ^ 255) (s : Bool) :
    topBit (bytesOf 32 (v + 2 ^ 255 * s.toNat)) = s ∧ clearTopBit (bytesOf 32 (v + 2 ^ 255 * s.toNat)) = bytesOf 32 v := by
  have top : bytesOf 32 v = bytesOf 31 v ++ [BitVec.ofNat 8 (v / 256 ^ 31)] := bytesOf_append 1 31 v
  have low : bytesOf 31 (v + 2 ^ 255 * s.toNat) = bytesOf 31 v := by
    rw [show v + 2 ^ 255 * s.toNat = v + 256 ^ 31 * (128 * s.toNat) by omega, bytesOf_add_mul]
  have high : (v + 2 ^ 255 * s.toNat) / 256 ^ 31 = v / 256 ^ 31 + 128 * s.toNat := by omega
  have all : bytesOf 32 (v + 2 ^ 255 * s.toNat) = bytesOf 31 v ++ [BitVec.ofNat 8 (v / 256 ^ 31 + 128 * s.toNat)] := by
    rw [← low, ← high]; exact bytesOf_append 1 31 _
  have small : v / 256 ^ 31 < 128 := by omega
  generalize v / 256 ^ 31 = t at *
  have bits : ∀ t < 128, ∀ s : Bool, (BitVec.ofNat 8 (t + 128 * s.toNat)).getLsbD 7 = s ∧
      BitVec.ofNat 8 (t + 128 * s.toNat) &&& 0x7F#8 = BitVec.ofNat 8 t := by decide
  obtain ⟨h1, h2⟩ := bits t small s
  rw [topBit, clearTopBit, all, top, List.getD_append_right _ _ _ _ (by simp), List.set_append_right _ _ (by simp)]
  simp only [length_bytesOf, Nat.sub_self, List.getD_cons_zero, List.set_cons_zero]
  exact ⟨h1, congrArg (fun z => bytesOf 31 v ++ [z]) h2⟩

/-- `ed_compress` writes y and the parity of x (R271). -/
theorem edCompress_eq {P : Ext} {x y : ZMod fieldPrime} (b : P.bounded) (h : P.at x y) :
    ∃ xe ye : Fe, xe.bounded ∧ ye.bounded ∧ xe.gf = x ∧ ye.gf = y ∧
      edCompress P = bytesOf 32 (feVal ye + 2 ^ 255 * (feVal xe % 2)) := by
  obtain ⟨z0, hX, hY, -⟩ := h
  have inv := gf_mul_inv z0
  rw [← feInv_gf b.2.2.1] at inv
  refine ⟨feMul P.X (feInv P.Z), feMul P.Y (feInv P.Z), feMul_bounded .., feMul_bounded .., ?_, ?_, ?_⟩
  · rw [feMul_gf b.1 (feInv_bounded _), hX]; linear_combination x * inv
  · rw [feMul_gf b.2.1 (feInv_bounded _), hY]; linear_combination y * inv
  · have lt : feVal (feMul P.Y (feInv P.Z)) < 2 ^ 255 := lt_trans (feVal_lt _) (by norm_num)
    have neg := feIsNeg_iff (feMul_bounded P.X (feInv P.Z))
    have bit : feVal (feMul P.X (feInv P.Z)) % 2 = (feIsNeg (feMul P.X (feInv P.Z))).toNat := by
      cases e : feIsNeg (feMul P.X (feInv P.Z))
      · have := mt neg.2 (by simp [e])
        simp only [Bool.toNat_false]; omega
      · simpa using neg.1 e
    simp only [edCompress]
    rw [feToBytes_eq (feMul_bounded P.Y (feInv P.Z)), bit]
    exact bytesOf_signed lt _

/-- Every string that is the compression of a point decompresses to that affine point (R263, R284). -/
theorem edDecompress_edCompress {P : Ext} {x y : ZMod fieldPrime} (b : P.bounded) (h : P.at x y) (c : affineCurve x y) :
    ∃ Q, edDecompress (edCompress P) = some Q ∧ Q.bounded ∧ Q.Z = feOne ∧ Q.at x y := by
  obtain ⟨xe, ye, bx, bye, gx, gy, e⟩ := edCompress_eq b h
  obtain ⟨s, hs⟩ : ∃ s : Bool, feVal xe % 2 = s.toNat := by
    rcases Nat.mod_two_eq_zero_or_one (feVal xe) with h | h
    · exact ⟨false, h⟩
    · exact ⟨true, h⟩
  rw [hs] at e
  have lt : feVal ye < 2 ^ 255 := lt_trans (feVal_lt _) (by norm_num)
  obtain ⟨t1, t2⟩ := bytesOf_signed_parts lt s
  have int : feInt (feFromBytes (bytesOf 32 (feVal ye + 2 ^ 255 * s.toNat))) = feVal ye := by
    rw [feFromBytes_int (length_bytesOf _ _), le_bytesOf]
    cases s <;> simp only [Bool.toNat_true, Bool.toNat_false] <;> omega
  have val : feVal (feFromBytes (bytesOf 32 (feVal ye + 2 ^ 255 * s.toNat))) = feVal ye := by
    rw [feVal, int, Nat.mod_eq_of_lt (feVal_lt ye)]
  have bY := feFromBytes_bounded (bytesOf 32 (feVal ye + 2 ^ 255 * s.toNat))
  have gY : (feFromBytes (bytesOf 32 (feVal ye + 2 ^ 255 * s.toNat))).gf = y := by rw [← gy, gf_eq_iff, val]
  simp only [edDecompress, e, t1, t2, feToBytes_eq bY, val, ne_eq, not_true_eq_false, if_false]
  rcases edLift_spec bY s with ⟨none, -⟩ | ⟨Q, u, lift, cu, at', bQ, qz, -, parity⟩
  · exact absurd (gY ▸ c) (none x)
  rw [gY] at cu at'
  have zx : ∀ z : ZMod fieldPrime, feOne.gf * z = z := fun z => by rw [feOne_gf, one_mul]
  have qx : Q.X.gf = u := by rw [at'.2.1, qz, zx]
  have two_x : u = x ∨ u = -x := by
    have eq : (edwardsD.gf * y ^ 2 + 1) * ((u - x) * (u + x)) = 0 := by
      linear_combination affineCurve_iff.1 cu - affineCurve_iff.1 c
    rcases gf_mul_eq_zero.1 eq with z | z
    · exact absurd z (lift_denominator y)
    rcases gf_mul_eq_zero.1 z with z | z
    · exact .inl (sub_eq_zero.1 z)
    · exact .inr (eq_neg_of_add_eq_zero_left z)
  have same : u = x := by
    rcases two_x with h1 | h1
    · exact h1
    by_cases x0 : x = 0
    · rw [h1, x0, neg_zero]
    exfalso
    have q0 : feVal Q.X ≠ 0 := fun z => x0 (by rw [← gf_eq_zero_iff, qx, h1, neg_eq_zero] at z; exact z)
    have par : feVal Q.X % 2 = s.toNat := parity.resolve_left q0
    have z' : ((feVal Q.X + feVal xe : Nat) : ZMod fieldPrime) = 0 := by
      rw [Nat.cast_add, feVal_cast, feVal_cast, qx, h1, gx, neg_add_cancel]
    obtain ⟨k, hk⟩ := (ZMod.natCast_eq_zero_iff _ _).1 z'
    have l1 := feVal_lt Q.X
    have l2 := feVal_lt xe
    have hk1 : k = 1 := by
      rcases k with _ | _ | k
      · simp only [mul_zero] at hk; omega
      · rfl
      · have := Nat.mul_le_mul_left fieldPrime (show 2 ≤ k + 1 + 1 by omega)
        omega
    rw [hk1, mul_one] at hk
    have odd : fieldPrime % 2 = 1 := by norm_num
    omega
  rw [same] at at' qx
  have keep : (s && feIsZero Q.X) = false := by
    cases s
    · rfl
    · rw [Bool.true_and, ← Bool.not_eq_true, feIsZero_iff bQ.1, qx]
      rintro rfl
      rw [gf_eq_zero_iff] at gx
      simp [gx] at hs
  rw [lift]
  simp only [keep, Bool.false_eq_true, if_false]
  exact ⟨Q, rfl, bQ, qz, at'⟩

end Sys2Proof.Machine
end

