-- ==== Sys2Proof/Laws/Recoding.lean ====
section
/-! SUPPORT. The two recoders keep the integer (41_scalar.md R217 to R220). -/

namespace Sys2Proof.Machine

theorem digitSum_append (b : Int) (xs ys : List Int) :
    digitSum b (xs ++ ys) = digitSum b xs + b ^ xs.length * digitSum b ys := by
  induction xs with
  | nil => simp [digitSum]
  | cons x xs ih => rw [List.cons_append, digitSum, ih, digitSum, List.length_cons, pow_succ']; ring

/-- The nibbles of a byte string make its integer. -/
theorem digitSum_nibbles : ∀ k n : Nat,
    digitSum 16 ((bytesOf k n).flatMap fun (b : Byte) => [((b &&& 15).toNat : Int), ((b >>> 4).toNat : Int)]) =
      ((n % 256 ^ k : Nat) : Int)
  | 0, n => by simp [bytesOf, digitSum, Nat.mod_one]
  | k + 1, n => by
    have split : ∀ b : Byte, ((b &&& 15).toNat : Int) + 16 * ((b >>> 4).toNat : Int) = (b.toNat : Int) := by decide
    have s := split (BitVec.ofNat 8 n)
    rw [bytesOf, List.flatMap_cons, List.cons_append, List.cons_append, List.nil_append, digitSum, digitSum,
      digitSum_nibbles k (n / 256)]
    have rec' : n % 256 ^ (k + 1) = n % 256 + 256 * (n / 256 % 256 ^ k) := by rw [Nat.pow_succ', Nat.mod_mul]
    rw [rec']
    simp only [BitVec.toNat_ofNat] at s
    push_cast at s ⊢
    linarith

/-- Every nibble is below 16. -/
theorem nibbles_range {n : Nat} {d : Int} (h : d ∈ nibbles n) : 0 ≤ d ∧ d < 16 := by
  rw [nibbles, List.mem_flatMap] at h
  obtain ⟨b, -, h⟩ := h
  have all : ∀ b : Byte, (b &&& 15).toNat < 16 ∧ (b >>> 4).toNat < 16 := by decide
  obtain ⟨l, r⟩ := all b
  simp only [List.mem_cons, List.not_mem_nil, or_false] at h
  rcases h with rfl | rfl <;> omega

theorem radix16Carry_cons (c d e : Int) (ds : List Int) :
    radix16Carry c (d :: e :: ds) =
      (d + c - 16 * ((d + c + 8) / 16)) :: radix16Carry ((d + c + 8) / 16) (e :: ds) := by
  rw [radix16Carry]
  simp

/-- The carry pass keeps the sum (R217). -/
theorem digitSum_radix16Carry : ∀ (ds : List Int) (c : Int), ds ≠ [] →
    digitSum 16 (radix16Carry c ds) = c + digitSum 16 ds
  | [], _, h => absurd rfl h
  | [d], c, _ => by simp [radix16Carry, digitSum, add_comm]
  | d :: e :: ds, c, _ => by
    have ih := digitSum_radix16Carry (e :: ds) ((d + c + 8) / 16) (by simp)
    rw [radix16Carry_cons, digitSum, ih]; simp only [digitSum]
    ring

/-- The digits after the carry pass (R217, R218): all but the last lie in -8..7, and the last is the nibble with its
carry. -/
theorem radix16Carry_range : ∀ (ds : List Int) (c : Int), (∀ d ∈ ds, 0 ≤ d ∧ d < 16) → 0 ≤ c → c ≤ 1 →
    ∀ i, (i + 1 < ds.length → -8 ≤ (radix16Carry c ds).getD i 0 ∧ (radix16Carry c ds).getD i 0 ≤ 7) ∧
      (i + 1 = ds.length → ds.getD i 0 ≤ (radix16Carry c ds).getD i 0 ∧ (radix16Carry c ds).getD i 0 ≤ ds.getD i 0 + 1)
  | [], _, _, _, _, i => by simp
  | [d], c, _, h0, h1, i => by
    refine ⟨fun h => absurd h (by simp), fun h => ?_⟩
    obtain rfl : i = 0 := by simpa using h
    simp only [radix16Carry, List.getD_cons_zero]
    omega
  | d :: e :: ds, c, hd, h0, h1, i => by
    have d0 := hd d (by simp)
    cases i with
    | zero =>
      refine ⟨fun _ => ?_, fun h => absurd h (by simp)⟩
      rw [radix16Carry_cons, List.getD_cons_zero]
      omega
    | succ i =>
      have ih := radix16Carry_range (e :: ds) ((d + c + 8) / 16) (fun x hx => hd x (List.mem_cons_of_mem _ hx))
        (by omega) (by omega) i
      rw [radix16Carry_cons, List.getD_cons_succ, List.getD_cons_succ]
      refine ⟨fun h => ih.1 ?_, fun h => ih.2 ?_⟩ <;> simp only [List.length_cons] at h ⊢ <;> omega

theorem length_flat_nibbles : ∀ k m : Nat,
    ((bytesOf k m).flatMap fun (b : Byte) => [((b &&& 15).toNat : Int), ((b >>> 4).toNat : Int)]).length = 2 * k
  | 0, _ => rfl
  | k + 1, m => by rw [bytesOf, List.flatMap_cons, List.length_append, length_flat_nibbles k]; simp; omega

theorem length_nibbles (n : Nat) : (nibbles n).length = 64 := length_flat_nibbles 32 n

theorem bytesOf_snoc : ∀ k m : Nat, bytesOf (k + 1) m = bytesOf k m ++ [BitVec.ofNat 8 (m / 256 ^ k)]
  | 0, m => by simp [bytesOf]
  | k + 1, m => by
    rw [bytesOf, bytesOf_snoc k, bytesOf, List.cons_append, Nat.div_div_eq_div_mul, ← Nat.pow_succ']

/-- The top nibble of a 255-bit integer is below 8. -/
theorem nibbles_top {n : Nat} (h : n < 2 ^ 255) : (nibbles n).getD 63 0 < 8 := by
  have small : ∀ t < 128, ((BitVec.ofNat 8 t >>> 4).toNat : Int) < 8 := by decide
  have s := small (n / 256 ^ 31) (by omega)
  have l := length_flat_nibbles 31 n
  rw [nibbles, bytesOf_snoc 31 n, List.flatMap_append]
  generalize (bytesOf 31 n).flatMap _ = xs at l
  generalize n / 256 ^ 31 = t at s
  simp only [List.flatMap_cons, List.flatMap_nil, List.append_nil]
  rw [List.getD_append_right _ _ _ _ (by omega), l]
  exact s

/-- `radix16` keeps the integer (R218). -/
theorem digitSum_radix16 {n : Nat} (h : n < 2 ^ 256) : digitSum 16 (radix16 n) = n := by
  rw [radix16, digitSum_radix16Carry _ _ (by intro e; simpa [e] using length_nibbles n), zero_add, nibbles,
    digitSum_nibbles, Nat.mod_eq_of_lt (by omega)]

/-- The ranges of the digits of `radix16` (R218). -/
theorem radix16_range {n : Nat} (h : n < 2 ^ 255) (i : Nat) :
    -8 ≤ (radix16 n).getD i 0 ∧ (radix16 n).getD i 0 ≤ 8 := by
  have range := radix16Carry_range (nibbles n) 0 (fun d hd => nibbles_range hd) (by omega) (by omega) i
  rw [length_nibbles] at range
  rcases lt_trichotomy (i + 1) 64 with l | e | g
  · have := range.1 l
    exact ⟨this.1, by unfold radix16; omega⟩
  · have top := nibbles_top h
    obtain rfl : i = 63 := by omega
    have := range.2 e
    have low : 0 ≤ (nibbles n).getD 63 0 := by
      rw [List.getD_eq_getElem _ _ (by rw [length_nibbles]; omega)]
      exact (nibbles_range (List.getElem_mem _)).1
    unfold radix16
    omega
  · rw [List.getD_eq_default _ _ (by rw [length_radix16]; omega)]
    omega

/-- The two words of R219 hold the w bits from `pos` on. -/
theorem nafWindow_mod {n w pos : Nat} (hn : n < 2 ^ 256) (hw : w ≤ 8) :
    nafWindow n w pos % 2 ^ w = n / 2 ^ pos % 2 ^ w := by
  have word : ∀ i k, (if i < 4 then n / 2 ^ (64 * i) % 2 ^ 64 else 0).testBit k =
      (decide (k < 64) && n.testBit (64 * i + k)) := by
    intro i k
    split
    · rw [Nat.testBit_mod_two_pow, Nat.testBit_div_two_pow, Nat.add_comm]
    · rw [Nat.zero_testBit, Nat.testBit_lt_two_pow (lt_of_lt_of_le hn (Nat.pow_le_pow_right (by omega) (by omega)))]
      simp
  have place : 64 * (pos / 64) + pos % 64 = pos := Nat.div_add_mod pos 64
  refine Nat.eq_of_testBit_eq fun j => ?_
  rw [Nat.testBit_mod_two_pow, Nat.testBit_mod_two_pow, Nat.testBit_div_two_pow]
  by_cases hj : j < w
  · simp only [hj, decide_true, Bool.true_and, nafWindow]
    split
    · rw [Nat.testBit_div_two_pow, word, decide_eq_true (by omega), Bool.true_and]
      congr 1; omega
    · rw [Nat.testBit_mod_two_pow, Nat.testBit_or, Nat.testBit_div_two_pow, word, Nat.testBit_mul_two_pow, word]
      by_cases low : j < 64 - pos % 64
      · have e : 64 * (pos / 64) + (pos % 64 + j) = pos + j := by omega
        rw [Nat.add_comm j, e]
        simp [show ¬ 64 - pos % 64 ≤ j by omega, show pos % 64 + j < 64 by omega, show j < 64 by omega,
          Nat.add_comm pos]
      · have e : 64 * (pos / 64 + 1) + (j - (64 - pos % 64)) = pos + j := by omega
        rw [e]
        simp [show 64 - pos % 64 ≤ j by omega, show ¬ j + pos % 64 < 64 by omega, show j < 64 by omega,
          show j - (64 - pos % 64) < 64 by omega, Nat.add_comm pos]
  · simp [hj]

/-- A digit written where a zero stood. -/
theorem digitSum_set (b : Int) : ∀ (ds : List Int) (i : Nat) (d : Int), i < ds.length → ds.getD i 0 = 0 →
    digitSum b (ds.set i d) = digitSum b ds + b ^ i * d
  | [], _, _, h, _ => by simp at h
  | x :: xs, 0, d, _, h => by
    simp only [List.getD_cons_zero] at h
    simp [digitSum, h, add_comm]
  | x :: xs, i + 1, d, h, z => by
    rw [List.set_cons_succ, digitSum, digitSum, digitSum_set b xs i d (by simpa using h) (by simpa using z)]
    ring

theorem digitSum_replicate_zero (b : Int) (k : Nat) : digitSum b (List.replicate k 0) = 0 := by
  induction k with
  | zero => rfl
  | succ k ih => rw [List.replicate_succ, digitSum, ih]; ring

/-- A digit of a width-w form: 0, or odd and below 2^(w-1) in size (R219). -/
def nafDigit (w : Nat) (d : Int) : Prop := d = 0 ∨ d % 2 = 1 ∧ -2 ^ (w - 1) < d ∧ d < 2 ^ (w - 1)

/-- What the loop of R219 keeps: `r` is what is left of n at `pos`, the carry in. -/
structure NafInv (n w pos carry : Nat) (ds : List Int) : Prop where
  length : ds.length = 256
  sum : (n : Int) = digitSum 2 ds + 2 ^ pos * ((n / 2 ^ pos + carry : Nat) : Int)
  zeros : ∀ i, pos ≤ i → ds.getD i 0 = 0
  digits : ∀ d ∈ ds, nafDigit w d
  left : pos ≤ 255 → n / 2 ^ pos + carry ≤ 2 ^ (255 - pos)
  done : 256 ≤ pos → n / 2 ^ pos + carry = 0
  carryLe : carry ≤ 1

theorem getD_set_ne {ds : List Int} {i j : Nat} (d : Int) (h : i ≠ j) : (ds.set i d).getD j 0 = ds.getD j 0 := by
  simp [List.getD_eq_getElem?_getD, h]

/-- A digit taken at an odd window: the rest is `r'` at `pos + w`. -/
theorem NafInv.take {n w pos carry c' : Nat} {ds : List Int} {d : Int} (h : NafInv n w pos carry ds) (hp : pos < 256)
    (hw : 2 ≤ w) (hd : nafDigit w d) (hc : c' ≤ 1)
    (hr : ((n / 2 ^ pos + carry : Nat) : Int) = d + 2 ^ w * ((n / 2 ^ (pos + w) + c' : Nat) : Int)) :
    NafInv n w (pos + w) c' (ds.set pos d) := by
  have left := h.left (by omega)
  have size : -2 ^ (w - 1) < d ∧ d < (2 : Int) ^ (w - 1) := by
    rcases hd with rfl | ⟨-, l⟩
    · have := pow_pos (show (0 : Int) < 2 by omega) (w - 1); omega
    · exact l
  generalize hR : n / 2 ^ pos + carry = r at hr left
  generalize hR' : n / 2 ^ (pos + w) + c' = r' at hr
  have half : (2 : Int) ^ w = 2 * 2 ^ (w - 1) := by rw [← pow_succ']; congr 1; omega
  refine ⟨by rw [List.length_set]; exact h.length, ?_, ?_, ?_, ?_, ?_, hc⟩
  · rw [digitSum_set _ _ _ _ (by rw [h.length]; exact hp) (h.zeros pos le_rfl), hR', pow_add]
    have s := h.sum
    rw [hR, hr] at s
    linear_combination s
  · intro i hi
    rw [getD_set_ne d (by omega)]
    exact h.zeros i (by omega)
  · intro x hx
    rcases List.mem_or_eq_of_mem_set hx with hx | rfl
    · exact h.digits x hx
    · exact hd
  · intro hq
    rw [hR']
    have e : (2 : Int) ^ (255 - pos) = 2 ^ w * 2 ^ (255 - (pos + w)) := by rw [← pow_add]; congr 1; omega
    have left' : (r : Int) ≤ 2 ^ (255 - pos) := by exact_mod_cast left
    have pos2 := pow_pos (show (0 : Int) < 2 by omega) (w - 1)
    have : (r' : Int) ≤ 2 ^ (255 - (pos + w)) := by
      rw [hr, e, half] at left'
      by_contra hlt
      have l1 : (2 : Int) ^ (255 - (pos + w)) + 1 ≤ r' := by omega
      nlinarith
    exact_mod_cast this
  · intro hq
    rw [hR']
    have l : (2 : Int) ^ (255 - pos) ≤ 2 ^ (w - 1) := by
      exact_mod_cast Nat.pow_le_pow_right (show 0 < 2 by omega) (show 255 - pos ≤ w - 1 by omega)
    have left' : (r : Int) ≤ 2 ^ (255 - pos) := by exact_mod_cast left
    have pos2 := pow_pos (show (0 : Int) < 2 by omega) (w - 1)
    -- an odd digit makes the rest too large unless it is 0
    by_contra hne
    have one : (1 : Int) ≤ r' := by omega
    have big : (2 : Int) * 2 ^ (w - 1) * 1 ≤ 2 * 2 ^ (w - 1) * r' := by
      exact mul_le_mul_of_nonneg_left one (by positivity)
    rw [half] at hr
    linarith [size.1]

theorem odd_mod {r : Nat} {w : Nat} (hw : 1 ≤ w) : r % 2 ^ w % 2 = r % 2 :=
  Nat.mod_mod_of_dvd _ (dvd_pow_self 2 (by omega))

theorem nafLoop_inv {n w : Nat} (hn : n < 2 ^ 255) (hw : 2 ≤ w) (hw8 : w ≤ 8) : ∀ (fuel pos carry : Nat) (ds : List Int),
    256 ≤ fuel + pos → NafInv n w pos carry ds →
    ∃ pos' , 256 ≤ pos' ∧ ∃ c, NafInv n w pos' c (nafLoop n w fuel pos carry ds)
  | 0, pos, carry, ds, hf, h => ⟨pos, by omega, carry, h⟩
  | fuel + 1, pos, carry, ds, hf, h => by
    rw [nafLoop]
    split
    · next hp => exact ⟨pos, hp, carry, h⟩
    · next hp =>
      have win := nafWindow_mod (n := n) (w := w) (pos := pos) (lt_trans hn (by norm_num)) hw8
      simp only [win]
      have carryLe := h.carryLe
      have half : 2 ^ w = 2 * 2 ^ (w - 1) := by rw [← pow_succ']; congr 1; omega
      have pw : 0 < 2 ^ (w - 1) := Nat.pow_pos (by omega)
      have parity := odd_mod (r := n / 2 ^ pos) (show 1 ≤ w by omega)
      have split' := Nat.div_add_mod (n / 2 ^ pos) (2 ^ w)
      have ltw := Nat.mod_lt (n / 2 ^ pos) (show 2 ^ w > 0 by omega)
      have shift : n / 2 ^ (pos + w) = n / 2 ^ pos / 2 ^ w := by rw [pow_add, Nat.div_div_eq_div_mul]
      split
      · next even =>
        have step1 : n / 2 ^ (pos + 1) = n / 2 ^ pos / 2 := by rw [pow_succ, Nat.div_div_eq_div_mul]
        have twice : n / 2 ^ pos + carry = 2 * (n / 2 ^ (pos + 1) + carry) := by omega
        refine nafLoop_inv hn hw hw8 fuel _ _ _ (by omega)
          ⟨h.length, ?_, fun i hi => h.zeros i (by omega), h.digits, fun hq => ?_, fun hq => ?_, carryLe⟩
        · have s := h.sum
          rw [twice] at s
          generalize n / 2 ^ (pos + 1) + carry = r at s ⊢
          rw [pow_succ]
          push_cast at s ⊢
          linear_combination s
        · have left := h.left (by omega)
          have e : 2 ^ (255 - pos) = 2 * 2 ^ (255 - (pos + 1)) := by rw [← pow_succ']; congr 1; omega
          omega
        · obtain rfl : pos = 255 := by omega
          have left := h.left (by omega)
          norm_num at left
          omega
      · next odd =>
        split
        · next small =>
          refine nafLoop_inv hn hw hw8 fuel _ _ _ (by omega) (h.take (by omega) hw ?_ (by omega) ?_)
          · refine .inr ⟨by omega, ?_, ?_⟩
            · have : (0 : Int) < 2 ^ (w - 1) := by positivity
              omega
            · have : carry + n / 2 ^ pos % 2 ^ w < 2 ^ (w - 1) := by omega
              exact_mod_cast this
          · rw [shift]
            have e : n / 2 ^ pos + carry = carry + n / 2 ^ pos % 2 ^ w + 2 ^ w * (n / 2 ^ pos / 2 ^ w + 0) := by
              rw [Nat.add_zero]; omega
            exact_mod_cast e
        · next large =>
          refine nafLoop_inv hn hw hw8 fuel _ _ _ (by omega) (h.take (by omega) hw ?_ (by omega) ?_)
          · have low : carry + n / 2 ^ pos % 2 ^ w < 2 ^ w := by omega
            have up : 2 ^ (w - 1) < carry + n / 2 ^ pos % 2 ^ w := by
              have : 2 ^ (w - 1) % 2 = 0 := by
                rw [show w - 1 = w - 2 + 1 by omega, pow_succ]; omega
              omega
            generalize carry + n / 2 ^ pos % 2 ^ w = v at *
            have low' : (v : Int) < 2 ^ w := by exact_mod_cast low
            have up' : (2 : Int) ^ (w - 1) < v := by exact_mod_cast up
            have half' : (2 : Int) ^ w = 2 * 2 ^ (w - 1) := by exact_mod_cast half
            have pw' : (0 : Int) < 2 ^ (w - 1) := by positivity
            refine .inr ⟨?_, ?_, ?_⟩ <;> omega
          · rw [shift]
            have e : n / 2 ^ pos + carry + 2 ^ w =
                carry + n / 2 ^ pos % 2 ^ w + 2 ^ w * (n / 2 ^ pos / 2 ^ w + 1) := by
              rw [Nat.mul_add]; omega
            have e' := congrArg (Nat.cast (R := Int)) e
            push_cast at e' ⊢
            linarith

theorem getD_zeros : ∀ k i : Nat, (List.replicate k (0 : Int)).getD i 0 = 0
  | 0, _ => rfl
  | _ + 1, 0 => rfl
  | k + 1, i + 1 => getD_zeros k i

/-- `naf` keeps the integer, and its digits are 0 or odd and small (R219). -/
theorem naf_spec {n w : Nat} (hn : n < 2 ^ 255) (hw : 2 ≤ w) (hw8 : w ≤ 8) :
    digitSum 2 (naf n w) = n ∧ ∀ d ∈ naf n w, nafDigit w d := by
  obtain ⟨pos, hp, c, h⟩ := nafLoop_inv hn hw hw8 256 0 0 (List.replicate 256 0) (by omega) {
    length := List.length_replicate ..
    sum := by rw [digitSum_replicate_zero, pow_zero, pow_zero, Nat.div_one, zero_add, one_mul, Nat.add_zero]
    zeros := fun i _ => getD_zeros 256 i
    digits := fun d hd => .inl (List.eq_of_mem_replicate hd)
    left := fun _ => by rw [pow_zero, Nat.div_one]; exact hn.le
    done := fun h => by omega
    carryLe := by omega }
  refine ⟨?_, h.digits⟩
  have s := h.sum
  rw [h.done hp, Nat.cast_zero, mul_zero, add_zero] at s
  exact s.symm

end Sys2Proof.Machine
end

