-- ==== Sys2Proof/Laws/EngineLaw.lean ====
section
/-! SUPPORT. The scalar-multiplication engines compute the multiples they are meant to (43_scalarmul.md R310 to R325):
what every table entry and every accumulator stands for, as counts of two points A and B. -/

namespace Sys2Proof.Machine

variable {A B : Ext} {a b c d : Int} {x y u v x3 y3 : ZMod fieldPrime}

theorem gf_zero : Fe.zero.gf = 0 := by simp [Fe.gf, feInt, Fe.zero]

theorem gf_one_ne_zero : (1 : ZMod fieldPrime) ≠ 0 := fun h => neg_one_ne_one (by linear_combination -2 * h)

/-- Every value of GF(p) is the value of bounded limbs. -/
theorem exists_gf (z : ZMod fieldPrime) : ∃ f : Fe, f.bounded ∧ f.gf = z := by
  have : NeZero fieldPrime := ⟨by norm_num⟩
  have hz := ZMod.val_lt z
  have len : z.val < 256 ^ 32 := lt_trans hz (by norm_num)
  refine ⟨feFromBytes (bytesOf 32 z.val), feFromBytes_bounded _, ?_⟩
  have e : feInt (feFromBytes (bytesOf 32 z.val)) = z.val := by
    rw [feFromBytes_int (length_bytesOf ..), le_bytesOf, Nat.mod_eq_of_lt len, Nat.mod_eq_of_lt (lt_trans hz (by norm_num))]
  rw [Fe.gf, e, ZMod.natCast_zmod_val]

/-- Some point has given coordinates. -/
theorem exists_at (x y : ZMod fieldPrime) : ∃ P : Ext, P.at x y := by
  obtain ⟨X, -, hX⟩ := exists_gf x
  obtain ⟨Y, -, hY⟩ := exists_gf y
  obtain ⟨T, -, hT⟩ := exists_gf (x * y)
  exact ⟨⟨X, Y, feOne, T⟩, by rw [feOne_gf]; exact gf_one_ne_zero, by simp [feOne_gf, hX], by simp [feOne_gf, hY],
    by simp [feOne_gf, hT]⟩

/-- The affine point (x, y) is [a]A + [b]B. -/
def Reach (A B : Ext) (a b : Int) (x y : ZMod fieldPrime) : Prop :=
  affineCurve x y ∧ ∀ R : Ext, R.at x y → Ext.Combines A B a b R

theorem affineCurve_zero : affineCurve 0 1 := by rw [affineCurve]; ring

theorem reach_zero : Reach A B 0 0 0 1 :=
  ⟨affineCurve_zero, fun _ h => .zero (h.isPoint affineCurve_zero) ⟨by simp [h.2.1], by simp [h.2.2.1]⟩⟩

theorem Ext.at.same {P Q : Ext} (h : P.at x y) (k : Q.at x y) : P.same Q :=
  ⟨by rw [h.2.1, k.2.1]; ring, by rw [h.2.2.1, k.2.2.1]; ring⟩

theorem reach_left (h : A.at x y) (c : affineCurve x y) : Reach A B 1 0 x y :=
  ⟨c, fun _ k => .left (k.isPoint c) (k.same h)⟩

theorem reach_right (h : B.at x y) (c : affineCurve x y) : Reach A B 0 1 x y :=
  ⟨c, fun _ k => .right (k.isPoint c) (k.same h)⟩

theorem reach_neg (h : Reach A B a b x y) : Reach A B (-a) (-b) (-x) y := by
  refine ⟨affineCurve_neg h.1, fun R k => ?_⟩
  obtain ⟨P, hP⟩ := exists_at x y
  exact .neg (h.2 P hP) (k.isPoint (affineCurve_neg h.1))
    ⟨by rw [hP.2.1, k.2.1]; ring, by rw [hP.2.2.1, k.2.2.1]; ring⟩

/-- The sum of two points of the curve is unique. -/
theorem affineSum_unique {x1 y1 x2 y2 x4 y4 : ZMod fieldPrime} (c1 : affineCurve x1 y1) (c2 : affineCurve x2 y2)
    (s : affineSum x1 y1 x2 y2 x3 y3) (t : affineSum x1 y1 x2 y2 x4 y4) : x3 = x4 ∧ y3 = y4 := by
  obtain ⟨p0, m0⟩ := curve_complete c1 c2
  exact ⟨(gf_mul_cancel p0).1 (by linear_combination s.1 - t.1), (gf_mul_cancel m0).1 (by linear_combination s.2 - t.2)⟩

theorem affineSum_curve {x1 y1 x2 y2 : ZMod fieldPrime} (c1 : affineCurve x1 y1) (c2 : affineCurve x2 y2)
    (s : affineSum x1 y1 x2 y2 x3 y3) : affineCurve x3 y3 := by
  obtain ⟨x4, y4, t, c⟩ := affineSum_exists c1 c2
  obtain ⟨rfl, rfl⟩ := affineSum_unique c1 c2 s t
  exact c

theorem reach_add {x1 y1 x2 y2 : ZMod fieldPrime} (h : Reach A B a b x1 y1) (k : Reach A B c d x2 y2)
    (s : affineSum x1 y1 x2 y2 x3 y3) : Reach A B (a + c) (b + d) x3 y3 := by
  have curve := affineSum_curve h.1 k.1 s
  refine ⟨curve, fun R hR => ?_⟩
  obtain ⟨P, hP⟩ := exists_at x1 y1
  obtain ⟨Q, hQ⟩ := exists_at x2 y2
  exact .add (h.2 P hP) (k.2 Q hQ) (hR.isPoint curve) (s.isSum hP hQ hR)

/-- A point register or accumulator that stands for [a]A + [b]B. -/
def Ext.holds (P : Ext) (A B : Ext) (a b : Int) : Prop := P.bounded ∧ ∃ x y, P.at x y ∧ Reach A B a b x y

def Proj.holds (P : Proj) (A B : Ext) (a b : Int) : Prop := P.bounded ∧ ∃ x y, P.at x y ∧ Reach A B a b x y

def PNiels.holds (t : PNiels) (A B : Ext) (a b : Int) : Prop := t.bounded ∧ ∃ x y, t.at x y ∧ Reach A B a b x y

def ANiels.holds (t : ANiels) (A B : Ext) (a b : Int) : Prop := t.bounded ∧ ∃ x y, t.at x y ∧ Reach A B a b x y

/-- A completed sum that stands for [a]A + [b]B. -/
def Comp.holds (C : Comp) (A B : Ext) (a b : Int) : Prop :=
  C.bounded ∧ ∃ x1 y1 x2 y2, C.sums x1 y1 x2 y2 ∧
    ∃ a1 b1 a2 b2, Reach A B a1 b1 x1 y1 ∧ Reach A B a2 b2 x2 y2 ∧ a1 + a2 = a ∧ b1 + b2 = b

theorem Ext.holds.combines {P : Ext} (h : P.holds A B a b) : Ext.Combines A B a b P := by
  obtain ⟨-, x, y, hP, -, r⟩ := h
  exact r P hP

theorem Ext.holds.of_eq {P : Ext} (h : P.holds A B a b) (ha : a = c) (hb : b = d) : P.holds A B c d := ha ▸ hb ▸ h

theorem PNiels.holds.of_eq {t : PNiels} (h : t.holds A B a b) (ha : a = c) (hb : b = d) : t.holds A B c d :=
  ha ▸ hb ▸ h

theorem ANiels.holds.of_eq {t : ANiels} (h : t.holds A B a b) (ha : a = c) (hb : b = d) : t.holds A B c d :=
  ha ▸ hb ▸ h

theorem Comp.holds.of_eq {C : Comp} (h : C.holds A B a b) (ha : a = c) (hb : b = d) : C.holds A B c d := ha ▸ hb ▸ h

theorem Comp.holds.both {C : Comp} (h : C.holds A B a b) :
    (compToExt C).holds A B a b ∧ (compToProj C).holds A B a b := by
  obtain ⟨bC, x1, y1, x2, y2, s, a1, b1, a2, b2, r1, r2, rfl, rfl⟩ := h
  obtain ⟨x3, y3, t, -⟩ := affineSum_exists r1.1 r2.1
  have at' := Comp.sums_at bC s r1.1 r2.1 t
  exact ⟨⟨compToExt_bounded C, x3, y3, at'.1, reach_add r1 r2 t⟩,
    ⟨compToProj_bounded C, x3, y3, at'.2, reach_add r1 r2 t⟩⟩

theorem holds_addPniels {P : Ext} {t : PNiels} (h : P.holds A B a b) (k : t.holds A B c d) :
    (addPniels P t).holds A B (a + c) (b + d) := by
  obtain ⟨bP, x1, y1, hP, r1⟩ := h
  obtain ⟨bt, x2, y2, ht, r2⟩ := k
  exact ⟨addPniels_bounded P t, x1, y1, x2, y2, addPniels_sums bP bt hP ht, a, b, c, d, r1, r2, rfl, rfl⟩

theorem holds_subPniels {P : Ext} {t : PNiels} (h : P.holds A B a b) (k : t.holds A B c d) :
    (subPniels P t).holds A B (a - c) (b - d) := by
  obtain ⟨bP, x1, y1, hP, r1⟩ := h
  obtain ⟨bt, x2, y2, ht, r2⟩ := k
  exact ⟨subPniels_bounded P t, x1, y1, -x2, y2, subPniels_sums bP bt hP ht, a, b, -c, -d, r1, reach_neg r2,
    (sub_eq_add_neg ..).symm, (sub_eq_add_neg ..).symm⟩

theorem holds_addAniels {P : Ext} {t : ANiels} (h : P.holds A B a b) (k : t.holds A B c d) :
    (addAniels P t).holds A B (a + c) (b + d) := by
  obtain ⟨bP, x1, y1, hP, r1⟩ := h
  obtain ⟨bt, x2, y2, ht, r2⟩ := k
  exact ⟨addAniels_bounded P t bP, x1, y1, x2, y2, addAniels_sums bP bt hP ht, a, b, c, d, r1, r2, rfl, rfl⟩

theorem holds_projDouble {P : Proj} (h : P.holds A B a b) : (projDouble P).holds A B (2 * a) (2 * b) := by
  obtain ⟨bP, x1, y1, hP, r⟩ := h
  exact ⟨projDouble_bounded P, x1, y1, x1, y1, projDouble_sums bP hP r.1, a, b, a, b, r, r, (two_mul a).symm,
    (two_mul b).symm⟩

theorem Ext.holds.proj {P : Ext} (h : P.holds A B a b) : (extToProj P).holds A B a b := by
  obtain ⟨bP, x, y, hP, r⟩ := h
  exact ⟨⟨bP.1, bP.2.1, bP.2.2.1⟩, x, y, extToProj_at hP, r⟩

theorem Ext.holds.pniels {P : Ext} (h : P.holds A B a b) : (extToPniels P).holds A B a b := by
  obtain ⟨bP, x, y, hP, r⟩ := h
  exact ⟨extToPniels_bounded bP, x, y, extToPniels_at bP hP, r⟩

theorem holds_projDoubleN : ∀ (n : Nat) {P : Proj} {a b : Int}, P.holds A B a b →
    (projDoubleN P n).holds A B (2 ^ n * a) (2 ^ n * b)
  | 0, P, a, b, h => by simpa [projDoubleN] using h
  | n + 1, P, a, b, h => by
    have := holds_projDoubleN n (holds_projDouble h).both.2
    rw [projDoubleN, pow_succ, mul_assoc, mul_assoc]
    exact this

theorem holds_edMulPow2 {P : Ext} {k : Nat} (hk : 1 ≤ k) (h : P.holds A B a b) :
    (edMulPow2 P k).holds A B (2 ^ k * a) (2 ^ k * b) := by
  have := (holds_projDouble (holds_projDoubleN (k - 1) h.proj)).both.1
  rw [← mul_assoc, ← mul_assoc, ← pow_succ', Nat.sub_add_cancel hk] at this
  exact this

theorem holds_edAdd {P Q : Ext} (h : P.holds A B a b) (k : Q.holds A B c d) : (edAdd P Q).holds A B (a + c) (b + d) :=
  (holds_addPniels h k.pniels).both.1

theorem holds_edDouble {P : Ext} (h : P.holds A B a b) : (edDouble P).holds A B (2 * a) (2 * b) :=
  (holds_projDouble h.proj).both.1

theorem holds_edIdentity : edIdentity.holds A B 0 0 :=
  ⟨edIdentity_bounded, 0, 1, ⟨by simp [edIdentity, feOne_gf, gf_one_ne_zero], by simp [edIdentity, gf_zero],
    by simp [edIdentity, feOne_gf], by simp [edIdentity, gf_zero]⟩, reach_zero⟩

theorem holds_pnielsNeutral : PNiels.neutral.holds A B 0 0 :=
  ⟨by decide, 0, 1, ⟨by simp [PNiels.neutral, feOne_gf, gf_one_ne_zero], by simp [PNiels.neutral, feOne_gf],
    by simp [PNiels.neutral, feOne_gf], by simp [PNiels.neutral, gf_zero]⟩, reach_zero⟩

theorem holds_anielsNeutral : ANiels.neutral.holds A B 0 0 :=
  ⟨by decide, 0, 1, ⟨by simp [ANiels.neutral, feOne_gf], by simp [ANiels.neutral, feOne_gf],
    by simp [ANiels.neutral, gf_zero]⟩, reach_zero⟩

theorem holds_left (bA : A.bounded) (h : A.isPoint) : A.holds A B 1 0 := by
  obtain ⟨x, y, hA, c⟩ := h.affine
  exact ⟨bA, x, y, hA, reach_left hA c⟩

theorem holds_right (bB : B.bounded) (h : B.isPoint) : B.holds A B 0 1 := by
  obtain ⟨x, y, hB, c⟩ := h.affine
  exact ⟨bB, x, y, hB, reach_right hB c⟩

/-- The generator is a point (R13). -/
theorem basePoint_isPoint : basePoint.isPoint := by
  have nat : ∀ m n : Nat, m % fieldPrime = n % fieldPrime → (m : ZMod fieldPrime) = n :=
    fun m n h => (ZMod.natCast_eq_natCast_iff' _ _ _).2 h
  have e1 := nat (feInt basePoint.Y ^ 2)
    (feInt basePoint.X ^ 2 + feInt basePoint.Z ^ 2 + feInt edwardsD * feInt basePoint.T ^ 2) (by decide +kernel)
  have e2 := nat (feInt basePoint.X * feInt basePoint.Y) (feInt basePoint.Z * feInt basePoint.T) (by decide +kernel)
  push_cast at e1 e2
  exact ⟨⟨by rw [Fe.gf, Fe.gf, Fe.gf, Fe.gf, Fe.gf]; linear_combination e1, e2⟩, by
    show feOne.gf ≠ 0
    rw [feOne_gf]; exact gf_one_ne_zero⟩

/-- What the scan of R312 and R316 leaves: the entry |d|, or the start value. -/
theorem scanTable_eq {α : Type} {sel : α → α → Bool → α} (hsel : ∀ t e c, sel t e c = if c then e else t) (d : Int) :
    ∀ (es : List α) (j : Nat) (t : α), scanTable sel d j es t =
      if j < d.natAbs ∧ d.natAbs ≤ j + es.length then es.getD (d.natAbs - j - 1) t else t
  | [], j, t => by rw [scanTable, if_neg (by simp)]
  | e :: es, j, t => by
    rw [scanTable, scanTable_eq hsel d es, hsel]
    by_cases h : d.natAbs = j + 1
    · simp [h]
    · rw [beq_eq_false_iff_ne.2 h]
      simp only [Bool.false_eq_true, if_false]
      by_cases k : j + 1 < d.natAbs ∧ d.natAbs ≤ j + 1 + es.length
      · rw [if_pos k, if_pos (by simp only [List.length_cons]; omega),
          show d.natAbs - j - 1 = d.natAbs - (j + 1) - 1 + 1 by omega, List.getD_cons_succ]
      · rw [if_neg k, if_neg (by simp only [List.length_cons]; omega)]

theorem pnielsSel_eq (t e : PNiels) (c : Bool) : pnielsSel t e c = if c then e else t := by
  cases c <;> simp [pnielsSel, feSel_eq]

theorem anielsSel_eq (t e : ANiels) (c : Bool) : anielsSel t e c = if c then e else t := by
  cases c <;> simp [anielsSel, feSel_eq]

/-- The negated entry. -/
theorem PNiels.holds.neg {t : PNiels} (h : t.holds A B a b) :
    PNiels.holds ⟨t.YmX, t.YpX, t.Z, feNeg t.T2d⟩ A B (-a) (-b) := by
  obtain ⟨bt, x, y, ⟨z0, h1, h2, h4⟩, r⟩ := h
  refine ⟨⟨bt.2.1, bt.1, bt.2.2.1, feNeg_bounded _⟩, -x, y, ⟨z0, ?_, ?_, ?_⟩, reach_neg r⟩
  · simp only [h2]; ring
  · simp only [h1]; ring
  · simp only [feNeg_gf bt.2.2.2, h4]; ring

theorem ANiels.holds.neg {t : ANiels} (h : t.holds A B a b) :
    ANiels.holds ⟨t.ymx, t.ypx, feNeg t.xy2d⟩ A B (-a) (-b) := by
  obtain ⟨bt, x, y, ⟨h1, h2, h4⟩, r⟩ := h
  refine ⟨⟨bt.2.1, bt.1, feNeg_bounded _⟩, -x, y, ⟨?_, ?_, ?_⟩, reach_neg r⟩
  · simp only [h2]; ring
  · simp only [h1]; ring
  · simp only [feNeg_gf bt.2.2, h4]; ring

/-- A table of the multiples 1 to 8 (R313, R318). -/
def tableHolds {α : Type} (holds : Int → α → Prop) (table : List α) (neutral : α) : Prop :=
  table.length = 8 ∧ ∀ j : Nat, j < 8 → holds (j + 1) (table.getD j neutral)

/-- The scan with its sign selects the multiple d. -/
theorem selPniels_holds {table : List PNiels} {d : Int}
    (h : tableHolds (fun k t => PNiels.holds t A B (k * a) (k * b)) table PNiels.neutral) (l : -8 ≤ d) (u : d ≤ 8) :
    (selPniels table d).holds A B (d * a) (d * b) := by
  have e := scanTable_eq pnielsSel_eq d table 0 PNiels.neutral
  rw [h.1] at e
  by_cases zero : d = 0
  · subst zero
    rw [if_neg (by simp)] at e
    simp only [selPniels, e, feSel_eq, feCneg]
    simpa [PNiels.neutral] using (holds_pnielsNeutral (A := A) (B := B))
  · rw [if_pos (by omega), Nat.sub_zero] at e
    have entry := h.2 (d.natAbs - 1) (by omega)
    simp only [selPniels, e, feSel_eq, feCneg]
    generalize table.getD (d.natAbs - 1) PNiels.neutral = t at entry
    by_cases neg : d < 0
    · have k : (((d.natAbs - 1 : Nat) : Int) + 1) = -d := by omega
      rw [k] at entry
      have n := entry.neg
      simp only [neg, decide_true, if_true]
      rw [show d * a = -(-d * a) by ring, show d * b = -(-d * b) by ring]
      exact n
    · have k : (((d.natAbs - 1 : Nat) : Int) + 1) = d := by omega
      rw [k] at entry
      simp only [neg, decide_false, Bool.false_eq_true, if_false]
      exact entry

theorem selAniels_holds {table : List ANiels} {d : Int}
    (h : tableHolds (fun k t => ANiels.holds t A B (k * a) (k * b)) table ANiels.neutral) (l : -8 ≤ d) (u : d ≤ 8) :
    (selAniels table d).holds A B (d * a) (d * b) := by
  have e := scanTable_eq anielsSel_eq d table 0 ANiels.neutral
  rw [h.1] at e
  by_cases zero : d = 0
  · subst zero
    rw [if_neg (by simp)] at e
    simp only [selAniels, e, feSel_eq, feCneg]
    simpa [ANiels.neutral] using (holds_anielsNeutral (A := A) (B := B))
  · rw [if_pos (by omega), Nat.sub_zero] at e
    have entry := h.2 (d.natAbs - 1) (by omega)
    simp only [selAniels, e, feSel_eq, feCneg]
    generalize table.getD (d.natAbs - 1) ANiels.neutral = t at entry
    by_cases neg : d < 0
    · have k : (((d.natAbs - 1 : Nat) : Int) + 1) = -d := by omega
      rw [k] at entry
      have n := entry.neg
      simp only [neg, decide_true, if_true]
      rw [show d * a = -(-d * a) by ring, show d * b = -(-d * b) by ring]
      exact n
    · have k : (((d.natAbs - 1 : Nat) : Int) + 1) = d := by omega
      rw [k] at entry
      simp only [neg, decide_false, Bool.false_eq_true, if_false]
      exact entry

theorem length_pnielsChain (P : Ext) : ∀ n t, (pnielsChain P n t).length = n
  | 0, _ => rfl
  | n + 1, t => by rw [pnielsChain, List.length_cons, length_pnielsChain P n]

/-- Entry j of a chain from [c]A + [d]B by steps of [a]A + [b]B. -/
theorem pnielsChain_holds {P : Ext} (hP : P.holds A B a b) : ∀ (n : Nat) (t : PNiels) (c d : Int), t.holds A B c d →
    ∀ j, j < n → ((pnielsChain P n t).getD j PNiels.neutral).holds A B (c + j * a) (d + j * b)
  | 0, _, _, _, _, j, hj => by omega
  | n + 1, t, c, d, ht, 0, _ => by simpa [pnielsChain] using ht
  | n + 1, t, c, d, ht, j + 1, hj => by
    have next := (holds_addPniels hP ht).both.1.pniels
    have := pnielsChain_holds hP n _ _ _ next j (by omega)
    rw [pnielsChain, List.getD_cons_succ]
    exact this.of_eq (by push_cast; ring) (by push_cast; ring)

theorem varTable_holds {P : Ext} (h : P.holds A B a b) :
    tableHolds (fun k t => PNiels.holds t A B (k * a) (k * b)) (varTable P) PNiels.neutral := by
  refine ⟨length_pnielsChain .., fun j hj => ?_⟩
  have := pnielsChain_holds h 8 _ _ _ h.pniels j hj
  exact this.of_eq (by ring) (by ring)

/-- The accumulated value of a digit list read from its high end. -/
def horner (base : Int) (acc : Int) (ds : List Int) : Int := ds.foldl (fun acc d => base * acc + d) acc

theorem horner_reverse (base : Int) (ds : List Int) : ∀ acc, horner base acc ds.reverse =
    digitSum base ds + base ^ ds.length * acc := by
  intro acc
  rw [horner, List.foldl_reverse]
  induction ds with
  | nil => simp [digitSum]
  | cons d ds ih => rw [List.foldr_cons, ih, digitSum, List.length_cons, pow_succ']; ring

/-- The loop of R314. -/
theorem mulVar_loop {table : List PNiels}
    (h : tableHolds (fun k t => PNiels.holds t A B (k * 1) (k * 0)) table PNiels.neutral) :
    ∀ (ds : List Int) (Q : Ext) (m : Int), (∀ d ∈ ds, -8 ≤ d ∧ d ≤ 8) → Q.holds A B m 0 →
      (ds.foldl (mulVarStep table) Q).holds A B (horner 16 m ds) 0
  | [], Q, m, _, hQ => hQ
  | d :: ds, Q, m, hd, hQ => by
    have bound := hd d (by simp)
    have entry := selPniels_holds h bound.1 bound.2
    have step := (holds_addPniels (holds_edMulPow2 (k := 4) (by omega) hQ) entry).both.1
    rw [List.foldl_cons, horner, List.foldl_cons]
    refine mulVar_loop h ds _ _ (fun d hd' => hd d (List.mem_cons_of_mem _ hd')) ?_
    exact step.of_eq (by ring) (by ring)

/-- Engine 1 computes [n]P (R314). -/
theorem edMulVar_holds {n : Nat} {P : Ext} (hn : n < 2 ^ 255) (h : P.holds A B 1 0) : (edMulVar n P).holds A B n 0 := by
  have table := varTable_holds h
  have len := length_radix16 n
  have range := radix16_range hn
  have top := selPniels_holds table (range 63).1 (range 63).2
  have start := (holds_addPniels (holds_edIdentity (A := A) (B := B)) top).both.1
  rw [zero_add, mul_one, zero_add, mul_zero] at start
  have loop := mulVar_loop table ((radix16 n).take 63).reverse _ _ (fun d hd => ?_) start
  · rw [horner_reverse] at loop
    have sum := digitSum_radix16 (lt_trans hn (by norm_num))
    rw [← List.take_append_drop 63 (radix16 n), digitSum_append] at sum
    have last : (radix16 n).drop 63 = [(radix16 n).getD 63 0] := by
      rw [List.drop_eq_getElem_cons (by omega), List.getD_eq_getElem _ _ (by omega), List.drop_of_length_le (by omega)]
    rw [last, digitSum, digitSum, mul_zero, add_zero] at sum
    rw [sum] at loop
    exact loop
  · have mem := List.mem_of_mem_take (List.mem_reverse.1 hd)
    obtain ⟨i, hi, rfl⟩ := List.getElem_of_mem mem
    have := range i
    rwa [List.getD_eq_getElem _ _ hi] at this

theorem Ext.holds.aniels {P : Ext} (h : P.holds A B a b) : (extToAniels P).holds A B a b := by
  obtain ⟨bP, x, y, ⟨z0, hX, hY, -⟩, r⟩ := h
  have inv := gf_mul_inv z0
  have bi := feInv_bounded P.Z
  have ex : (feMul P.X (feInv P.Z)).gf = x := by
    rw [feMul_gf bP.1 bi, feInv_gf bP.2.2.1, hX]; linear_combination x * inv
  have ey : (feMul P.Y (feInv P.Z)).gf = y := by
    rw [feMul_gf bP.2.1 bi, feInv_gf bP.2.2.1, hY]; linear_combination y * inv
  have bx := feMul_bounded P.X (feInv P.Z)
  have bY := feMul_bounded P.Y (feInv P.Z)
  refine ⟨⟨feAdd_bounded bY bx, feSub_bounded bY, feMul_bounded ..⟩, x, y, ⟨?_, ?_, ?_⟩, r⟩
  · simp only [extToAniels, feAdd_gf bY bx, ex, ey]
  · simp only [extToAniels, feSub_gf bY bx, ex, ey]
  · simp only [extToAniels, feMul_gf (feMul_bounded _ _) edwardsD2_bounded, feMul_gf bx bY, ex, ey, edwardsD2_gf]; ring

theorem length_multiples (P : Ext) : ∀ n t, (multiples P n t).length = n
  | 0, _ => rfl
  | n + 1, t => by rw [multiples, List.length_cons, length_multiples P n]

/-- Entry j of a group, as an affine entry. -/
theorem multiples_holds {P : Ext} (hP : P.holds A B a b) : ∀ (n : Nat) (t : Ext) (c d : Int), t.holds A B c d →
    ∀ j, j < n →
      (((multiples P n t).map extToAniels).getD j ANiels.neutral).holds A B (c + j * a) (d + j * b)
  | 0, _, _, _, _, j, hj => by omega
  | n + 1, t, c, d, ht, 0, _ => by simpa [multiples] using ht.aniels
  | n + 1, t, c, d, ht, j + 1, hj => by
    have := multiples_holds hP n _ _ _ (holds_edAdd ht hP) j (by omega)
    rw [multiples, List.map_cons, List.getD_cons_succ]
    exact this.of_eq (by push_cast; ring) (by push_cast; ring)

theorem group_holds {P : Ext} (h : P.holds A B a b) :
    tableHolds (fun k t => ANiels.holds t A B (k * a) (k * b)) ((multiples P 8 P).map extToAniels) ANiels.neutral := by
  refine ⟨by rw [List.length_map, length_multiples], fun j hj => ?_⟩
  exact (multiples_holds h 8 _ _ _ h j hj).of_eq (by ring) (by ring)

/-- One pass of R317 adds each digit times its group's point. -/
theorem mulBasePass_holds : ∀ (n : Nat) (ds : List Int) (P Q : Ext) (a b c d : Int), ds.length = n →
    (∀ e ∈ ds, -8 ≤ e ∧ e ≤ 8) → P.holds A B a b → Q.holds A B c d →
    (mulBasePass Q (fixedTableFrom n P) ds).holds A B (c + digitSum 256 ds * a) (d + digitSum 256 ds * b)
  | 0, ds, P, Q, a, b, c, d, hl, _, _, hQ => by
    obtain rfl := List.length_eq_zero_iff.1 hl
    simpa [mulBasePass, fixedTableFrom, digitSum] using hQ
  | n + 1, [], _, _, _, _, _, _, hl, _, _, _ => by simp at hl
  | n + 1, e :: ds, P, Q, a, b, c, d, hl, hd, hP, hQ => by
    have bound := hd e (by simp)
    have step := (holds_addAniels hQ (selAniels_holds (group_holds hP) bound.1 bound.2)).both.1
    have rest := mulBasePass_holds n ds _ _ _ _ _ _ (by simpa using hl) (fun x hx => hd x (List.mem_cons_of_mem _ hx))
      (holds_edMulPow2 (k := 8) (by omega) hP) step
    exact rest.of_eq (by rw [digitSum]; ring) (by rw [digitSum]; ring)

theorem splitDigits : ∀ (n : Nat) (ds : List Int), ds.length = 2 * n →
    (evenDigits ds).length = n ∧ (oddDigits ds).length = n ∧
      (∀ d ∈ evenDigits ds, d ∈ ds) ∧ (∀ d ∈ oddDigits ds, d ∈ ds) ∧
      digitSum 16 ds = digitSum 256 (evenDigits ds) + 16 * digitSum 256 (oddDigits ds)
  | 0, ds, h => by
    obtain rfl := List.length_eq_zero_iff.1 h
    simp [evenDigits, oddDigits, digitSum]
  | n + 1, [], h => by simp at h
  | n + 1, [_], h => by simp at h; omega
  | n + 1, d :: e :: ds, h => by
    obtain ⟨l1, l2, m1, m2, s⟩ := splitDigits n ds (by simp only [List.length_cons] at h; omega)
    refine ⟨by rw [evenDigits, List.length_cons, l1], by rw [oddDigits, List.length_cons, l2], ?_, ?_, ?_⟩
    · intro x hx
      rw [evenDigits] at hx
      rcases List.mem_cons.1 hx with rfl | hx
      · simp
      · simp [m1 x hx]
    · intro x hx
      rw [oddDigits] at hx
      rcases List.mem_cons.1 hx with rfl | hx
      · simp
      · simp [m2 x hx]
    · rw [evenDigits, oddDigits, digitSum, digitSum, s, digitSum, digitSum]; ring

/-- Engine 2 computes [n]B (R317). -/
theorem edMulBase_holds {n : Nat} (hn : n < 2 ^ 255) (h : basePoint.holds A B a b) :
    (edMulBase n).holds A B (n * a) (n * b) := by
  have range := radix16_range hn
  have all : ∀ d ∈ radix16 n, -8 ≤ d ∧ d ≤ 8 := by
    intro d hd
    obtain ⟨i, hi, rfl⟩ := List.getElem_of_mem hd
    have := range i
    rwa [List.getD_eq_getElem _ _ hi] at this
  obtain ⟨l1, l2, m1, m2, s⟩ := splitDigits 32 (radix16 n) (length_radix16 n)
  rw [digitSum_radix16 (lt_trans hn (by norm_num))] at s
  have odd := mulBasePass_holds 32 _ _ _ _ _ _ _ l2 (fun d hd => all d (m2 d hd)) h holds_edIdentity
  have even := mulBasePass_holds 32 _ _ _ _ _ _ _ l1 (fun d hd => all d (m1 d hd)) h
    (holds_edMulPow2 (k := 4) (by omega) odd)
  exact even.of_eq (by rw [s]; ring) (by rw [s]; ring)

/-- A table of the odd multiples 1, 3, .., 15 (R320). -/
theorem nafTable5_holds {P : Ext} (h : P.holds A B a b) : ∀ j, j < 8 →
    ((nafTable5 P).getD j PNiels.neutral).holds A B ((2 * j + 1) * a) ((2 * j + 1) * b) := fun j hj =>
  (pnielsChain_holds (holds_edDouble h) 8 _ _ _ h.pniels j hj).of_eq (by ring) (by ring)

/-- Adding one NAF digit (R321). -/
theorem nafAdd_holds {P : Ext} {t : Comp} {e : Int} (h : P.holds A B a b) (ht : t.holds A B c d) (he : nafDigit 5 e) :
    (nafAdd (nafTable5 P) t e).holds A B (c + e * a) (d + e * b) := by
  unfold nafAdd
  rcases he with rfl | ⟨odd, lo, hi⟩
  · simpa using ht
  · norm_num at lo hi
    split
    · next pos =>
      have entry := nafTable5_holds h (e.toNat / 2) (by omega)
      have k : 2 * ((e.toNat / 2 : Nat) : Int) + 1 = e := by omega
      rw [k] at entry
      exact holds_addPniels ht.both.1 entry
    · next nonpos =>
      rw [if_pos (by omega)]
      have entry := nafTable5_holds h ((-e).toNat / 2) (by omega)
      have k : 2 * (((-e).toNat / 2 : Nat) : Int) + 1 = -e := by omega
      rw [k] at entry
      exact (holds_subPniels ht.both.1 entry).of_eq (by ring) (by ring)

/-- The loop of R321. -/
theorem straus_loop {P G : Ext} (hP : P.holds A B 1 0) (hG : G.holds A B 0 1) :
    ∀ (ds : List (Int × Int)) (r : Proj) (m k : Int), (∀ e ∈ ds, nafDigit 5 e.1 ∧ nafDigit 5 e.2) → r.holds A B m k →
      (ds.foldl (strausStep (nafTable5 P) (nafTable5 G)) r).holds A B (horner 2 m (ds.map Prod.fst))
        (horner 2 k (ds.map Prod.snd))
  | [], _, _, _, _, hr => hr
  | e :: ds, r, m, k, hd, hr => by
    obtain ⟨d1, d2⟩ := hd e (by simp)
    have step := (nafAdd_holds hG (nafAdd_holds hP (holds_projDouble hr) d1) d2).of_eq
      (c := 2 * m + e.1) (d := 2 * k + e.2) (by ring) (by ring)
    exact straus_loop hP hG ds _ _ _ (fun x hx => hd x (List.mem_cons_of_mem _ hx)) step.both.2

theorem horner_drop_zeros (p : Int × Int → Bool) (hp : ∀ e, p e = true → e.1 = 0 ∧ e.2 = 0) :
    ∀ ds : List (Int × Int), horner 2 0 ((ds.dropWhile p).map Prod.fst) = horner 2 0 (ds.map Prod.fst) ∧
      horner 2 0 ((ds.dropWhile p).map Prod.snd) = horner 2 0 (ds.map Prod.snd)
  | [] => ⟨rfl, rfl⟩
  | e :: ds => by
    rw [List.dropWhile_cons]
    split
    · next h =>
      obtain ⟨h1, h2⟩ := hp e h
      obtain ⟨i1, i2⟩ := horner_drop_zeros p hp ds
      rw [i1, i2]
      simp [horner, h1, h2]
    · exact ⟨rfl, rfl⟩

theorem Proj.holds.ext {r : Proj} (h : r.holds A B a b) : (projToExt r).holds A B a b := by
  obtain ⟨⟨bX, bY, bZ⟩, x, y, ⟨z0, hX, hY⟩, c⟩ := h
  refine ⟨projToExt_bounded r, x, y, ⟨?_, ?_, ?_, ?_⟩, c⟩
  · simp only [projToExt, feSq_gf bZ]; exact gf_pow_ne_zero z0 2
  · simp only [projToExt, feSq_gf bZ, feMul_gf bX bZ, hX]; ring
  · simp only [projToExt, feSq_gf bZ, feMul_gf bY bZ, hY]; ring
  · simp only [projToExt, feSq_gf bZ, feMul_gf bX bY, hX, hY]; ring

/-- Engine 3 computes [m]P + [k]B (R321). -/
theorem edDoubleScalarMul_holds {m k : Nat} {P : Ext} (hm : m < 2 ^ 255) (hk : k < 2 ^ 255) (hP : P.holds A B 1 0)
    (hB : basePoint.holds A B 0 1) : (edDoubleScalarMul m P k).holds A B m k := by
  obtain ⟨sm, dm⟩ := naf_spec hm (w := 5) (by omega) (by omega)
  obtain ⟨sk, dk⟩ := naf_spec hk (w := 5) (by omega) (by omega)
  have len : (naf m 5).length = (naf k 5).length := by rw [length_naf, length_naf]
  have start : Proj.holds ⟨.zero, feOne, feOne⟩ A B 0 0 := (holds_edIdentity (A := A) (B := B)).proj
  have loop := straus_loop hP hB ((((naf m 5).zip (naf k 5)).reverse).dropWhile fun d => d.1 == 0 && d.2 == 0) _ 0 0
    (fun e he => by
      have mem := List.mem_reverse.1 ((List.dropWhile_sublist _).subset he)
      obtain ⟨m1, m2⟩ := List.of_mem_zip (show (e.1, e.2) ∈ _ from mem)
      exact ⟨dm _ m1, dk _ m2⟩) start
  obtain ⟨z1, z2⟩ := horner_drop_zeros (fun d => d.1 == 0 && d.2 == 0) (fun e he => by simpa using he)
    ((naf m 5).zip (naf k 5)).reverse
  rw [z1, z2, List.map_reverse, List.map_reverse, List.map_fst_zip len.le, List.map_snd_zip len.ge, horner_reverse,
    horner_reverse, mul_zero, add_zero, mul_zero, add_zero, sm, sk] at loop
  exact loop.ext

/-- `ed_is_identity` tests for the identity (R273). -/
theorem edIsIdentity_iff {P : Ext} (b : P.bounded) : edIsIdentity P = true ↔ P.isIdentity := by
  simp only [edIsIdentity, edEq, Bool.and_eq_true]
  have b0 : Fe.zero.bounded := Fe.bounded_zero
  have b1 := feOne_bounded
  rw [feEq_iff (feMul_bounded ..) (feMul_bounded ..), feEq_iff (feMul_bounded ..) (feMul_bounded ..)]
  simp only [edIdentity, feMul_gf b.1 b1, feMul_gf b0 b.2.2.1, feMul_gf b.2.1 b1, feMul_gf b1 b.2.2.1, gf_zero, feOne_gf]
  simp [Ext.isIdentity]

/-- A sum in the projective form of R12 has the coordinates of the sum. -/
theorem isSum_at {P Q R : Ext} {x1 y1 x2 y2 x3 y3 x4 y4 : ZMod fieldPrime} (hP : P.at x1 y1) (hQ : Q.at x2 y2)
    (c1 : affineCurve x1 y1) (c2 : affineCurve x2 y2) (s : affineSum x1 y1 x2 y2 x3 y3) (hR : R.at x4 y4)
    (h : P.isSum Q R) : x4 = x3 ∧ y4 = y3 := by
  obtain ⟨z1, hX, hY, -⟩ := hP
  obtain ⟨z2, kX, kY, -⟩ := hQ
  obtain ⟨z3, rX, rY, -⟩ := hR
  rw [Ext.isSum, hX, hY, kX, kY, rX, rY] at h
  have nz := gf_mul_ne_zero z3 (gf_pow_ne_zero (gf_mul_ne_zero z1 z2) 2)
  refine affineSum_unique c1 c2 ⟨?_, ?_⟩ s
  · exact (gf_mul_cancel nz).1 (by linear_combination h.1)
  · exact (gf_mul_cancel nz).1 (by linear_combination h.2)

/-- `ed_mul8` doubles three times (R270). -/
theorem edMul8_at {P : Ext} {x y x2 y2 x4 y4 x8 y8 : ZMod fieldPrime} (b : P.bounded) (h : P.at x y)
    (c : affineCurve x y) (s2 : affineSum x y x y x2 y2) (s4 : affineSum x2 y2 x2 y2 x4 y4)
    (s8 : affineSum x4 y4 x4 y4 x8 y8) : (edMul8 P).at x8 y8 := by
  have c2 := affineSum_curve c c s2
  have c4 := affineSum_curve c2 c2 s4
  have p1 := projDouble_sums ⟨b.1, b.2.1, b.2.2.1⟩ (extToProj_at h) c
  have a1 := (Comp.sums_at (projDouble_bounded _) p1 c c s2).2
  have p2 := projDouble_sums (compToProj_bounded _) a1 c2
  have a2 := (Comp.sums_at (projDouble_bounded _) p2 c2 c2 s4).2
  have p3 := projDouble_sums (compToProj_bounded _) a2 c4
  exact (Comp.sums_at (projDouble_bounded _) p3 c4 c4 s8).1

theorem isIdentity_at {P : Ext} {x y : ZMod fieldPrime} (h : P.at x y) : P.isIdentity ↔ x = 0 ∧ y = 1 := by
  obtain ⟨z, hX, hY, -⟩ := h
  rw [Ext.isIdentity, hX, hY]
  constructor
  · rintro ⟨a, b⟩
    exact ⟨(gf_mul_cancel z).1 (by rw [a, mul_zero]), (gf_mul_cancel z).1 (by rw [b, mul_one])⟩
  · rintro ⟨rfl, rfl⟩; simp

end Sys2Proof.Machine
end

