-- ==== Sys2Proof/Laws/LadderLaw.lean ====
section
/-! SUPPORT. The ladder on limbs with its pending swap is the ladder over GF(p) (44_montgomery.md R343, R344). -/

namespace Sys2Proof.Machine

/-- The four values of the ladder in GF(p). -/
def Ladder.gf (l : Ladder) : ZMod fieldPrime × ZMod fieldPrime × ZMod fieldPrime × ZMod fieldPrime :=
  (l.x2.gf, l.z2.gf, l.x3.gf, l.z3.gf)

/-- The values with the pending swap carried out. -/
def Ladder.settled (l : Ladder) : ZMod fieldPrime × ZMod fieldPrime × ZMod fieldPrime × ZMod fieldPrime :=
  if l.swap then gfLadderSwap l.gf else l.gf

/-- Limb bounds of the ladder's variables (R143). -/
def Ladder.bounded (l : Ladder) : Prop := l.x2.bounded ∧ l.z2.bounded ∧ l.x3.bounded ∧ l.z3.bounded

theorem gfLadderSwap_twice (v : ZMod fieldPrime × ZMod fieldPrime × ZMod fieldPrime × ZMod fieldPrime) :
    gfLadderSwap (gfLadderSwap v) = v := rfl

theorem ladderSwap_gf (l : Ladder) (c : Bool) : (ladderSwap l c).gf = if c then gfLadderSwap l.gf else l.gf := by
  cases c <;> simp [Ladder.gf, ladderSwap, gfLadderSwap, feSel_eq]

theorem ladderSwap_bounded {l : Ladder} (h : l.bounded) (c : Bool) : (ladderSwap l c).bounded := by
  obtain ⟨h1, h2, h3, h4⟩ := h
  exact ⟨feSel_bounded h1 h3 c, feSel_bounded h2 h4 c, feSel_bounded h3 h1 c, feSel_bounded h4 h2 c⟩

theorem ladderStep_bounded (x1 : Fe) (l : Ladder) : (ladderStep x1 l).bounded :=
  ⟨feMul_bounded .., feMul_bounded .., feSq_bounded _, feMul_bounded ..⟩

theorem ladderA24_gf : ladderA24.gf = 121665 := by
  have h : feInt ladderA24 = 121665 := by decide
  rw [Fe.gf, h, Nat.cast_ofNat]

/-- R344. -/
theorem ladderStep_gf {x1 : Fe} {l : Ladder} (hx : x1.bounded) (h : l.bounded) :
    (ladderStep x1 l).gf = gfLadderStep x1.gf l.gf := by
  obtain ⟨h1, h2, h3, h4⟩ := h
  have b24 : ladderA24.bounded := by decide
  have bA := feAdd_bounded h1 h2
  have bB := feSub_bounded (b := l.z2) h1
  have bC := feAdd_bounded h3 h4
  have bD := feSub_bounded (b := l.z3) h3
  have gA := feAdd_gf h1 h2
  have gB := feSub_gf h1 h2
  have gC := feAdd_gf h3 h4
  have gD := feSub_gf h3 h4
  simp only [Ladder.gf, ladderStep, gfLadderStep]
  generalize feAdd l.x2 l.z2 = A at *
  generalize feSub l.x2 l.z2 = B at *
  generalize feAdd l.x3 l.z3 = C at *
  generalize feSub l.x3 l.z3 = D at *
  have bAA := feSq_bounded A
  have bBB := feSq_bounded B
  have bDA := feMul_bounded D A
  have bCB := feMul_bounded C B
  have gAA := feSq_gf bA
  have gBB := feSq_gf bB
  have gDA := feMul_gf bD bA
  have gCB := feMul_gf bC bB
  generalize feSq A = AA at *
  generalize feSq B = BB at *
  generalize feMul D A = DA at *
  generalize feMul C B = CB at *
  have bE := feSub_bounded (b := BB) bAA
  have gE := feSub_gf bAA bBB
  generalize feSub AA BB = E at *
  refine Prod.ext ?_ (Prod.ext ?_ (Prod.ext ?_ ?_))
  · rw [feMul_gf bAA bBB, gAA, gBB, gA, gB]; ring
  · rw [feMul_gf bE (feAdd_bounded bAA (feMul_bounded ..)), feAdd_gf bAA (feMul_bounded ..), feMul_gf b24 bE,
      ladderA24_gf, gE, gAA, gBB, gA, gB]; ring
  · rw [feSq_gf (feAdd_bounded bDA bCB), feAdd_gf bDA bCB, gDA, gCB, gA, gB, gC, gD]; ring
  · rw [feMul_gf hx (feSq_bounded _), feSq_gf (feSub_bounded bDA), feSub_gf bDA bCB, gDA, gCB, gA, gB, gC, gD]; ring

theorem gfLadder_succ (k : Nat) (x1 : ZMod fieldPrime) (t : Nat) (v) : gfLadder k x1 (t + 1) v =
    gfLadder k x1 t
      (if k.testBit t then gfLadderSwap (gfLadderStep x1 (gfLadderSwap v)) else gfLadderStep x1 v) := rfl

theorem ladderStep_swap (x1 : Fe) (l : Ladder) : (ladderStep x1 l).swap = l.swap := by rw [ladderStep]

theorem Ladder.gf_swap (l : Ladder) (b : Bool) : Ladder.gf { l with swap := b } = l.gf := rfl

/-- One round of R343. -/
theorem ladderRound_settled {x1 : Fe} {l : Ladder} (hx : x1.bounded) (h : l.bounded) (k t : Nat) :
    (ladderRound k x1 t l).settled = if k.testBit t then gfLadderSwap (gfLadderStep x1.gf (gfLadderSwap l.settled))
      else gfLadderStep x1.gf l.settled := by
  rw [ladderRound]
  generalize k.testBit t = kt
  have b : Ladder.bounded { ladderSwap l (l.swap ^^ kt) with swap := kt } := ladderSwap_bounded h (l.swap ^^ kt)
  have start : (ladderSwap l (l.swap ^^ kt)).gf = if kt then gfLadderSwap l.settled else l.settled := by
    rw [ladderSwap_gf, Ladder.settled]
    cases l.swap <;> cases kt <;> simp [gfLadderSwap_twice]
  rw [Ladder.settled, ladderStep_gf hx b, ladderStep_swap, Ladder.gf_swap, start]
  cases kt <;> simp

/-- The rounds of R343. -/
theorem countDown_gf {x1 : Fe} (hx : x1.bounded) (k t : Nat) : ∀ l : Ladder, l.bounded →
    (countDown (ladderRound k x1) t l).bounded ∧
      (countDown (ladderRound k x1) t l).settled = gfLadder k x1.gf t l.settled := by
  induction t with
  | zero => intro l h; exact ⟨h, rfl⟩
  | succ t ih =>
    intro l h
    have next := ih (ladderRound k x1 t l) (ladderStep_bounded ..)
    rw [countDown, gfLadder_succ, ← ladderRound_settled hx h]
    exact next

/-- `x25519_ladder` (R343). -/
theorem x25519Ladder_gf {u : Fe} (hu : u.bounded) (k : Nat) : (x25519Ladder k u).gf =
    (gfLadder k u.gf 255 (1, 0, u.gf, 1)).1 * (gfLadder k u.gf 255 (1, 0, u.gf, 1)).2.1 ^ (2 ^ 255 - 21) := by
  have h0 : Fe.zero.gf = 0 := by simp [Fe.gf, feInt, Fe.zero]
  have h1 : feOne.gf = 1 := by simp [Fe.gf, feInt, feOne]
  obtain ⟨b, g⟩ := countDown_gf hu k 255 ⟨feOne, .zero, u, feOne, false⟩
    ⟨feOne_bounded, Fe.bounded_zero, hu, feOne_bounded⟩
  have start : Ladder.settled ⟨feOne, .zero, u, feOne, false⟩ = (1, 0, u.gf, 1) := by
    simp [Ladder.settled, Ladder.gf, h0, h1]
  rw [start] at g
  rw [← g, x25519Ladder]
  generalize countDown (ladderRound k u) 255 ⟨feOne, .zero, u, feOne, false⟩ = l at b
  have bs := ladderSwap_bounded b l.swap
  have e := ladderSwap_gf l l.swap
  rw [feMul_gf bs.1 (feInv_bounded _), feInv_gf bs.2.1, Ladder.settled, ← e]
  rfl

end Sys2Proof.Machine
end

