-- ==== Sys2Proof/Laws/PerInstr.lean ====
section
/-! SUPPORT. One statement per command about its syntax: the opcode byte of its word is the one of R115. -/

namespace Sys2Proof.Laws.OpcodeOfEncode

/-- The opcode of a command in the map of R115. -/
def opcodeOf : Instr → Nat
  | .nop => 0x00
  | .scrub _ => 0x01
  | .cset _ _ => 0x02
  | .cmov _ _ => 0x03
  | .cnot _ _ => 0x04
  | .cand _ _ _ => 0x05
  | .cor _ _ _ => 0x06
  | .cxor _ _ _ => 0x07
  | .fclr _ => 0x08
  | .sclr _ => 0x09
  | .pclr _ => 0x0A
  | .cclr _ => 0x0B
  | .hash _ => 0x0C
  | .fld _ _ => 0x10
  | .fst _ _ => 0x11
  | .fmov _ _ => 0x12
  | .fconst _ _ => 0x13
  | .fadd _ _ _ => 0x14
  | .fsub _ _ _ => 0x15
  | .fneg _ _ => 0x16
  | .fmul _ _ _ => 0x17
  | .fsqr _ _ => 0x18
  | .finv _ _ => 0x19
  | .fpow58 _ _ => 0x1A
  | .fsqrtr _ _ _ _ => 0x1B
  | .fcsel _ _ _ _ => 0x1C
  | .fcswap _ _ _ => 0x1D
  | .fcneg _ _ _ => 0x1E
  | .fred _ _ => 0x1F
  | .feq _ _ _ => 0x20
  | .fisneg _ _ => 0x21
  | .fiszero _ _ => 0x22
  | .sld _ _ => 0x30
  | .sldw _ _ => 0x31
  | .sldc _ _ _ => 0x32
  | .sldcl _ _ => 0x33
  | .sst _ _ => 0x34
  | .smov _ _ => 0x35
  | .sconst _ _ => 0x36
  | .sadd _ _ _ => 0x37
  | .ssub _ _ _ => 0x38
  | .sneg _ _ => 0x39
  | .smul _ _ _ => 0x3A
  | .sinv _ _ => 0x3B
  | .smmul _ _ _ => 0x3C
  | .stom _ _ => 0x3D
  | .sfrm _ _ => 0x3E
  | .sred _ _ => 0x3F
  | .seq _ _ _ => 0x40
  | .siscan _ _ => 0x41
  | .srdx16 _ _ => 0x42
  | .snaf _ _ _ => 0x43
  | .pid _ => 0x50
  | .pbase _ => 0x51
  | .pmov _ _ => 0x52
  | .pneg _ _ => 0x53
  | .pdbl _ _ => 0x54
  | .padd _ _ _ => 0x55
  | .psub _ _ _ => 0x56
  | .pmul8 _ _ => 0x57
  | .pcmp _ _ => 0x58
  | .pdec _ _ _ => 0x59
  | .peq _ _ _ => 0x5A
  | .pisid _ _ => 0x5B
  | .psmall _ _ => 0x5C
  | .ptorf _ _ => 0x5D
  | .ph2c _ _ => 0x5F
  | .ptom _ _ => 0x60
  | .pfromm _ _ _ _ => 0x61
  | .pmulv _ _ _ => 0x70
  | .pmulb _ _ => 0x71
  | .pdsm _ _ _ _ => 0x72
  | .pmac _ _ _ => 0x73
  | .x25519 _ _ _ => 0x80
  | .xchk _ _ => 0x81
  | .rdec _ _ _ => 0x90
  | .renc _ _ => 0x91
  | .req _ _ _ => 0x92
  | .rell _ _ => 0x93
  | .rh2g _ _ => 0x94
  | .keygen _ => 0xA0
  | .keypub _ => 0xA1
  | .sign _ => 0xA2
  | .signctx _ => 0xA3
  | .signph _ => 0xA4
  | .signr _ => 0xA5
  | .keyclr => 0xA6
  | .verify _ _ => 0xB0
  | .verifyctx _ _ => 0xB1
  | .verifyph _ _ => 0xB2
  | .vbbegin => 0xB3
  | .vbadd _ => 0xB4
  | .vbend _ => 0xB5

/-- The top byte of a command's word is its opcode (R111, R115). -/
def Statement (i : Instr) : Prop := (encode i).toNat / 2 ^ 24 = opcodeOf i

/-- A packed word with its fields in range has the opcode it was packed with. -/
theorem of_pack {i : Instr} {op rd ra rb imm : Nat} (h : encode i = pack op rd ra rb imm) (ho : opcodeOf i = op)
    (h0 : op < 256) (h1 : rd < 16) (h2 : ra < 16) (h3 : rb < 16) (h4 : imm < 4096) : Statement i := by
  rw [Statement, h, ho, pack_op h0 h1 h2 h3 h4]

theorem nop : Statement (.nop) :=
  of_pack rfl rfl (by decide) (by omega) (by omega) (by omega) (by omega)
theorem scrub (k : BitVec 7) : Statement (.scrub k) :=
  of_pack rfl rfl (by decide) (by omega) (by omega) (by omega) (by omega)
theorem cset (cd : CIdx) (k : BitVec 1) : Statement (.cset cd k) :=
  of_pack rfl rfl (by decide) (by omega) (by omega) (by omega) (by omega)
theorem cmov (cd : CIdx) (ca : CIdx) : Statement (.cmov cd ca) :=
  of_pack rfl rfl (by decide) (by omega) (by omega) (by omega) (by omega)
theorem cnot (cd : CIdx) (ca : CIdx) : Statement (.cnot cd ca) :=
  of_pack rfl rfl (by decide) (by omega) (by omega) (by omega) (by omega)
theorem cand (cd : CIdx) (ca : CIdx) (cb : CIdx) : Statement (.cand cd ca cb) :=
  of_pack rfl rfl (by decide) (by omega) (by omega) (by omega) (by omega)
theorem cor (cd : CIdx) (ca : CIdx) (cb : CIdx) : Statement (.cor cd ca cb) :=
  of_pack rfl rfl (by decide) (by omega) (by omega) (by omega) (by omega)
theorem cxor (cd : CIdx) (ca : CIdx) (cb : CIdx) : Statement (.cxor cd ca cb) :=
  of_pack rfl rfl (by decide) (by omega) (by omega) (by omega) (by omega)
theorem fclr (fd : FIdx) : Statement (.fclr fd) :=
  of_pack rfl rfl (by decide) (by omega) (by omega) (by omega) (by omega)
theorem sclr (sd : SIdx) : Statement (.sclr sd) :=
  of_pack rfl rfl (by decide) (by omega) (by omega) (by omega) (by omega)
theorem pclr (pd : PIdx) : Statement (.pclr pd) :=
  of_pack rfl rfl (by decide) (by omega) (by omega) (by omega) (by omega)
theorem cclr (cd : CIdx) : Statement (.cclr cd) :=
  of_pack rfl rfl (by decide) (by omega) (by omega) (by omega) (by omega)
theorem hash (addr : Addr) : Statement (.hash addr) :=
  of_pack rfl rfl (by decide) (by omega) (by omega) (by omega) (by omega)
theorem fld (fd : FIdx) (addr : Addr) : Statement (.fld fd addr) :=
  of_pack rfl rfl (by decide) (by omega) (by omega) (by omega) (by omega)
theorem fst (fs : FIdx) (addr : Addr) : Statement (.fst fs addr) :=
  of_pack rfl rfl (by decide) (by omega) (by omega) (by omega) (by omega)
theorem fmov (fd : FIdx) (fa : FIdx) : Statement (.fmov fd fa) :=
  of_pack rfl rfl (by decide) (by omega) (by omega) (by omega) (by omega)
theorem fconst (fd : FIdx) (k : BitVec 4) : Statement (.fconst fd k) :=
  of_pack rfl rfl (by decide) (by omega) (by omega) (by omega) (by omega)
theorem fadd (fd : FIdx) (fa : FIdx) (fb : FIdx) : Statement (.fadd fd fa fb) :=
  of_pack rfl rfl (by decide) (by omega) (by omega) (by omega) (by omega)
theorem fsub (fd : FIdx) (fa : FIdx) (fb : FIdx) : Statement (.fsub fd fa fb) :=
  of_pack rfl rfl (by decide) (by omega) (by omega) (by omega) (by omega)
theorem fneg (fd : FIdx) (fa : FIdx) : Statement (.fneg fd fa) :=
  of_pack rfl rfl (by decide) (by omega) (by omega) (by omega) (by omega)
theorem fmul (fd : FIdx) (fa : FIdx) (fb : FIdx) : Statement (.fmul fd fa fb) :=
  of_pack rfl rfl (by decide) (by omega) (by omega) (by omega) (by omega)
theorem fsqr (fd : FIdx) (fa : FIdx) : Statement (.fsqr fd fa) :=
  of_pack rfl rfl (by decide) (by omega) (by omega) (by omega) (by omega)
theorem finv (fd : FIdx) (fa : FIdx) : Statement (.finv fd fa) :=
  of_pack rfl rfl (by decide) (by omega) (by omega) (by omega) (by omega)
theorem fpow58 (fd : FIdx) (fa : FIdx) : Statement (.fpow58 fd fa) :=
  of_pack rfl rfl (by decide) (by omega) (by omega) (by omega) (by omega)
theorem fsqrtr (fd : FIdx) (cd : CIdx) (fa : FIdx) (fb : FIdx) : Statement (.fsqrtr fd cd fa fb) :=
  of_pack rfl rfl (by decide) (by omega) (by omega) (by omega) (by omega)
theorem fcsel (fd : FIdx) (fa : FIdx) (fb : FIdx) (cc : CIdx) : Statement (.fcsel fd fa fb cc) :=
  of_pack rfl rfl (by decide) (by omega) (by omega) (by omega) (by omega)
theorem fcswap (fx : FIdx) (fy : FIdx) (cc : CIdx) : Statement (.fcswap fx fy cc) :=
  of_pack rfl rfl (by decide) (by omega) (by omega) (by omega) (by omega)
theorem fcneg (fd : FIdx) (fa : FIdx) (cc : CIdx) : Statement (.fcneg fd fa cc) :=
  of_pack rfl rfl (by decide) (by omega) (by omega) (by omega) (by omega)
theorem fred (fd : FIdx) (fa : FIdx) : Statement (.fred fd fa) :=
  of_pack rfl rfl (by decide) (by omega) (by omega) (by omega) (by omega)
theorem feq (cd : CIdx) (fa : FIdx) (fb : FIdx) : Statement (.feq cd fa fb) :=
  of_pack rfl rfl (by decide) (by omega) (by omega) (by omega) (by omega)
theorem fisneg (cd : CIdx) (fa : FIdx) : Statement (.fisneg cd fa) :=
  of_pack rfl rfl (by decide) (by omega) (by omega) (by omega) (by omega)
theorem fiszero (cd : CIdx) (fa : FIdx) : Statement (.fiszero cd fa) :=
  of_pack rfl rfl (by decide) (by omega) (by omega) (by omega) (by omega)
theorem sld (sd : SIdx) (addr : Addr) : Statement (.sld sd addr) :=
  of_pack rfl rfl (by decide) (by omega) (by omega) (by omega) (by omega)
theorem sldw (sd : SIdx) (addr : Addr) : Statement (.sldw sd addr) :=
  of_pack rfl rfl (by decide) (by omega) (by omega) (by omega) (by omega)
theorem sldc (sd : SIdx) (cd : CIdx) (addr : Addr) : Statement (.sldc sd cd addr) :=
  of_pack rfl rfl (by decide) (by omega) (by omega) (by omega) (by omega)
theorem sldcl (sd : SIdx) (addr : Addr) : Statement (.sldcl sd addr) :=
  of_pack rfl rfl (by decide) (by omega) (by omega) (by omega) (by omega)
theorem sst (ss : SIdx) (addr : Addr) : Statement (.sst ss addr) :=
  of_pack rfl rfl (by decide) (by omega) (by omega) (by omega) (by omega)
theorem smov (sd : SIdx) (sa : SIdx) : Statement (.smov sd sa) :=
  of_pack rfl rfl (by decide) (by omega) (by omega) (by omega) (by omega)
theorem sconst (sd : SIdx) (k : BitVec 3) : Statement (.sconst sd k) :=
  of_pack rfl rfl (by decide) (by omega) (by omega) (by omega) (by omega)
theorem sadd (sd : SIdx) (sa : SIdx) (sb : SIdx) : Statement (.sadd sd sa sb) :=
  of_pack rfl rfl (by decide) (by omega) (by omega) (by omega) (by omega)
theorem ssub (sd : SIdx) (sa : SIdx) (sb : SIdx) : Statement (.ssub sd sa sb) :=
  of_pack rfl rfl (by decide) (by omega) (by omega) (by omega) (by omega)
theorem sneg (sd : SIdx) (sa : SIdx) : Statement (.sneg sd sa) :=
  of_pack rfl rfl (by decide) (by omega) (by omega) (by omega) (by omega)
theorem smul (sd : SIdx) (sa : SIdx) (sb : SIdx) : Statement (.smul sd sa sb) :=
  of_pack rfl rfl (by decide) (by omega) (by omega) (by omega) (by omega)
theorem sinv (sd : SIdx) (sa : SIdx) : Statement (.sinv sd sa) :=
  of_pack rfl rfl (by decide) (by omega) (by omega) (by omega) (by omega)
theorem smmul (sd : SIdx) (sa : SIdx) (sb : SIdx) : Statement (.smmul sd sa sb) :=
  of_pack rfl rfl (by decide) (by omega) (by omega) (by omega) (by omega)
theorem stom (sd : SIdx) (sa : SIdx) : Statement (.stom sd sa) :=
  of_pack rfl rfl (by decide) (by omega) (by omega) (by omega) (by omega)
theorem sfrm (sd : SIdx) (sa : SIdx) : Statement (.sfrm sd sa) :=
  of_pack rfl rfl (by decide) (by omega) (by omega) (by omega) (by omega)
theorem sred (sd : SIdx) (sa : SIdx) : Statement (.sred sd sa) :=
  of_pack rfl rfl (by decide) (by omega) (by omega) (by omega) (by omega)
theorem seq (cd : CIdx) (sa : SIdx) (sb : SIdx) : Statement (.seq cd sa sb) :=
  of_pack rfl rfl (by decide) (by omega) (by omega) (by omega) (by omega)
theorem siscan (cd : CIdx) (sa : SIdx) : Statement (.siscan cd sa) :=
  of_pack rfl rfl (by decide) (by omega) (by omega) (by omega) (by omega)
theorem srdx16 (ss : SIdx) (addr : Addr) : Statement (.srdx16 ss addr) :=
  of_pack rfl rfl (by decide) (by omega) (by omega) (by omega) (by omega)
theorem snaf (ss : SIdx) (w : BitVec 4) (addr : Addr) : Statement (.snaf ss w addr) :=
  of_pack rfl rfl (by decide) (by omega) (by omega) (by omega) (by omega)
theorem pid (pd : PIdx) : Statement (.pid pd) :=
  of_pack rfl rfl (by decide) (by omega) (by omega) (by omega) (by omega)
theorem pbase (pd : PIdx) : Statement (.pbase pd) :=
  of_pack rfl rfl (by decide) (by omega) (by omega) (by omega) (by omega)
theorem pmov (pd : PIdx) (pa : PIdx) : Statement (.pmov pd pa) :=
  of_pack rfl rfl (by decide) (by omega) (by omega) (by omega) (by omega)
theorem pneg (pd : PIdx) (pa : PIdx) : Statement (.pneg pd pa) :=
  of_pack rfl rfl (by decide) (by omega) (by omega) (by omega) (by omega)
theorem pdbl (pd : PIdx) (pa : PIdx) : Statement (.pdbl pd pa) :=
  of_pack rfl rfl (by decide) (by omega) (by omega) (by omega) (by omega)
theorem padd (pd : PIdx) (pa : PIdx) (pb : PIdx) : Statement (.padd pd pa pb) :=
  of_pack rfl rfl (by decide) (by omega) (by omega) (by omega) (by omega)
theorem psub (pd : PIdx) (pa : PIdx) (pb : PIdx) : Statement (.psub pd pa pb) :=
  of_pack rfl rfl (by decide) (by omega) (by omega) (by omega) (by omega)
theorem pmul8 (pd : PIdx) (pa : PIdx) : Statement (.pmul8 pd pa) :=
  of_pack rfl rfl (by decide) (by omega) (by omega) (by omega) (by omega)
theorem pcmp (ps : PIdx) (addr : Addr) : Statement (.pcmp ps addr) :=
  of_pack rfl rfl (by decide) (by omega) (by omega) (by omega) (by omega)
theorem pdec (pd : PIdx) (cd : CIdx) (addr : Addr) : Statement (.pdec pd cd addr) :=
  of_pack rfl rfl (by decide) (by omega) (by omega) (by omega) (by omega)
theorem peq (cd : CIdx) (pa : PIdx) (pb : PIdx) : Statement (.peq cd pa pb) :=
  of_pack rfl rfl (by decide) (by omega) (by omega) (by omega) (by omega)
theorem pisid (cd : CIdx) (pa : PIdx) : Statement (.pisid cd pa) :=
  of_pack rfl rfl (by decide) (by omega) (by omega) (by omega) (by omega)
theorem psmall (cd : CIdx) (pa : PIdx) : Statement (.psmall cd pa) :=
  of_pack rfl rfl (by decide) (by omega) (by omega) (by omega) (by omega)
theorem ptorf (cd : CIdx) (pa : PIdx) : Statement (.ptorf cd pa) :=
  of_pack rfl rfl (by decide) (by omega) (by omega) (by omega) (by omega)
theorem ph2c (pd : PIdx) (cd : CIdx) : Statement (.ph2c pd cd) :=
  of_pack rfl rfl (by decide) (by omega) (by omega) (by omega) (by omega)
theorem ptom (fd : FIdx) (pa : PIdx) : Statement (.ptom fd pa) :=
  of_pack rfl rfl (by decide) (by omega) (by omega) (by omega) (by omega)
theorem pfromm (pd : PIdx) (cd : CIdx) (fa : FIdx) (bit : BitVec 1) : Statement (.pfromm pd cd fa bit) :=
  of_pack rfl rfl (by decide) (by omega) (by omega) (by omega) (by omega)
theorem pmulv (pd : PIdx) (sa : SIdx) (pb : PIdx) : Statement (.pmulv pd sa pb) :=
  of_pack rfl rfl (by decide) (by omega) (by omega) (by omega) (by omega)
theorem pmulb (pd : PIdx) (sa : SIdx) : Statement (.pmulb pd sa) :=
  of_pack rfl rfl (by decide) (by omega) (by omega) (by omega) (by omega)
theorem pdsm (pd : PIdx) (sa : SIdx) (pb : PIdx) (sc : SIdx) : Statement (.pdsm pd sa pb sc) :=
  of_pack rfl rfl (by decide) (by omega) (by omega) (by omega) (by omega)
theorem pmac (pd : PIdx) (sa : SIdx) (pb : PIdx) : Statement (.pmac pd sa pb) :=
  of_pack rfl rfl (by decide) (by omega) (by omega) (by omega) (by omega)
theorem x25519 (fd : FIdx) (sa : SIdx) (fb : FIdx) : Statement (.x25519 fd sa fb) :=
  of_pack rfl rfl (by decide) (by omega) (by omega) (by omega) (by omega)
theorem xchk (cd : CIdx) (fa : FIdx) : Statement (.xchk cd fa) :=
  of_pack rfl rfl (by decide) (by omega) (by omega) (by omega) (by omega)
theorem rdec (pd : PIdx) (cd : CIdx) (addr : Addr) : Statement (.rdec pd cd addr) :=
  of_pack rfl rfl (by decide) (by omega) (by omega) (by omega) (by omega)
theorem renc (ps : PIdx) (addr : Addr) : Statement (.renc ps addr) :=
  of_pack rfl rfl (by decide) (by omega) (by omega) (by omega) (by omega)
theorem req (cd : CIdx) (pa : PIdx) (pb : PIdx) : Statement (.req cd pa pb) :=
  of_pack rfl rfl (by decide) (by omega) (by omega) (by omega) (by omega)
theorem rell (pd : PIdx) (fa : FIdx) : Statement (.rell pd fa) :=
  of_pack rfl rfl (by decide) (by omega) (by omega) (by omega) (by omega)
theorem rh2g (pd : PIdx) (addr : Addr) : Statement (.rh2g pd addr) :=
  of_pack rfl rfl (by decide) (by omega) (by omega) (by omega) (by omega)
theorem keygen (addr : Addr) : Statement (.keygen addr) :=
  of_pack rfl rfl (by decide) (by omega) (by omega) (by omega) (by omega)
theorem keypub (addr : Addr) : Statement (.keypub addr) :=
  of_pack rfl rfl (by decide) (by omega) (by omega) (by omega) (by omega)
theorem sign (addr : Addr) : Statement (.sign addr) :=
  of_pack rfl rfl (by decide) (by omega) (by omega) (by omega) (by omega)
theorem signctx (addr : Addr) : Statement (.signctx addr) :=
  of_pack rfl rfl (by decide) (by omega) (by omega) (by omega) (by omega)
theorem signph (addr : Addr) : Statement (.signph addr) :=
  of_pack rfl rfl (by decide) (by omega) (by omega) (by omega) (by omega)
theorem signr (addr : Addr) : Statement (.signr addr) :=
  of_pack rfl rfl (by decide) (by omega) (by omega) (by omega) (by omega)
theorem keyclr : Statement (.keyclr) :=
  of_pack rfl rfl (by decide) (by omega) (by omega) (by omega) (by omega)
theorem verify (cd : CIdx) (addr : Addr) : Statement (.verify cd addr) :=
  of_pack rfl rfl (by decide) (by omega) (by omega) (by omega) (by omega)
theorem verifyctx (cd : CIdx) (addr : Addr) : Statement (.verifyctx cd addr) :=
  of_pack rfl rfl (by decide) (by omega) (by omega) (by omega) (by omega)
theorem verifyph (cd : CIdx) (addr : Addr) : Statement (.verifyph cd addr) :=
  of_pack rfl rfl (by decide) (by omega) (by omega) (by omega) (by omega)
theorem vbbegin : Statement (.vbbegin) :=
  of_pack rfl rfl (by decide) (by omega) (by omega) (by omega) (by omega)
theorem vbadd (addr : Addr) : Statement (.vbadd addr) :=
  of_pack rfl rfl (by decide) (by omega) (by omega) (by omega) (by omega)
theorem vbend (cd : CIdx) : Statement (.vbend cd) :=
  of_pack rfl rfl (by decide) (by omega) (by omega) (by omega) (by omega)

end Sys2Proof.Laws.OpcodeOfEncode
end

