-- ==== Sys2Proof/Tests/Slice0.lean ====
section
/-! SUPPORT. The model's own tests. Every expected value is the spec's: the encodings of 30_encoding.md and the command
traces and vectors of 95_test_vectors.md, 96_test_vectors_commands.md and 97_test_vectors_pipelines.md. Then one witness per
statement with hypotheses: a concrete state and operands that meet them. -/

set_option maxRecDepth 100000
set_option Elab.async false

namespace Sys2Proof.Tests

open Sys2Proof.Machine

/-! ## Well-formedness: each check refuses an ill-formed command -/

theorem test_wellFormed_refuses_fconst_13 : (Instr.fconst 0 13#4).wellFormed = false := by decide

theorem test_wellFormed_refuses_sconst_5 : (Instr.sconst 0 5#3).wellFormed = false := by decide

theorem test_wellFormed_refuses_snaf_1_9 :
    (Instr.snaf 0 1#4 0).wellFormed = false ∧ (Instr.snaf 0 9#4 0).wellFormed = false := by decide

theorem test_wellFormed_takes_the_limits : (Instr.fconst 0 12#4).wellFormed = true ∧ (Instr.sconst 0 4#3).wellFormed = true ∧
    (Instr.snaf 0 2#4 0).wellFormed = true ∧ (Instr.snaf 0 8#4 0).wellFormed = true := by decide

/-! ## Decoding: the words the spec prints beside the commands of its traces and rules, one per constructor -/

theorem test_decode_system : ∀ p ∈ ([
      (0x00000000#32, .nop), (0x01000007#32, .scrub 7#7), (0x02500001#32, .cset 5 1#1),
      (0x03750000#32, .cmov 7 5), (0x04100000#32, .cnot 1 0), (0x05201000#32, .cand 2 0 1),
      (0x06301000#32, .cor 3 0 1), (0x07403000#32, .cxor 4 0 3), (0x08500000#32, .fclr 5),
      (0x09400000#32, .sclr 4), (0x0A700000#32, .pclr 7), (0x0B100000#32, .cclr 1),
      (0x0C000200#32, .hash 0x200#12)
    ] : List (Word × Instr)), decode p.1 = .ok p.2 := by decide +kernel

theorem test_decode_field : ∀ p ∈ ([
      (0x10100020#32, .fld 1 0x020#12), (0x11100060#32, .fst 1 0x060#12), (0x12630000#32, .fmov 6 3),
      (0x13100003#32, .fconst 1 3#4), (0x14412000#32, .fadd 4 1 2), (0x15412000#32, .fsub 4 1 2),
      (0x16630000#32, .fneg 6 3), (0x17412000#32, .fmul 4 1 2), (0x18760000#32, .fsqr 7 6),
      (0x19930000#32, .finv 9 3), (0x1AB30000#32, .fpow58 11 3), (0x1B345001#32, .fsqrtr 3 1 4 5),
      (0x1C401001#32, .fcsel 4 0 1 1), (0x1D010001#32, .fcswap 0 1 1), (0x1E530001#32, .fcneg 5 3 1),
      (0x1F100000#32, .fred 1 0), (0x20251000#32, .feq 2 5 1), (0x21160000#32, .fisneg 1 6),
      (0x22260000#32, .fiszero 2 6)
    ] : List (Word × Instr)), decode p.1 = .ok p.2 := by decide +kernel

theorem test_decode_scalar : ∀ p ∈ ([
      (0x30100020#32, .sld 1 0x020#12), (0x31300080#32, .sldw 3 0x080#12), (0x32340080#32, .sldc 3 4 0x080#12),
      (0x33100060#32, .sldcl 1 0x060#12), (0x34200080#32, .sst 2 0x080#12), (0x35540000#32, .smov 5 4),
      (0x36400004#32, .sconst 4 4#3), (0x37740000#32, .sadd 7 4 0), (0x38701000#32, .ssub 7 0 1),
      (0x39740000#32, .sneg 7 4), (0x3A745000#32, .smul 7 4 5), (0x3B710000#32, .sinv 7 1),
      (0x3C736000#32, .smmul 7 3 6), (0x3D730000#32, .stom 7 3), (0x3E100000#32, .sfrm 1 0),
      (0x3F640000#32, .sred 6 4), (0x40523000#32, .seq 5 2 3), (0x41240000#32, .siscan 2 4),
      (0x42400200#32, .srdx16 4 0x200#12), (0x43150300#32, .snaf 1 5#4 0x300#12)
    ] : List (Word × Instr)), decode p.1 = .ok p.2 := by decide +kernel

theorem test_decode_edwards : ∀ p ∈ ([
      (0x50700000#32, .pid 7), (0x51100000#32, .pbase 1), (0x52120000#32, .pmov 1 2), (0x53530000#32, .pneg 5 3),
      (0x54520000#32, .pdbl 5 2), (0x55412000#32, .padd 4 1 2), (0x56423000#32, .psub 4 2 3),
      (0x57540000#32, .pmul8 5 4), (0x585000A0#32, .pcmp 5 0x0A0#12), (0x59260020#32, .pdec 2 6 0x020#12),
      (0x5A634000#32, .peq 6 3 4), (0x5B310000#32, .pisid 3 1), (0x5C440000#32, .psmall 4 4),
      (0x5D340000#32, .ptorf 3 4), (0x5F760000#32, .ph2c 7 6), (0x60500000#32, .ptom 5 0),
      (0x61131002#32, .pfromm 1 2 3 1#1)
    ] : List (Word × Instr)), decode p.1 = .ok p.2 := by decide +kernel

theorem test_decode_engines : ∀ p ∈ ([
      (0x70745000#32, .pmulv 7 4 5), (0x71520000#32, .pmulb 5 2), (0x72623004#32, .pdsm 6 2 3 4),
      (0x73723000#32, .pmac 7 2 3), (0x80411000#32, .x25519 4 1 1), (0x81130000#32, .xchk 1 3),
      (0x90120020#32, .rdec 1 2 0x020#12), (0x91100200#32, .renc 1 0x200#12), (0x92123000#32, .req 1 2 3),
      (0x93710000#32, .rell 7 1), (0x94600100#32, .rh2g 6 0x100#12)
    ] : List (Word × Instr)), decode p.1 = .ok p.2 := by decide +kernel

theorem test_decode_ed25519 : ∀ p ∈ ([
      (0xA0000FE1#32, .keygen 0xFE1#12), (0xA1000100#32, .keypub 0x100#12), (0xA2000120#32, .sign 0x120#12),
      (0xA3000180#32, .signctx 0x180#12), (0xA40001C0#32, .signph 0x1C0#12), (0xA5000140#32, .signr 0x140#12),
      (0xA6000000#32, .keyclr), (0xB0200100#32, .verify 2 0x100#12), (0xB1300100#32, .verifyctx 3 0x100#12),
      (0xB2200100#32, .verifyph 2 0x100#12), (0xB3000000#32, .vbbegin), (0xB4000100#32, .vbadd 0x100#12),
      (0xB5400000#32, .vbend 4)
    ] : List (Word × Instr)), decode p.1 = .ok p.2 := by decide +kernel

/-- Words the spec's traces and R129 show as E_ILLEGAL for a must-be-zero bit. -/
theorem test_decode_must_be_zero : ∀ w ∈ ([0x00000001, 0x01000080, 0x02000002, 0x03800000, 0x14012001, 0x17201001, 0x1C012008,
      0x20801000, 0x35900000, 0x13000010, 0x61030008, 0x61032000, 0x80081000] : List Nat),
    decode (BitVec.ofNat 32 w) = .error .mustBeZero := by decide +kernel

/-- Words the spec shows as E_ILLEGAL for an unallocated opcode. -/
theorem test_decode_unallocated : ∀ w ∈ ([0x0D000000, 0x5E000000, 0xFFFFFFFF, 0xFF000000] : List Nat),
    decode (BitVec.ofNat 32 w) = .error .unallocatedOpcode := by decide +kernel

theorem test_table_word : decodeTableWord 32 0x17201000 = some (.fmul 2 0 1) ∧ decodeTableWord 32 0x5E000000 = none :=
  ⟨rfl, rfl⟩

/-! ## One step each -/

/-- The state a command leaves, from a state in which it answers a next state. -/
def after (i : Instr) (s : State) : State :=
  match exec i s with
  | .next t => t
  | _ => s

/-- A state with four field registers. -/
def withF (a b c d : Fe) : State := (((State.reset.writeF 0 a).writeF 1 b).writeF 2 c).writeF 3 d

/-- A state with three scalar registers. -/
def withS (a b c : Nat) : State := ((State.reset.writeS 0 a).writeS 1 b).writeS 2 c

/-- A state with a byte string at DM[0]. -/
def withDm (b : List Byte) : State := State.reset.setDm (Memory.writeBytes [] 0 b)

/-- The limb vector (2^52 - 1) five times. -/
def x52 : Fe := ⟨0xFFFFFFFFFFFFF, 0xFFFFFFFFFFFFF, 0xFFFFFFFFFFFFF, 0xFFFFFFFFFFFFF, 0xFFFFFFFFFFFFF⟩

/-- The literal limbs of p. -/
def limbsP : Fe := ⟨0x7ffffffffffed, 0x7ffffffffffff, 0x7ffffffffffff, 0x7ffffffffffff, 0x7ffffffffffff⟩

/-- The element whose bytes are 01 02 .. 20. -/
def counting : Fe := feFromBytes (bytesOf 32 0x201f1e1d1c1b1a191817161514131211100f0e0d0c0b0a090807060504030201)

/-- R142. -/
theorem test_fld_limbs :
    ((after (.fld 0 0) (withDm (bytesOf 32 0x201f1e1d1c1b1a191817161514131211100f0e0d0c0b0a090807060504030201))).fReg.get 0).val =
      ⟨0x7060504030201, 0x1a18161412100, 0x04c4844403c38, 0x50c8c0b8b0a8a, 0x201f1e1d1c1b1⟩ := by decide +kernel

/-- 3.2: bytes_32(p + 1) is loaded unreduced and stored as 01 00... -/
theorem test_fst_canonical :
    (after (.fst 0 0x100#12) (withF ⟨0x7ffffffffffee, 0x7ffffffffffff, 0x7ffffffffffff, 0x7ffffffffffff, 0x7ffffffffffff⟩
      .zero .zero .zero)).dm = [(0x100, 1)] := by decide +kernel

/-- Section 2, `fe_add`: x52 + x52. -/
theorem test_fadd :
    ((after (.fadd 2 0 1) (withF x52 x52 .zero .zero)).fReg.get 2) =
      ⟨⟨0x8000000000037, 0x8000000000001, 0x8000000000001, 0x8000000000001, 0x8000000000001⟩, true⟩ := by decide +kernel

/-- Section 2, `fe_sub`: x52 - x52 is the limbs of p, not zero. -/
theorem test_fsub :
    ((after (.fsub 0 0 1) (withF x52 x52 .zero .zero)).fReg.get 0).val = limbsP := by decide +kernel

/-- Section 2, `fe_neg`. -/
theorem test_fneg :
    ((after (.fneg 1 0) (withF x52 .zero .zero .zero)).fReg.get 1).val =
      ⟨0x7ffffffffffc8, 0x7fffffffffffe, 0x7fffffffffffe, 0x7fffffffffffe, 0x7fffffffffffe⟩ := by decide +kernel

/-- Section 2, `fe_mul`: EDWARDS_D × SQRT_M1. -/
theorem test_fmul :
    ((after (.fmul 2 0 1) (withF edwardsD sqrtM1 .zero .zero)).fReg.get 2).val =
      ⟨0x41b459e451edd, 0x12ff79833ce38, 0x72df0d1260021, 0x55a7a62e74cdd, 0x24aee07b32c1⟩ := by decide +kernel

/-- Section 2, `fe_mul`: x52 × x52. -/
theorem test_fmul_bound :
    ((after (.fmul 2 0 1) (withF x52 x52 .zero .zero)).fReg.get 2).val = ⟨0x5a5, 0x8000000000083, 0x70, 0x5f, 0x4d⟩ := by decide +kernel

/-- Section 2, `fe_sq` of EDWARDS_D. -/
theorem test_fsqr :
    ((after (.fsqr 2 0) (withF edwardsD .zero .zero .zero)).fReg.get 2).val =
      ⟨0x3f63e6ba03e78, 0xe654395e03b0, 0x63c806f4df97b, 0x7943335aa1120, 0x7d6f8d574d4c1⟩ := by decide +kernel

/-- Section 2, `fe_canon` of x52. -/
theorem test_fred :
    ((after (.fred 0 0) (withF x52 .zero .zero .zero)).fReg.get 0).val = ⟨0x25, 1, 1, 1, 1⟩ := by decide +kernel

/-- Section 2, `fe_inv` of 2. -/
theorem test_finv :
    ((after (.finv 1 0) (withF ⟨2, 0, 0, 0, 0⟩ .zero .zero .zero)).fReg.get 1).val =
      ⟨0x7fffffffffff7, 0x7ffffffffffff, 0x7ffffffffffff, 0x7ffffffffffff, 0x3ffffffffffff⟩ := by decide +kernel

/-- 3.2: FPOW58 of 01 02 .. 20. -/
theorem test_fpow58 :
    feToBytes ((after (.fpow58 1 0) (withF counting .zero .zero .zero)).fReg.get 1).val =
      (bytesOf 32 0x6c0f89745826761165373a615d013223d45b77d73c3874a5ddbb2a2c31b7aa2) := by decide +kernel

/-- 3.2: FSQRTR of x² and 1 is the even one of ±x. -/
theorem test_fsqrtr :
    let t := after (.fsqrtr 2 2 0 1) (withF (feSq counting) feOne .zero .zero)
    t.cReg.get 2 = ⟨true, true⟩ ∧ feToBytes (t.fReg.get 2).val =
      (bytesOf 32 0x5fe0e1e2e3e4e5e6e7e8e9eaebecedeeeff0f1f2f3f4f5f6f7f8f9fafbfcfdec) := by decide +kernel

/-- 3.2: u = 1, v = 0 gives (0, 0). -/
theorem test_fsqrtr_zero :
    let t := after (.fsqrtr 2 3 0 1) (withF feOne .zero .zero .zero)
    t.cReg.get 3 = ⟨false, true⟩ ∧ feIsZero (t.fReg.get 2).val = true := by decide +kernel

/-- FCONST 12 is -486662 (3.2); FCONST 13 raises E_ILLEGAL. -/
theorem test_fconst :
    feToBytes ((after (.fconst 6 12#4) State.reset).fReg.get 6).val =
      (bytesOf 32 0x7ffffffffffffffffffffffffffffffffffffffffffffffffffffffffff892e7) ∧
    (after (.fconst 0 13#4) State.reset).err = .illegal ∧ (after (.fconst 0 13#4) State.reset).errInfo = 0x1300000D#32 := by decide +kernel

/-- FCSWAP exchanges on choice 1 (R176). -/
theorem test_fcswap :
    let t := after (.fcswap 0 1 0) ((withF feOne feMinusOne .zero .zero).writeC 0 true)
    t.fReg.get 0 = ⟨feMinusOne, true⟩ ∧ t.fReg.get 1 = ⟨feOne, true⟩ := by decide +kernel

/-- FCSEL takes fb on choice 1 and fa on choice 0 (R175). -/
theorem test_fcsel :
    ((after (.fcsel 2 0 1 0) ((withF feOne feMinusOne .zero .zero).writeC 0 true)).fReg.get 2).val = feMinusOne ∧
    ((after (.fcsel 2 0 1 0) ((withF feOne feMinusOne .zero .zero).writeC 0 false)).fReg.get 2).val = feOne := by decide +kernel

/-- FCNEG negates on choice 1 (R177). -/
theorem test_fcneg :
    ((after (.fcneg 2 0 0) ((withF feOne .zero .zero .zero).writeC 0 true)).fReg.get 2).val = feMinusOne := by decide +kernel

/-- FEQ, FISZERO and FISNEG look at values, not limbs (R153). -/
theorem test_field_tests :
    (after (.feq 0 0 1) (withF limbsP .zero .zero .zero)).cReg.get 0 = ⟨true, true⟩ ∧
    (after (.fiszero 1 0) (withF limbsP .zero .zero .zero)).cReg.get 1 = ⟨true, true⟩ ∧
    (after (.fisneg 2 0) (withF limbsP .zero .zero .zero)).cReg.get 2 = ⟨false, true⟩ := by decide +kernel

/-- A read of an invalid register raises E_UNWRITTEN with the word (3.2). -/
theorem test_fadd_unwritten :
    let t := after (.fadd 1 0 1) (State.reset.writeF 1 feOne)
    t.err = .unwritten ∧ t.errInfo = 0x14101000#32 ∧ t.halt = true ∧ t.cc = 0 := by decide +kernel

/-- 3.2: FST of an invalid register at 0xFE1 raises E_UNWRITTEN, of a valid one E_ADDR. -/
theorem test_fst_priority :
    (after (.fst 0 0xFE1#12) State.reset).err = .unwritten ∧
    (after (.fst 0 0xFE1#12) (State.reset.writeF 0 feOne)).err = .addr := by decide +kernel

/-- 3.3: SLD of l is 0, of l - 1 is l - 1. -/
theorem test_sld :
    ((after (.sld 0 0) (withDm (bytesOf 32 groupOrder))).sReg.get 0).val.toNat = 0 ∧
    ((after (.sld 0 0) (withDm (bytesOf 32 (groupOrder - 1)))).sReg.get 0).val.toNat = groupOrder - 1 := by decide +kernel

/-- Section 2: the 64 bytes 00 01 .. 3f. -/
theorem test_sldw :
    ((after (.sldw 3 0) (withDm ((List.range 64).map (BitVec.ofNat 8)))).sReg.get 3).val.toNat =
      0x572d0e474b5e0da7a932112c3d46159cce628540db62350a0372df082623c7a := by decide +kernel

/-- 3.3: SLDC refuses l and takes l - 1. -/
theorem test_sldc :
    let t := after (.sldc 4 1 0) (withDm (bytesOf 32 groupOrder))
    t.cReg.get 1 = ⟨false, true⟩ ∧ t.sReg.get 4 = ⟨0, false⟩ ∧
    (after (.sldc 4 1 0) (withDm (bytesOf 32 (groupOrder - 1)))).cReg.get 1 = ⟨true, true⟩ := by decide +kernel

/-- 3.3: SLDCL of 01 02 .. 20. -/
theorem test_sldcl :
    ((after (.sldcl 5 0) (withDm (bytesOf 32 0x201f1e1d1c1b1a191817161514131211100f0e0d0c0b0a090807060504030201))).sReg.get 5).val.toNat =
      0x601f1e1d1c1b1a191817161514131211100f0e0d0c0b0a090807060504030200 := by decide +kernel

/-- 3.3: (l-1) + (l-1) = l - 2, 0 - (l-1) = 1, (l-1)·(l-1) = 1. -/
theorem test_scalar_arith :
    ((after (.sadd 7 0 0) (withS (groupOrder - 1) 0 0)).sReg.get 7).val.toNat = groupOrder - 2 ∧
    ((after (.ssub 7 1 0) (withS (groupOrder - 1) 0 0)).sReg.get 7).val.toNat = 1 ∧
    ((after (.smul 7 0 0) (withS (groupOrder - 1) 0 0)).sReg.get 7).val.toNat = 1 := by decide +kernel

/-- 3.3: SNEG and SRED of the unreduced 2^255 - 8. -/
theorem test_sneg_sred :
    ((after (.sneg 7 0) (withS (2 ^ 255 - 8) 0 0)).sReg.get 7).val.toNat =
      0xa6f7cef517bce6b2c09318d2e7ae9f70 ∧
    ((after (.sred 7 0) (withS (2 ^ 255 - 8) 0 0)).sReg.get 7).val.toNat =
      0xfffffffffffffffffffffffffffffff6de72ae98b3ab623977f4a477547347d := by decide +kernel

/-- Section 2: the inverse of 2. -/
theorem test_sinv :
    ((after (.sinv 7 0) (withS 2 0 0)).sReg.get 7).val.toNat =
      0x80000000000000000000000000000000a6f7cef517bce6b2c09318d2e7ae9f7 := by decide +kernel

/-- 3.3: SMMUL of 1 and 1 is R^(-1) mod l. -/
theorem test_smmul :
    ((after (.smmul 7 0 0) (withS 1 0 0)).sReg.get 7).val.toNat =
      0xc9db6c6f26fe9183614e75438ffa36bfb2697cda3adacf58e84371e098e4fc4 := by decide +kernel

/-- 3.3: STOM and SFRM. -/
theorem test_stom_sfrm :
    ((after (.stom 7 0) (withS 0x572d0e474b5e0da7a932112c3d46159cce628540db62350a0372df082623c7a 0 0)).sReg.get 7).val.toNat =
      0x366d9c513d6079ff13a4ad595445a76232cb8af3e1a8f261ff684dd21ec021 ∧
    ((after (.sfrm 7 0) (withS 0x366d9c513d6079ff13a4ad595445a76232cb8af3e1a8f261ff684dd21ec021 0 0)).sReg.get 7).val.toNat =
      0x572d0e474b5e0da7a932112c3d46159cce628540db62350a0372df082623c7a := by decide +kernel

/-- 3.3: SEQ and SISCAN on 2^255 - 8. -/
theorem test_scalar_tests :
    (after (.siscan 2 0) (withS (2 ^ 255 - 8) 0 0)).cReg.get 2 = ⟨false, true⟩ ∧
    (after (.siscan 3 0) (withS (groupOrder - 1) 0 0)).cReg.get 3 = ⟨true, true⟩ ∧
    (after (.seq 4 0 1) (withS 1 (groupOrder + 1) 0)).cReg.get 4 = ⟨false, true⟩ := by decide +kernel

/-- 3.3: SRDX16 of 2^255 - 8 stores -8 first and 8 last. -/
theorem test_srdx16 :
    (after (.srdx16 4 0x200#12) (State.reset.writeS 4 (2 ^ 255 - 8))).dm = [(0x200, 0xF8), (0x23F, 8)] := by decide +kernel

/-- 3.3: SNAF of 2^255 - 8 at width 8: digits 3:-1 and 255:1. -/
theorem test_snaf :
    (after (.snaf 4 8#4 0x300#12) (State.reset.writeS 4 (2 ^ 255 - 8))).dm = [(0x303, 0xFF), (0x3FF, 1)] := by decide +kernel

/-- 3.3: SNAF of l - 1 at width 5. -/
theorem test_snaf_order :
    (after (.snaf 1 5#4 0x300#12) (State.reset.writeS 1 (groupOrder - 1))).dm =
      [(0x302, 251), (0x30A, 245), (0x311, 251), (0x318, 253), (0x31D, 243), (0x322, 7), (0x328, 3), (0x32D, 243),
       (0x332, 5), (0x33B, 11), (0x341, 11), (0x346, 243), (0x34D, 253), (0x353, 255), (0x358, 3), (0x35D, 245),
       (0x365, 15), (0x36B, 255), (0x370, 255), (0x375, 7), (0x37A, 5), (0x3FC, 1)] := by decide +kernel

/-- [2]B as section 2 prints `ed_double(B)`, as values. -/
def twoB : List Nat :=
  [0x4edbe2246583dab515ddb478484f06f677913e22058e9da4854579b3e7cff596,
   0x4cdb67b39336cc2496487d03c536ae09f5b85599d441cde36db4d326a1d28016,
   0x16793a8694a883a8bf672e05c4bd9d6d142c9effcc6d662e9c8b56c2fd872182,
   0x67db82368b4a636abf1ba9bfb75781f05c9d2540120f44e6f14cb1f8e4b2b654]

/-- The four coordinate values of a point register. -/
def coords (s : State) (i : PIdx) : List Nat :=
  [feVal (s.pv i).X, feVal (s.pv i).Y, feVal (s.pv i).Z, feVal (s.pv i).T]

/-- Section 2: `ed_double(B)`. -/
theorem test_pdbl :
    coords (after (.pdbl 1 0) (State.reset.writeP 0 basePoint)) 1 = twoB := by decide +kernel

/-- [3]B = [2]B + B compresses to the string of section 2. -/
theorem test_padd :
    edCompress ((after (.padd 2 1 0) ((State.reset.writeP 0 basePoint).writeP 1 (edDouble basePoint))).pv 2) =
      (bytesOf 32 0x1267b1d177ee69aba126a18e60269ef79f16ec176724030402c3684878f5b4d4) := by decide +kernel

/-- B - B and -B + B are the identity (R273). -/
theorem test_psub_pneg :
    (after (.pisid 0 2) (after (.psub 2 0 0) (State.reset.writeP 0 basePoint))).cReg.get 0 = ⟨true, true⟩ ∧
    edIsIdentity (edAdd ((after (.pneg 1 0) (State.reset.writeP 0 basePoint)).pv 1) basePoint) = true := by decide +kernel

/-- 3.4: [8]B. -/
theorem test_pmul8 :
    edCompress ((after (.pmul8 1 0) (State.reset.writeP 0 basePoint)).pv 1) =
      (bytesOf 32 0x21d30600c9e573796ead6f09668af38f81783cfc621ee4931e2f5ba9fc37b9b4) := by decide +kernel

/-- 3.4: PBASE and PID as PCMP would write them. -/
theorem test_pbase_pid :
    edCompress ((after (.pbase 1) State.reset).pv 1) = (bytesOf 32 0x6666666666666666666666666666666666666666666666666666666666666658) ∧
    edCompress ((after (.pid 0) State.reset).pv 0) = bytesOf 32 1 := by decide +kernel

/-- 3.4: PCMP at 0xFE0 and at 0xFE1. -/
theorem test_pcmp_addr :
    (after (.pcmp 0 0xFE0#12) (State.reset.writeP 0 edIdentity)).dm = [(0xFE0, 1)] ∧
    (after (.pcmp 0 0xFE1#12) (State.reset.writeP 0 edIdentity)).err = .addr := by decide +kernel

/-- 3.4: PDEC takes A of L1-2, and compressing gives it back. -/
theorem test_pdec :
    let t := after (.pdec 3 1 0) (withDm (bytesOf 32 0x1a5107f7681a02af2523a6daf372e10e3a0764c9d3fe4bd5b70ab18201985ad7))
    t.cReg.get 1 = ⟨true, true⟩ ∧ edCompress (t.pv 3) =
      (bytesOf 32 0x1a5107f7681a02af2523a6daf372e10e3a0764c9d3fe4bd5b70ab18201985ad7) := by decide +kernel

/-- 3.4: PDEC refuses p (not canonical), 2 (no x) and x = 0 with the sign bit. -/
theorem test_pdec_refuses :
    ∀ n ∈ [fieldPrime, 2, 2 ^ 255 + 1], let t := after (.pdec 4 2 0) (withDm (bytesOf 32 n))
      t.cReg.get 2 = ⟨false, true⟩ ∧ t.pReg.get 4 = ⟨.zero, false⟩ := by decide +kernel

/-- PEQ: [2]B in two representations (R272). -/
theorem test_peq :
    (after (.peq 0 0 1) ((State.reset.writeP 0 (edDouble basePoint)).writeP 1 (edAdd basePoint basePoint))).cReg.get 0 =
      ⟨true, true⟩ := by decide +kernel

/-- The order-8 point T8 (R274). -/
def order8 : Ext := (edDecompress (bytesOf 32 0x5fc536d880238b13933c6d305acdfd5f098eff289f4c345b027b2c28f95e826)).getD edIdentity

/-- 3.4: the order-8 point is of small order and not torsion-free. -/
theorem test_psmall_ptorf :
    (after (.psmall 4 2) (State.reset.writeP 2 order8)).cReg.get 4 = ⟨true, true⟩ ∧
    (after (.ptorf 4 2) (State.reset.writeP 2 order8)).cReg.get 4 = ⟨false, true⟩ := by decide +kernel

/-- 3.4: PTOM of the identity is 0; of B it is 9 (R275, R341). -/
theorem test_ptom :
    feVal ((after (.ptom 0 0) (State.reset.writeP 0 edIdentity)).fv 0) = 0 ∧
    feVal ((after (.ptom 0 0) (State.reset.writeP 0 basePoint)).fv 0) = 9 := by decide +kernel

/-- 3.4: PFROMM of -1 fails, of 0 gives y = -1. -/
theorem test_pfromm :
    (after (.pfromm 7 5 2 0#1) (withF .zero .zero feMinusOne .zero)).cReg.get 5 = ⟨false, true⟩ ∧
    edCompress ((after (.pfromm 7 5 1 0#1) (withF .zero .zero feMinusOne .zero)).pv 7) =
      (bytesOf 32 0x7fffffffffffffffffffffffffffffffffffffffffffffffffffffffffffffec) := by decide +kernel

/-- 3.5: PDSM of zero and zero is the identity; PMAC with the scalar 1 adds B. -/
theorem test_pdsm_pmac :
    (after (.pdsm 6 0 3 0) ((State.reset.writeS 0 0).writeP 3 basePoint)).pv 6 = edIdentity ∧
    edCompress ((after (.pmac 7 0 1) (((State.reset.writeS 0 1).writeP 7 edIdentity).writeP 1 basePoint)).pv 7) =
      (bytesOf 32 0x6666666666666666666666666666666666666666666666666666666666666658) := by decide +kernel

/-- L1-1, the vector of RFC 7748. -/
theorem test_x25519 :
    feToBytes ((after (.x25519 0 0 1)
      ((State.reset.writeS 0 0x449a44ba44226a50185afcc10a4c1462dd5e46824b15163b9d7c52f06be346a0).writeF 1
        (feFromBytes (bytesOf 32 0x4c1cabd0a603a9103b35b326ec2466727c5fb124a4c19435db3030586768dbe6)))).fv 0) =
      (bytesOf 32 0x5285a2775507b454f7711c4903cfec324f088df24dea948e90c6e99d3755dac3) := by decide +kernel

/-- 3.6: XCHK of zero and of one. -/
theorem test_xchk :
    (after (.xchk 1 0) (withF limbsP .zero .zero .zero)).result = .allZeroOutput ∧
    (after (.xchk 1 0) (withF limbsP .zero .zero .zero)).cReg.get 1 = ⟨true, true⟩ ∧
    (after (.xchk 1 0) (withF feOne .zero .zero .zero)).result = .ok := by decide +kernel

/-- L1-3: the base string decodes, to the same element as B, and encodes back. -/
theorem test_rdec_req :
    let t := after (.rdec 0 0 0) (withDm (bytesOf 32 0x762d8de04559a6b68ddd82a56a0be3585f5100c561a984a8714ebc6a0aaef2e2))
    t.cReg.get 0 = ⟨true, true⟩ ∧ (after (.req 1 0 1) (t.writeP 1 basePoint)).cReg.get 1 = ⟨true, true⟩ ∧
    (after (.peq 2 0 1) (t.writeP 1 basePoint)).cReg.get 2 = ⟨false, true⟩ ∧ risEncode (t.pv 0) =
      (bytesOf 32 0x762d8de04559a6b68ddd82a56a0be3585f5100c561a984a8714ebc6a0aaef2e2) := by decide +kernel

/-- RDEC refuses a negative string, 1 (R361). -/
theorem test_rdec_refuses :
    (after (.rdec 0 0 0) (withDm (bytesOf 32 1))).cReg.get 0 = ⟨false, true⟩ := by decide +kernel

/-- RENC of the identity stores 32 zero bytes (R362). -/
theorem test_renc :
    (after (.renc 0 0x040#12) ((State.reset.writeP 0 edIdentity).setDm [(0x40, 7), (0x60, 7)])).dm = [(0x60, 7)] := by decide +kernel

/-- A key slot that holds a clamped scalar. -/
def someKey : KeySlot := { KeySlot.cleared with a := 2 ^ 254, valid := true }

/-- KEYCLR clears the slot; SIGN without a key raises E_UNWRITTEN (3.8). -/
theorem test_keyclr_sign :
    (after .keyclr (State.reset.setKey someKey)).key = .cleared ∧
    (after (.sign 0x120#12) State.reset).err = .unwritten := by decide +kernel

/-- KEYPUB stores the public bytes of the slot. -/
theorem test_keypub :
    (after (.keypub 0x300#12) (State.reset.setKey { someKey with pub := (Vector.replicate 32 0).set 0 5 })).dm = [(0x300, 5)] := by decide +kernel

/-- HASH stores the digest of the message (3.1), whatever the digest is. -/
theorem test_hash (s : State) (h : s.msgIn) : exec (.hash 0x200#12) s =
    .next (s.stored 0x200#12 (hashBytes s.msgBytes)).retire := by
  have hd : inDm (0x200#12 : Addr).toNat 64 := by decide
  rw [exec_hash, execHash, msg_in h, bind_ok, memWrite_in hd, complete_ok]

/-- 3.1: a digest store at 0xFC1 raises E_ADDR. -/
theorem test_hash_addr : (after (.hash 0xFC1#12) State.reset).err = .addr := by decide +kernel

/-- L1-5: with VSSO = 1 the identity as a key is WeakPublicKey. -/
theorem test_verify_weak : let t := after (.verify 2 0x100#12) (State.reset.setDm [(0x100, 1), (0x120, 1)])
    t.result = .weakPublicKey ∧ t.cReg.get 2 = ⟨false, true⟩ := by decide +kernel

/-- R421: a key string that does not decode is InvalidEncoding; here y = 2. -/
theorem test_verify_invalid : (after (.verify 2 0x100#12) (State.reset.setDm [(0x100, 2)])).result = .invalidEncoding := by
  decide +kernel

/-- L1-6: s = l with VRNCS = 1 is InvalidEncoding (VSSO = 0 so that the key passes). -/
theorem test_verify_noncanonical : (after (.verify 1 0x100#12)
    { (State.reset.setDm (Memory.writeBytes [(0x100, 1), (0x120, 1)] 0x140 (bytesOf 32 groupOrder))) with cfg := 2 }).result =
      .invalidEncoding := by decide +kernel

/-- R434: a batch with a rejected entry fails with RESULT 4; VBEND closes it. -/
theorem test_vbend_rejected : let t := after (.vbend 0) { State.reset with
      cfg := 0x0B, batch := ⟨0, edIdentity, 1, false, true⟩ }
    t.result = .batchFailure ∧ t.cReg.get 0 = ⟨false, true⟩ ∧ t.batch.active = false := by decide +kernel

/-- R476: VBADD without an open batch raises E_SEQUENCE; R473: with CFG.BATCH = 0 E_ILLEGAL. -/
theorem test_vbadd_order : (after (.vbadd 0x100#12) { State.reset with cfg := 0x0B }).err = .sequence ∧
    (after (.vbadd 0x100#12) State.reset).err = .illegal := by decide +kernel

/-- R433: an entry whose key does not decode is rejected, counts, and draws nothing. -/
theorem test_vbadd_rejects : let t := after (.vbadd 0x100#12) { State.reset with
      cfg := 0x0B, batch := ⟨0, edIdentity, 0, true, true⟩, dm := [(0x100, 2)] }
    t.result = .invalidEncoding ∧ t.batch.ok = false ∧ t.batch.count = 1 ∧ t.rngDraws = 0 := by decide +kernel

/-! ## The host bus and the fault mechanism (P6, 3.1) -/

/-- The state after one step, from a state whose step answers a next state. -/
def stepped (s : State) : State :=
  match step s with
  | .next t => t
  | _ => s

theorem test_step_fetched : (stepped (State.reset.withFetchWord 32 0x02000001)).flagsView = 0x0101#32 ∧
    (stepped (State.reset.withFetchWord 32 0x02000001)).cc = 1 := by decide +kernel

/-- 3.1: CMOV c7, c5 raises E_UNWRITTEN, and a word written while HALT = 1 is dropped. -/
theorem test_fault_and_drop :
    let t := stepped (State.reset.withFetchWord 32 0x03750000)
    t.statusView = 2 ∧ t.err.code = 2 ∧ t.errInfo = 0x03750000#32 ∧ t.cc = 0 ∧
      stepped { t with host := [.writeWord 0x034#32 0x02500001#32] } = t := by decide +kernel

theorem test_flags_view : (((State.reset.writeC 3 true).writeC 5 true).writeC 7 false).flagsView = 0xA828#32 := by decide +kernel

theorem test_window_word : (stepped { State.reset with host := [.writeWord 0x1200#32 0x00636261#32] }).dm =
    [(0x200, 0x61), (0x201, 0x62), (0x202, 0x63)] := by decide +kernel

theorem test_window_read : (stepped { State.reset with dm := [(0xFFC, 1), (0xFFF, 0x80)], host := [.readWord 0x1FFC#32] }).busData =
    0x80000001#32 := by decide +kernel

theorem test_reserved_bits : (stepped { State.reset with host := [.writeWord 0x024#32 0xFFFFFFFF#32] }).mlen = 0x1FFF#13 ∧
    (stepped { State.reset with host := [.writeWord 0x004#32 0xFFFFFFFF#32] }).cfg = 0x1F#5 := by decide +kernel

theorem test_undescribed_access : step { State.reset with host := [.readByte 0x000#32] } = .fault .undescribedBusAccess ∧
    step { State.reset with host := [.writeWord 0x1001#32 0] } = .fault .undescribedBusAccess := ⟨rfl, rfl⟩

theorem test_reset_memory_wf : State.reset.dm.wf := by decide

/-- The row of the batch accumulator in R30's table, and the rest as R511 has it. -/
theorem test_resetR30 : State.resetR30.batch = ⟨0, edIdentity, 0, true, false⟩ ∧
    State.resetR30.setBatch State.reset.batch = State.reset := ⟨rfl, rfl⟩

/-! ## Witnesses: for every statement with hypotheses, a state and operands that meet them -/

/-- A state in which every kind of source is valid, the key slot is loaded, a batch is open and the gates are open. -/
def ready : State :=
  { ((((((((State.reset.writeF 0 edwardsD).writeF 1 feMinusOne).writeF 2 .zero).writeS 0 5).writeS 1 groupOrder).writeP 0
      edIdentity).writeP 1 basePoint).writeC 0 true).writeC 1 false with
    key := someKey, batch := ⟨0, edIdentity, 0, true, true⟩, cfg := 0x1B, mlen := 64 }

/-- `ready` with the host move m to come. -/
def hostNext (m : HostMove) : State := { ready with host := [m] }

theorem witness_EncodeOfDecode : decode 0x17201000#32 = .ok (.fmul 2 0 1) := rfl

theorem witness_DecodeAcceptsTheRows : ∃ r ∈ opcodeRows, (0xB5700000#32 : Word) &&& r.mask = r.pattern := by decide

theorem witness_StepRunsTheCommand :
    (hostNext (.writeWord 0x034#32 0)).host = .writeWord 0x034#32 0 :: [] ∧ (hostNext (.writeWord 0x034#32 0)).halt = false ∧
      decode 0 = .ok .nop ∧ decode 0xFFFFFFFF#32 = .error .unallocatedOpcode ∧
      ({ hostNext (.writeWord 0x034#32 0) with halt := true, err := .addr } : State).halt = true := by decide

theorem witness_CtrlPort : (hostNext (.writeWord 0x030#32 3)).host = .writeWord 0x030#32 3 :: [] ∧
    (3#32).getLsbD 1 = true ∧ (1#32).getLsbD 1 = false ∧ (1#32).getLsbD 0 = true ∧ (4#32).getLsbD 1 = false ∧
    (4#32).getLsbD 0 = false := by decide

theorem witness_ResetPin : (hostNext .rst).host = .rst :: [] := rfl

/-- A state with a command to come meets the invariant, and its step answers a next state. -/
theorem witness_StepKeepsInvariant : (State.reset.withFetchWord 32 0x13100003).Inv ∧
    ∃ t, step (State.reset.withFetchWord 32 0x13100003) = .next t := by
  refine ⟨?_, _, rfl⟩
  constructor <;> decide

theorem witness_StepKeepsCoherence : (State.reset.withFetchWord 32 0x13100003).Inv ∧
    (∀ i, ((State.reset.withFetchWord 32 0x13100003).pv i).coherent) ∧
    (State.reset.withFetchWord 32 0x13100003).batch.point.coherent :=
  ⟨witness_StepKeepsInvariant.1, by decide, by decide⟩

/-- The all-zero contents of a cleared register satisfy the projective equation. -/
theorem zero_onCurve : Ext.zero.onCurve := by
  have h : Fe.zero.gf = 0 := by simp [Fe.gf, feInt, Fe.zero]
  simp only [Ext.onCurve, Ext.zero, h]
  constructor <;> simp

/-- The identity is on the curve. -/
theorem identity_onCurve : edIdentity.onCurve := by
  have h : Fe.zero.gf = 0 := by simp [Fe.gf, feInt, Fe.zero]
  have h1 : feOne.gf = 1 := by simp [Fe.gf, feInt, feOne]
  simp only [Ext.onCurve, edIdentity, h, h1]
  constructor <;> simp

theorem witness_CommandsKeepTheCurve : (∀ pd fa, Instr.pid 0 ≠ .rell pd fa) ∧ (∀ pd a, Instr.pid 0 ≠ .rh2g pd a) ∧
    (∀ pd sa, Instr.pid 0 ≠ .pmulb pd sa) ∧ (State.reset.withFetchWord 32 0).Inv ∧
    (∀ r, ((State.reset.withFetchWord 32 0).pv r).onCurve) ∧ (State.reset.withFetchWord 32 0).batch.point.onCurve ∧
    ∃ t, exec (.pid 0) (State.reset.withFetchWord 32 0) = .next t := by
  refine ⟨by simp, by simp, by simp, ?_, ?_, zero_onCurve, _, rfl⟩
  · constructor <;> decide
  · intro r
    have h : ∀ r, (State.reset.withFetchWord 32 0).pv r = Ext.zero := by decide
    rw [h r]
    exact zero_onCurve

theorem witness_FaultPriority : decode 0x5E000000#32 = .error .unallocatedOpcode ∧ decode 0xA4000FC1#32 = .ok (.signph 0xFC1#12) ∧
    faultOf (.signph 0xFC1#12) State.reset = some .illegal ∧
    faultOf (.signph 0xFC1#12) { ready with key := .cleared } = some .unwritten ∧
    faultOf (.signph 0xFC1#12) ready = some .addr ∧
    faultOf (.vbend 0) { ready with batch := .cleared } = some .sequence ∧
    faultOf (.signph 0xFC1#12) { ready with clen := 300 } = none := by decide +kernel

/-- The four outcomes of R477's example come from states of these forms. -/
theorem witness_FaultPriority_example : State.reset.cfg = 3 ∧ ({ ready with cfg := 0x13 } : State).mlen = 64 ∧
    ({ ready with cfg := 0x13, key := .cleared } : State).key.valid = false ∧
    ({ ready with cfg := 0x13, clen := 300 } : State).key.valid = true ∧ ({ ready with cfg := 0x13 } : State).clen = 0 := by
  decide

/-- Every family has a command without a cause of fault in `ready`. -/
theorem witness_CommandCompletes : ∀ i ∈ ([.nop, .hash 0xFC0#12, .fadd 3 0 1, .fcswap 0 1 0, .fconst 0 12#4, .fst 0 0xFE0#12, .sadd 2 0 1,
      .sconst 2 4#3, .snaf 0 8#4 0xF00#12, .padd 2 0 1, .pdsm 2 0 1 1, .pmac 0 1 1, .x25519 3 0 0, .rdec 2 2 0xFE0#12, .keygen 0,
      .sign 0xFC0#12, .signph 0xFC0#12, .verify 2 0xFA0#12, .vbadd 0xFA0#12, .vbend 2] : List Instr), faultOf i ready = none := by
  decide +kernel

theorem witness_FrameFieldScalar : family .nop = .system ∧ family (.fst 0 0) = .field ∧ family (.snaf 0 2#4 0) = .scalar ∧ ready.dm.wf ∧
    (∃ t, exec .nop ready = .next t) ∧ (∃ t, exec (.fst 0 0) ready = .next t) ∧ ∃ t, exec (.snaf 0 2#4 0) ready = .next t :=
  ⟨by decide, by decide, by decide, by decide, ⟨_, rfl⟩, ⟨_, rfl⟩, ⟨_, rfl⟩⟩

theorem witness_FramePoint : family (.pcmp 1 0) = .edwards ∧ family (.pmac 0 0 1) = .engines ∧ family (.xchk 2 0) = .ladder ∧
    family (.renc 1 0) = .ristretto ∧ ready.dm.wf ∧ ∃ t, exec (.pcmp 1 0) ready = .next t :=
  ⟨by decide, by decide, by decide, by decide, by decide, _, rfl⟩

theorem witness_FrameSigning : family (.signr 0) = .signing ∧ ready.dm.wf ∧ ∃ t, exec (.signr 0) ready = .next t :=
  ⟨by decide, by decide, _, rfl⟩

theorem witness_FrameVerification : family (.vbadd 0) = .verification ∧ ready.dm.wf ∧ ∃ t, exec (.vbadd 0) ready = .next t :=
  ⟨by decide, by decide, _, rfl⟩

theorem witness_NopOnlyCounts : (1#32).toNat / 2 ^ 24 = 0 ∧ (1#32) ≠ 0 ∧ (0x00FFFFFF#32).toNat / 2 ^ 24 = 0 := by decide

/-- c2 is invalid: the faulting clause of all five commands with a source. -/
theorem witness_ChoiceLogic : ready.cOk 0 ∧ ready.cOk 1 ∧ ¬ ready.cOk 2 := by decide

/-- Regions at the end of DM, and one byte beyond it. -/
theorem witness_HashStoresTheDigest : ready.msgIn ∧ inDm (0xFC0#12 : Addr).toNat 64 ∧ ¬ inDm (0xFC1#12 : Addr).toNat 64 ∧
    ¬ ({ ready with maddr := 0xFFF } : State).msgIn := by decide

theorem witness_FieldLoad : inDm (0xFE0#12 : Addr).toNat 32 ∧ ¬ inDm (0xFE1#12 : Addr).toNat 32 := by decide

theorem witness_FieldStore : ready.fOk 0 ∧ (ready.fv 0).bounded ∧ inDm (0xFE0#12 : Addr).toNat 32 := by decide

theorem witness_FieldConstants : (12#4).toNat ≤ 12 ∧ 12 < (13#4).toNat ∧ ready.fOk 0 := by decide

/-- Two valid bounded field sources: of FieldAddSubNeg, FieldMulSquare, FieldPowers, FieldSquareRoot, FieldReduceAndTest. -/
theorem witness_FieldAddSubNeg : ready.fOk 0 ∧ (ready.fv 0).bounded ∧ ready.fOk 1 ∧ (ready.fv 1).bounded := by decide

theorem witness_FieldMulSquare : ready.fOk 0 ∧ (ready.fv 0).bounded ∧ ready.fOk 1 ∧ (ready.fv 1).bounded := by decide

theorem witness_FieldPowers : ready.fOk 0 ∧ (ready.fv 0).bounded ∧ ready.fOk 2 ∧ (ready.fv 2).bounded ∧ feVal (ready.fv 2) = 0 := by
  decide

theorem witness_FieldSquareRoot : ready.fOk 0 ∧ ready.fOk 1 ∧ (ready.fv 0).bounded ∧ (ready.fv 1).bounded ∧
    feVal (ready.fv 2) = 0 ∧ feVal (ready.fv 0) ≠ 0 := by decide

/-- u = 2 is no square, u = 4 is one; v = 1. -/
theorem witness_FieldSquareRoot_cases :
    let s := withF ⟨2, 0, 0, 0, 0⟩ feOne ⟨4, 0, 0, 0, 0⟩ .zero
    s.fOk 0 ∧ s.fOk 1 ∧ s.fOk 2 ∧ (s.fv 0).bounded ∧ (s.fv 1).bounded ∧ (s.fv 2).bounded ∧ feVal (s.fv 0) ≠ 0 ∧
      feVal (s.fv 1) ≠ 0 ∧ (sqrtRatioI (s.fv 0) (s.fv 1)).1 = false ∧ (sqrtRatioI (s.fv 2) (s.fv 1)).1 = true := by
  decide +kernel

theorem witness_FieldSelect : ready.fOk 0 ∧ ready.fOk 1 ∧ ready.cOk 0 ∧ ready.cOk 1 ∧ ready.cv 0 = true ∧ ready.cv 1 = false ∧
    (ready.fv 0).bounded := by decide

theorem witness_FieldReduceAndTest : ready.fOk 0 ∧ (ready.fv 0).bounded ∧ ready.fOk 1 ∧ (ready.fv 1).bounded := by decide

/-- The string l - 1 is canonical, the string l is not. -/
theorem witness_ScalarLoads : inDm (0xFE0#12 : Addr).toNat 32 ∧ inDm (0xFC0#12 : Addr).toNat 64 ∧
    le ((withDm (bytesOf 32 (groupOrder - 1))).dm.readBytes 0 32) < groupOrder ∧
    groupOrder ≤ le ((withDm (bytesOf 32 groupOrder)).dm.readBytes 0 32) := by decide +kernel

theorem witness_ScalarAddSubNeg : ready.sOk 0 ∧ ready.sOk 1 := by decide

theorem witness_ScalarMulMontgomery : ready.sOk 0 ∧ ready.sOk 1 := by decide

theorem witness_ScalarInverse : ready.sOk 0 ∧ ready.sOk 1 ∧ ready.sv 1 % groupOrder = 0 := by decide +kernel

theorem witness_ScalarMoveCompareStore : ready.sOk 0 ∧ ready.sOk 1 ∧ inDm (0xFE0#12 : Addr).toNat 32 ∧ 4 < (5#3).toNat ∧
    (4#3).toNat = 4 := by decide

theorem witness_Radix16Digits : ready.sOk 0 ∧ inDm (0xFC0#12 : Addr).toNat 64 := by decide

theorem witness_NafDigits : 2 ≤ (2#4).toNat ∧ (8#4).toNat ≤ 8 ∧ ready.sOk 0 ∧ inDm (0xF00#12 : Addr).toNat 256 ∧
    (1#4).toNat < 2 ∧ 8 < (9#4).toNat := by decide

theorem witness_PointSetup : ready.pOk 1 ∧ (ready.pv 1).bounded := by decide

/-- The identity and the generator are points. -/
theorem identity_isPoint : edIdentity.isPoint := ⟨identity_onCurve, by rw [edIdentity, feOne_gf]; exact gf_one_ne_zero⟩

theorem witness_PointGroupLaw : ready.pOk 0 ∧ ready.pOk 1 ∧ (ready.pv 0).bounded ∧ (ready.pv 1).bounded ∧
    (ready.pv 0).isPoint ∧ (ready.pv 1).isPoint :=
  ⟨by decide, by decide, by decide, by decide, identity_isPoint, basePoint_isPoint⟩

/-- A memory that holds the generator's encoding. -/
theorem witness_PointEncodeDecode : inDm (0xFE0#12 : Addr).toNat 32 ∧ ready.pOk 1 ∧ (ready.pv 1).bounded ∧ (ready.pv 1).isPoint ∧
    (ready.setDm (Memory.writeBytes [] 0xFE0 (edCompress basePoint))).dm.readBytes 0xFE0 32 = edCompress basePoint :=
  ⟨by decide, by decide, by decide, basePoint_isPoint, by decide +kernel⟩

theorem witness_PointTests : ready.pOk 0 ∧ (ready.pv 0).bounded ∧ ready.pOk 1 ∧ (ready.pv 1).bounded := by decide

theorem witness_PointMaps : ready.pOk 1 ∧ (ready.pv 1).bounded ∧ ready.fOk 1 ∧ (ready.fv 1).bounded ∧
    feVal (ready.fv 1) = fieldPrime - 1 ∧ ready.msgIn := by decide +kernel

/-- PFROMM's accepting clause: u = 0, y = -1, x = 0. -/
theorem witness_PointMaps_accepts : ready.fOk 2 ∧ (ready.fv 2).bounded ∧ feVal (ready.fv 2) ≠ fieldPrime - 1 ∧
    ∃ y x : ZMod fieldPrime, y = ((ready.fv 2).gf - 1) * ((ready.fv 2).gf + 1) ^ (2 ^ 255 - 21) ∧
      y ^ 2 - x ^ 2 = 1 + edwardsD.gf * x ^ 2 * y ^ 2 := by
  have z : (ready.fv 2).gf = 0 := gf_zero
  refine ⟨by decide, by decide, by decide, -1, 0, ?_, by ring⟩
  rw [z, zero_add, one_pow]
  ring

/-- PFROMM's rejecting clause for a u that is not -1: the y of the element 2 lies on no point. -/
theorem witness_PointMaps_rejects :
    let u : Fe := ⟨2, 0, 0, 0, 0⟩
    u.bounded ∧ feVal u ≠ fieldPrime - 1 ∧ ∃ y : ZMod fieldPrime, y = (u.gf - 1) * (u.gf + 1) ^ (2 ^ 255 - 21) ∧
      ∀ x : ZMod fieldPrime, y ^ 2 - x ^ 2 ≠ 1 + edwardsD.gf * x ^ 2 * y ^ 2 := by
  intro u
  have bu : u.bounded := by decide
  refine ⟨bu, by decide, _, rfl, fun x h => ?_⟩
  have gy : (feMul (feSub u feOne) (feInv (feAdd u feOne))).gf = (u.gf - 1) * (u.gf + 1) ^ (2 ^ 255 - 21) := by
    rw [feMul_gf (feSub_bounded bu) (feInv_bounded _), feInv_gf (feAdd_bounded bu feOne_bounded), feSub_gf bu feOne_bounded,
      feAdd_gf bu feOne_bounded, feOne_gf]
  rw [← gy] at h
  rcases edLift_spec (feMul_bounded (feSub u feOne) (feInv (feAdd u feOne))) false with r | ⟨P, _, lift, -⟩
  · exact r.1 x h
  · have none' : edLift (feMul (feSub u feOne) (feInv (feAdd u feOne))) false = none := by decide +kernel
    exact absurd (none'.symm.trans lift) (by simp)

theorem witness_EngineCommands : ready.sOk 0 ∧ ready.sOk 1 ∧ ready.pOk 0 ∧ ready.pOk 1 ∧ (ready.writeS 0 0).sv 0 = 0 ∧
    (ready.pv 0).bounded ∧ (ready.pv 0).isPoint ∧ (ready.pv 1).bounded ∧ (ready.pv 1).isPoint :=
  ⟨by decide, by decide, by decide, by decide, by decide, by decide, identity_isPoint, by decide, basePoint_isPoint⟩

theorem witness_TableScanSelects : (varTable edIdentity).length = 8 ∧ ((fixedTable.getD 0 []).length = 8) ∧ (-8 : Int) ≤ -8 ∧
    (8 : Int) ≤ 8 := ⟨rfl, rfl, by decide, by decide⟩

theorem witness_LadderCommands : ready.fOk 0 ∧ (ready.fv 0).bounded ∧ ready.sOk 0 ∧ feVal (ready.fv 0) ≠ 0 ∧ ready.fOk 2 ∧
    (ready.fv 2).bounded ∧ feVal (ready.fv 2) = 0 := by decide

theorem witness_RistrettoCommands : inDm (0xFE0#12 : Addr).toNat 32 ∧ inDm (0xFC0#12 : Addr).toNat 64 ∧ ready.pOk 0 ∧ ready.pOk 1 ∧
    (ready.pv 0).bounded ∧ (ready.pv 1).bounded ∧ ready.fOk 0 := by decide

/-- RDEC takes the string of 32 zero bytes and rejects that of 1. -/
theorem witness_RistrettoCommands_cases : (risDecode (State.reset.dm.readBytes 0 32)).isSome = true ∧
    risDecode ((withDm [1]).dm.readBytes 0 32) = none := by decide +kernel

theorem witness_KeyCommands : inDm (0xFE0#12 : Addr).toNat 32 ∧ ready.key.valid = true := by decide

theorem witness_SignCommands : ready.key.valid = true ∧ ready.msgIn ∧ inDm (0xFC0#12 : Addr).toNat 64 ∧
    ({ ready with clen := 255 } : State).clen.toNat ≤ 255 ∧ ({ ready with clen := 255 } : State).ctxIn ∧ ready.prehashOn = true ∧
    ready.mlen = 64 := by decide

theorem witness_ContextTooLong : 255 < ({ ready with clen := 256 } : State).clen.toNat ∧ ready.key.valid = true ∧
    ready.prehashOn = true ∧ ready.mlen = 64 := by decide

theorem witness_VerifyCommands : inDm (0xFA0#12 : Addr).toNat 96 ∧ ready.msgIn ∧ ({ ready with clen := 255 } : State).clen.toNat ≤ 255 ∧
    ({ ready with clen := 255 } : State).ctxIn ∧ ready.prehashOn = true ∧ ready.mlen = 64 := by decide

/-- y = 2 decodes to nothing; y = 1 to the identity, of small order; the string l is not below l. -/
theorem witness_VerifyCheckOrder : edDecompress (bytesOf 32 2) = none ∧
    (∃ A, edDecompress (bytesOf 32 1) = some A ∧ edIsSmallOrder A = true) ∧ groupOrder ≤ le (bytesOf 32 groupOrder) ∧
    ¬ ((⟨false, true, false⟩ : Knobs).vsso = true) ∧ ¬ groupOrder ≤ le (bytesOf 32 (groupOrder - 1)) := by
  refine ⟨by decide +kernel, ⟨(edDecompress (bytesOf 32 1)).getD .zero, by decide +kernel, by decide +kernel⟩, by decide +kernel,
    by decide, by decide +kernel⟩

/-- Two points for the two equations. -/
theorem witness_VerifyCheckOrder_equations : edIdentity.bounded ∧ basePoint.bounded ∧ edIdentity.isPoint ∧ basePoint.isPoint :=
  ⟨by decide, by decide, identity_isPoint, basePoint_isPoint⟩

/-- An open batch over a memory whose triple is the identity twice and s = 0; one whose key does not decode; no batch; the gate shut. -/
theorem witness_BatchCommands : ready.batchOn = true ∧ ready.batch.active = true ∧ inDm (0xFA0#12 : Addr).toNat 96 ∧ ready.msgIn ∧
    edDecompress (bytesOf 32 2) = none ∧ (edDecompress (bytesOf 32 1)).isSome = true ∧
    le (({ ready with dm := [(0, 1), (0x20, 1)] } : State).dm.readBytes 0x40 32) < groupOrder ∧
    ({ ready with batch := .cleared } : State).batch.active = false ∧ State.reset.batchOn = false := by decide +kernel

theorem witness_SeedNeverLeaks : ∃ t, step (ready.withFetchWord 32 0xA1000000) = .next t := ⟨_, rfl⟩

theorem witness_BusHidesTheSecretKey : (hostNext (.readWord 0x008#32)).host = .readWord 0x008#32 :: [] ∧
    ∃ t, step (hostNext (.readWord 0x008#32)) = .next t := ⟨rfl, _, rfl⟩

theorem witness_HostRegistersKeepTheirBits : ∀ o ∈ ([0x004#32, 0x020#32, 0x024#32, 0x028#32, 0x02C#32] : List Word),
    ({ ready with host := [.writeWord o 0xFFFFFFFF#32, .readWord o] } : State).host =
      .writeWord o 0xFFFFFFFF#32 :: .readWord o :: [] := fun _ _ => rfl

theorem witness_HostViews : (hostNext (.readWord 0x01C#32)).host = .readWord 0x01C#32 :: [] ∧
    (hostNext (.writeWord 0x008#32 7#32)).host = .writeWord 0x008#32 7#32 :: [] ∧ 0x038 ≤ (0x038#32).toNat ∧
    (hostNext (.writeWord 0xFFD#32 7#32)).host = .writeWord 0xFFD#32 7#32 :: [] ∧ 0x038 ≤ (0xFFD#32).toNat ∧
    (0xFFF#32).toNat < 0x1000 ∧ 0x2000 ≤ (0x2000#32).toNat := by decide

theorem witness_DmWindow : ready.dm.wf ∧ (4095 < 4096 ∧ 4092 % 4 = 0) ∧
    (hostNext (.writeByte (BitVec.ofNat 32 (0x1000 + 4095)) 1)).host = .writeByte (BitVec.ofNat 32 (0x1000 + 4095)) 1 :: [] ∧
    (hostNext (.readByte (BitVec.ofNat 32 (0x1000 + 4095)))).host = .readByte (BitVec.ofNat 32 (0x1000 + 4095)) :: [] ∧
    (hostNext (.writeWord (BitVec.ofNat 32 (0x1000 + 4092)) 1)).host = .writeWord (BitVec.ofNat 32 (0x1000 + 4092)) 1 :: [] ∧
    (hostNext (.readWord (BitVec.ofNat 32 (0x1000 + 4092)))).host = .readWord (BitVec.ofNat 32 (0x1000 + 4092)) :: [] := by decide

end Sys2Proof.Tests
end

section
/-! SUPPORT. The curve equation in extended coordinates is kept by every formula of the point unit, on any coordinates
that satisfy it: Z = 0 is no exception, so no case is split off (42_edwards.md R252 to R270). -/

namespace Sys2Proof.Machine

/-- Limbs in their bound that satisfy the curve equation: what a point register holds, cleared ones included (R31, R33,
R35). -/
def Ext.sound (P : Ext) : Prop := P.bounded ∧ P.onCurve

/-- The completed coordinates of P + Q up to a common factor, denominators in Z and T (R254, R264 to R266). -/
def Comp.adds (C : Comp) (P Q : Ext) : Prop :=
  ∃ l, C.X.gf = l * (P.X.gf * Q.Y.gf + P.Y.gf * Q.X.gf) ∧ C.Y.gf = l * (P.Y.gf * Q.Y.gf + P.X.gf * Q.X.gf) ∧
    C.Z.gf = l * (P.Z.gf * Q.Z.gf + edwardsD.gf * P.T.gf * Q.T.gf) ∧
    C.T.gf = l * (P.Z.gf * Q.Z.gf - edwardsD.gf * P.T.gf * Q.T.gf)

/-- The entry holds the coordinates of Q as R256 lays them out. -/
def PNiels.encodes (t : PNiels) (Q : Ext) : Prop :=
  t.YpX.gf = Q.Y.gf + Q.X.gf ∧ t.YmX.gf = Q.Y.gf - Q.X.gf ∧ t.Z.gf = Q.Z.gf ∧ t.T2d.gf = 2 * edwardsD.gf * Q.T.gf

/-- A table entry of a sound point. -/
def PNiels.sound (t : PNiels) : Prop := t.bounded ∧ ∃ Q : Ext, Q.sound ∧ t.encodes Q

/-- The sum of two solutions of the curve equation is one, with the numerators and denominators of R12. With
Sᵢ = yᵢ² + xᵢ² both sides come to the same polynomial in Sᵢ, zᵢ, tᵢ. -/
theorem extended_sum_closed {d x1 y1 z1 t1 x2 y2 z2 t2 : ZMod fieldPrime} (c1 : y1 ^ 2 - x1 ^ 2 = z1 ^ 2 + d * t1 ^ 2)
    (e1 : x1 * y1 = z1 * t1) (c2 : y2 ^ 2 - x2 ^ 2 = z2 ^ 2 + d * t2 ^ 2) (e2 : x2 * y2 = z2 * t2) :
    ((y1 * y2 + x1 * x2) * (z1 * z2 + d * t1 * t2)) ^ 2 - ((x1 * y2 + y1 * x2) * (z1 * z2 - d * t1 * t2)) ^ 2 =
      ((z1 * z2 + d * t1 * t2) * (z1 * z2 - d * t1 * t2)) ^ 2 +
        d * ((x1 * y2 + y1 * x2) * (y1 * y2 + x1 * x2)) ^ 2 := by
  have square : ∀ {x y z t : ZMod fieldPrime}, y ^ 2 - x ^ 2 = z ^ 2 + d * t ^ 2 → x * y = z * t →
      (y ^ 2 + x ^ 2) ^ 2 = (z ^ 2 + d * t ^ 2) ^ 2 + 4 * (z * t) ^ 2 := fun {x y z t} c e => by
    linear_combination (y ^ 2 - x ^ 2 + z ^ 2 + d * t ^ 2) * c + 4 * (x * y + z * t) * e
  have sum : (y1 * y2 + x1 * x2) ^ 2 + (x1 * y2 + y1 * x2) ^ 2 =
      (y1 ^ 2 + x1 ^ 2) * (y2 ^ 2 + x2 ^ 2) + 4 * (z1 * z2 * (t1 * t2)) := by
    linear_combination 4 * x2 * y2 * e1 + 4 * z1 * t1 * e2
  have dif : (y1 * y2 + x1 * x2) ^ 2 - (x1 * y2 + y1 * x2) ^ 2 = (z1 ^ 2 + d * t1 ^ 2) * (z2 ^ 2 + d * t2 ^ 2) := by
    linear_combination (y2 ^ 2 - x2 ^ 2) * c1 + (z1 ^ 2 + d * t1 ^ 2) * c2
  have prod : (x1 * y2 + y1 * x2) * (y1 * y2 + x1 * x2) =
      z1 * t1 * (y2 ^ 2 + x2 ^ 2) + z2 * t2 * (y1 ^ 2 + x1 ^ 2) := by
    linear_combination (y2 ^ 2 + x2 ^ 2) * e1 + (y1 ^ 2 + x1 ^ 2) * e2
  have q1 := square c1 e1
  have q2 := square c2 e2
  generalize y1 ^ 2 + x1 ^ 2 = S1 at *
  generalize y2 ^ 2 + x2 ^ 2 = S2 at *
  generalize y1 * y2 + x1 * x2 = Y at *
  generalize x1 * y2 + y1 * x2 = X at *
  refine (gf_mul_cancel gf_two_ne_zero).1 ?_
  linear_combination 4 * d * (z1 * z2 * (t1 * t2)) * sum + 2 * ((z1 * z2) ^ 2 + (d * (t1 * t2)) ^ 2) * dif -
    2 * d * (X * Y + z1 * t1 * S2 + z2 * t2 * S1) * prod - 2 * d * (z1 * t1) ^ 2 * q2 - 2 * d * (z2 * t2) ^ 2 * q1

theorem compToExt_gf {C : Comp} (b : C.bounded) : (compToExt C).X.gf = C.X.gf * C.T.gf ∧
    (compToExt C).Y.gf = C.Y.gf * C.Z.gf ∧ (compToExt C).Z.gf = C.Z.gf * C.T.gf ∧
    (compToExt C).T.gf = C.X.gf * C.Y.gf := by
  obtain ⟨bX, bY, bZ, bT⟩ := b
  exact ⟨feMul_gf bX bT, feMul_gf bY bZ, feMul_gf bZ bT, feMul_gf bX bY⟩

theorem Comp.adds.sound {C : Comp} {P Q : Ext} (h : C.adds P Q) (b : C.bounded) (hP : P.onCurve) (hQ : Q.onCurve) :
    (compToExt C).sound := by
  obtain ⟨gX, gY, gZ, gT⟩ := compToExt_gf b
  obtain ⟨l, hX, hY, hZ, hT⟩ := h
  refine ⟨compToExt_bounded C, ?_, ?_⟩
  · rw [gX, gY, gZ, gT, hX, hY, hZ, hT]
    linear_combination l ^ 4 * extended_sum_closed hP.1 hP.2 hQ.1 hQ.2
  · rw [gX, gY, gZ, gT]; ring

/-- The completed sum is the sum of R12, because X·Y = Z·T turns its denominators into those of R12. -/
theorem Comp.adds.isSum {C : Comp} {P Q : Ext} (h : C.adds P Q) (b : C.bounded) (hP : P.onCurve) (hQ : Q.onCurve) :
    P.isSum Q (compToExt C) := by
  obtain ⟨gX, gY, gZ, -⟩ := compToExt_gf b
  obtain ⟨l, hX, hY, hZ, hT⟩ := h
  obtain ⟨-, eP⟩ := hP
  obtain ⟨-, eQ⟩ := hQ
  have prod : P.X.gf * Q.X.gf * P.Y.gf * Q.Y.gf = P.Z.gf * P.T.gf * (Q.Z.gf * Q.T.gf) := by
    linear_combination Q.X.gf * Q.Y.gf * eP + P.Z.gf * P.T.gf * eQ
  rw [Ext.isSum, gX, gY, gZ, hX, hY, hZ, hT]
  constructor
  · linear_combination l ^ 2 * (P.X.gf * Q.Y.gf + P.Y.gf * Q.X.gf) *
      (P.Z.gf * Q.Z.gf - edwardsD.gf * P.T.gf * Q.T.gf) * edwardsD.gf * prod
  · linear_combination -l ^ 2 * (P.Y.gf * Q.Y.gf + P.X.gf * Q.X.gf) *
      (P.Z.gf * Q.Z.gf + edwardsD.gf * P.T.gf * Q.T.gf) * edwardsD.gf * prod

theorem edNeg_sound {P : Ext} (h : P.sound) : (edNeg P).sound := by
  obtain ⟨b, curve, seg⟩ := h
  refine ⟨edNeg_bounded b, ?_, ?_⟩ <;> simp only [edNeg, feNeg_gf b.1, feNeg_gf b.2.2.2]
  · rw [neg_sq, neg_sq]; exact curve
  · linear_combination -seg

theorem extToPniels_encodes {P : Ext} (b : P.bounded) : (extToPniels P).encodes P := by
  obtain ⟨bX, bY, bZ, bT⟩ := b
  refine ⟨feAdd_gf bY bX, feSub_gf bY bX, rfl, ?_⟩
  rw [extToPniels, feMul_gf bT edwardsD2_bounded, edwardsD2_gf]; ring

theorem extToPniels_sound {P : Ext} (h : P.sound) : (extToPniels P).sound :=
  ⟨extToPniels_bounded h.1, P, h, extToPniels_encodes h.1⟩

theorem addPniels_adds {P Q : Ext} {t : PNiels} (bP : P.bounded) (bt : t.bounded) (h : t.encodes Q) :
    (addPniels P t).adds P Q := by
  obtain ⟨bX, bY, bZ, bT⟩ := bP
  obtain ⟨b1, b2, b3, b4⟩ := bt
  obtain ⟨h1, h2, h3, h4⟩ := h
  have bp := feAdd_bounded bY bX
  have bm := feSub_bounded (b := P.X) bY
  have bzz := feAdd_bounded (feMul_bounded P.Z t.Z) (feMul_bounded P.Z t.Z)
  refine ⟨2, ?_, ?_, ?_, ?_⟩ <;>
    simp (disch := first | assumption | exact feMul_bounded ..) only
      [addPniels, feMul_gf, feAdd_gf, feSub_gf, h1, h2, h3, h4] <;> ring

theorem subPniels_adds {P Q : Ext} {t : PNiels} (bP : P.bounded) (bt : t.bounded) (bQ : Q.bounded) (h : t.encodes Q) :
    (subPniels P t).adds P (edNeg Q) := by
  obtain ⟨bX, bY, bZ, bT⟩ := bP
  obtain ⟨b1, b2, b3, b4⟩ := bt
  obtain ⟨h1, h2, h3, h4⟩ := h
  have bp := feAdd_bounded bY bX
  have bm := feSub_bounded (b := P.X) bY
  have bzz := feAdd_bounded (feMul_bounded P.Z t.Z) (feMul_bounded P.Z t.Z)
  refine ⟨2, ?_, ?_, ?_, ?_⟩ <;>
    simp (disch := first | assumption | exact feMul_bounded ..) only
      [subPniels, edNeg, feMul_gf, feAdd_gf, feSub_gf, feNeg_gf bQ.1, feNeg_gf bQ.2.2.2, h1, h2, h3, h4] <;> ring

/-- `proj_double` completes P + P: by the curve equation its denominators Y² - X² and 2Z² - (Y² - X²) are those of the
sum (R264). -/
theorem projDouble_adds {P : Ext} (h : P.sound) : (projDouble (extToProj P)).adds P P := by
  obtain ⟨⟨bX, bY, bZ, -⟩, curve, -⟩ := h
  have bs := feAdd_bounded bX bY
  have bp := feAdd_bounded (feSq_bounded P.Y) (feSq_bounded P.X)
  have bm := feSub_bounded (b := feSq P.X) (feSq_bounded P.Y)
  have bzz := feAdd_bounded (feSq_bounded P.Z) (feSq_bounded P.Z)
  refine ⟨1, ?_, ?_, ?_, ?_⟩ <;>
    simp (disch := first | assumption | exact feSq_bounded _) only
      [projDouble, extToProj, feSq_gf, feAdd_gf, feSub_gf]
  · ring
  · ring
  · linear_combination curve
  · linear_combination -curve

theorem addPniels_sound {P : Ext} {t : PNiels} (hP : P.sound) (ht : t.sound) : (compToExt (addPniels P t)).sound := by
  obtain ⟨bt, Q, hQ, e⟩ := ht
  exact (addPniels_adds hP.1 bt e).sound (addPniels_bounded P t) hP.2 hQ.2

theorem subPniels_sound {P : Ext} {t : PNiels} (hP : P.sound) (ht : t.sound) : (compToExt (subPniels P t)).sound := by
  obtain ⟨bt, Q, hQ, e⟩ := ht
  exact (subPniels_adds hP.1 bt hQ.1 e).sound (subPniels_bounded P t) hP.2 (edNeg_sound hQ).2

theorem edAdd_sound {P Q : Ext} (hP : P.sound) (hQ : Q.sound) : (edAdd P Q).sound :=
  addPniels_sound hP (extToPniels_sound hQ)

theorem edSub_sound {P Q : Ext} (hP : P.sound) (hQ : Q.sound) : (edSub P Q).sound :=
  subPniels_sound hP (extToPniels_sound hQ)

theorem edDouble_sound {P : Ext} (h : P.sound) : (edDouble P).sound :=
  (projDouble_adds h).sound (projDouble_bounded _) h.2 h.2

theorem edAdd_isSum {P Q : Ext} (hP : P.sound) (hQ : Q.sound) : P.isSum Q (edAdd P Q) :=
  (addPniels_adds hP.1 (extToPniels_bounded hQ.1) (extToPniels_encodes hQ.1)).isSum (addPniels_bounded ..) hP.2 hQ.2

theorem edSub_isSum {P Q : Ext} (hP : P.sound) (hQ : Q.sound) : P.isSum (edNeg Q) (edSub P Q) :=
  (subPniels_adds hP.1 (extToPniels_bounded hQ.1) hQ.1 (extToPniels_encodes hQ.1)).isSum (subPniels_bounded ..) hP.2
    (edNeg_sound hQ).2

theorem edDouble_isSum {P : Ext} (h : P.sound) : P.isSum P (edDouble P) :=
  (projDouble_adds h).isSum (projDouble_bounded _) h.2 h.2

/-- The conversion to model Proj after a completed sum forgets T and nothing else (R257, R258). -/
theorem extToProj_compToExt (C : Comp) : extToProj (compToExt C) = compToProj C := rfl

/-- So doubling in model Proj is doubling in extended coordinates. -/
theorem projDoubleN_extToProj : ∀ (n : Nat) (P : Ext), projDoubleN (extToProj P) n = extToProj (edDouble^[n] P)
  | 0, _ => rfl
  | n + 1, P => by
    rw [projDoubleN, ← extToProj_compToExt, projDoubleN_extToProj n, Function.iterate_succ_apply, edDouble]

/-- `ed_mul_pow2` has the limbs of k doublings (R270). -/
theorem edMulPow2_eq (P : Ext) (n : Nat) : edMulPow2 P (n + 1) = edDouble^[n + 1] P := by
  rw [edMulPow2, Nat.add_sub_cancel, projDoubleN_extToProj, Function.iterate_succ_apply', edDouble]

theorem edMul8_eq (P : Ext) : edMul8 P = edDouble (edDouble (edDouble P)) := by
  rw [edMul8, edMulPow2_eq, Function.iterate_succ_apply', Function.iterate_succ_apply', Function.iterate_one]

theorem edMulPow2_sound {P : Ext} (h : P.sound) (n : Nat) : (edMulPow2 P (n + 1)).sound := by
  rw [edMulPow2_eq]
  exact Function.Iterate.rec Ext.sound h (fun _ => edDouble_sound) (n + 1)

theorem edMul8_sound {P : Ext} (h : P.sound) : (edMul8 P).sound := by
  rw [edMul8_eq]
  exact edDouble_sound (edDouble_sound (edDouble_sound h))

theorem edIdentity_sound : edIdentity.sound := by
  refine ⟨edIdentity_bounded, ?_, ?_⟩ <;> simp [edIdentity, gf_zero, feOne_gf]

theorem basePoint_sound : basePoint.sound := ⟨basePoint_bounded, basePoint_isPoint.1⟩

/-- The contents of a cleared point register (R33). -/
theorem extZero_onCurve : Ext.zero.onCurve := by constructor <;> simp [Ext.zero, gf_zero]

/-- Sums and doubles of points are points, because the law is complete (R35, R268). -/
theorem edAdd_isPoint {P Q : Ext} (bP : P.bounded) (bQ : Q.bounded) (hP : P.isPoint) (hQ : Q.isPoint) :
    (edAdd P Q).isPoint := by
  obtain ⟨x1, y1, atP, c1⟩ := hP.affine
  obtain ⟨x2, y2, atQ, c2⟩ := hQ.affine
  obtain ⟨x3, y3, sum, c3⟩ := affineSum_exists c1 c2
  exact (edAdd_at bP bQ atP atQ c1 c2 sum).isPoint c3

theorem edSub_isPoint {P Q : Ext} (bP : P.bounded) (bQ : Q.bounded) (hP : P.isPoint) (hQ : Q.isPoint) :
    (edSub P Q).isPoint := by
  obtain ⟨x1, y1, atP, c1⟩ := hP.affine
  obtain ⟨x2, y2, atQ, c2⟩ := hQ.affine
  obtain ⟨x3, y3, sum, c3⟩ := affineSum_exists c1 (affineCurve_neg c2)
  exact (edSub_at bP bQ atP atQ c1 (affineCurve_neg c2) sum).isPoint c3

theorem edDouble_isPoint {P : Ext} (b : P.bounded) (h : P.isPoint) : (edDouble P).isPoint := by
  obtain ⟨x, y, atP, c⟩ := h.affine
  obtain ⟨x3, y3, sum, c3⟩ := affineSum_exists c c
  exact (edDouble_at b atP c sum).isPoint c3

end Sys2Proof.Machine
end

section
/-! SUPPORT. The engines and the decoders answer sound points: every table entry and every accumulator satisfies the
curve equation, whatever the digits are (42_edwards.md R262, R263, R276, R282; 43_scalarmul.md R312 to R321;
45_ristretto.md R361). -/

namespace Sys2Proof.Machine

theorem pnielsNeutral_sound : PNiels.neutral.sound :=
  ⟨by decide, edIdentity, edIdentity_sound, by simp [PNiels.neutral, edIdentity, gf_zero], by
    simp [PNiels.neutral, edIdentity, gf_zero], rfl, by simp [PNiels.neutral, edIdentity, gf_zero]⟩

/-- A negated entry, as the scan and R266 use it. -/
theorem PNiels.sound.neg {t : PNiels} (h : t.sound) : PNiels.sound ⟨t.YmX, t.YpX, t.Z, feNeg t.T2d⟩ := by
  obtain ⟨⟨b1, b2, b3, b4⟩, Q, hQ, h1, h2, h3, h4⟩ := h
  refine ⟨⟨b2, b1, b3, feNeg_bounded _⟩, edNeg Q, edNeg_sound hQ, ?_, ?_, h3, ?_⟩ <;>
    simp only [edNeg, feNeg_gf hQ.1.1, feNeg_gf hQ.1.2.2.2, feNeg_gf b4, h1, h2, h4] <;> ring

/-- A table of sound entries answers a sound entry at every index, the default included. -/
theorem getD_sound {table : List PNiels} (h : ∀ t ∈ table, t.sound) (j : Nat) :
    (table.getD j PNiels.neutral).sound := by
  rw [List.getD_eq_getElem?_getD]
  cases e : table[j]? with
  | none => exact pnielsNeutral_sound
  | some t => exact h t (List.mem_of_getElem? e)

theorem selPniels_sound {table : List PNiels} (h : ∀ t ∈ table, t.sound) (d : Int) : (selPniels table d).sound := by
  have entry : (scanTable pnielsSel d 0 table PNiels.neutral).sound := by
    rw [scanTable_eq pnielsSel_eq]
    split
    · exact getD_sound h _
    · exact pnielsNeutral_sound
  simp only [selPniels, feCneg, feSel_eq]
  split
  · exact entry.neg
  · exact entry

theorem pnielsChain_sound {P : Ext} (hP : P.sound) :
    ∀ (n : Nat) (t : PNiels), t.sound → ∀ e ∈ pnielsChain P n t, e.sound
  | 0, _, _, e, he => by simp [pnielsChain] at he
  | n + 1, t, ht, e, he => by
    rw [pnielsChain, List.mem_cons] at he
    rcases he with rfl | he
    · exact ht
    · exact pnielsChain_sound hP n _ (extToPniels_sound (addPniels_sound hP ht)) e he

theorem varTable_sound {P : Ext} (h : P.sound) : ∀ t ∈ varTable P, t.sound :=
  pnielsChain_sound h 8 _ (extToPniels_sound h)

theorem nafTable5_sound {P : Ext} (h : P.sound) : ∀ t ∈ nafTable5 P, t.sound :=
  pnielsChain_sound (edDouble_sound h) 8 _ (extToPniels_sound h)

/-- Engine 1 (R314). -/
theorem edMulVar_sound {P : Ext} (h : P.sound) (n : Nat) : (edMulVar n P).sound := by
  have select := selPniels_sound (varTable_sound h)
  refine List.foldlRecOn (motive := Ext.sound) _ _ (addPniels_sound edIdentity_sound (select _)) fun Q hQ d _ => ?_
  exact addPniels_sound (edMulPow2_sound hQ 3) (select d)

/-- Adding a NAF digit to a completed sum (R321). -/
theorem nafAdd_sound {table : List PNiels} (h : ∀ t ∈ table, t.sound) {C : Comp} (hC : (compToExt C).sound) (d : Int) :
    (compToExt (nafAdd table C d)).sound := by
  unfold nafAdd
  split
  · exact addPniels_sound hC (getD_sound h _)
  split
  · exact subPniels_sound hC (getD_sound h _)
  · exact hC

/-- A point in model Proj that a sound point stands behind. -/
def Proj.sound (r : Proj) : Prop := ∃ P : Ext, P.sound ∧ r = extToProj P

/-- The T that `projToExt` restores goes with the scaled coordinates (R261). -/
theorem projToExt_sound {r : Proj} (h : r.sound) : (projToExt r).sound := by
  obtain ⟨P, ⟨⟨bX, bY, bZ, -⟩, curve, seg⟩, rfl⟩ := h
  refine ⟨projToExt_bounded _, ?_, ?_⟩ <;>
    simp only [projToExt, extToProj, feMul_gf bX bZ, feMul_gf bY bZ, feMul_gf bX bY, feSq_gf bZ]
  · linear_combination P.Z.gf ^ 2 * curve - edwardsD.gf * (P.X.gf * P.Y.gf + P.Z.gf * P.T.gf) * seg
  · ring

theorem strausStep_sound {ta tb : List PNiels} (ha : ∀ t ∈ ta, t.sound) (hb : ∀ t ∈ tb, t.sound) {r : Proj}
    (hr : r.sound) (d : Int × Int) : (strausStep ta tb r d).sound := by
  obtain ⟨P, hP, rfl⟩ := hr
  exact ⟨_, nafAdd_sound hb (nafAdd_sound ha (edDouble_sound hP) d.1) d.2, (extToProj_compToExt _).symm⟩

/-- Engine 3 (R321). -/
theorem edDoubleScalarMul_sound {P : Ext} (h : P.sound) (a b : Nat) : (edDoubleScalarMul a P b).sound := by
  have start : Proj.sound ⟨.zero, feOne, feOne⟩ := ⟨edIdentity, edIdentity_sound, rfl⟩
  refine projToExt_sound (List.foldlRecOn (motive := Proj.sound) _ _ start fun r hr d _ => ?_)
  exact strausStep_sound (nafTable5_sound h) (nafTable5_sound basePoint_sound) hr d

theorem edLift_sound {y : Fe} (b : y.bounded) {sign : Bool} {P : Ext} (h : edLift y sign = some P) : P.sound := by
  obtain ⟨-, none⟩ | ⟨Q, x, some, curve, at', bQ, -⟩ := edLift_spec b sign
  · rw [none] at h; cases h
  · obtain rfl : Q = P := Option.some.inj (some.symm.trans h)
    exact ⟨bQ, (at'.isPoint curve).1⟩

theorem edDecompress_sound {b : List Byte} {P : Ext} (h : edDecompress b = some P) : P.sound := by
  unfold edDecompress at h
  dsimp only at h
  split at h
  · cases h
  split at h
  · cases h
  next lift =>
    split at h
    · cases h
    · exact edLift_sound (feFromBytes_bounded b) (Option.some.inj h ▸ lift)

theorem montToEdwards_sound {u : Fe} {sign : Bool} {P : Ext} (h : montToEdwards u sign = some P) : P.sound := by
  unfold montToEdwards at h
  split at h
  · cases h
  · exact edLift_sound (feMul_bounded ..) h

/-- Equal as functions, so that the kernel compares the two bodies and evaluates neither. -/
theorem hashToCurve_eq : hashToCurve = fun h =>
    (montToEdwards (montElligator (feFromBytes (slice h 0 32))) (topBit (slice h 0 32))).map edMul8 := by
  delta hashToCurve
  funext h
  dsimp only
  cases montToEdwards (montElligator (feFromBytes (slice h 0 32))) (topBit (slice h 0 32)) <;> rfl

theorem hashToCurve_sound {b : List Byte} {P : Ext} (h : hashToCurve b = some P) : P.sound := by
  rw [hashToCurve_eq] at h
  obtain ⟨E, mont, rfl⟩ := Option.map_eq_some_iff.1 h
  exact edMul8_sound (montToEdwards_sound mont)

/-- The curve equation of R361's coordinates: with u1 = 1 - s², u2 = 1 + s², v = -d·u1² - u2² and I²·v·u2² = 1 they are
x = ±2s·I·u2 and y = u1·I²·u2·v. -/
theorem ristretto_curve {d s v I x y : ZMod fieldPrime} (hv : v = -(d * (1 - s ^ 2) ^ 2) - (1 + s ^ 2) ^ 2)
    (root : v * (1 + s ^ 2) ^ 2 * I ^ 2 = 1) (hx : x ^ 2 = (2 * s * (I * (1 + s ^ 2))) ^ 2)
    (hy : y = (1 - s ^ 2) * (I * (I * (1 + s ^ 2)) * v)) : y ^ 2 - x ^ 2 = 1 + d * (x * y) ^ 2 := by
  -- I² is the inverse of v·u2², so y = u1/u2 and x² = 4s²/v
  have u2 : (1 + s ^ 2) * y = 1 - s ^ 2 := by rw [hy]; linear_combination (1 - s ^ 2) * root
  have v0 : v * x ^ 2 = (2 * s) ^ 2 := by rw [hx]; linear_combination 4 * s ^ 2 * root
  have n0 : v * (1 + s ^ 2) ^ 2 ≠ 0 := fun z => gf_one_ne_zero (by rw [← root, z, zero_mul])
  refine (gf_mul_cancel n0).1 ?_
  linear_combination (v - d * v * x ^ 2) * ((1 + s ^ 2) * y + (1 - s ^ 2)) * u2 -
    ((1 + s ^ 2) ^ 2 + d * (1 - s ^ 2) ^ 2) * v0 - 4 * s ^ 2 * hv

/-- Where the flag of `sqrt_ratio_i(1, v)` is 1, its root is one of 1/v (R159). -/
theorem sqrtRatioI_one {v : Fe} (b : v.bounded) (h : (sqrtRatioI feOne v).1 = true) :
    v.gf * (sqrtRatioI feOne v).2.gf ^ 2 = 1 := by
  obtain ⟨-, main, -, vzero⟩ := sqrtRatioI_spec feOne_bounded b
  rw [feOne_gf] at main vzero
  have v0 : v.gf ≠ 0 := fun z => by simp [vzero gf_one_ne_zero z] at h
  obtain ⟨-, e⟩ | ⟨e, -⟩ := main gf_one_ne_zero v0
  · exact e
  · simp [e] at h

/-- An accepted string decodes to a point of the curve (R361). -/
theorem risDecode_onCurve {b : List Byte} {P : Ext} (h : risDecode b = some P) : P.onCurve := by
  unfold risDecode at h
  extract_lets s ss u1 u2 u2s v root dx dy x0 x y t at h
  split at h
  · cases h
  split at h
  · cases h
  split at h
  · cases h
  next flags =>
    obtain rfl := Option.some.inj h
    have flag : root.1 = true := by
      cases e : root.1
      · simp [e] at flags
      · rfl
    have bs : s.bounded := feFromBytes_bounded b
    have bu2 : u2.bounded := feAdd_bounded feOne_bounded (feSq_bounded s)
    have bu1 : u1.bounded := feSub_bounded feOne_bounded
    have bI : root.2.bounded := sqrtRatioI_bounded ..
    have gu1 : u1.gf = 1 - s.gf ^ 2 := by rw [feSub_gf feOne_bounded (feSq_bounded s), feOne_gf, feSq_gf bs]
    have gu2 : u2.gf = 1 + s.gf ^ 2 := by rw [feAdd_gf feOne_bounded (feSq_bounded s), feOne_gf, feSq_gf bs]
    have gu2s : u2s.gf = (1 + s.gf ^ 2) ^ 2 := by rw [feSq_gf bu2, gu2]
    have bv : v.bounded := feSub_bounded (feNeg_bounded _)
    have gv : v.gf = -(edwardsD.gf * (1 - s.gf ^ 2) ^ 2) - (1 + s.gf ^ 2) ^ 2 := by
      rw [feSub_gf (feNeg_bounded _) (feSq_bounded u2), gu2s, feNeg_gf (feMul_bounded ..),
        feMul_gf edwardsD_bounded (feSq_bounded u1), feSq_gf bu1, gu1]
    have gI : v.gf * (1 + s.gf ^ 2) ^ 2 * root.2.gf ^ 2 = 1 := by
      rw [← gu2s, ← feMul_gf bv (feSq_bounded u2)]
      exact sqrtRatioI_one (feMul_bounded v u2s) flag
    have gdx : dx.gf = root.2.gf * (1 + s.gf ^ 2) := by rw [feMul_gf bI bu2, gu2]
    have gx : x.gf ^ 2 = (2 * s.gf * (root.2.gf * (1 + s.gf ^ 2))) ^ 2 := by
      rw [(feCneg_isNeg (feMul_bounded (feAdd s s) dx)).2.1, feMul_gf (feAdd_bounded bs bs) (feMul_bounded ..),
        feAdd_gf bs bs, gdx]
      ring
    have gy : y.gf = (1 - s.gf ^ 2) * (root.2.gf * (root.2.gf * (1 + s.gf ^ 2)) * v.gf) := by
      rw [feMul_gf bu1 (feMul_bounded ..), feMul_gf (feMul_bounded ..) bv, feMul_gf bI (feMul_bounded ..), gu1, gdx]
    have gt : t.gf = x.gf * y.gf := feMul_gf (feCneg_bounded (feMul_bounded ..) _) (feMul_bounded ..)
    constructor
    · rw [feOne_gf, gt]
      linear_combination ristretto_curve gv gI gx gy
    · rw [feOne_gf, gt]; ring
end Sys2Proof.Machine
end

section
/-! SUPPORT. What a command's body ends in, read off its checks and writes, and that every body but those of RELL, RH2G
and PMULB keeps the curve equation in the point registers and in the batch point (10_state.md R35, R39). -/

namespace Sys2Proof.Machine

variable {α β : Type} {s t : State} {i : Instr}

/-- Whatever the body answers meets `Q`; nothing is said of a fault. -/
def Ensures (r : Except ErrCode α) (Q : α → Prop) : Prop := ∀ a, r = .ok a → Q a

theorem ensures_ok {a : α} {Q : α → Prop} (h : Q a) : Ensures (.ok a) Q := fun _ e => Except.ok.inj e ▸ h

theorem ensures_bind {x : Except ErrCode α} {k : α → Except ErrCode β} {P : α → Prop} {Q : β → Prop} (hx : Ensures x P)
    (hk : ∀ a, P a → Ensures (k a) Q) : Ensures (x >>= k) Q := by
  intro b e
  obtain ⟨a, ea, eb⟩ := bind_eq_ok.1 e
  exact hk a (hx a ea) b eb

/-- A check or a read whose answer does not matter. -/
theorem ensures_then {x : Except ErrCode α} {k : α → Except ErrCode β} {Q : β → Prop} (hk : ∀ a, Ensures (k a) Q) :
    Ensures (x >>= k) Q := ensures_bind (P := fun _ => True) (fun _ _ => trivial) fun a _ => hk a

theorem ensures_ite {p : Prop} [Decidable p] {x y : Except ErrCode α} {Q : α → Prop} (hx : Ensures x Q)
    (hy : Ensures y Q) : Ensures (if p then x else y) Q := by split <;> assumption

/-- Every point register and the batch point satisfy the curve equation. -/
def State.onCurve (s : State) : Prop := (∀ r, (s.pv r).onCurve) ∧ s.batch.point.onCurve

/-- The points of `t` are those of `s`. -/
def samePoints (s t : State) : Prop := t.pReg = s.pReg ∧ t.batch.point = s.batch.point

theorem samePoints.onCurve (h : samePoints s t) (hs : s.onCurve) : t.onCurve := by
  obtain ⟨hp, hb⟩ := h
  obtain ⟨regs, batch⟩ := hs
  exact ⟨fun r => by rw [State.pv, hp]; exact regs r, by rw [hb]; exact batch⟩

theorem onCurve_writeP (hs : s.onCurve) {P : Ext} (hP : P.onCurve) (pd : PIdx) : (s.writeP pd P).onCurve := by
  refine ⟨fun r => ?_, hs.2⟩
  rw [State.pv, State.writeP_pReg, get_set_fin]
  split
  · exact hP
  · exact hs.1 r

theorem onCurve_clearP (hs : s.onCurve) (pd : PIdx) : (s.clearP pd).onCurve := by
  refine ⟨fun r => ?_, hs.2⟩
  rw [State.pv, State.clearP_pReg, get_set_fin]
  split
  · exact extZero_onCurve
  · exact hs.1 r

theorem onCurve_decodedP (hs : s.onCurve) {o : Option Ext} (ho : ∀ P, o = some P → P.onCurve) (pd : PIdx) (cd : CIdx) :
    (s.decodedP pd cd o).onCurve := by
  cases o with
  | none => exact onCurve_clearP hs pd
  | some P => exact onCurve_writeP hs (ho P rfl) pd

theorem onCurve_setBatch (hs : s.onCurve) {b : Batch} (hb : b.point.onCurve) : (s.setBatch b).onCurve := ⟨hs.1, hb⟩

/-- Whatever a command answers, its points satisfy the curve equation. -/
def KeepsCurve (o : Outcome) : Prop := ∀ t, o = .next t → t.onCurve

theorem complete_keepsCurve {r : Except ErrCode State} (hs : s.onCurve) (h : Ensures r State.onCurve) :
    KeepsCurve (complete i s r) := by
  intro t e
  obtain ⟨u, hu, rfl⟩ | ⟨e, -, rfl⟩ := complete_cases e
  · exact h u hu
  · exact hs

/-- A command whose body leaves all points alone. -/
theorem complete_samePoints {r : Except ErrCode State} (hs : s.onCurve) (h : Ensures r (samePoints s)) :
    KeepsCurve (complete i s r) := complete_keepsCurve hs fun t e => (h t e).onCurve hs

/-- A command without a check that leaves all points alone. -/
theorem ok_samePoints (i : Instr) (t : State) (hs : s.onCurve) (h : samePoints s t) :
    KeepsCurve (complete i s (.ok t)) := complete_samePoints hs (ensures_ok h)

theorem samePoints_memWrite (a n : Nat) (v : List Byte) : Ensures (s.memWrite a n v) (samePoints s) := by
  intro t e
  obtain ⟨-, rfl⟩ := memWrite_eq_ok.1 e
  exact ⟨rfl, rfl⟩

theorem samePoints_signDom (flag : Byte) (addr : Addr) : Ensures (signDom flag addr s) (samePoints s) :=
  ensures_then fun _ => ensures_ite (ensures_ok ⟨rfl, rfl⟩) <| ensures_then fun _ => ensures_then fun _ =>
    ensures_bind (samePoints_memWrite _ _ _) fun _ h => ensures_ok h

theorem samePoints_verifyTriple (dom : List Byte) (cd : CIdx) (addr : Addr) :
    Ensures (verifyTriple dom cd addr s) (samePoints s) :=
  ensures_then fun _ => ensures_then fun _ => ensures_ok ⟨rfl, rfl⟩

theorem samePoints_verifyDom (flag : Byte) (cd : CIdx) (addr : Addr) :
    Ensures (verifyDom flag cd addr s) (samePoints s) :=
  ensures_ite (ensures_ok ⟨rfl, rfl⟩) <| ensures_then fun _ => samePoints_verifyTriple _ _ _

theorem samePoints_setKey (k : KeySlot) (r : ResultCode) : samePoints s ((s.setKey k).setResult r) := ⟨rfl, rfl⟩

theorem samePoints_sldc (p : Prop) [Decidable p] (sd : SIdx) (n : Nat) (cd : CIdx) :
    samePoints s (if p then (s.writeS sd n).writeC cd true else (s.clearS sd).writeC cd false) := by
  split <;> exact ⟨rfl, rfl⟩

section
variable (inv : s.Inv) (hs : s.onCurve)
include inv hs

theorem readP_sound (r : PIdx) : Ensures (s.readP r) Ext.sound := by
  intro P e
  obtain ⟨-, rfl⟩ := readP_eq_ok.1 e
  exact ⟨inv.pBounded r, hs.1 r⟩

theorem point1_keepsCurve {op : Ext → Ext} (hop : ∀ P, P.sound → (op P).sound) (pd pa : PIdx) :
    KeepsCurve (point1 i op pd pa s) :=
  complete_keepsCurve hs <| ensures_bind (readP_sound inv hs pa) fun P hP =>
    ensures_ok (onCurve_writeP hs (hop P hP).2 pd)

theorem point2_keepsCurve {op : Ext → Ext → Ext} (hop : ∀ P Q, P.sound → Q.sound → (op P Q).sound) (pd pa pb : PIdx) :
    KeepsCurve (point2 i op pd pa pb s) :=
  complete_keepsCurve hs <| ensures_bind (readP_sound inv hs pa) fun P hP => ensures_bind (readP_sound inv hs pb)
    fun Q hQ => ensures_ok (onCurve_writeP hs (hop P Q hP hQ).2 pd)

/-- A taken entry adds two multiples of decoded points to the batch point (R433). -/
theorem batchTake_onCurve (b m : List Byte) : (batchTake b m s).onCurve := by
  unfold batchTake
  dsimp only
  split
  · exact onCurve_setBatch hs hs.2
  next A R n entry =>
    have decoded : A.sound ∧ R.sound := by
      unfold batchEntry at entry
      split at entry
      next hA hR =>
        split at entry
        · cases entry
        · cases entry
          exact ⟨edDecompress_sound hA, edDecompress_sound hR⟩
      · cases entry
    obtain ⟨hA, hR⟩ := decoded
    exact onCurve_setBatch hs
      (edAdd_sound (edAdd_sound ⟨inv.batchBounded, hs.2⟩ (edMulVar_sound hA _)) (edMulVar_sound hR _)).2

end

theorem pointDecode_keepsCurve {dec : List Byte → Option Ext} (hs : s.onCurve)
    (hd : ∀ b P, dec b = some P → P.onCurve) (pd : PIdx) (cd : CIdx) (addr : Addr) :
    KeepsCurve (pointDecode i dec pd cd addr s) :=
  complete_keepsCurve hs <| ensures_then fun b => ensures_ok (onCurve_decodedP hs (hd b) pd cd)

/-- SCRUB leaves the points alone or clears them (R451). -/
theorem scrub_onCurve (hs : s.onCurve) (k : BitVec 7) : (scrubStores k (scrubFiles k s)).onCurve := by
  obtain ⟨hp, hb⟩ := hs
  refine ⟨fun r => ?_, ?_⟩
  · simp only [State.pv, scrubStores, scrubFiles]
    split
    · rw [get_replicate_fin]; exact extZero_onCurve
    · exact hp r
  · simp only [scrubStores, scrubFiles]
    split
    · exact extZero_onCurve
    · exact hb

/-- Every command but RELL, RH2G and PMULB keeps the curve equation. -/
theorem exec_keepsCurve (i : Instr) (rell : ∀ pd fa, i ≠ .rell pd fa) (rh2g : ∀ pd a, i ≠ .rh2g pd a)
    (pmulb : ∀ pd sa, i ≠ .pmulb pd sa) (inv : s.Inv) (hs : s.onCurve) : KeepsCurve (exec i s) := by
  cases i with
  | rell pd fa => exact absurd rfl (rell pd fa)
  | rh2g pd a => exact absurd rfl (rh2g pd a)
  | pmulb pd sa => exact absurd rfl (pmulb pd sa)
  -- the commands that write points
  | scrub k => exact complete_keepsCurve (i := .scrub k) hs (ensures_ok (scrub_onCurve hs k))
  | pclr pd => exact complete_keepsCurve (i := .pclr pd) hs (ensures_ok (onCurve_clearP hs pd))
  | pid pd => exact complete_keepsCurve (i := .pid pd) hs (ensures_ok (onCurve_writeP hs edIdentity_sound.2 pd))
  | pbase pd => exact complete_keepsCurve (i := .pbase pd) hs (ensures_ok (onCurve_writeP hs basePoint_sound.2 pd))
  | pmov => exact point1_keepsCurve inv hs (fun _ h => h) _ _
  | pneg => exact point1_keepsCurve inv hs (fun _ => edNeg_sound) _ _
  | pdbl => exact point1_keepsCurve inv hs (fun _ => edDouble_sound) _ _
  | pmul8 => exact point1_keepsCurve inv hs (fun _ => edMul8_sound) _ _
  | padd => exact point2_keepsCurve inv hs (fun _ _ => edAdd_sound) _ _ _
  | psub => exact point2_keepsCurve inv hs (fun _ _ => edSub_sound) _ _ _
  | pdec => exact pointDecode_keepsCurve hs (fun _ _ h => (edDecompress_sound h).2) _ _ _
  | rdec => exact pointDecode_keepsCurve hs (fun _ _ h => risDecode_onCurve h) _ _ _
  | ph2c pd cd =>
    exact complete_keepsCurve hs <| ensures_then fun _ =>
      ensures_ok (onCurve_decodedP hs (fun _ h => (hashToCurve_sound h).2) pd cd)
  | pfromm pd cd =>
    exact complete_keepsCurve hs <| ensures_then fun _ =>
      ensures_ok (onCurve_decodedP hs (fun _ h => (montToEdwards_sound h).2) pd cd)
  | pmulv pd sa pb =>
    exact complete_keepsCurve hs <| ensures_then fun n => ensures_bind (readP_sound inv hs pb) fun _ hP =>
      ensures_ok (onCurve_writeP hs (edMulVar_sound hP n).2 pd)
  | pdsm pd sa pb sc =>
    exact complete_keepsCurve hs <| ensures_then fun a => ensures_bind (readP_sound inv hs pb) fun _ hA =>
      ensures_then fun b => ensures_ok (onCurve_writeP hs (edDoubleScalarMul_sound hA a b).2 pd)
  | pmac pd sa pb =>
    exact complete_keepsCurve hs <| ensures_bind (readP_sound inv hs pd) fun _ hQ => ensures_then fun n =>
      ensures_bind (readP_sound inv hs pb) fun _ hP =>
        ensures_ok (onCurve_writeP hs (edAdd_sound hQ (edDoubleScalarMul_sound hP n 0)).2 pd)
  -- the commands that write the batch accumulator
  | vbbegin =>
    exact complete_keepsCurve hs <| ensures_then fun _ => ensures_ok (onCurve_setBatch hs edIdentity_sound.2)
  | vbadd =>
    exact complete_keepsCurve hs <| ensures_then fun _ => ensures_then fun _ => ensures_then fun b =>
      ensures_then fun m => ensures_ok (batchTake_onCurve inv hs b m)
  | vbend =>
    refine complete_samePoints hs (ensures_then fun _ => ensures_then fun _ => ensures_ok ?_)
    exact ⟨rfl, rfl⟩
  -- the commands that leave all points alone, by the number of their checks and reads
  | nop => exact ok_samePoints .nop s hs ⟨rfl, rfl⟩
  | cset cd k => exact ok_samePoints (.cset cd k) (s.writeC cd (k.getLsbD 0)) hs ⟨rfl, rfl⟩
  | fclr fd => exact ok_samePoints (.fclr fd) (s.clearF fd) hs ⟨rfl, rfl⟩
  | sclr sd => exact ok_samePoints (.sclr sd) (s.clearS sd) hs ⟨rfl, rfl⟩
  | cclr cd => exact ok_samePoints (.cclr cd) (s.clearC cd) hs ⟨rfl, rfl⟩
  | keyclr => exact ok_samePoints .keyclr (s.setKey .cleared) hs ⟨rfl, rfl⟩
  | cmov | cnot | fld | fconst | fmov | fneg | fsqr | finv | fpow58 | fred | fisneg | fiszero | ptom | xchk
  | sld | sldw | sldcl | sconst | smov | sneg | sinv | stom | sfrm | sred | siscan | pisid | psmall | ptorf =>
    refine complete_samePoints hs (ensures_then fun _ => ensures_ok ?_)
    exact ⟨rfl, rfl⟩
  | cand | cor | cxor | fadd | fsub | fmul | fsqrtr | fcneg | feq | sadd | ssub | smul | smmul | seq | peq | req
  | x25519 =>
    refine complete_samePoints hs (ensures_then fun _ => ensures_then fun _ => ensures_ok ?_)
    exact ⟨rfl, rfl⟩
  | fcsel | fcswap =>
    refine complete_samePoints hs (ensures_then fun _ => ensures_then fun _ => ensures_then fun _ => ensures_ok ?_)
    exact ⟨rfl, rfl⟩
  | keygen => exact complete_samePoints hs (ensures_then fun _ => ensures_ok (samePoints_setKey _ _))
  | sldc => exact complete_samePoints hs (ensures_then fun _ => ensures_ok (samePoints_sldc _ _ _ _))
  | hash | fst | sst | srdx16 | pcmp | renc | keypub =>
    exact complete_samePoints hs (ensures_then fun _ => samePoints_memWrite _ _ _)
  | snaf => exact complete_samePoints hs (ensures_then fun _ => ensures_then fun _ => samePoints_memWrite _ _ _)
  | sign | signr =>
    exact complete_samePoints hs <| ensures_then fun _ => ensures_then fun _ =>
      ensures_bind (samePoints_memWrite _ _ _) fun _ h => ensures_ok h
  | signctx => exact complete_samePoints hs (samePoints_signDom _ _)
  | signph => exact complete_samePoints hs (ensures_then fun _ => ensures_then fun _ => samePoints_signDom _ _)
  | verify => exact complete_samePoints hs (samePoints_verifyTriple _ _ _)
  | verifyctx => exact complete_samePoints hs (samePoints_verifyDom _ _ _)
  | verifyph => exact complete_samePoints hs (ensures_then fun _ => ensures_then fun _ => samePoints_verifyDom _ _ _)

end Sys2Proof.Machine
end

section
/-! The statements settled: the curve equation under every command (O12), FCONST and FMOV (O26), PID, PBASE, PMOV and
PNEG (O40), PADD, PSUB, PDBL and PMUL8 (O41). -/

namespace Sys2Proof.Machine

/-- Settles O12: each formula keeps the curve equation, whatever Z is. -/
theorem commandsKeepTheCurve : Obligations.CommandsKeepTheCurve := by
  unfold Obligations.CommandsKeepTheCurve
  intro i s t rell rh2g pmulb inv hp hb run
  exact exec_keepsCurve i rell rh2g pmulb inv ⟨hp, hb⟩ t run

theorem feConst_canonical {k : Nat} (h : k ≤ 12) : (feConst k).canonical := by
  have all : ∀ j < 13, (feConst j).canonical := by decide +kernel
  exact all k (by omega)

theorem fconst_retires (s : State) (fd : FIdx) {k : BitVec 4} (h : k.toNat ≤ 12) :
    exec (.fconst fd k) s = .next (s.writeF fd (feConst k.toNat)).retire := by
  simp [execFconst, require_true h]

theorem fconst_illegal (s : State) (fd : FIdx) {k : BitVec 4} (h : 12 < k.toNat) :
    exec (.fconst fd k) s = .next (s.faulted .illegal (encode (.fconst fd k))) := by
  simp [execFconst, require_false (not_le.2 h), State.takeFault]

/-- Settles O26: the range check decides, and each equation of R13 is a closed fact about the limbs of R158. -/
theorem fieldConstants_holds : Obligations.FieldConstants := by
  unfold Obligations.FieldConstants
  refine ⟨fun s fd fa k =>
    ⟨fun h => ⟨fconst_retires s fd h, feConst_canonical h⟩, fconst_illegal s fd, field1_next⟩, ?_⟩
  decide +kernel

/-- The generator satisfies its equations of R13. -/
theorem basePoint_values : basePoint.Z = ⟨1, 0, 0, 0, 0⟩ ∧ 5 * feVal basePoint.Y % fieldPrime = 4 ∧
    feVal basePoint.X % 2 = 0 ∧ feVal basePoint.T = feVal basePoint.X * feVal basePoint.Y % fieldPrime := by
  decide +kernel

/-- Settles O40: the four commands by their meanings, and the generator by its values. -/
theorem pointSetup : Obligations.PointSetup := by
  unfold Obligations.PointSetup
  obtain ⟨z, y, x, t⟩ := basePoint_values
  refine ⟨fun s pd pa => ⟨rfl, rfl, fun ok => ⟨point1_next ok, fun b => ?_⟩⟩, z, y, x, t, basePoint_sound.2⟩
  exact ⟨edNeg (s.pv pa), point1_next ok, feNeg_gf b.1, rfl, rfl, feNeg_gf b.2.2.2⟩

/-- PDBL of the register just written, in place (R289). -/
theorem pdbl_own (s : State) (pd : PIdx) (P : Ext) :
    exec (.pdbl pd pd) (s.writeP pd P) = .next ((s.writeP pd P).writeP pd (edDouble P)).retire := by
  have ok : ((s.writeP pd P).pReg.get pd).valid = true := by simp
  simp [execPdbl, point1_next ok]

/-- Settles O41: a completed sum is the sum of R12, and the law is complete. -/
theorem pointGroupLaw : Obligations.PointGroupLaw := by
  unfold Obligations.PointGroupLaw
  intro s pd pa pb oka ba ca
  have bD (P : Ext) : (edDouble P).bounded := compToExt_bounded _
  refine ⟨fun okb bb cb => ⟨?_, ?_⟩, ?_, ?_⟩
  · exact ⟨_, point2_next oka okb, edAdd_isSum ⟨ba, ca⟩ ⟨bb, cb⟩, edAdd_isPoint ba bb⟩
  · exact ⟨_, point2_next oka okb, edSub_isSum ⟨ba, ca⟩ ⟨bb, cb⟩, edSub_isPoint ba bb⟩
  · exact ⟨_, point1_next oka, edDouble_isSum ⟨ba, ca⟩, edDouble_isPoint ba⟩
  · refine ⟨_, _, _, point1_next oka, pdbl_own s pd _, pdbl_own s pd _, edMul8_eq (s.pv pa) ▸ point1_next oka,
      fun h => ?_⟩
    exact edDouble_isPoint (bD _) (edDouble_isPoint (bD _) (edDouble_isPoint ba h))

end Sys2Proof.Machine
end

section
/-! SUPPORT. X·Y = Z·T in what the point formulas answer: every completed sum and every restored T has it by its shape,
whatever the operands are (10_state.md R35; 42_edwards.md R258, R261). -/

namespace Sys2Proof.Machine

theorem coherent_iff {P : Ext} : P.coherent ↔ P.X.gf * P.Y.gf = P.Z.gf * P.T.gf := by
  rw [Ext.coherent, ← ZMod.natCast_eq_natCast_iff']
  simp only [Nat.cast_mul, feVal_cast]

/-- Limbs in their bound with X·Y = Z·T. -/
def Ext.proper (P : Ext) : Prop := P.bounded ∧ P.coherent

theorem Ext.sound.proper {P : Ext} (h : P.sound) : P.proper := ⟨h.1, coherent_iff.2 h.2.2⟩

theorem extZero_proper : Ext.zero.proper := ⟨by decide, by decide⟩

theorem compToExt_proper {C : Comp} (b : C.bounded) : (compToExt C).proper := by
  obtain ⟨gX, gY, gZ, gT⟩ := compToExt_gf b
  refine ⟨compToExt_bounded C, coherent_iff.2 ?_⟩
  rw [gX, gY, gZ, gT]; ring

theorem projToExt_proper {R : Proj} (b : R.bounded) : (projToExt R).proper := by
  obtain ⟨bX, bY, bZ⟩ := b
  refine ⟨projToExt_bounded R, coherent_iff.2 ?_⟩
  simp only [projToExt, feMul_gf bX bZ, feMul_gf bY bZ, feMul_gf bX bY, feSq_gf bZ]
  ring

theorem addPniels_proper (P : Ext) (t : PNiels) : (compToExt (addPniels P t)).proper :=
  compToExt_proper (addPniels_bounded P t)

theorem edAdd_proper (P Q : Ext) : (edAdd P Q).proper := addPniels_proper P _

theorem edSub_proper (P Q : Ext) : (edSub P Q).proper := compToExt_proper (subPniels_bounded P _)

theorem edDouble_proper (P : Ext) : (edDouble P).proper := compToExt_proper (projDouble_bounded _)

theorem edMulPow2_proper (P : Ext) (k : Nat) : (edMulPow2 P k).proper := compToExt_proper (projDouble_bounded _)

theorem edMul8_proper (P : Ext) : (edMul8 P).proper := edMulPow2_proper P 3

theorem edNeg_coherent {P : Ext} (b : P.bounded) (h : P.coherent) : (edNeg P).coherent := by
  rw [coherent_iff] at h ⊢
  simp only [edNeg, feNeg_gf b.1, feNeg_gf b.2.2.2]
  linear_combination -h

/-- Engine 1 ends in a completed sum (R314). -/
theorem edMulVar_proper (n : Nat) (P : Ext) : (edMulVar n P).proper :=
  List.foldlRecOn (motive := Ext.proper) _ _ (addPniels_proper _ _) fun _ _ _ _ => addPniels_proper _ _

theorem mulBasePass_proper {Q : Ext} (h : Q.proper) (groups : List (List ANiels)) (digits : List Int) :
    (mulBasePass Q groups digits).proper :=
  List.foldlRecOn (motive := Ext.proper) _ _ h fun P hP _ _ => compToExt_proper (addAniels_bounded P _ hP.1)

/-- Engine 2 (R317). -/
theorem edMulBase_proper (n : Nat) : (edMulBase n).proper := mulBasePass_proper (edMulPow2_proper _ 4) _ _

/-- Engine 3 ends in a restored T (R321). -/
theorem edDoubleScalarMul_proper (a : Nat) (A : Ext) (b : Nat) : (edDoubleScalarMul a A b).proper :=
  projToExt_proper (List.foldlRecOn (motive := Proj.bounded) _ _ (by decide) fun _ _ _ _ => compToProj_bounded _)

theorem risDecode_bounded {b : List Byte} {P : Ext} (h : risDecode b = some P) : P.bounded := by
  unfold risDecode at h
  extract_lets s ss u1 u2 u2s v root dx dy x0 x y t at h
  split at h
  · cases h
  split at h
  · cases h
  split at h
  · cases h
  · obtain rfl := Option.some.inj h
    exact ⟨feCneg_bounded (feMul_bounded ..) _, feMul_bounded .., feOne_bounded, feMul_bounded ..⟩

theorem risDecode_proper {b : List Byte} {P : Ext} (h : risDecode b = some P) : P.proper :=
  Ext.sound.proper ⟨risDecode_bounded h, risDecode_onCurve h⟩

theorem risElligator_proper (r0 : Fe) : (risElligator r0).proper :=
  compToExt_proper ⟨feMul_bounded .., feSub_bounded feOne_bounded, feMul_bounded ..,
    feAdd_bounded feOne_bounded (feSq_bounded _)⟩

theorem risHashToGroup_proper (b : List Byte) : (risHashToGroup b).proper := edMul8_proper _

end Sys2Proof.Machine
end

section
/-! SUPPORT. What a command can do, said once: it raises the fault that `faultOf` names, or it retires after writes to
its destinations whose values keep the invariant. The frames, the invariant and completion are read off this
(10_state.md R76; 60_exceptions.md R470 to R477). -/

namespace Sys2Proof.Machine

variable {s t : State} {i : Instr} {α : Type}

/-- X·Y = Z·T in every point register and in the batch point (R35). -/
def State.coherent (s : State) : Prop := (∀ r, (s.pv r).coherent) ∧ s.batch.point.coherent

/-- What VBBEGIN, VBADD and VBEND may leave in the accumulator, from a state that meets the invariant (R31, R39). -/
def Batch.fits (s : State) (b : Batch) : Prop :=
  (s.Inv → b.point.bounded ∧ b.sum.toNat < groupOrder) ∧ (s.Inv → s.coherent → b.point.coherent)

/-- The states a command reaches from `s` by writes that its operands allow. What it may write to a register, to the
key slot and to the accumulator is bounded as far as `s` is. -/
inductive Writes (i : Instr) (s : State) : State → Prop
  | start : Writes i s s
  | writeF {t : State} {fd : FIdx} {v : Fe} : Writes i s t → fd ∈ fDests i → (s.Inv → v.bounded) →
      Writes i s (t.writeF fd v)
  | writeS {t : State} {sd : SIdx} {n : Nat} : Writes i s t → sd ∈ sDests i → Writes i s (t.writeS sd n)
  | writeP {t : State} {pd : PIdx} {P : Ext} : Writes i s t → pd ∈ pDests i → (s.Inv → P.bounded) →
      (s.Inv → s.coherent → P.coherent) → Writes i s (t.writeP pd P)
  | writeC {t : State} {cd : CIdx} {b : Bool} : Writes i s t → cd ∈ cDests i → Writes i s (t.writeC cd b)
  | clearF {t : State} {fd : FIdx} : Writes i s t → fd ∈ fDests i → Writes i s (t.clearF fd)
  | clearS {t : State} {sd : SIdx} : Writes i s t → sd ∈ sDests i → Writes i s (t.clearS sd)
  | clearP {t : State} {pd : PIdx} : Writes i s t → pd ∈ pDests i → Writes i s (t.clearP pd)
  | clearC {t : State} {cd : CIdx} : Writes i s t → cd ∈ cDests i → Writes i s (t.clearC cd)
  | setKey {t : State} {k : KeySlot} : Writes i s t → writesKey i = true →
      (k = .cleared ∨ ∃ seed, k = expandKey seed) → Writes i s (t.setKey k)
  | setBatch {t : State} {b : Batch} : Writes i s t → writesBatch i = true → b.fits s → Writes i s (t.setBatch b)
  | setResult {t : State} {r : ResultCode} : Writes i s t → writesResult i = true → Writes i s (t.setResult r)
  | noteDraw {t : State} : Writes i s t → maySample i = true → Writes i s t.noteDraw
  | store {t : State} {a : Nat} {v : List Byte} : Writes i s t → storeRegion i = some (a, v.length) →
      inDm a v.length → Writes i s (t.setDm (t.dm.writeBytes a v))
  | scrub {k : BitVec 7} : i = .scrub k → Writes i s (scrubStores k (scrubFiles k s))

/-- The fault a command's body raises, or none when it answers. -/
def faultIn : Except ErrCode α → Option ErrCode
  | .ok _ => none
  | .error e => some e

@[simp] theorem faultIn_ok (a : α) : faultIn (.ok a) = none := rfl

@[simp] theorem faultIn_require {p : Prop} [Decidable p] (e : ErrCode) (k : Unit → Except ErrCode α) :
    faultIn (require p e >>= k) = if p then faultIn (k ()) else some e := by
  unfold require; split <;> rfl

@[simp] theorem faultIn_readF (r : FIdx) (k : Fe → Except ErrCode α) :
    faultIn (s.readF r >>= k) = if (s.fReg.get r).valid then faultIn (k (s.fReg.get r).val) else some .unwritten := by
  unfold State.readF Reg.read; split <;> rfl

@[simp] theorem faultIn_readS (r : SIdx) (k : Nat → Except ErrCode α) : faultIn (s.readS r >>= k) =
    if (s.sReg.get r).valid then faultIn (k (s.sReg.get r).val.toNat) else some .unwritten := by
  unfold State.readS Reg.read; split <;> rfl

@[simp] theorem faultIn_readP (r : PIdx) (k : Ext → Except ErrCode α) :
    faultIn (s.readP r >>= k) = if (s.pReg.get r).valid then faultIn (k (s.pReg.get r).val) else some .unwritten := by
  unfold State.readP Reg.read; split <;> rfl

@[simp] theorem faultIn_readC (r : CIdx) (k : Bool → Except ErrCode α) :
    faultIn (s.readC r >>= k) = if (s.cReg.get r).valid then faultIn (k (s.cReg.get r).val) else some .unwritten := by
  unfold State.readC Reg.read; split <;> rfl

@[simp] theorem faultIn_readKey (k : KeySlot → Except ErrCode α) :
    faultIn (s.readKey >>= k) = if s.key.valid then faultIn (k s.key) else some .unwritten := by
  unfold State.readKey; split <;> rfl

@[simp] theorem faultIn_memRead (a n : Nat) (k : List Byte → Except ErrCode α) :
    faultIn (s.memRead a n >>= k) = if inDm a n then faultIn (k (s.dm.readBytes a n)) else some .addr := by
  unfold State.memRead; split <;> rfl

@[simp] theorem faultIn_msg (k : List Byte → Except ErrCode α) :
    faultIn (s.msg >>= k) = if s.msgIn then faultIn (k s.msgBytes) else some .addr := faultIn_memRead _ _ k

@[simp] theorem faultIn_ctx (k : List Byte → Except ErrCode α) :
    faultIn (s.ctx >>= k) = if s.ctxIn then faultIn (k s.ctxBytes) else some .addr := faultIn_memRead _ _ k

@[simp] theorem faultIn_memWrite (a n : Nat) (v : List Byte) :
    faultIn (s.memWrite a n v) = if inDm a n then none else some .addr := by
  unfold State.memWrite; split <;> rfl

@[simp] theorem faultIn_memWrite_bind (a n : Nat) (v : List Byte) (k : State → Except ErrCode α) :
    faultIn (s.memWrite a n v >>= k) =
      if inDm a n then faultIn (k (s.setDm (s.dm.writeBytes a v))) else some .addr := by
  unfold State.memWrite; split <;> rfl

theorem readF_bounded (r : FIdx) : Ensures (s.readF r) fun a => s.Inv → a.bounded := by
  intro a e inv
  obtain ⟨-, rfl⟩ := readF_eq_ok.1 e
  exact inv.fBounded r

theorem readP_proper (r : PIdx) : Ensures (s.readP r) fun P => (s.Inv → P.bounded) ∧ (s.coherent → P.coherent) := by
  intro P e
  obtain ⟨-, rfl⟩ := readP_eq_ok.1 e
  exact ⟨fun inv => inv.pBounded r, fun coh => coh.1 r⟩

theorem Writes.proper {pd : PIdx} {P : Ext} (h : Writes i s t) (hd : pd ∈ pDests i) (hP : P.proper) :
    Writes i s (t.writeP pd P) := h.writeP hd (fun _ => hP.1) fun _ _ => hP.2

theorem writes_memWrite {a n : Nat} {v : List Byte} (hr : storeRegion i = some (a, n)) (hv : v.length = n) :
    Ensures (s.memWrite a n v) (Writes i s) := by
  intro u e
  obtain ⟨room, rfl⟩ := memWrite_eq_ok.1 e
  subst hv
  exact .store .start hr room

theorem writes_decodedP {pd : PIdx} {cd : CIdx} {o : Option Ext} (hp : pd ∈ pDests i) (hc : cd ∈ cDests i)
    (ho : ∀ P, o = some P → P.proper) : Writes i s (s.decodedP pd cd o) := by
  cases o with
  | none => exact .writeC (.clearP .start hp) hc
  | some P => exact .writeC (.proper .start hp (ho P rfl)) hc

theorem writes_signDom {flag : Byte} {addr : Addr} (hr : storeRegion i = some (addr.toNat, 64))
    (hres : writesResult i = true) : Ensures (signDom flag addr s) (Writes i s) :=
  ensures_then fun _ => ensures_ite (ensures_ok (.setResult .start hres)) <|
    ensures_then fun _ => ensures_then fun _ =>
    ensures_bind (writes_memWrite hr (length_signCore ..)) fun _ h => ensures_ok (.setResult h hres)

theorem writes_verifyTriple {dom : List Byte} {cd : CIdx} {addr : Addr} (hc : cd ∈ cDests i)
    (hres : writesResult i = true) : Ensures (verifyTriple dom cd addr s) (Writes i s) :=
  ensures_then fun _ => ensures_then fun _ => ensures_ok (.setResult (.writeC .start hc) hres)

theorem writes_verifyDom {flag : Byte} {cd : CIdx} {addr : Addr} (hc : cd ∈ cDests i)
    (hres : writesResult i = true) : Ensures (verifyDom flag cd addr s) (Writes i s) :=
  ensures_ite (ensures_ok (.setResult (.writeC .start hc) hres)) <| ensures_then fun _ => writes_verifyTriple hc hres

theorem groupOrder_lt : groupOrder < 2 ^ 255 := by norm_num

/-- A taken entry leaves a reduced sum and a completed point (R433). -/
theorem batchAccumulate_fits (b : Batch) (A R : Ext) (n k z : Nat) : (batchAccumulate b A R n k z).fits s := by
  have point := edAdd_proper (edAdd b.point (edMulVar (z * k % groupOrder) A)) (edMulVar z R)
  have small : (b.sum.toNat + z * n) % groupOrder < groupOrder := Nat.mod_lt _ (by norm_num)
  refine ⟨fun _ => ⟨point.1, ?_⟩, fun _ _ => point.2⟩
  rw [batchAccumulate, BitVec.toNat_ofNat, Nat.mod_eq_of_lt (small.trans groupOrder_lt)]
  exact small

theorem writes_batchTake (b m : List Byte) (hb : writesBatch i = true) (hres : writesResult i = true)
    (hs : maySample i = true) : Writes i s (batchTake b m s) := by
  unfold batchTake
  dsimp only
  split
  · exact .setResult (.setBatch .start hb ⟨fun inv => ⟨inv.batchBounded, inv.batchSum⟩, fun _ coh => coh.2⟩) hres
  · exact .setResult (.noteDraw (.setBatch .start hb (batchAccumulate_fits ..)) hs) hres

theorem faultIn_signDom (flag : Byte) (addr : Addr) : faultIn (signDom flag addr s) =
    if s.key.valid then
      if 255 < s.clen.toNat ∨ s.msgIn ∧ s.ctxIn ∧ inDm addr.toNat 64 then none else some .addr
    else some .unwritten := by
  by_cases long : 255 < s.clen.toNat <;> simp [signDom, long]
  grind

theorem faultIn_verifyTriple (dom : List Byte) (cd : CIdx) (addr : Addr) :
    faultIn (verifyTriple dom cd addr s) = if inDm addr.toNat 96 ∧ s.msgIn then none else some .addr := by
  simp [verifyTriple]; grind

theorem faultIn_verifyDom (flag : Byte) (cd : CIdx) (addr : Addr) : faultIn (verifyDom flag cd addr s) =
    if 255 < s.clen.toNat ∨ s.ctxIn ∧ inDm addr.toNat 96 ∧ s.msgIn then none else some .addr := by
  by_cases long : 255 < s.clen.toNat <;> simp [verifyDom, faultIn_verifyTriple, long]
  grind

/-- A command's body ends in writes that its operands allow, or raises the fault `faultOf` names. -/
def Performs (i : Instr) (s : State) (o : Outcome) : Prop :=
  ∃ r, o = complete i s r ∧ Ensures r (Writes i s) ∧ faultIn r = faultOf i s

theorem writes_sldc (p : Prop) [Decidable p] {sd : SIdx} {n : Nat} {cd : CIdx} (hs : sd ∈ sDests i)
    (hc : cd ∈ cDests i) :
    Writes i s (if p then (s.writeS sd n).writeC cd true else (s.clearS sd).writeC cd false) := by
  split
  · exact .writeC (.writeS .start hs) hc
  · exact .writeC (.clearS .start hs) hc

theorem exec_performs (i : Instr) (s : State) : Performs i s (exec i s) := by
  cases i
  -- no check
  case' nop => refine ⟨.ok s, rfl, ensures_ok .start, ?_⟩
  case' scrub k => refine ⟨.ok _, rfl, ensures_ok (.scrub rfl), ?_⟩
  case' cset => refine ⟨.ok _, rfl, ensures_ok (.writeC .start (.head _)), ?_⟩
  case' fclr => refine ⟨.ok _, rfl, ensures_ok (.clearF .start (.head _)), ?_⟩
  case' sclr => refine ⟨.ok _, rfl, ensures_ok (.clearS .start (.head _)), ?_⟩
  case' pclr => refine ⟨.ok _, rfl, ensures_ok (.clearP .start (.head _)), ?_⟩
  case' cclr => refine ⟨.ok _, rfl, ensures_ok (.clearC .start (.head _)), ?_⟩
  case' keyclr => refine ⟨.ok _, rfl, ensures_ok (.setKey .start rfl (.inl rfl)), ?_⟩
  case' pid => refine ⟨.ok _, rfl, ensures_ok (.proper .start (.head _) edIdentity_sound.proper), ?_⟩
  case' pbase => refine ⟨.ok _, rfl, ensures_ok (.proper .start (.head _) basePoint_sound.proper), ?_⟩
  -- field registers
  case' fld =>
    refine ⟨_, rfl, ensures_then fun _ => ensures_ok (.writeF .start (.head _) fun _ => feFromBytes_bounded _), ?_⟩
  case' fconst =>
    refine ⟨_, rfl, ensures_then fun _ => ensures_ok (.writeF .start (.head _) fun _ => feConst_bounded _), ?_⟩
  case' fmov =>
    refine ⟨_, rfl, ensures_bind (readF_bounded _) fun _ ha => ensures_ok (.writeF .start (.head _) ha), ?_⟩
  case' fneg =>
    refine ⟨_, rfl, ensures_then fun _ => ensures_ok (.writeF .start (.head _) fun _ => feNeg_bounded _), ?_⟩
  case' fsqr =>
    refine ⟨_, rfl, ensures_then fun _ => ensures_ok (.writeF .start (.head _) fun _ => feSq_bounded _), ?_⟩
  case' finv =>
    refine ⟨_, rfl, ensures_then fun _ => ensures_ok (.writeF .start (.head _) fun _ => feInv_bounded _), ?_⟩
  case' fpow58 =>
    refine ⟨_, rfl, ensures_then fun _ => ensures_ok (.writeF .start (.head _) fun _ => fePow58_bounded _), ?_⟩
  case' fred =>
    refine ⟨_, rfl, ensures_then fun _ => ensures_ok (.writeF .start (.head _) fun _ => feCanon_bounded _), ?_⟩
  case' ptom =>
    refine ⟨_, rfl, ensures_then fun _ => ensures_ok (.writeF .start (.head _) fun _ => feMul_bounded _ _), ?_⟩
  case' fadd =>
    refine ⟨_, rfl, ensures_bind (readF_bounded _) fun _ ha => ensures_bind (readF_bounded _) fun _ hb =>
      ensures_ok (.writeF .start (.head _) fun inv => feAdd_bounded (ha inv) (hb inv)), ?_⟩
  case' fsub =>
    refine ⟨_, rfl, ensures_bind (readF_bounded _) fun _ ha => ensures_then fun _ =>
      ensures_ok (.writeF .start (.head _) fun inv => feSub_bounded (ha inv)), ?_⟩
  case' fmul | x25519 =>
    refine ⟨_, rfl, ensures_then fun _ => ensures_then fun _ =>
      ensures_ok (.writeF .start (.head _) fun _ => feMul_bounded _ _), ?_⟩
  case' fcneg =>
    refine ⟨_, rfl, ensures_bind (readF_bounded _) fun _ ha => ensures_then fun c =>
      ensures_ok (.writeF .start (.head _) fun inv => feCneg_bounded (ha inv) c), ?_⟩
  case' fcsel =>
    refine ⟨_, rfl, ensures_bind (readF_bounded _) fun _ ha => ensures_bind (readF_bounded _) fun _ hb =>
      ensures_then fun c =>
      ensures_ok (.writeF .start (.head _) fun inv => feSel_bounded (ha inv) (hb inv) c), ?_⟩
  case' fcswap =>
    refine ⟨_, rfl, ensures_bind (readF_bounded _) fun _ ha => ensures_bind (readF_bounded _) fun _ hb =>
      ensures_then fun c =>
      ensures_ok (.writeF (.writeF .start (.head _) fun inv => feSel_bounded (ha inv) (hb inv) c)
        (.tail _ (.head _)) fun inv => feSel_bounded (hb inv) (ha inv) c), ?_⟩
  case' fsqrtr =>
    refine ⟨_, rfl, ensures_then fun u => ensures_then fun v =>
      ensures_ok (.writeC (.writeF .start (.head _) fun _ => sqrtRatioI_bounded u v) (.head _)), ?_⟩
  -- scalar registers
  case' sld | sldw | sldcl | sconst | smov | sneg | sinv | stom | sfrm | sred =>
    refine ⟨_, rfl, ensures_then fun _ => ensures_ok (.writeS .start (.head _)), ?_⟩
  case' sadd | ssub | smul | smmul =>
    refine ⟨_, rfl, ensures_then fun _ => ensures_then fun _ => ensures_ok (.writeS .start (.head _)), ?_⟩
  case' sldc =>
    refine ⟨_, rfl, ensures_then fun _ => ensures_ok (writes_sldc _ (.head _) (.head _)), ?_⟩
  -- point registers
  case' pmov =>
    refine ⟨_, rfl, ensures_bind (readP_proper _) fun _ hP =>
      ensures_ok (.writeP .start (.head _) hP.1 fun _ => hP.2), ?_⟩
  case' pneg =>
    refine ⟨_, rfl, ensures_bind (readP_proper _) fun _ hP => ensures_ok (.writeP .start (.head _)
      (fun inv => edNeg_bounded (hP.1 inv)) fun inv coh => edNeg_coherent (hP.1 inv) (hP.2 coh)), ?_⟩
  case' pdbl => refine ⟨_, rfl, ensures_then fun _ => ensures_ok (.proper .start (.head _) (edDouble_proper _)), ?_⟩
  case' pmul8 => refine ⟨_, rfl, ensures_then fun _ => ensures_ok (.proper .start (.head _) (edMul8_proper _)), ?_⟩
  case' pmulb => refine ⟨_, rfl, ensures_then fun _ => ensures_ok (.proper .start (.head _) (edMulBase_proper _)), ?_⟩
  case' rell =>
    refine ⟨_, rfl, ensures_then fun _ => ensures_ok (.proper .start (.head _) (risElligator_proper _)), ?_⟩
  case' rh2g =>
    refine ⟨_, rfl, ensures_then fun _ => ensures_ok (.proper .start (.head _) (risHashToGroup_proper _)), ?_⟩
  case' padd =>
    refine ⟨_, rfl, ensures_then fun _ => ensures_then fun _ =>
      ensures_ok (.proper .start (.head _) (edAdd_proper _ _)), ?_⟩
  case' psub =>
    refine ⟨_, rfl, ensures_then fun _ => ensures_then fun _ =>
      ensures_ok (.proper .start (.head _) (edSub_proper _ _)), ?_⟩
  case' pmulv =>
    refine ⟨_, rfl, ensures_then fun _ => ensures_then fun _ =>
      ensures_ok (.proper .start (.head _) (edMulVar_proper _ _)), ?_⟩
  case' pdsm =>
    refine ⟨_, rfl, ensures_then fun _ => ensures_then fun _ => ensures_then fun _ =>
      ensures_ok (.proper .start (.head _) (edDoubleScalarMul_proper _ _ _)), ?_⟩
  case' pmac =>
    refine ⟨_, rfl, ensures_then fun _ => ensures_then fun _ => ensures_then fun _ =>
      ensures_ok (.proper .start (.head _) (edAdd_proper _ _)), ?_⟩
  case' pdec =>
    refine ⟨_, rfl, ensures_then fun _ => ensures_ok (writes_decodedP (.head _) (.head _) fun _ h =>
      (edDecompress_sound h).proper), ?_⟩
  case' rdec =>
    refine ⟨_, rfl, ensures_then fun _ => ensures_ok (writes_decodedP (.head _) (.head _) fun _ h =>
      risDecode_proper h), ?_⟩
  case' ph2c =>
    refine ⟨_, rfl, ensures_then fun _ => ensures_ok (writes_decodedP (.head _) (.head _) fun _ h =>
      (hashToCurve_sound h).proper), ?_⟩
  case' pfromm =>
    refine ⟨_, rfl, ensures_then fun _ => ensures_ok (writes_decodedP (.head _) (.head _) fun _ h =>
      (montToEdwards_sound h).proper), ?_⟩
  -- choice registers
  case' cmov | cnot | fisneg | fiszero | siscan | pisid | psmall | ptorf =>
    refine ⟨_, rfl, ensures_then fun _ => ensures_ok (.writeC .start (.head _)), ?_⟩
  case' cand | cor | cxor | feq | seq | peq | req =>
    refine ⟨_, rfl, ensures_then fun _ => ensures_then fun _ => ensures_ok (.writeC .start (.head _)), ?_⟩
  case' xchk => refine ⟨_, rfl, ensures_then fun _ => ensures_ok (.setResult (.writeC .start (.head _)) rfl), ?_⟩
  -- data memory
  case' hash => refine ⟨_, rfl, ensures_then fun _ => writes_memWrite rfl (length_hashBytes _), ?_⟩
  case' fst => refine ⟨_, rfl, ensures_then fun _ => writes_memWrite rfl (length_feToBytes _), ?_⟩
  case' sst => refine ⟨_, rfl, ensures_then fun _ => writes_memWrite rfl (length_bytesOf _ _), ?_⟩
  case' srdx16 => refine ⟨_, rfl, ensures_then fun _ => writes_memWrite rfl (by simp), ?_⟩
  case' snaf => refine ⟨_, rfl, ensures_then fun _ => ensures_then fun _ => writes_memWrite rfl (by simp), ?_⟩
  case' pcmp => refine ⟨_, rfl, ensures_then fun _ => writes_memWrite rfl (length_edCompress _), ?_⟩
  case' renc => refine ⟨_, rfl, ensures_then fun _ => writes_memWrite rfl (length_risEncode _), ?_⟩
  case' keypub => refine ⟨_, rfl, ensures_then fun _ => writes_memWrite rfl Vector.length_toList, ?_⟩
  -- keys, signatures, verification, batches
  case' keygen =>
    refine ⟨_, rfl, ensures_then fun _ => ensures_ok (.setResult (.setKey .start rfl (.inr ⟨_, rfl⟩)) rfl), ?_⟩
  case' sign =>
    refine ⟨_, rfl, ensures_then fun _ => ensures_then fun _ =>
      ensures_bind (writes_memWrite rfl (length_signCore ..)) fun _ h => ensures_ok (.setResult h rfl), ?_⟩
  case' signr =>
    refine ⟨_, rfl, ensures_then fun _ => ensures_then fun _ =>
      ensures_bind (writes_memWrite rfl (length_signCore ..)) fun _ h => ensures_ok
        (.setResult (.noteDraw h rfl) rfl), ?_⟩
  case' signctx => refine ⟨_, rfl, writes_signDom rfl rfl, ?_⟩
  case' signph => refine ⟨_, rfl, ensures_then fun _ => ensures_then fun _ => writes_signDom rfl rfl, ?_⟩
  case' verify => refine ⟨_, rfl, writes_verifyTriple (.head _) rfl, ?_⟩
  case' verifyctx => refine ⟨_, rfl, writes_verifyDom (.head _) rfl, ?_⟩
  case' verifyph => refine ⟨_, rfl, ensures_then fun _ => ensures_then fun _ => writes_verifyDom (.head _) rfl, ?_⟩
  case' vbbegin =>
    refine ⟨_, rfl, ensures_then fun _ => ensures_ok (.setResult (.setBatch .start rfl
      ⟨fun _ => ⟨edIdentity_bounded, by decide⟩, fun _ _ => edIdentity_sound.proper.2⟩) rfl), ?_⟩
  case' vbadd =>
    refine ⟨_, rfl, ensures_then fun _ => ensures_then fun _ => ensures_then fun b => ensures_then fun m =>
      ensures_ok (writes_batchTake b m rfl rfl rfl), ?_⟩
  case' vbend =>
    refine ⟨_, rfl, ensures_then fun _ => ensures_then fun _ => ensures_ok
      (.setBatch (.setResult (.writeC .start (.head _)) rfl) rfl
        ⟨fun inv => ⟨inv.batchBounded, inv.batchSum⟩, fun _ coh => coh.2⟩), ?_⟩
  -- the faults: each body makes the checks of `faultOf` in its order
  all_goals
    simp [faultOf, illegalNow, sequenceNow, unwrittenNow, contextTooLongNow, addrNow, regions, Instr.wellFormed,
      gatedByPrehash, gatedByBatch, fSources, sSources, pSources, cSources, readsKey, usesContext, usesMessage,
      immRegion,
      faultIn_signDom, faultIn_verifyTriple, faultIn_verifyDom] <;> grind

end Sys2Proof.Machine
end

section
/-! SUPPORT. What `Writes` keeps: the frame of R76 and R472, the invariant, and X·Y = Z·T. -/

namespace Sys2Proof.Machine

variable {s t u : State} {i : Instr}

theorem faultOf_ne_none (i : Instr) (s : State) : faultOf i s ≠ some .none := by
  unfold faultOf
  split_ifs <;> decide

/-- A command that has a cause of fault takes it; one that has none retires after its writes (R470, R472, R477). -/
theorem exec_cases (h : exec i s = .next t) :
    (faultOf i s = none ∧ ∃ u, Writes i s u ∧ t = u.retire) ∨
      ∃ e, faultOf i s = some e ∧ e ≠ .none ∧ t = s.takeFault e (encode i) := by
  obtain ⟨r, run, writes, fault⟩ := exec_performs i s
  rw [run] at h
  obtain ⟨u, rfl, rfl⟩ | ⟨e, rfl, rfl⟩ := complete_cases h
  · exact .inl ⟨fault.symm, u, writes u rfl, rfl⟩
  · exact .inr ⟨e, fault.symm, fun none => faultOf_ne_none i s (none ▸ fault.symm), rfl⟩

/-- A command that has a cause of fault takes it (R472, R477). -/
theorem exec_faults {e : ErrCode} (h : faultOf i s = some e) : exec i s = .next (s.faulted e (encode i)) := by
  obtain ⟨t, run⟩ := exec_next s i
  obtain ⟨none, -⟩ | ⟨e', some, -, rfl⟩ := exec_cases run
  · rw [h] at none; cases none
  · obtain rfl := Option.some.inj (h.symm.trans some)
    exact run

/-- What a body leaves to `retire` and `takeFault` (R58, R472). -/
theorem Writes.control (h : Writes i s t) :
    t.cc = s.cc ∧ t.err = s.err ∧ t.errInfo = s.errInfo ∧ t.halt = s.halt := by
  induction h with
  | start | scrub => exact ⟨rfl, rfl, rfl, rfl⟩
  | _ => assumption

/-- A command without a cause of fault retires. -/
theorem exec_retires (h : faultOf i s = none) : ∃ t, Retires i s t := by
  obtain ⟨t, run⟩ := exec_next s i
  obtain ⟨-, u, writes, rfl⟩ | ⟨e, some, -, -⟩ := exec_cases run
  · obtain ⟨cc, err, info, halt⟩ := writes.control
    exact ⟨_, run, congrArg (· + 1) cc, err, info, halt⟩
  · rw [h] at some; cases some

theorem Unchanged.refl : Unchanged i s s where
  f _ _ := .refl _
  sc _ _ := .refl _
  p _ _ := .refl _
  c _ _ := .refl _
  key _ := .refl _
  batch _ := .refl _
  result _ := .refl _
  draws _ := .refl _
  mem _ _ := .refl _
  cfg := .refl _
  maddr := .refl _
  mlen := .refl _
  caddr := .refl _
  clen := .refl _
  host := .refl _
  busData := .refl _

/-- A register file keeps every register but the one written. -/
theorem get_set_of_not_mem {α : Type} {n : Nat} {v w : Vector α n} {l : List (Fin n)} {d r : Fin n} {x : α}
    (hd : d ∈ l)
    (hr : r ∉ l) (h : v.get r = w.get r) : (v.set d x).get r = w.get r := by
  rw [get_set_fin, if_neg (by rintro rfl; exact hr hd), h]

/-- A cleared file is a file all of whose registers the mask names. -/
theorem get_scrubbed {α : Type} {n : Nat} {v : Vector α n} {x : α} {b : Bool} {r : Fin n}
    (h : r ∉ if b then List.finRange n else []) : (if b then Vector.replicate n x else v).get r = v.get r := by
  cases b
  · rfl
  · exact absurd (List.mem_finRange r) h

theorem read_eq_unlisted {m : Memory} (h : m.wf) {a : Nat} (ha : Config.memSize ≤ a) :
    m.read a = Memory.unlisted := by
  obtain ⟨-, small⟩ := h
  induction m with
  | nil => rfl
  | cons c m ih =>
    have here := (small c (List.mem_cons_self ..)).1
    rw [Memory.read, if_neg (by omega)]
    exact ih fun d hd => small d (List.mem_cons_of_mem _ hd)

theorem unchanged_scrub (wf : s.dm.wf) (k : BitVec 7) : Unchanged (.scrub k) s (scrubStores k (scrubFiles k s)) where
  f _ h := get_scrubbed h
  sc _ h := get_scrubbed h
  p _ h := get_scrubbed h
  c _ h := get_scrubbed h
  key h := by
    have off : k.getLsbD 4 = false := (Bool.or_eq_false_iff.1 h).1
    simp only [scrubStores, scrubFiles, off, Bool.false_eq_true, if_false]
  batch h := by
    have off : k.getLsbD 5 = false := (Bool.or_eq_false_iff.1 h).1
    simp only [scrubStores, scrubFiles, off, Bool.false_eq_true, if_false]
  result _ := .refl _
  draws _ := .refl _
  mem a h := by
    simp only [scrubStores, scrubFiles]
    split
    next on =>
      have outside : Config.memSize ≤ a := by
        by_contra inside
        exact h ⟨(0, Config.memSize), by simp [storeRegion, on], by simp, by simpa using inside⟩
      rw [read_eq_unlisted wf outside, Memory.read]
    · rfl
  cfg := .refl _
  maddr := .refl _
  mlen := .refl _
  caddr := .refl _
  clen := .refl _
  host := .refl _
  busData := .refl _

theorem Writes.dmWf (h : Writes i s t) (wf : s.dm.wf) : t.dm.wf := by
  induction h with
  | start => exact wf
  | store _ _ room ih => exact Memory.writeBytes_wf ih room
  | @scrub k _ =>
    simp only [scrubStores, scrubFiles]
    split
    · exact ⟨.nil, by simp⟩
    · exact wf
  | _ => assumption

/-- The frame of R76: what no write of a command's operands reaches is unchanged. -/
theorem Writes.unchanged (h : Writes i s t) (wf : s.dm.wf) : Unchanged i s t := by
  induction h with
  | start => exact .refl
  | scrub hi => exact hi ▸ unchanged_scrub wf _
  | writeF _ hd _ ih | clearF _ hd ih => exact { ih with f := fun r hr => get_set_of_not_mem hd hr (ih.f r hr) }
  | writeS _ hd ih | clearS _ hd ih => exact { ih with sc := fun r hr => get_set_of_not_mem hd hr (ih.sc r hr) }
  | writeP _ hd _ _ ih | clearP _ hd ih => exact { ih with p := fun r hr => get_set_of_not_mem hd hr (ih.p r hr) }
  | writeC _ hd ih | clearC _ hd ih => exact { ih with c := fun r hr => get_set_of_not_mem hd hr (ih.c r hr) }
  | setKey _ hk _ ih => exact { ih with key := fun off => by simp [hk] at off }
  | setBatch _ hb _ ih => exact { ih with batch := fun off => by simp [hb] at off }
  | setResult _ hr ih => exact { ih with result := fun off => by simp [hr] at off }
  | noteDraw _ hs ih => exact { ih with draws := fun off => by simp [hs] at off }
  | store before hr _ ih =>
    refine { ih with mem := fun k hk => ?_ }
    rw [← ih.mem k hk]
    exact Memory.read_writeBytes_outside (before.dmWf wf) fun inside => hk ⟨_, hr, inside⟩

/-- The frame of every command (R76, R472). -/
theorem exec_unchanged (wf : s.dm.wf) (h : exec i s = .next t) : Unchanged i s t := by
  obtain ⟨-, u, writes, rfl⟩ | ⟨e, -, -, rfl⟩ := exec_cases h
  · exact { writes.unchanged wf with }
  · exact { Unchanged.refl (i := i) (s := s) with }

/-- A register that is written holds what is written; the others hold what they held. -/
theorem all_set {α : Type} {n : Nat} {p : Reg α → Prop} {v : Vector (Reg α) n}
    (h : ∀ r, p (v.get r)) {x : Reg α} (hx : p x)
    (d r : Fin n) : p ((v.set d x).get r) := by
  rw [get_set_fin]
  split
  · exact hx
  · exact h r

theorem all_scrubbed {α : Type} {n : Nat} {p : Reg α → Prop} {v : Vector (Reg α) n} (h : ∀ r, p (v.get r))
    {x : Reg α} (hx : p x) (b : Bool) (r : Fin n) : p ((if b then Vector.replicate n x else v).get r) := by
  cases b
  · exact h r
  · exact (get_replicate_fin r x).symm ▸ hx

/-- A register with what R33 asks of an invalid one. -/
def Reg.tidy {α : Type} (zero : α) (r : Reg α) : Prop := r.valid = false → r.val = zero

theorem tidy_written {α : Type} (zero a : α) : Reg.tidy zero ⟨a, true⟩ := fun off => Bool.noConfusion off

theorem tidy_cleared {α : Type} (zero : α) (b : Bool) : Reg.tidy zero ⟨zero, b⟩ := fun _ => rfl

theorem inv_setF (inv : s.Inv) {x : Reg Fe} (hb : x.val.bounded) (hz : x.tidy .zero) (fd : FIdx) :
    State.Inv { s with fReg := s.fReg.set fd x } :=
  { inv with
    fBounded := all_set (p := fun r : Reg Fe => r.val.bounded) inv.fBounded hb fd
    fZero := all_set (p := Reg.tidy Fe.zero) inv.fZero hz fd }

theorem inv_setS (inv : s.Inv) {x : Reg ScalarInt} (hz : x.tidy 0) (sd : SIdx) :
    State.Inv { s with sReg := s.sReg.set sd x } :=
  { inv with sZero := all_set (p := Reg.tidy 0) inv.sZero hz sd }

theorem inv_setP (inv : s.Inv) {x : Reg Ext} (hb : x.val.bounded) (hz : x.tidy .zero) (pd : PIdx) :
    State.Inv { s with pReg := s.pReg.set pd x } :=
  { inv with
    pBounded := all_set (p := fun r : Reg Ext => r.val.bounded) inv.pBounded hb pd
    pZero := all_set (p := Reg.tidy Ext.zero) inv.pZero hz pd }

theorem inv_setC (inv : s.Inv) {x : Reg Bool} (hz : x.tidy false) (cd : CIdx) :
    State.Inv { s with cReg := s.cReg.set cd x } :=
  { inv with cZero := all_set (p := Reg.tidy false) inv.cZero hz cd }

/-- What R33 and R38 ask of a key slot. -/
def KeySlot.sound (k : KeySlot) : Prop :=
  (k.valid = false → k = .cleared) ∧ (k.valid = true → 2 ^ 254 ≤ k.a.toNat ∧ k.a.toNat % 8 = 0)

theorem inv_setKey (inv : s.Inv) {k : KeySlot} (hk : k.sound) : (s.setKey k).Inv :=
  { inv with keyZero := hk.1, keyClamped := hk.2 }

theorem inv_setBatch (inv : s.Inv) {b : Batch} (hb : b.point.bounded) (hs : b.sum.toNat < groupOrder) :
    (s.setBatch b).Inv :=
  { inv with batchBounded := hb, batchSum := hs }

theorem inv_setDm (inv : s.Inv) {m : Memory} (hm : m.wf) : (s.setDm m).Inv := { inv with dmWf := hm }

theorem cleared_sound : KeySlot.cleared.sound := ⟨fun _ => rfl, fun on => Bool.noConfusion on⟩

theorem extZero_bounded : Ext.zero.bounded := extZero_proper.1

theorem clampInteger_bounds (n : Nat) :
    2 ^ 254 ≤ clampInteger n ∧ clampInteger n < 2 ^ 255 ∧ clampInteger n % 8 = 0 := by
  unfold clampInteger
  omega

theorem expandKey_a (seed : List Byte) :
    (expandKey seed).a.toNat = clampInteger (le (slice (hashBytes seed) 0 32)) := by
  rw [expandKey, BitVec.toNat_ofNat, Nat.mod_eq_of_lt (clampInteger_bounds _).2.1]

theorem expandKey_sound (seed : List Byte) : (expandKey seed).sound := by
  obtain ⟨low, -, zeros⟩ := clampInteger_bounds (le (slice (hashBytes seed) 0 32))
  refine ⟨fun off => Bool.noConfusion off, fun _ => ?_⟩
  rw [expandKey_a]
  exact ⟨low, zeros⟩

theorem Batch.cleared_small : Batch.cleared.sum.toNat < groupOrder := by decide

theorem inv_scrub (inv : s.Inv) (k : BitVec 7) : (scrubStores k (scrubFiles k s)).Inv where
  dmWf := (Writes.scrub (i := .scrub k) rfl).dmWf inv.dmWf
  fBounded := all_scrubbed (p := fun r : Reg Fe => r.val.bounded) inv.fBounded Fe.bounded_zero _
  pBounded := all_scrubbed (p := fun r : Reg Ext => r.val.bounded) inv.pBounded extZero_bounded _
  batchBounded := by
    simp only [scrubStores, scrubFiles]
    split
    · exact extZero_bounded
    · exact inv.batchBounded
  fZero := all_scrubbed (p := Reg.tidy Fe.zero) inv.fZero (tidy_cleared _ _) _
  sZero := all_scrubbed (p := Reg.tidy 0) inv.sZero (tidy_cleared _ _) _
  pZero := all_scrubbed (p := Reg.tidy Ext.zero) inv.pZero (tidy_cleared _ _) _
  cZero := all_scrubbed (p := Reg.tidy false) inv.cZero (tidy_cleared _ _) _
  keyZero := by
    simp only [scrubStores, scrubFiles]
    split
    · exact fun _ => rfl
    · exact inv.keyZero
  keyClamped := by
    simp only [scrubStores, scrubFiles]
    split
    · exact fun valid => by cases valid
    · exact inv.keyClamped
  batchSum := by
    simp only [scrubStores, scrubFiles]
    split
    · exact Batch.cleared_small
    · exact inv.batchSum
  haltErr := inv.haltErr
  errInfoZero := inv.errInfoZero

/-- The invariant is kept by each write of a command's operands. -/
theorem Writes.inv (h : Writes i s t) (inv : s.Inv) : t.Inv := by
  induction h with
  | start => exact inv
  | scrub => exact inv_scrub inv _
  | writeF _ _ hv ih => exact inv_setF ih (hv inv) (tidy_written _ _) _
  | clearF _ _ ih => exact inv_setF ih Fe.bounded_zero (tidy_cleared _ _) _
  | writeS _ _ ih => exact inv_setS ih (tidy_written _ _) _
  | clearS _ _ ih => exact inv_setS ih (tidy_cleared _ _) _
  | writeP _ _ hP _ ih => exact inv_setP ih (hP inv) (tidy_written _ _) _
  | clearP _ _ ih => exact inv_setP ih extZero_bounded (tidy_cleared _ _) _
  | writeC _ _ ih => exact inv_setC ih (tidy_written _ _) _
  | clearC _ _ ih => exact inv_setC ih (tidy_cleared _ _) _
  | setKey _ _ hk ih =>
    obtain rfl | ⟨seed, rfl⟩ := hk
    · exact inv_setKey ih cleared_sound
    · exact inv_setKey ih (expandKey_sound seed)
  | setBatch _ _ hb ih => exact inv_setBatch ih (hb.1 inv).1 (hb.1 inv).2
  | setResult _ _ ih | noteDraw _ _ ih => exact { ih with }
  | store _ _ room ih => exact inv_setDm ih (Memory.writeBytes_wf ih.dmWf room)

theorem inv_retire (inv : s.Inv) : s.retire.Inv := { inv with }

theorem inv_takeFault {e : ErrCode} (w : Word) (he : e ≠ .none) (inv : s.Inv) : (s.takeFault e w).Inv :=
  { inv with haltErr := by simp [he], errInfoZero := fun none => absurd none he }

/-- No command breaks the invariant. -/
theorem exec_inv (inv : s.Inv) (h : exec i s = .next t) : t.Inv := by
  obtain ⟨-, u, writes, rfl⟩ | ⟨e, -, he, rfl⟩ := exec_cases h
  · exact inv_retire (writes.inv inv)
  · exact inv_takeFault _ he inv

theorem coherent_writeP (coh : s.coherent) {P : Ext} (hP : P.coherent) (pd : PIdx) : (s.writeP pd P).coherent := by
  refine ⟨fun r => ?_, coh.2⟩
  rw [State.pv, State.writeP_pReg, get_set_fin]
  split
  · exact hP
  · exact coh.1 r

theorem coherent_clearP (coh : s.coherent) (pd : PIdx) : (s.clearP pd).coherent := by
  refine ⟨fun r => ?_, coh.2⟩
  rw [State.pv, State.clearP_pReg, get_set_fin]
  split
  · exact extZero_proper.2
  · exact coh.1 r

theorem coherent_scrub (coh : s.coherent) (k : BitVec 7) : (scrubStores k (scrubFiles k s)).coherent := by
  obtain ⟨regs, batch⟩ := coh
  refine ⟨fun r => ?_, ?_⟩
  · simp only [State.pv, scrubStores, scrubFiles]
    split
    · rw [get_replicate_fin]; exact extZero_proper.2
    · exact regs r
  · simp only [scrubStores, scrubFiles]
    split
    · exact extZero_proper.2
    · exact batch

/-- So is X·Y = Z·T. -/
theorem Writes.coherent (h : Writes i s t) (inv : s.Inv) (coh : s.coherent) : t.coherent := by
  induction h with
  | start => exact coh
  | scrub => exact coherent_scrub coh _
  | writeP _ _ _ hP ih => exact coherent_writeP ih (hP inv coh) _
  | clearP _ _ ih => exact coherent_clearP ih _
  | setBatch _ _ hb ih => exact ⟨ih.1, hb.2 inv coh⟩
  | _ => assumption

theorem exec_coherent (inv : s.Inv) (coh : s.coherent) (h : exec i s = .next t) : t.coherent := by
  obtain ⟨-, u, writes, rfl⟩ | ⟨e, -, -, rfl⟩ := exec_cases h
  · exact writes.coherent inv coh
  · exact coh

end Sys2Proof.Machine
end

section
/-! SUPPORT. What a host move can do, said once, and that it keeps the invariant and X·Y = Z·T (10_state.md R59 to R74;
70_reset_and_hazards.md R520). -/

namespace Sys2Proof.Machine

variable {s t : State}

/-- The states a host move reaches from `s`, the move itself taken from the queue (R520). -/
inductive Moves (s : State) : State → Prop
  | reset : Moves s s.resetBlock
  | command {i : Instr} {t : State} : exec i s = .next t → Moves s t
  | illegalWord {w : Word} : Moves s (s.takeFault .illegal w)
  | clearFault : Moves s s.clearFault
  | answer {v : Word} : Moves s (s.answer v)
  | store {a : Nat} {v : List Byte} : inDm a v.length → Moves s (s.setDm (s.dm.writeBytes a v))
  | control {cfg : BitVec 5} {maddr caddr : BitVec 12} {mlen : BitVec 13} {clen : BitVec 9} :
      Moves s { s with cfg := cfg, maddr := maddr, mlen := mlen, caddr := caddr, clen := clen }

theorem moves_ignored : Moves s s := .control

theorem writeControl_moves {o : Nat} {w : Word} (h : writeControl s o w = .next t) : Moves s t := by
  unfold writeControl at h
  split at h
  case h_6 =>
    cases h
    unfold writeCtrl
    split
    · exact .reset
    split
    · exact .clearFault
    · exact moves_ignored
  case h_7 =>
    unfold writeCmd runWord at h
    split at h
    · cases h; exact moves_ignored
    split at h
    · exact .command h
    · cases h; exact .illegalWord
  all_goals
    cases h
    exact .control

theorem busRegion_window {o : Nat} (h : busRegion o = .window) : 0x1000 ≤ o ∧ o < 0x2000 := by
  unfold busRegion at h
  split_ifs at h
  assumption

/-- Every host move that answers a next state is one of `Moves`. -/
theorem hostMove_moves {m : HostMove} (h : hostMove m s = .next t) : Moves s t := by
  cases m with
  | rst => cases h; exact .reset
  | readWord o =>
    simp only [hostMove, readWordMove] at h
    split at h
    · split at h <;> cases h
      exact .answer
    · split at h <;> cases h
      exact .answer
    · cases h
      exact .answer
  | readByte o =>
    simp only [hostMove, readByteMove] at h
    split at h <;> cases h <;> exact .answer
  | writeWord o w =>
    simp only [hostMove, writeWordMove] at h
    split at h
    · split at h
      · exact writeControl_moves h
      · cases h
    · next window =>
      obtain ⟨low, high⟩ := busRegion_window window
      split at h
      · cases h
        refine .store ?_
        rw [length_bytesOf]
        change _ ≤ 4096
        omega
      · cases h
    · cases h; exact moves_ignored
  | writeByte o b =>
    simp only [hostMove, writeByteMove] at h
    split at h
    · cases h
    · next window =>
      obtain ⟨low, high⟩ := busRegion_window window
      cases h
      refine .store (v := [b]) ?_
      change _ + 1 ≤ 4096
      omega
    · cases h; exact moves_ignored

/-- A step is a host move, or the host makes none (R520). -/
theorem step_cases (h : step s = .next t) : t = s ∨ ∃ ms, Moves { s with host := ms } t := by
  unfold step nextMove at h
  split at h
  · exact .inl (Host.Outcome.next.inj h).symm
  · exact .inr ⟨_, hostMove_moves h⟩

theorem reset_inv : State.reset.Inv where
  dmWf := ⟨.nil, by simp [State.reset]⟩
  fBounded i := by rw [State.reset, get_replicate_fin]; exact Fe.bounded_zero
  pBounded i := by rw [State.reset, get_replicate_fin]; exact extZero_bounded
  batchBounded := extZero_bounded
  fZero i _ := by rw [State.reset, get_replicate_fin]
  sZero i _ := by rw [State.reset, get_replicate_fin]
  pZero i _ := by rw [State.reset, get_replicate_fin]
  cZero i _ := by rw [State.reset, get_replicate_fin]
  keyZero := cleared_sound.1
  keyClamped := cleared_sound.2
  batchSum := Batch.cleared_small
  haltErr := by simp [State.reset]
  errInfoZero _ := rfl

theorem reset_coherent : State.reset.coherent := by
  refine ⟨fun i => ?_, extZero_proper.2⟩
  rw [State.pv, State.reset, get_replicate_fin]
  exact extZero_proper.2

theorem Moves.inv (h : Moves s t) (inv : s.Inv) : t.Inv := by
  cases h with
  | reset => exact { reset_inv with }
  | command run => exact exec_inv inv run
  | illegalWord => exact inv_takeFault _ (by decide) inv
  | clearFault => exact { inv with haltErr := by simp, errInfoZero := fun _ => rfl }
  | answer | control => exact { inv with }
  | store room => exact inv_setDm inv (Memory.writeBytes_wf inv.dmWf room)

theorem Moves.coherent (h : Moves s t) (inv : s.Inv) (coh : s.coherent) : t.coherent := by
  cases h with
  | reset => exact reset_coherent
  | command run => exact exec_coherent inv coh run
  | _ => exact coh

theorem step_inv (inv : s.Inv) (h : step s = .next t) : t.Inv := by
  obtain rfl | ⟨ms, move⟩ := step_cases h
  · exact inv
  · exact move.inv { inv with }

theorem step_coherent (inv : s.Inv) (coh : s.coherent) (h : step s = .next t) : t.coherent := by
  obtain rfl | ⟨ms, move⟩ := step_cases h
  · exact coh
  · exact move.coherent { inv with } coh

end Sys2Proof.Machine
end

section
/-! The statements settled: the invariant at reset and under every step (O9, O10), X·Y = Z·T under every step (O11),
completion (O14), and the frames (O15 to O18). -/

namespace Sys2Proof.Machine

/-- Settles O10: every move of the host is a reset, a command, or a write that the invariant allows. -/
theorem stepKeepsInvariant : Obligations.StepKeepsInvariant := by
  unfold Obligations.StepKeepsInvariant
  exact fun s t inv run => step_inv inv run

/-- Settles O11: every formula of the point unit ends in coordinates with X·Y = Z·T, or negates or copies such. -/
theorem stepKeepsCoherence : Obligations.StepKeepsCoherence := by
  unfold Obligations.StepKeepsCoherence
  exact fun s t inv regs batch run => step_coherent inv ⟨regs, batch⟩ run

/-- Settles O14: the checks of a body are the causes of `faultOf`, in its order. -/
theorem commandCompletes : Obligations.CommandCompletes := by
  unfold Obligations.CommandCompletes
  exact fun i s ready => exec_retires ready

/-- Settles O15: the frame holds of every command, whatever its family. -/
theorem frameFieldScalar : Obligations.FrameFieldScalar := by
  unfold Obligations.FrameFieldScalar
  exact fun i s t _ wf run => exec_unchanged wf run

/-- Settles O16. -/
theorem framePoint : Obligations.FramePoint := by
  unfold Obligations.FramePoint
  exact fun i s t _ wf run => exec_unchanged wf run

/-- Settles O17. -/
theorem frameSigning : Obligations.FrameSigning := by
  unfold Obligations.FrameSigning
  exact fun i s t _ wf run => exec_unchanged wf run

/-- Settles O18. -/
theorem frameVerification : Obligations.FrameVerification := by
  unfold Obligations.FrameVerification
  exact fun i s t _ wf run => exec_unchanged wf run

/-- Settles O9. -/
theorem resetInvariant : Obligations.ResetInvariant := reset_inv

end Sys2Proof.Machine
end

section
/-! SUPPORT. The seed of the key slot is write-only: from a state with another seed every step answers alike, and the
next states differ in the seed alone (10_state.md R38). -/

namespace Sys2Proof.Machine

variable {s t : State} {i : Instr} {x : Vector Byte 32}

/-- Two command bodies raise the same fault, or end in states that differ in the seed alone. -/
def seedBlind (r r' : Except ErrCode State) : Prop :=
  (∃ e, r = .error e ∧ r' = .error e) ∨ ∃ t y, r = .ok t ∧ r' = .ok (t.withSeed y)

/-- Two outcomes are the same, or next states that differ in the seed alone. -/
def seedAgree (o o' : Outcome) : Prop := o' = o ∨ ∃ t y, o = .next t ∧ o' = .next (t.withSeed y)

theorem seedBlind_error (e : ErrCode) : seedBlind (.error e) (.error e) := .inl ⟨e, rfl, rfl⟩

theorem seedBlind_ok (y : Vector Byte 32) : seedBlind (.ok t) (.ok (t.withSeed y)) := .inr ⟨t, y, rfl, rfl⟩

/-- A check or a read that does not see the seed. -/
theorem seedBlind_read {α : Type} {r : Except ErrCode α} {k k' : α → Except ErrCode State}
    (h : ∀ a, seedBlind (k a) (k' a)) : seedBlind (r >>= k) (r >>= k') := by
  cases r with
  | error e => exact seedBlind_error e
  | ok a => exact h a

theorem seedBlind_readKey {k k' : KeySlot → Except ErrCode State}
    (h : seedBlind (k s.key) (k' { s.key with seed := x })) :
    seedBlind (s.readKey >>= k) ((s.withSeed x).readKey >>= k') := by
  unfold State.readKey
  change seedBlind _ ((if s.key.valid then _ else _) >>= k')
  split
  · exact h
  · exact seedBlind_error _

theorem seedBlind_ite {p : Prop} [Decidable p] {r r' q q' : Except ErrCode State} (hr : seedBlind r r')
    (hq : seedBlind q q') : seedBlind (if p then r else q) (if p then r' else q') := by
  split <;> assumption

theorem seedBlind_memWrite (a n : Nat) (v : List Byte) :
    seedBlind (s.memWrite a n v) ((s.withSeed x).memWrite a n v) :=
  seedBlind_ite (seedBlind_ok x) (seedBlind_error _)

theorem seedBlind_then {r r' : Except ErrCode State} {k : State → Except ErrCode State} (hr : seedBlind r r')
    (h : ∀ t y, seedBlind (k t) (k (t.withSeed y))) : seedBlind (r >>= k) (r' >>= k) := by
  obtain ⟨e, rfl, rfl⟩ | ⟨t, y, rfl, rfl⟩ := hr
  · exact seedBlind_error e
  · exact h t y

theorem seedBlind_decodedP (pd : PIdx) (cd : CIdx) (o : Option Ext) :
    seedBlind (.ok (s.decodedP pd cd o)) (.ok ((s.withSeed x).decodedP pd cd o)) := by
  cases o <;> exact seedBlind_ok x

theorem seedBlind_sldc (p : Prop) [Decidable p] (sd : SIdx) (n : Nat) (cd : CIdx) :
    seedBlind (.ok (if p then (s.writeS sd n).writeC cd true else (s.clearS sd).writeC cd false))
      (.ok (if p then ((s.withSeed x).writeS sd n).writeC cd true
        else ((s.withSeed x).clearS sd).writeC cd false)) := by
  split <;> exact seedBlind_ok x

theorem seedBlind_signDom (flag : Byte) (addr : Addr) :
    seedBlind (signDom flag addr s) (signDom flag addr (s.withSeed x)) :=
  seedBlind_readKey <| seedBlind_ite (seedBlind_ok x) <| seedBlind_read fun _ => seedBlind_read fun _ =>
    seedBlind_then (seedBlind_memWrite _ _ _) fun _ y => seedBlind_ok y

theorem seedBlind_verifyTriple (dom : List Byte) (cd : CIdx) (addr : Addr) :
    seedBlind (verifyTriple dom cd addr s) (verifyTriple dom cd addr (s.withSeed x)) :=
  seedBlind_read fun _ => seedBlind_read fun _ => seedBlind_ok x

theorem seedBlind_verifyDom (flag : Byte) (cd : CIdx) (addr : Addr) :
    seedBlind (verifyDom flag cd addr s) (verifyDom flag cd addr (s.withSeed x)) :=
  seedBlind_ite (seedBlind_ok x) <| seedBlind_read fun _ => seedBlind_verifyTriple _ _ _

theorem batchTake_withSeed (b m : List Byte) : batchTake b m (s.withSeed x) = (batchTake b m s).withSeed x := by
  unfold batchTake
  dsimp only
  change (match batchEntry s.knobs.vrncs _ _ _ with | none => _ | some (A, R, n) => _) = _
  cases batchEntry s.knobs.vrncs (slice b 0 32) (slice b 32 32) (slice b 64 32) <;> rfl

theorem seedBlind_scrub (k : BitVec 7) :
    seedBlind (.ok (scrubStores k (scrubFiles k s))) (.ok (scrubStores k (scrubFiles k (s.withSeed x)))) := by
  refine .inr ⟨_, if k.getLsbD 4 then KeySlot.cleared.seed else x, rfl, ?_⟩
  simp only [scrubStores, scrubFiles, State.withSeed]
  cases k.getLsbD 4 <;> rfl

theorem complete_seedAgree {r r' : Except ErrCode State} (h : seedBlind r r') :
    seedAgree (complete i s r) (complete i (s.withSeed x) r') := by
  obtain ⟨e, rfl, rfl⟩ | ⟨t, y, rfl, rfl⟩ := h
  · exact .inr ⟨_, x, rfl, rfl⟩
  · exact .inr ⟨_, y, rfl, rfl⟩

/-- A command without a check. -/
theorem ok_seedAgree (i : Instr) (s t : State) (x y : Vector Byte 32) :
    seedAgree (complete i s (.ok t)) (complete i (s.withSeed x) (.ok (t.withSeed y))) :=
  complete_seedAgree (seedBlind_ok y)

/-- A slot that is replaced holds the same new key in both runs (R394, R400). -/
theorem seedBlind_setKey (k : KeySlot) (r : ResultCode) :
    seedBlind (.ok ((s.setKey k).setResult r)) (.ok (((s.withSeed x).setKey k).setResult r)) :=
  .inr ⟨_, k.seed, rfl, rfl⟩

/-- No command reads the seed. -/
theorem exec_seedAgree (i : Instr) : seedAgree (exec i s) (exec i (s.withSeed x)) := by
  cases i with
  -- the commands without a check
  | nop => exact ok_seedAgree .nop s s x x
  | scrub k => exact complete_seedAgree (s := s) (x := x) (i := .scrub k) (seedBlind_scrub k)
  | cset cd k => exact ok_seedAgree (.cset cd k) s (s.writeC cd (k.getLsbD 0)) x x
  | fclr fd => exact ok_seedAgree (.fclr fd) s (s.clearF fd) x x
  | sclr sd => exact ok_seedAgree (.sclr sd) s (s.clearS sd) x x
  | pclr pd => exact ok_seedAgree (.pclr pd) s (s.clearP pd) x x
  | cclr cd => exact ok_seedAgree (.cclr cd) s (s.clearC cd) x x
  | pid pd => exact ok_seedAgree (.pid pd) s (s.writeP pd edIdentity) x x
  | pbase pd => exact ok_seedAgree (.pbase pd) s (s.writeP pd basePoint) x x
  -- the commands that use the key slot
  | keyclr => exact ok_seedAgree .keyclr s (s.setKey .cleared) x KeySlot.cleared.seed
  | keygen => exact complete_seedAgree (seedBlind_read fun _ => seedBlind_setKey _ _)
  | keypub => exact complete_seedAgree (seedBlind_readKey (seedBlind_memWrite _ _ _))
  | sign | signr =>
    exact complete_seedAgree <| seedBlind_readKey <| seedBlind_read fun _ =>
      seedBlind_then (seedBlind_memWrite _ _ _) fun _ y => seedBlind_ok y
  | signctx => exact complete_seedAgree (seedBlind_signDom _ _)
  | signph => exact complete_seedAgree (seedBlind_read fun _ => seedBlind_read fun _ => seedBlind_signDom _ _)
  -- the commands that store to data memory
  | hash | fst | sst | srdx16 | pcmp | renc =>
    exact complete_seedAgree (seedBlind_read fun _ => seedBlind_memWrite _ _ _)
  | snaf => exact complete_seedAgree (seedBlind_read fun _ => seedBlind_read fun _ => seedBlind_memWrite _ _ _)
  -- verification
  | verify => exact complete_seedAgree (seedBlind_verifyTriple _ _ _)
  | verifyctx => exact complete_seedAgree (seedBlind_verifyDom _ _ _)
  | verifyph => exact complete_seedAgree (seedBlind_read fun _ => seedBlind_read fun _ => seedBlind_verifyDom _ _ _)
  | vbadd =>
    refine complete_seedAgree <| seedBlind_read fun _ => seedBlind_read fun _ => seedBlind_read fun b =>
      seedBlind_read fun m => ?_
    rw [batchTake_withSeed]
    exact seedBlind_ok x
  -- the commands that write registers after their checks and reads
  | sldc => exact complete_seedAgree (seedBlind_read fun _ => seedBlind_sldc _ _ _ _)
  | pdec | rdec | ph2c | pfromm => exact complete_seedAgree (seedBlind_read fun _ => seedBlind_decodedP _ _ _)
  | cmov | cnot | fld | fconst | fmov | fneg | fsqr | finv | fpow58 | fred | fisneg | fiszero | ptom | xchk
  | sld | sldw | sldcl | sconst | smov | sneg | sinv | stom | sfrm | sred | siscan | pisid | psmall | ptorf
  | pmov | pneg | pdbl | pmul8 | pmulb | rell | rh2g | vbbegin =>
    exact complete_seedAgree (seedBlind_read fun _ => seedBlind_ok x)
  | cand | cor | cxor | fadd | fsub | fmul | fsqrtr | fcneg | feq | sadd | ssub | smul | smmul | seq | peq | req
  | x25519 | padd | psub | pmulv | vbend =>
    exact complete_seedAgree (seedBlind_read fun _ => seedBlind_read fun _ => seedBlind_ok x)
  | fcsel | fcswap | pdsm | pmac =>
    exact complete_seedAgree (seedBlind_read fun _ => seedBlind_read fun _ => seedBlind_read fun _ => seedBlind_ok x)

theorem seedAgree_next (y : Vector Byte 32) : seedAgree (.next t) (.next (t.withSeed y)) := .inr ⟨t, y, rfl, rfl⟩

theorem runWord_seedAgree (w : Word) : seedAgree (runWord s w) (runWord (s.withSeed x) w) := by
  unfold runWord
  split
  · exact exec_seedAgree _
  · exact seedAgree_next x

theorem writeControl_seedAgree (o : Nat) (w : Word) :
    seedAgree (writeControl s o w) (writeControl (s.withSeed x) o w) := by
  unfold writeControl
  split
  case h_6 =>
    unfold writeCtrl
    split
    · exact .inl rfl
    · split <;> exact seedAgree_next x
  case h_7 =>
    unfold writeCmd
    change seedAgree _ (if s.halt then _ else _)
    split
    · exact seedAgree_next x
    · exact runWord_seedAgree w
  all_goals exact seedAgree_next x

/-- No host move shows the seed: what the host reads does not depend on it (R59, R74). -/
theorem hostMove_seedAgree (m : HostMove) : seedAgree (hostMove m s) (hostMove m (s.withSeed x)) := by
  cases m with
  | rst => exact .inl rfl
  | readWord o =>
    change seedAgree (readWordMove s o.toNat) (readWordMove (s.withSeed x) o.toNat)
    unfold readWordMove
    split
    · split
      · exact seedAgree_next x
      · exact .inl rfl
    · split
      · exact seedAgree_next x
      · exact .inl rfl
    · exact seedAgree_next x
  | writeWord o w =>
    change seedAgree (writeWordMove s o.toNat w) (writeWordMove (s.withSeed x) o.toNat w)
    unfold writeWordMove
    split
    · split
      · exact writeControl_seedAgree _ w
      · exact .inl rfl
    · split
      · exact seedAgree_next x
      · exact .inl rfl
    · exact seedAgree_next x
  | readByte o =>
    change seedAgree (readByteMove s o.toNat) (readByteMove (s.withSeed x) o.toNat)
    unfold readByteMove
    split
    · exact .inl rfl
    · exact seedAgree_next x
    · exact seedAgree_next x
  | writeByte o b =>
    change seedAgree (writeByteMove s o.toNat b) (writeByteMove (s.withSeed x) o.toNat b)
    unfold writeByteMove
    split
    · exact .inl rfl
    · exact seedAgree_next x
    · exact seedAgree_next x

/-- No step reads the seed. -/
theorem step_seedAgree : seedAgree (step s) (step (s.withSeed x)) := by
  unfold step nextMove
  change seedAgree _ (match s.host with | [] => _ | m :: ms => _)
  cases s.host with
  | nil => exact seedAgree_next x
  | cons m ms => exact hostMove_seedAgree (s := { s with host := ms }) m

/-- Settles O56: the next states are the same, or differ in the seed alone. -/
theorem seedNeverLeaks : Obligations.SeedNeverLeaks := by
  unfold Obligations.SeedNeverLeaks
  intro s t x run
  obtain same | ⟨u, y, run', other⟩ := step_seedAgree (s := s) (x := x)
  · exact ⟨t, same.trans run, fun _ => rfl⟩
  · obtain rfl : u = t := Host.Outcome.next.inj (run'.symm.trans run)
    exact ⟨_, other, fun _ => rfl⟩

end Sys2Proof.Machine
end

section
/-! The statements settled about the register bus: CMD (O5), CTRL (O6), reads of a state with another secret key (O57),
the host's registers (O58). -/

namespace Sys2Proof.Machine

variable {s : State}

/-- The step that makes the host's next move (R520). -/
theorem step_host {m : HostMove} {ms : List HostMove} (h : s.host = m :: ms) :
    step s = hostMove m { s with host := ms } := by
  rw [step, nextMove, h]

/-- Settles O5: offset 0x034 is CMD. -/
theorem stepRunsTheCommand : Obligations.StepRunsTheCommand := by
  unfold Obligations.StepRunsTheCommand
  refine ⟨fun _ => rfl, fun s w ms next => ?_⟩
  have run : step s = writeCmd { s with host := ms } w := step_host next
  rw [run, writeCmd]
  refine ⟨fun on => if_pos on, fun off i hi => ?_, fun off e he => ?_⟩
  · rw [if_neg (by simp [off]), runWord, hi]
  · rw [if_neg (by simp [off]), runWord, he]
    rfl

/-- Settles O6: offset 0x030 is CTRL. -/
theorem ctrlPort : Obligations.CtrlPort := by
  unfold Obligations.CtrlPort
  refine ⟨fun _ => rfl, fun s w ms next => ?_⟩
  have run : step s = .next (writeCtrl { s with host := ms } w) := step_host next
  rw [run, writeCtrl]
  refine ⟨fun srst => ⟨_, rfl, ?_⟩, fun srst clr => ?_, fun srst clr => ?_⟩
  · rw [if_pos srst]; rfl
  · simp only [srst, clr, Bool.false_eq_true, if_false, if_true]; rfl
  · simp only [srst, clr, Bool.false_eq_true, if_false]

/-- The control registers show nothing of the secret key: STATUS shows the valid bit alone (R38, R62). -/
theorem readControl_withSecrets (o : Nat) (seed pfx : Vector Byte 32) (a : ScalarInt) :
    readControl (s.withSecrets seed a pfx) o = readControl s o := rfl

theorem readWordMove_withSecrets {t : State} {o : Nat} (seed pfx : Vector Byte 32) (a : ScalarInt)
    (h : readWordMove s o = .next t) :
    readWordMove (s.withSecrets seed a pfx) o = .next (t.withSecrets seed a pfx) := by
  revert h
  unfold readWordMove
  rw [readControl_withSecrets]
  cases busRegion o with
  | control | window =>
    dsimp only
    split
    · rintro ⟨⟩; rfl
    · rintro ⟨⟩
  | unlisted => rintro ⟨⟩; rfl

theorem readByteMove_withSecrets {t : State} {o : Nat} (seed pfx : Vector Byte 32) (a : ScalarInt)
    (h : readByteMove s o = .next t) :
    readByteMove (s.withSecrets seed a pfx) o = .next (t.withSecrets seed a pfx) := by
  revert h
  unfold readByteMove
  cases busRegion o with
  | control => rintro ⟨⟩
  | window | unlisted => rintro ⟨⟩; rfl

/-- Settles O57: a read looks at the control registers and at DM, and the key slot is in neither but for KEYV. -/
theorem busHidesTheSecretKey : Obligations.BusHidesTheSecretKey := by
  unfold Obligations.BusHidesTheSecretKey
  intro s t m ms seed pfx a next ⟨o, read⟩ run
  rw [step_host next] at run
  rw [step_host (s := s.withSecrets seed a pfx) next]
  obtain rfl | rfl := read
  · exact readWordMove_withSecrets (s := { s with host := ms }) seed pfx a run
  · exact readByteMove_withSecrets (s := { s with host := ms }) seed pfx a run

/-- The offsets of the control registers (R59). -/
theorem busRegion_control {o : Nat} (h : o < 0x038) : busRegion o = .control := if_pos h

/-- A word read of a control register (R59). -/
theorem step_readControl {o : Word} {ms : List HostMove} (next : s.host = .readWord o :: ms) (low : o.toNat < 0x038)
    (aligned : o.toNat % 4 = 0) : step s = .next { s with host := ms, busData := readControl s o.toNat } := by
  rw [step_host next, hostMove, readWordMove, busRegion_control low]
  exact if_pos aligned

/-- A word write to a control register (R59). -/
theorem step_writeControl {o w : Word} {ms : List HostMove} (next : s.host = .writeWord o w :: ms)
    (low : o.toNat < 0x038)
    (aligned : o.toNat % 4 = 0) : step s = writeControl { s with host := ms } o.toNat w := by
  rw [step_host next, hostMove, writeWordMove, busRegion_control low]
  exact if_pos aligned

/-- The bits a register of width k keeps of a word. -/
theorem setWidth_setWidth_eq_and (w : Word) {k : Nat} (h : k ≤ 32) :
    (w.setWidth k).setWidth 32 = w &&& BitVec.ofNat 32 (2 ^ k - 1) := by
  have size : 2 ^ k ≤ 2 ^ 32 := Nat.pow_le_pow_right (by decide) h
  have pos := Nat.two_pow_pos k
  apply BitVec.eq_of_toNat_eq
  rw [BitVec.toNat_and, BitVec.toNat_ofNat, Nat.mod_eq_of_lt (by omega), Nat.and_two_pow_sub_one_eq_mod,
    BitVec.toNat_setWidth, BitVec.toNat_setWidth, Nat.mod_eq_of_lt]
  exact lt_of_lt_of_le (Nat.mod_lt _ pos) size

/-- A write to a control register and a read of the same offset, when the register keeps the bits of `mask`. -/
theorem register_roundtrip {o w mask : Word} {ms : List HostMove} {t : State}
    (next : s.host = .writeWord o w :: .readWord o :: ms) (low : o.toNat < 0x038) (aligned : o.toNat % 4 = 0)
    (write : writeControl { s with host := .readWord o :: ms } o.toNat w = .next t)
    (host : t.host = .readWord o :: ms)
    (read : readControl t o.toNat = w &&& mask)
    (rest : t.busData = s.busData ∧ t.dm = s.dm ∧ t.result = s.result ∧ t.cc = s.cc) :
    ∃ t, step s = .next t ∧ step t = .next { t with host := ms, busData := w &&& mask } ∧ t.host = .readWord o :: ms ∧
      t.busData = s.busData ∧ t.dm = s.dm ∧ t.result = s.result ∧ t.cc = s.cc :=
  ⟨t, (step_writeControl next low aligned).trans write, read ▸ step_readControl host low aligned, host, rest⟩

/-- Settles O58: each register keeps the low bits of its width. -/
theorem hostRegistersKeepTheirBits : Obligations.HostRegistersKeepTheirBits := by
  unfold Obligations.HostRegistersKeepTheirBits
  intro s w ms p hp next
  have keep (k : Nat) (h : k ≤ 32 := by decide) := setWidth_setWidth_eq_and w h
  simp only [List.mem_cons, List.not_mem_nil, or_false] at hp
  obtain rfl | rfl | rfl | rfl | rfl := hp
  · exact register_roundtrip next (by decide) rfl rfl rfl (keep 5) ⟨rfl, rfl, rfl, rfl⟩
  · exact register_roundtrip next (by decide) rfl rfl rfl (keep 12) ⟨rfl, rfl, rfl, rfl⟩
  · exact register_roundtrip next (by decide) rfl rfl rfl (keep 13) ⟨rfl, rfl, rfl, rfl⟩
  · exact register_roundtrip next (by decide) rfl rfl rfl (keep 12) ⟨rfl, rfl, rfl, rfl⟩
  · exact register_roundtrip next (by decide) rfl rfl rfl (keep 9) ⟨rfl, rfl, rfl, rfl⟩

/-- The word whose bit k is `f k`, as STATUS and FLAGS are written. -/
def bitSum (f : Nat → Bool) (n : Nat) : Nat := ((List.range n).map fun k => bitAt (f k) k).sum

theorem bitSum_succ (f : Nat → Bool) (n : Nat) : bitSum f (n + 1) = 2 ^ n * (f n).toNat + bitSum f n := by
  rw [bitSum, List.range_succ, List.map_append, List.sum_append, add_comm]
  cases h : f n <;> simp [bitAt, bitSum, h]

theorem bitSum_lt (f : Nat → Bool) : ∀ n, bitSum f n < 2 ^ n
  | 0 => by simp [bitSum]
  | n + 1 => by
    have := bitSum_lt f n
    have top := Bool.toNat_le (f n)
    rw [bitSum_succ, pow_succ]
    nlinarith

theorem testBit_bitSum (f : Nat → Bool) (j : Nat) : ∀ n, (bitSum f n).testBit j = (decide (j < n) && f j)
  | 0 => by simp [bitSum]
  | n + 1 => by
    rw [bitSum_succ, Nat.testBit_two_pow_mul_add _ (bitSum_lt f n), testBit_bitSum f j n]
    split
    next below => simp [below, Nat.lt_succ_of_lt below]
    next above =>
      obtain ⟨d, rfl⟩ := Nat.exists_eq_add_of_le (not_lt.1 above)
      rw [Nat.add_sub_cancel_left, Nat.testBit_bool_toNat]
      cases d <;> simp

theorem getLsbD_bitSum (f : Nat → Bool) {n : Nat} (hn : n ≤ 32) (j : Nat) :
    (BitVec.ofNat 32 (bitSum f n)).getLsbD j = (decide (j < n) && f j) := by
  rw [BitVec.getLsbD_ofNat, testBit_bitSum]
  by_cases h : j < n
  · simp [h, lt_of_lt_of_le h hn]
  · simp [h]

/-- STATUS as a word of bits (R62). -/
theorem statusView_bits (j : Nat) :
    s.statusView.getLsbD j = if j = 1 then s.halt else if j = 2 then s.key.valid else false := by
  have bits : s.statusView =
      BitVec.ofNat 32 (bitSum (fun k => if k = 1 then s.halt else k == 2 && s.key.valid) 3) := by
    simp [State.statusView, bitSum, bitAt, List.range_succ]
  rw [bits, getLsbD_bitSum _ (by decide)]
  split_ifs <;> simp_all

/-- The sum of FLAGS in the order of its bits. -/
theorem flags_sum (a b : CIdx → Bool) :
    ((List.finRange 8).map fun i => bitAt (a i) i.val + bitAt (b i) (8 + i.val)).sum =
      bitSum (fun k => if k < 8 then a (Fin.ofNat 8 k) else b (Fin.ofNat 8 k)) 16 := by
  simp [bitSum, List.finRange, List.range_succ, -Fin.ofNat_eq_cast]
  ring

/-- FLAGS as a word of bits: c[j], and from bit 8 on the valid bits (R63). -/
theorem flagsView_bits (j : Nat) : s.flagsView.getLsbD j = (decide (j < 16) && if j < 8 then
    (s.cReg.get (Fin.ofNat 8 j)).valid && s.cv (Fin.ofNat 8 j) else (s.cReg.get (Fin.ofNat 8 j)).valid) := by
  rw [State.flagsView, flags_sum (fun i => (s.cReg.get i).valid && s.cv i) fun i => (s.cReg.get i).valid,
    getLsbD_bitSum _ (by decide)]

/-- A word written to a read-only register or to an unlisted offset changes nothing (R59). -/
theorem writeWordMove_unlisted {o : Nat} (w : Word) (h : 0x038 ≤ o ∧ o < 0x1000 ∨ 0x2000 ≤ o) :
    writeWordMove s o w = .next s := by
  have region : busRegion o = .unlisted := by
    unfold busRegion
    rw [if_neg (by omega), if_neg (by omega)]
  rw [writeWordMove, region]

/-- FLAGS, file by file (R63). -/
theorem flagsView_files (i : CIdx) : s.flagsView.getLsbD i.val = (s.cv i && (s.cReg.get i).valid) ∧
    s.flagsView.getLsbD (8 + i.val) = (s.cReg.get i).valid := by
  have self : Fin.ofNat 8 i.val = i := Fin.ext (Nat.mod_eq_of_lt i.isLt)
  have wrapped : Fin.ofNat 8 (8 + i.val) = i := Fin.ext (by simp [Nat.mod_eq_of_lt i.isLt])
  constructor
  · rw [flagsView_bits, self, if_pos i.isLt, decide_eq_true (i.isLt.trans (by decide)), Bool.true_and, Bool.and_comm]
  · rw [flagsView_bits, wrapped, if_neg (by omega), decide_eq_true (by omega), Bool.true_and]

theorem flagsView_high {j : Nat} (h : 16 ≤ j) : s.flagsView.getLsbD j = false := by
  rw [flagsView_bits, decide_eq_false (by omega), Bool.false_and]

/-- Settles O59: each read by its view, each ignored write by its offset. -/
theorem hostViews : Obligations.HostViews := by
  unfold Obligations.HostViews
  intro s ms
  constructor
  · intro o next listed
    obtain ⟨low, aligned⟩ : o.toNat < 0x038 ∧ o.toNat % 4 = 0 := by
      simp only [List.mem_cons, List.not_mem_nil, or_false] at listed
      obtain rfl | rfl | rfl | rfl | rfl | rfl | rfl := listed <;> exact ⟨by decide, rfl⟩
    refine ⟨readControl s o.toNat, step_readControl next low aligned, ?_, ?_, ?_, ?_, ?_, ?_, ?_⟩ <;> rintro rfl
    · rfl
    · exact statusView_bits
    · exact ⟨flagsView_files, fun _ => flagsView_high⟩
    all_goals rfl
  · intro o w next ignored
    rw [step_host next, hostMove]
    obtain listed | unlisted := ignored
    · simp only [List.mem_cons, List.not_mem_nil, or_false] at listed
      obtain rfl | rfl | rfl | rfl | rfl | rfl | rfl := listed <;> rfl
    · exact writeWordMove_unlisted w unlisted

/-- An offset of the DM window (R74). -/
theorem window_offset {a : Nat} (h : a < 4096) : (BitVec.ofNat 32 (0x1000 + a)).toNat = 0x1000 + a := by
  rw [BitVec.toNat_ofNat, Nat.mod_eq_of_lt (by omega)]

theorem busRegion_of_window {a : Nat} (h : a < 4096) : busRegion (0x1000 + a) = .window := by
  unfold busRegion
  rw [if_neg (by omega), if_pos (by omega)]

theorem writeByteMove_window {a : Nat} (h : a < 4096) (b : Byte) :
    writeByteMove s (0x1000 + a) b = .next (s.setDm (s.dm.write a b)) := by
  rw [writeByteMove, busRegion_of_window h, Nat.add_sub_cancel_left]

theorem readByteMove_window {a : Nat} (h : a < 4096) :
    readByteMove s (0x1000 + a) = .next (s.answer ((s.dm.read a).setWidth 32)) := by
  rw [readByteMove, busRegion_of_window h, Nat.add_sub_cancel_left]

theorem writeWordMove_window {a : Nat} (h : a < 4096) (aligned : a % 4 = 0) (w : Word) :
    writeWordMove s (0x1000 + a) w = .next (s.setDm (s.dm.writeBytes a (bytesOf 4 w.toNat))) := by
  rw [writeWordMove, busRegion_of_window h, Nat.add_sub_cancel_left]
  exact if_pos (by omega)

theorem readWordMove_window {a : Nat} (h : a < 4096) (aligned : a % 4 = 0) :
    readWordMove s (0x1000 + a) = .next (s.answer (BitVec.ofNat 32 (le (s.dm.readBytes a 4)))) := by
  rw [readWordMove, busRegion_of_window h, Nat.add_sub_cancel_left]
  exact if_pos (by omega)

/-- Byte j of a little-endian string (R81). -/
theorem getD_bytesOf : ∀ (n v j : Nat), j < n → (bytesOf n v).getD j 0 = BitVec.ofNat 8 (v / 256 ^ j)
  | n + 1, v, 0, _ => by simp [bytesOf]
  | n + 1, v, j + 1, h => by
    rw [bytesOf, List.getD_cons_succ, getD_bytesOf n _ j (by omega), Nat.div_div_eq_div_mul, Nat.pow_succ']

theorem ofNat_div_eq_extractLsb' (w : Word) (j : Nat) :
    BitVec.ofNat 8 (w.toNat / 256 ^ j) = w.extractLsb' (8 * j) 8 := by
  apply BitVec.eq_of_toNat_eq
  rw [BitVec.toNat_ofNat, BitVec.extractLsb'_toNat, Nat.shiftRight_eq_div_pow, Nat.pow_mul]

/-- Four bytes as a little-endian word (R74, R81). -/
theorem ofNat_le_four (b0 b1 b2 b3 : Byte) : BitVec.ofNat 32 (le [b0, b1, b2, b3]) = b3 ++ b2 ++ b1 ++ b0 := by
  apply BitVec.eq_of_toNat_eq
  have := b0.isLt
  have := b1.isLt
  have := b2.isLt
  have := b3.isLt
  simp only [BitVec.toNat_append, BitVec.toNat_ofNat, le]
  rw [← Nat.shiftLeft_add_eq_or_of_lt b2.isLt, ← Nat.shiftLeft_add_eq_or_of_lt b1.isLt,
    ← Nat.shiftLeft_add_eq_or_of_lt b0.isLt]
  simp only [Nat.shiftLeft_eq]
  omega

/-- Settles O60: the window's four moves, and the bytes of the memory a write leaves. -/
theorem dmWindow : Obligations.DmWindow := by
  unfold Obligations.DmWindow
  intro s ms a wf small
  refine ⟨fun b next => ?_, fun next => ?_, fun aligned => ⟨fun w next => ?_, fun next => ?_⟩⟩ <;>
    rw [step_host next, hostMove, window_offset small]
  · refine ⟨_, writeByteMove_window small b, fun k => ?_, rfl⟩
    exact Memory.read_write s.dm a k b wf.1
  · exact readByteMove_window small
  · refine ⟨_, writeWordMove_window small aligned w, fun j hj => ?_, fun k outside => ?_, rfl⟩
    · rw [State.setDm_dm, Memory.read_writeBytes _ _ _ _ wf.1, length_bytesOf, if_pos (by omega),
        Nat.add_sub_cancel_left,
        getD_bytesOf 4 _ j hj, ofNat_div_eq_extractLsb']
    · exact Memory.read_writeBytes_outside wf (by rw [length_bytesOf]; omega)
  · rw [readWordMove_window small aligned]
    exact congrArg (fun v => Host.Outcome.next (State.answer _ v)) (ofNat_le_four _ _ _ _)

end Sys2Proof.Machine
end

section
/-! The statements settled about clears (O21, O22), the key commands (O49) and the knobs of verification (O54). -/

namespace Sys2Proof.Machine

variable {s : State}

theorem faultOf_unwritten {i : Instr} (hi : illegalNow i s = false) (hs : sequenceNow i s = false)
    (hu : unwrittenNow i s = true) : faultOf i s = some .unwritten := by
  simp [faultOf, hi, hs, hu]

/-- Settles O21: a cleared register is invalid, and a read of an invalid register faults. -/
theorem clearsInvalidate : Obligations.ClearsInvalidate := by
  unfold Obligations.ClearsInvalidate
  refine fun s => ⟨fun fd f' => ⟨rfl, by simp, ?_⟩, fun sd s' => ⟨rfl, by simp, ?_⟩, fun pd p' => ⟨rfl, by simp, ?_⟩,
    fun cd c' => ⟨rfl, by simp, ?_⟩, fun a => ⟨rfl, ?_⟩⟩ <;>
    refine exec_faults (faultOf_unwritten rfl rfl ?_)
  · simp [unwrittenNow, fSources]
  · simp [unwrittenNow, sSources]
  · simp [unwrittenNow, pSources]
  · simp [unwrittenNow, cSources]
  · simp [unwrittenNow, readsKey, KeySlot.cleared]

theorem get_if_replicate {α : Type} {n : Nat} (b : Bool) (x : α) (v : Vector α n) (i : Fin n) :
    (if b then Vector.replicate n x else v).get i = if b then x else v.get i := by
  cases b
  · rfl
  · exact get_replicate_fin i x

/-- Settles O22: each row of R451 is one field of the state. -/
theorem scrubClearsByMask : Obligations.ScrubClearsByMask := by
  unfold Obligations.ScrubClearsByMask
  refine fun k s => ⟨(scrubStores k (scrubFiles k s)).retire, rfl, get_if_replicate _ _ _, get_if_replicate _ _ _,
    get_if_replicate _ _ _, get_if_replicate _ _ _, rfl, rfl, fun a => ?_, rfl, rfl, rfl, rfl, rfl, rfl, rfl, rfl⟩
  change Memory.read (if k.getLsbD 6 then [] else s.dm) a = _
  split <;> rfl

theorem toList_bytes32 {b : List Byte} (h : b.length = 32) : (bytes32 b).toList = b := by
  refine List.ext_getElem (by simp [h]) fun j h1 h2 => ?_
  simp [bytes32, List.getD_eq_getElem?_getD, h2]

/-- What KEYGEN puts into the slot (R391). -/
theorem expandKey_fields {seed : List Byte} (h : seed.length = 32) :
    (expandKey seed).seed.toList = seed ∧ (expandKey seed).pfx.toList = (hashBytes seed).drop 32 ∧
      (expandKey seed).pub.toList = edCompress (edMulBase (expandKey seed).a.toNat) := by
  have second : slice (hashBytes seed) 32 32 = (hashBytes seed).drop 32 := List.take_of_length_le (by simp)
  refine ⟨toList_bytes32 h, ?_, ?_⟩
  · rw [expandKey, second]
    exact toList_bytes32 (by simp)
  · rw [expandKey_a]
    exact toList_bytes32 (length_edCompress _)

/-- Settles O49: the slot KEYGEN writes is the expansion of the seed. -/
theorem keyCommands : Obligations.KeyCommands := by
  unfold Obligations.KeyCommands
  intro s addr
  refine ⟨fun room => ?_, fun valid room => ?_, rfl⟩
  · obtain ⟨seed, pfx, pub⟩ := expandKey_fields (Memory.length_readBytes s.dm addr.toNat 32)
    obtain ⟨low, -, zeros⟩ := clampInteger_bounds (le (slice (hashBytes (s.dm.readBytes addr.toNat 32)) 0 32))
    refine ⟨_, ?_, rfl, seed, expandKey_a _, expandKey_a _ ▸ low, expandKey_a _ ▸ zeros, pfx, pub⟩
    simp only [exec_keygen, execKeygen, memRead_in room, bind_ok, pure_ok, complete_ok]
  · simp only [exec_keypub, execKeypub, readKey_valid valid, memWrite_in room, bind_ok, complete_ok]

/-- `ed_eq` compares the affine points (R272). -/
theorem edEq_iff {P Q : Ext} (bP : P.bounded) (bQ : Q.bounded) : edEq P Q = true ↔ P.same Q := by
  obtain ⟨pX, pY, pZ, -⟩ := bP
  obtain ⟨qX, qY, qZ, -⟩ := bQ
  rw [edEq, Bool.and_eq_true, feEq_iff (feMul_bounded ..) (feMul_bounded ..),
    feEq_iff (feMul_bounded ..) (feMul_bounded ..),
    feMul_gf pX qZ, feMul_gf qX pZ, feMul_gf pY qZ, feMul_gf qY pZ, Ext.same]

/-- A completed sum whose x-numerator is 0 and whose y-fraction is 1 is the identity. -/
theorem Comp.adds.isIdentity {C : Comp} {P Q : Ext} (h : C.adds P Q) (b : C.bounded)
    (hx : P.X.gf * Q.Y.gf + P.Y.gf * Q.X.gf = 0)
    (hy : P.Y.gf * Q.Y.gf + P.X.gf * Q.X.gf = P.Z.gf * Q.Z.gf - edwardsD.gf * P.T.gf * Q.T.gf) :
    (compToExt C).isIdentity := by
  obtain ⟨gX, gY, gZ, -⟩ := compToExt_gf b
  obtain ⟨l, cX, cY, cZ, cT⟩ := h
  rw [Ext.isIdentity, gX, gY, gZ, cX, cY, cZ, cT, hx, hy]
  exact ⟨by ring, by ring⟩

/-- Doubling the identity, Z = 0 included. -/
theorem edDouble_isIdentity {P : Ext} (h : P.sound) (i : P.isIdentity) : (edDouble P).isIdentity := by
  obtain ⟨x0, yz⟩ := i
  refine (projDouble_adds h).isIdentity (projDouble_bounded _) (by rw [x0]; ring) ?_
  linear_combination 2 * (P.Y.gf + P.Z.gf) * yz - h.2.1

theorem edMul8_isIdentity {P : Ext} (h : P.sound) (i : P.isIdentity) : (edMul8 P).isIdentity := by
  rw [edMul8_eq]
  have two := edDouble_sound h
  exact edDouble_isIdentity (edDouble_sound two) (edDouble_isIdentity two (edDouble_isIdentity h i))

theorem edwardsD_ne_zero : edwardsD.gf ≠ 0 := fun zero => edwardsD_nonsquare 0 (by rw [zero]; ring)

/-- T is scaled as the other coordinates are, also where they are all 0. -/
theorem same_T {P Q : Ext} (hP : P.onCurve) (hQ : Q.isPoint) (h : P.same Q) : P.T.gf * Q.Z.gf = Q.T.gf * P.Z.gf := by
  obtain ⟨curve, seg⟩ := hP
  obtain ⟨⟨-, segQ⟩, z⟩ := hQ
  obtain ⟨hx, hy⟩ := h
  by_cases z0 : P.Z.gf = 0
  · rw [z0, mul_zero] at hx hy
    have x0 := (gf_mul_eq_zero.1 hx).resolve_right z
    have y0 := (gf_mul_eq_zero.1 hy).resolve_right z
    have t0 : edwardsD.gf * P.T.gf ^ 2 = 0 := by linear_combination -curve + P.Y.gf * y0 - P.X.gf * x0 - P.Z.gf * z0
    have t1 : P.T.gf = 0 := by_contra fun t =>
      gf_pow_ne_zero t 2 ((gf_mul_eq_zero.1 t0).resolve_left edwardsD_ne_zero)
    rw [t1, z0, zero_mul, mul_zero]
  · refine (gf_mul_cancel (gf_mul_ne_zero z0 z)).1 ?_
    linear_combination -Q.Z.gf ^ 2 * seg + P.Z.gf ^ 2 * segQ + P.Y.gf * Q.Z.gf * hx + Q.X.gf * P.Z.gf * hy

/-- The difference of two representatives of one point is the identity. -/
theorem edSub_isIdentity {P Q : Ext} (hP : P.sound) (bQ : Q.bounded) (hQ : Q.isPoint) (h : P.same Q) :
    (edSub P Q).isIdentity := by
  have ht := same_T hP.2 hQ h
  obtain ⟨⟨curve, -⟩, z⟩ := hQ
  obtain ⟨hx, hy⟩ := h
  have adds := subPniels_adds hP.1 (extToPniels_bounded bQ) bQ (extToPniels_encodes bQ)
  refine adds.isIdentity (subPniels_bounded ..) ?_ ?_ <;> simp only [edNeg, feNeg_gf bQ.1, feNeg_gf bQ.2.2.2]
  · refine (gf_mul_cancel z).1 ?_
    linear_combination Q.Y.gf * hx - Q.X.gf * hy
  · refine (gf_mul_cancel z).1 ?_
    linear_combination Q.Y.gf * hy - Q.X.gf * hx + P.Z.gf * curve - edwardsD.gf * Q.T.gf * ht

theorem edDecompress_isPoint {b : List Byte} {P : Ext} (h : edDecompress b = some P) : P.isPoint := by
  refine ⟨(edDecompress_sound h).2, ?_⟩
  have one : P.Z = feOne := by
    unfold edDecompress at h
    dsimp only at h
    split at h
    · cases h
    split at h
    · cases h
    next lift =>
      split at h
      · cases h
      · obtain rfl := Option.some.inj h
        unfold edLift at lift
        dsimp only at lift
        split at lift
        · obtain rfl := Option.some.inj lift
          rfl
        · cases lift
  rw [one, feOne_gf]
  exact gf_one_ne_zero

/-- What the strict equation accepts, the cofactored one accepts (R426, R427). -/
theorem acceptEquation_vcof {Q R : Ext} (hQ : Q.sound) (bR : R.bounded) (hR : R.isPoint)
    (h : acceptEquation false Q R = true) : acceptEquation true Q R = true := by
  have dif := edSub_isIdentity hQ bR hR ((edEq_iff hQ.1 bR).1 h)
  have sound := edSub_sound hQ ⟨bR, hR.1⟩
  exact (edIsIdentity_iff (edMul8_sound sound).1).2 (edMul8_isIdentity sound dif)

section
variable (cfg : Knobs) (dom ab rb sb m : List Byte)

/-- VSSO guards the rejection of a weak key and nothing else (R421). -/
theorem verifyCore_vsso : verifyCore { cfg with vsso := false } dom ab rb sb m = verifyCore cfg dom ab rb sb m ∨
    verifyCore cfg dom ab rb sb m = .weakPublicKey := by
  unfold verifyCore
  cases edDecompress ab with
  | none => exact .inl rfl
  | some A =>
    by_cases weak : (cfg.vsso && edIsSmallOrder A) = true
    · exact .inr (if_pos weak)
    · exact .inl (if_neg weak).symm

/-- VRNCS guards the rejection of an s of l or more (R421, R435). -/
theorem verifyCore_vrncs : verifyCore { cfg with vrncs := false } dom ab rb sb m = verifyCore cfg dom ab rb sb m ∨
    verifyCore cfg dom ab rb sb m = .invalidEncoding ∧ groupOrder ≤ le sb := by
  unfold verifyCore
  cases edDecompress ab with
  | none => exact .inl rfl
  | some A =>
    dsimp only
    by_cases weak : (cfg.vsso && edIsSmallOrder A) = true
    · rw [if_pos weak, if_pos weak]
      exact .inl rfl
    rw [if_neg weak, if_neg weak]
    cases edDecompress rb with
    | none => exact .inl rfl
    | some R =>
      dsimp only
      by_cases wide : groupOrder ≤ le sb ∧ cfg.vrncs = true
      · exact .inr ⟨if_pos wide, wide.1⟩
      · rw [if_neg wide, if_neg (by simp)]
        exact .inl rfl

/-- What the strict equation accepts the cofactored one accepts too, so VCOF lifts a mismatch alone (R426, R427). -/
theorem verifyCore_vcof : verifyCore { cfg with vcof := true } dom ab rb sb m = verifyCore cfg dom ab rb sb m ∨
    verifyCore cfg dom ab rb sb m = .signatureMismatch := by
  unfold verifyCore
  cases hA : edDecompress ab with
  | none => exact .inl rfl
  | some A =>
    dsimp only
    by_cases weak : (cfg.vsso && edIsSmallOrder A) = true
    · rw [if_pos weak, if_pos weak]
      exact .inl rfl
    rw [if_neg weak, if_neg weak]
    cases hR : edDecompress rb with
    | none => exact .inl rfl
    | some R =>
      dsimp only
      by_cases wide : groupOrder ≤ le sb ∧ cfg.vrncs = true
      · rw [if_pos wide, if_pos wide]
        exact .inl rfl
      rw [if_neg wide, if_neg wide]
      have keep := acceptEquation_vcof (edDoubleScalarMul_sound (edDecompress_sound hA)
        (scNeg (hashScalar (dom ++ rb ++ ab ++ m)))
        (if groupOrder ≤ le sb then le sb % groupOrder else le sb))
        (edDecompress_sound hR).1 (edDecompress_isPoint hR)
      generalize edDoubleScalarMul _ A _ = Q at keep ⊢
      obtain accepted | rejected := Bool.eq_false_or_eq_true (acceptEquation cfg.vcof Q R)
      · have both : acceptEquation true Q R = true := by
          cases v : cfg.vcof with
          | false => exact keep (v ▸ accepted)
          | true => exact v ▸ accepted
        rw [if_pos accepted, if_pos both]
        exact .inl rfl
      · exact .inr (if_neg (by simp [rejected]))

end

/-- Settles O54: each knob is looked at in one place of the chain of checks. -/
theorem verifyKnobsAreMonotone : Obligations.VerifyKnobsAreMonotone := by
  unfold Obligations.VerifyKnobsAreMonotone
  exact fun cfg dom ab rb sb m => ⟨verifyCore_vsso cfg dom ab rb sb m, verifyCore_vrncs cfg dom ab rb sb m,
    verifyCore_vcof cfg dom ab rb sb m⟩

end Sys2Proof.Machine
end

section
/-! SUPPORT. What the limb functions of the scalar unit compute modulo l: sums, differences and Montgomery products on
52-bit limbs (41_scalar.md R201 to R211). -/

namespace Sys2Proof.Machine

/-- Every limb below 2^52 (R201). -/
def Sc.small (x : Sc) : Prop :=
  x.l0.toNat < 2 ^ 52 ∧ x.l1.toNat < 2 ^ 52 ∧ x.l2.toNat < 2 ^ 52 ∧ x.l3.toNat < 2 ^ 52 ∧ x.l4.toNat < 2 ^ 52

theorem mask_small (a b c d e : Nat) : (Sc.mask a b c d e).small := by
  simp only [Sc.small, Sc.mask, BitVec.toNat_ofNat]
  refine ⟨?_, ?_, ?_, ?_, ?_⟩ <;> omega

theorem scPack_mask (a b c d e : Nat) : scPack (.mask a b c d e) =
    a % 2 ^ 52 + b % 2 ^ 52 * 2 ^ 52 + c % 2 ^ 52 * 2 ^ 104 + d % 2 ^ 52 * 2 ^ 156 + e % 2 ^ 52 * 2 ^ 208 := by
  have fits : ∀ v, v % 2 ^ 52 % 2 ^ 64 = v % 2 ^ 52 := fun v => by omega
  simp only [scPack, Sc.mask, BitVec.toNat_ofNat, fits]

/-- A carry chain over five limbs keeps the integer modulo 2^260. -/
theorem scPack_mask_carry {c0 c1 c2 c3 c4 x1 x2 x3 x4 : Nat} (h1 : c1 = c0 / 2 ^ 52 + x1) (h2 : c2 = c1 / 2 ^ 52 + x2)
    (h3 : c3 = c2 / 2 ^ 52 + x3) (h4 : c4 = c3 / 2 ^ 52 + x4) :
    scPack (.mask c0 c1 c2 c3 c4) = (c0 + x1 * 2 ^ 52 + x2 * 2 ^ 104 + x3 * 2 ^ 156 + x4 * 2 ^ 208) % 2 ^ 260 := by
  rw [scPack_mask]
  omega

theorem scPack_scUnpack (n : Nat) : scPack (scUnpack n) = n % 2 ^ 260 := by
  rw [scUnpack, scPack_mask]
  omega

theorem orderLimbs_small : orderLimbs.small := by unfold Sc.small; decide

theorem scPack_orderLimbs : scPack orderLimbs = groupOrder := by decide

/-- One limb of a subtraction: the borrow is its top bit (R203). -/
theorem subLimb_spec {a b : BitVec 64} (ha : a.toNat < 2 ^ 52) (hb : b.toNat < 2 ^ 52) {borrow : Nat}
    (h : borrow / 2 ^ 63 ≤ 1) : subLimb a b borrow / 2 ^ 63 ≤ 1 ∧
      subLimb a b borrow % 2 ^ 52 + b.toNat + borrow / 2 ^ 63 = a.toNat + 2 ^ 52 * (subLimb a b borrow / 2 ^ 63) := by
  unfold subLimb
  omega

theorem scPack_orderIf (c : Bool) : scPack (orderIf c) = if c then groupOrder else 0 := by
  cases c
  · rfl
  · exact scPack_orderLimbs

/-- The last step of a subtraction: l is added back exactly after a borrow. -/
theorem add_back {A B W l borrow : Nat} (small : W < 2 ^ 260) (hl : l < 2 ^ 260) (dif : W + B = A + 2 ^ 260 * borrow)
    (one : borrow ≤ 1) (low : B ≤ A + l) (high : A < B + l) :
    (W + if borrow == 1 then l else 0) % 2 ^ 260 < l ∧
      ((W + if borrow == 1 then l else 0) % 2 ^ 260 + B = A ∨
        (W + if borrow == 1 then l else 0) % 2 ^ 260 + B = A + l) := by
  obtain rfl | rfl : borrow = 0 ∨ borrow = 1 := by omega
  · simp only [Nat.reduceBEq, Bool.false_eq_true, if_false]
    omega
  · simp only [Nat.reduceBEq, if_true]
    omega

theorem groupOrder_double_lt : groupOrder + groupOrder < 2 ^ 260 := by
  have := groupOrder_lt
  omega

/-- A difference that one addition of l brings into [0, l) (R203). -/
theorem scSub_spec {a b : Sc} (ha : a.small) (hb : b.small) (low : scPack b ≤ scPack a + groupOrder)
    (high : scPack a < scPack b + groupOrder) :
    scPack (scSub a b) < groupOrder ∧
      (scPack (scSub a b) + scPack b = scPack a ∨ scPack (scSub a b) + scPack b = scPack a + groupOrder) := by
  obtain ⟨a0, a1, a2, a3, a4⟩ := ha
  obtain ⟨b0, b1, b2, b3, b4⟩ := hb
  obtain ⟨k0, e0⟩ := subLimb_spec a0 b0 (borrow := 0) (by omega)
  obtain ⟨k1, e1⟩ := subLimb_spec a1 b1 k0
  obtain ⟨k2, e2⟩ := subLimb_spec a2 b2 k1
  obtain ⟨k3, e3⟩ := subLimb_spec a3 b3 k2
  obtain ⟨k4, e4⟩ := subLimb_spec a4 b4 k3
  unfold scSub
  dsimp only
  generalize subLimb a.l0 b.l0 0 = w0 at *
  generalize subLimb a.l1 b.l1 w0 = w1 at *
  generalize subLimb a.l2 b.l2 w1 = w2 at *
  generalize subLimb a.l3 b.l3 w2 = w3 at *
  generalize subLimb a.l4 b.l4 w3 = w4 at *
  have order := scPack_orderIf (w4 / 2 ^ 63 == 1)
  generalize orderIf (w4 / 2 ^ 63 == 1) = l at *
  rw [scPack_mask_carry (add_assoc ..) (add_assoc ..) (add_assoc ..) (add_assoc ..)]
  obtain ⟨W, small, dif, sum⟩ : ∃ W, W < 2 ^ 260 ∧ W + scPack b = scPack a + 2 ^ 260 * (w4 / 2 ^ 63) ∧
      w0 % 2 ^ 52 + l.l0.toNat + (w1 % 2 ^ 52 + l.l1.toNat) * 2 ^ 52 + (w2 % 2 ^ 52 + l.l2.toNat) * 2 ^ 104 +
        (w3 % 2 ^ 52 + l.l3.toNat) * 2 ^ 156 + (w4 % 2 ^ 52 + l.l4.toNat) * 2 ^ 208 = W + scPack l := by
    refine ⟨w0 % 2 ^ 52 + w1 % 2 ^ 52 * 2 ^ 52 + w2 % 2 ^ 52 * 2 ^ 104 + w3 % 2 ^ 52 * 2 ^ 156 +
        w4 % 2 ^ 52 * 2 ^ 208,
      ?_, ?_, ?_⟩
    · omega
    · unfold scPack; omega
    · unfold scPack; omega
  rw [sum, order]
  exact add_back small (by have := groupOrder_double_lt; omega) dif k4 low high

theorem mod_groupOrder_of_sub {d v : Nat} (hd : d < groupOrder)
    (h : d + groupOrder = v ∨ d + groupOrder = v + groupOrder) : d = v % groupOrder := by
  obtain h | h := h
  · rw [← h, Nat.add_mod_right, Nat.mod_eq_of_lt hd]
  · obtain rfl := Nat.add_right_cancel h
    exact (Nat.mod_eq_of_lt hd).symm

/-- One subtraction of l reduces an integer below 2l (R204, R206). -/
theorem scSub_order {a : Sc} (ha : a.small) (h : scPack a < groupOrder + groupOrder) :
    scPack (scSub a orderLimbs) = scPack a % groupOrder := by
  have spec := scSub_spec ha orderLimbs_small
  rw [scPack_orderLimbs] at spec
  obtain ⟨lt, eq⟩ := spec (Nat.le_add_left _ _) h
  exact mod_groupOrder_of_sub lt eq

/-- (a + b) mod l of integers below l (R204). -/
theorem scAdd_spec {a b : Sc} (la : scPack a < groupOrder) (lb : scPack b < groupOrder) :
    scPack (scAdd a b) = (scPack a + scPack b) % groupOrder := by
  have room := Nat.add_lt_add la lb
  unfold scAdd
  dsimp only
  generalize hm : Sc.mask _ _ _ _ _ = m
  have sum : scPack m = scPack a + scPack b := by
    rw [← hm, scPack_mask_carry (add_comm (a.l1.toNat + b.l1.toNat) _) (add_comm (a.l2.toNat + b.l2.toNat) _)
      (add_comm (a.l3.toNat + b.l3.toNat) _) (add_comm (a.l4.toNat + b.l4.toNat) _)]
    have total : a.l0.toNat + b.l0.toNat + (a.l1.toNat + b.l1.toNat) * 2 ^ 52 + (a.l2.toNat + b.l2.toNat) * 2 ^ 104 +
        (a.l3.toNat + b.l3.toNat) * 2 ^ 156 + (a.l4.toNat + b.l4.toNat) * 2 ^ 208 = scPack a + scPack b := by
      unfold scPack; ring
    rw [total]
    exact Nat.mod_eq_of_lt (room.trans groupOrder_double_lt)
  rw [scSub_order (hm ▸ mask_small ..) (sum ▸ room), sum]

/-- One round of the reduction clears the low 52 bits, LFACTOR being -1/l mod 2^52 (R206). -/
theorem redPart1_spec (s : Nat) : (redPart1 s).1 * 2 ^ 52 = s + (redPart1 s).2 * orderLimbs.l0.toNat ∧
    (redPart1 s).2 < 2 ^ 52 := by
  have digit : (redPart1 s).2 = s * lFactor % 2 ^ 52 := by
    rw [redPart1]
    dsimp only
    rw [Nat.mod_mod_of_dvd _ (by decide), Nat.mul_mod, Nat.mod_mod_of_dvd _ (by decide), ← Nat.mul_mod]
  have clear : 2 ^ 52 ∣ s + s * lFactor * orderLimbs.l0.toNat := by
    rw [show s + s * lFactor * orderLimbs.l0.toNat = s * (1 + lFactor * orderLimbs.l0.toNat) by ring]
    exact Dvd.dvd.mul_left (by decide) s
  have exact : 2 ^ 52 ∣ s + (redPart1 s).2 * orderLimbs.l0.toNat := by
    rw [digit]
    exact ((((Nat.mod_modEq _ _).mul_right _).add_left s).dvd_iff dvd_rfl).2 clear
  exact ⟨Nat.div_mul_cancel exact, digit ▸ Nat.mod_lt _ (by decide)⟩

/-- The five rounds of the reduction telescope: what is left is the sum of the columns and a multiple of l, divided by
M^5 (R206, with l[3] = 0). -/
theorem montgomery_telescope {M k0 k1 k2 k4 z0 z1 z2 z3 z4 z5 z6 z7 z8 p0 p1 p2 p3 p4 c0 c1 c2 c3 c4 : Nat}
    (e0 : c0 * M = z0 + p0 * k0) (e1 : c1 * M = c0 + z1 + p0 * k1 + p1 * k0)
    (e2 : c2 * M = c1 + z2 + p0 * k2 + p1 * k1 + p2 * k0) (e3 : c3 * M = c2 + z3 + p1 * k2 + p2 * k1 + p3 * k0)
    (e4 : c4 * M = c3 + z4 + p0 * k4 + p2 * k2 + p3 * k1 + p4 * k0) :
    z0 + z1 * M + z2 * M ^ 2 + z3 * M ^ 3 + z4 * M ^ 4 + z5 * M ^ 5 + z6 * M ^ 6 + z7 * M ^ 7 + z8 * M ^ 8 +
        (p0 + p1 * M + p2 * M ^ 2 + p3 * M ^ 3 + p4 * M ^ 4) * (k0 + k1 * M + k2 * M ^ 2 + k4 * M ^ 4) =
      (c4 + z5 + p1 * k4 + p3 * k2 + p4 * k1 + (z6 + p2 * k4 + p4 * k2) * M + (z7 + p3 * k4) * M ^ 2 +
        (z8 + p4 * k4) * M ^ 3) * M ^ 5 := by
  zify at *
  linear_combination -e0 - M * e1 - M ^ 2 * e2 - M ^ 3 * e3 - M ^ 4 * e4

theorem groupOrder_limbs : groupOrder = orderLimbs.l0.toNat + orderLimbs.l1.toNat * 2 ^ 52 +
    orderLimbs.l2.toNat * (2 ^ 52) ^ 2 + orderLimbs.l4.toNat * (2 ^ 52) ^ 4 := by decide

/-- The last carries, in radix 2^52 (R206). -/
theorem scPack_carried {r0 r1 r2 r3 x1 x2 x3 : Nat} (h1 : r1 = r0 / 2 ^ 52 + x1) (h2 : r2 = r1 / 2 ^ 52 + x2)
    (h3 : r3 = r2 / 2 ^ 52 + x3) (h : r0 + x1 * 2 ^ 52 + x2 * (2 ^ 52) ^ 2 + x3 * (2 ^ 52) ^ 3 < 2 ^ 260) :
    let x : Sc := ⟨BitVec.ofNat 64 (r0 % 2 ^ 52), BitVec.ofNat 64 (r1 % 2 ^ 52), BitVec.ofNat 64 (r2 % 2 ^ 52),
      BitVec.ofNat 64 (r3 % 2 ^ 52), BitVec.ofNat 64 (r3 / 2 ^ 52)⟩
    x.small ∧ scPack x = r0 + x1 * 2 ^ 52 + x2 * (2 ^ 52) ^ 2 + x3 * (2 ^ 52) ^ 3 := by
  have top : r3 / 2 ^ 52 < 2 ^ 52 := by omega
  have fits : ∀ v, v % 2 ^ 52 % 2 ^ 64 = v % 2 ^ 52 := fun v => by omega
  simp only [Sc.small, scPack, BitVec.toNat_ofNat, fits]
  rw [Nat.mod_eq_of_lt (show r3 / 2 ^ 52 < 2 ^ 64 by omega)]
  refine ⟨⟨?_, ?_, ?_, ?_, top⟩, ?_⟩ <;> omega

theorem radix_lt {p0 p1 p2 p3 p4 : Nat} (h0 : p0 < 2 ^ 52) (h1 : p1 < 2 ^ 52) (h2 : p2 < 2 ^ 52) (h3 : p3 < 2 ^ 52)
    (h4 : p4 < 2 ^ 52) :
    p0 + p1 * 2 ^ 52 + p2 * (2 ^ 52) ^ 2 + p3 * (2 ^ 52) ^ 3 + p4 * (2 ^ 52) ^ 4 < (2 ^ 52) ^ 5 := by
  omega

/-- The reduction of the columns of Z divides by 2^260 modulo l (R206). -/
theorem scMontgomeryReduce_spec {z0 z1 z2 z3 z4 z5 z6 z7 z8 Z : Nat}
    (hZ : Z = z0 + z1 * 2 ^ 52 + z2 * (2 ^ 52) ^ 2 + z3 * (2 ^ 52) ^ 3 + z4 * (2 ^ 52) ^ 4 + z5 * (2 ^ 52) ^ 5 +
      z6 * (2 ^ 52) ^ 6 + z7 * (2 ^ 52) ^ 7 + z8 * (2 ^ 52) ^ 8) (h : Z < (2 ^ 52) ^ 5 * groupOrder) :
    scPack (scMontgomeryReduce z0 z1 z2 z3 z4 z5 z6 z7 z8) < groupOrder ∧
      scPack (scMontgomeryReduce z0 z1 z2 z3 z4 z5 z6 z7 z8) * (2 ^ 52) ^ 5 ≡ Z [MOD groupOrder] := by
  obtain ⟨p0, hp0⟩ : ∃ p, p = redPart1 z0 := ⟨_, rfl⟩
  obtain ⟨p1, hp1⟩ : ∃ p, p = redPart1 (p0.1 + z1 + p0.2 * orderLimbs.l1.toNat) := ⟨_, rfl⟩
  obtain ⟨p2, hp2⟩ : ∃ p, p = redPart1 (p1.1 + z2 + p0.2 * orderLimbs.l2.toNat + p1.2 * orderLimbs.l1.toNat) :=
    ⟨_, rfl⟩
  obtain ⟨p3, hp3⟩ : ∃ p, p = redPart1 (p2.1 + z3 + p1.2 * orderLimbs.l2.toNat + p2.2 * orderLimbs.l1.toNat) :=
    ⟨_, rfl⟩
  obtain ⟨p4, hp4⟩ : ∃ p, p = redPart1 (p3.1 + z4 + p0.2 * orderLimbs.l4.toNat + p2.2 * orderLimbs.l2.toNat +
    p3.2 * orderLimbs.l1.toNat) := ⟨_, rfl⟩
  obtain ⟨e0, s0⟩ := hp0 ▸ redPart1_spec z0
  obtain ⟨e1, s1⟩ := hp1 ▸ redPart1_spec _
  obtain ⟨e2, s2⟩ := hp2 ▸ redPart1_spec _
  obtain ⟨e3, s3⟩ := hp3 ▸ redPart1_spec _
  obtain ⟨e4, s4⟩ := hp4 ▸ redPart1_spec _
  have exact := montgomery_telescope (z5 := z5) (z6 := z6) (z7 := z7) (z8 := z8) e0 e1 e2 e3 e4
  rw [← hZ, ← groupOrder_limbs] at exact
  have digits := radix_lt s0 s1 s2 s3 s4
  generalize p0.2 + p1.2 * 2 ^ 52 + p2.2 * (2 ^ 52) ^ 2 + p3.2 * (2 ^ 52) ^ 3 + p4.2 * (2 ^ 52) ^ 4 = N
    at exact digits
  generalize hR : p4.1 + z5 + p1.2 * orderLimbs.l4.toNat + p3.2 * orderLimbs.l2.toNat + p4.2 * orderLimbs.l1.toNat +
    (z6 + p2.2 * orderLimbs.l4.toNat + p4.2 * orderLimbs.l2.toNat) * 2 ^ 52 +
      (z7 + p3.2 * orderLimbs.l4.toNat) * (2 ^ 52) ^ 2 +
    (z8 + p4.2 * orderLimbs.l4.toNat) * (2 ^ 52) ^ 3 = R at exact
  have small : R < groupOrder + groupOrder := by
    refine Nat.lt_of_mul_lt_mul_right (a := (2 ^ 52) ^ 5) ?_
    calc R * (2 ^ 52) ^ 5 = Z + N * groupOrder := exact.symm
      _ < (2 ^ 52) ^ 5 * groupOrder + (2 ^ 52) ^ 5 * groupOrder :=
        Nat.add_lt_add_of_lt_of_le h (Nat.mul_le_mul_right _ digits.le)
      _ = (groupOrder + groupOrder) * (2 ^ 52) ^ 5 := by ring
  unfold scMontgomeryReduce
  dsimp only
  rw [← hp0, ← hp1, ← hp2, ← hp3, ← hp4]
  generalize p4.1 + z5 + p1.2 * orderLimbs.l4.toNat + p3.2 * orderLimbs.l2.toNat + p4.2 * orderLimbs.l1.toNat = r0
    at hR ⊢
  generalize hr1 : r0 / 2 ^ 52 + z6 + p2.2 * orderLimbs.l4.toNat + p4.2 * orderLimbs.l2.toNat = r1
  generalize hr2 : r1 / 2 ^ 52 + z7 + p3.2 * orderLimbs.l4.toNat = r2
  generalize hr3 : r2 / 2 ^ 52 + z8 + p4.2 * orderLimbs.l4.toNat = r3
  have h1 : r1 = r0 / 2 ^ 52 + (z6 + p2.2 * orderLimbs.l4.toNat + p4.2 * orderLimbs.l2.toNat) := by
    rw [← hr1, add_assoc, add_assoc, add_assoc]
  obtain ⟨limbs, pack⟩ := scPack_carried h1 (hr2.symm.trans (add_assoc ..)) (hr3.symm.trans (add_assoc ..))
    (by rw [hR]; exact small.trans groupOrder_double_lt)
  rw [hR] at pack
  rw [scSub_order limbs (pack ▸ small), pack]
  refine ⟨Nat.mod_lt _ (by decide), ?_⟩
  calc R % groupOrder * (2 ^ 52) ^ 5 ≡ R * (2 ^ 52) ^ 5 [MOD groupOrder] := (Nat.mod_modEq _ _).mul_right _
    _ = Z + N * groupOrder := exact.symm
    _ ≡ Z [MOD groupOrder] := by simp [Nat.ModEq]

/-- The Montgomery product of 52-bit limbs: a·b / 2^260 mod l (R205, R207). -/
theorem scMontMul_spec {a b : Sc} (h : scPack a * scPack b < (2 ^ 52) ^ 5 * groupOrder) :
    scPack (scMontMul a b) < groupOrder ∧
      scPack (scMontMul a b) * (2 ^ 52) ^ 5 ≡ scPack a * scPack b [MOD groupOrder] := by
  refine scMontgomeryReduce_spec ?_ h
  have pack (x : Sc) : scPack x = x.l0.toNat + x.l1.toNat * 2 ^ 52 + x.l2.toNat * (2 ^ 52) ^ 2 +
    x.l3.toNat * (2 ^ 52) ^ 3 +
    x.l4.toNat * (2 ^ 52) ^ 4 := by unfold scPack; ring
  rw [pack, pack]
  generalize 2 ^ 52 = M
  ring

theorem coprime_radix : Nat.Coprime groupOrder ((2 ^ 52) ^ 5) :=
  (Nat.Coprime.pow_right 5 (Nat.Coprime.pow_right 52 (Nat.coprime_two_right.2 (by decide))))

theorem montR_mod : montR ≡ (2 ^ 52) ^ 5 [MOD groupOrder] := by decide

theorem montRR_mod : montRR ≡ (2 ^ 52) ^ 5 * (2 ^ 52) ^ 5 [MOD groupOrder] := by decide

/-- `sc_reduce_wide` reduces a 512-bit integer (R211). -/
theorem scReduceWide_eq {n : Nat} (h : n < 2 ^ 512) : scReduceWide n = n % groupOrder := by
  have unpackRR : scPack (scUnpack montRR) = montRR := by decide
  have unpackR : scPack (scUnpack montR) = montR := by decide
  obtain ⟨hi, hhi⟩ : ∃ hi, hi = n / 2 ^ 260 := ⟨_, rfl⟩
  obtain ⟨lo, hlo⟩ : ∃ lo, lo = n % 2 ^ 260 := ⟨_, rfl⟩
  have split : n = hi * (2 ^ 52) ^ 5 + lo := by omega
  have packHi : scPack (scUnpack hi) = hi := by rw [scPack_scUnpack, Nat.mod_eq_of_lt (by omega)]
  have packLo : scPack (scUnpack lo) = lo := by rw [scPack_scUnpack, Nat.mod_eq_of_lt (by omega)]
  obtain ⟨l1, e1⟩ := scMontMul_spec (a := scUnpack hi) (b := scUnpack montRR)
    (by rw [packHi, unpackRR]; exact Nat.mul_lt_mul'' (by omega) (by decide))
  obtain ⟨l2, e2⟩ := scMontMul_spec (a := scUnpack lo) (b := scUnpack montR)
    (by rw [packLo, unpackR]; exact Nat.mul_lt_mul'' (by omega) (by decide))
  rw [packHi, unpackRR] at e1
  rw [packLo, unpackR] at e2
  rw [scReduceWide, ← hhi, ← hlo, scAdd_spec l1 l2]
  generalize scPack (scMontMul (scUnpack hi) (scUnpack montRR)) = x at *
  generalize scPack (scMontMul (scUnpack lo) (scUnpack montR)) = y at *
  have hx : x ≡ hi * (2 ^ 52) ^ 5 [MOD groupOrder] := by
    refine Nat.ModEq.cancel_right_of_coprime coprime_radix (e1.trans ?_)
    rw [mul_assoc]
    exact montRR_mod.mul_left hi
  have hy : y ≡ lo [MOD groupOrder] :=
    Nat.ModEq.cancel_right_of_coprime coprime_radix (e2.trans (montR_mod.mul_left lo))
  rw [split]
  exact hx.add hy

end Sys2Proof.Machine
end

section
/-! The statement settled about the batch commands (O55), with the digest's scalar as a residue mod l. -/

namespace Sys2Proof.Machine

variable {s : State}

/-- The scalar of a digest is its residue mod l (R211, R392). -/
theorem hashScalar_eq (b : List Byte) : hashScalar b = digestMod b := by
  refine scReduceWide_eq (lt_of_lt_of_eq (le_lt _) ?_)
  rw [length_hashBytes, show 256 = 2 ^ 8 from rfl, ← pow_mul]

theorem getElem_readBytes (m : Memory) : ∀ (n a j : Nat) (h : j < (m.readBytes a n).length),
    (m.readBytes a n)[j] = m.read (a + j)
  | 0, _, _, h => absurd h (Nat.not_lt_zero _)
  | _ + 1, _, 0, _ => rfl
  | n + 1, a, j + 1, h => by
    simp only [Memory.readBytes, List.getElem_cons_succ]
    rw [getElem_readBytes m n, Nat.add_right_comm, Nat.add_assoc]

/-- A part of a block is a block (R10, R81). -/
theorem slice_readBytes (m : Memory) {a n o k : Nat} (h : o + k ≤ n) :
    slice (m.readBytes a n) o k = m.readBytes (a + o) k := by
  refine List.ext_getElem ?_ fun j h1 h2 => ?_
  · simp only [slice, List.length_take, List.length_drop, Memory.length_readBytes]
    omega
  · simp only [slice, List.getElem_take, List.getElem_drop, getElem_readBytes, Nat.add_assoc]

theorem batchEntry_rejects {vrncs : Bool} {ab rb sb : List Byte}
    (h : edDecompress ab = none ∨ edDecompress rb = none ∨ groupOrder ≤ le sb ∧ vrncs = true) :
    batchEntry vrncs ab rb sb = none := by
  unfold batchEntry
  split
  next hA hR =>
    simp only [hA, hR, reduceCtorEq, false_or] at h
    exact if_pos h
  · rfl

theorem batchEntry_takes {vrncs : Bool} {ab rb sb : List Byte} {A R : Ext} (hA : edDecompress ab = some A)
    (hR : edDecompress rb = some R) (h : ¬ (groupOrder ≤ le sb ∧ vrncs = true)) :
    batchEntry vrncs ab rb sb = some (A, R, le sb % groupOrder) := by
  unfold batchEntry
  rw [hA, hR]
  exact if_neg h

theorem batchTake_rejects {t m : List Byte}
    (h : batchEntry s.knobs.vrncs (slice t 0 32) (slice t 32 32) (slice t 64 32) = none) :
    batchTake t m s =
      (s.setBatch { s.batch with count := s.batch.count + 1, ok := false }).setResult .invalidEncoding := by
  unfold batchTake
  dsimp only
  rw [h]

theorem batchTake_takes {t m : List Byte} {A R : Ext} {n : Nat}
    (h : batchEntry s.knobs.vrncs (slice t 0 32) (slice t 32 32) (slice t 64 32) = some (A, R, n)) :
    batchTake t m s = (s.setBatch (batchAccumulate { s.batch with count := s.batch.count + 1 } A R n
      (hashScalar (slice t 32 32 ++ slice t 0 32 ++ m)) (le (s.rngBytes 16)))).noteDraw.setResult .ok := by
  unfold batchTake
  dsimp only
  rw [h]

theorem faultOf_batchOff {i : Instr} (gated : gatedByBatch i = true) (off : s.batchOn = false) :
    faultOf i s = some .illegal := if_pos (by simp [illegalNow, gated, off])

theorem faultOf_batchIdle {i : Instr} (legal : illegalNow i s = false) (idle : sequenceNow i s = true) :
    faultOf i s = some .sequence := by
  simp [faultOf, legal, idle]

/-- Settles O55: the gates in the order of R477, then what each command does with the accumulator. -/
theorem batchCommands : Obligations.BatchCommands := by
  unfold Obligations.BatchCommands
  intro s cd addr
  refine ⟨fun on => ⟨?_, fun active => ⟨fun room msg => ?_, _, rfl, ?_⟩, fun idle => ⟨?_, ?_⟩⟩,
    fun off => ⟨?_, ?_, ?_⟩⟩
  · simp only [exec_vbbegin, execVbbegin, require_true on, bind_ok, pure_ok, complete_ok]
  · have run : exec (.vbadd addr) s = .next (batchTake (s.dm.readBytes addr.toNat 96) s.msgBytes s).retire := by
      simp only [exec_vbadd, execVbadd, require_true on, require_true active, memRead_in room, msg_in msg, bind_ok,
        pure_ok,
        complete_ok]
    have a0 : slice (s.dm.readBytes addr.toNat 96) 0 32 = s.dm.readBytes addr.toNat 32 :=
      slice_readBytes s.dm (by decide)
    have a1 : slice (s.dm.readBytes addr.toNat 96) 32 32 = s.dm.readBytes (addr.toNat + 32) 32 :=
      slice_readBytes s.dm (by decide)
    have a2 : slice (s.dm.readBytes addr.toNat 96) 64 32 = s.dm.readBytes (addr.toNat + 64) 32 :=
      slice_readBytes s.dm (by decide)
    dsimp only
    rw [run]
    refine ⟨fun rejected => ?_, fun A R hA hR inRange => ?_⟩
    · rw [batchTake_rejects]
      rw [a0, a1, a2]
      exact batchEntry_rejects rejected
    · rw [batchTake_takes (by rw [a0, a1, a2]; exact batchEntry_takes hA hR inRange), a0, a1, hashScalar_eq]
      rfl
  · simp only [exec_vbend, execVbend, require_true on, require_true active, bind_ok, pure_ok, complete_ok]
    rfl
  · exact exec_faults (faultOf_batchIdle (by simp [illegalNow, Instr.wellFormed, gatedByPrehash, on])
      (by simp [sequenceNow, idle]))
  · exact exec_faults (faultOf_batchIdle (by simp [illegalNow, Instr.wellFormed, gatedByPrehash, on])
      (by simp [sequenceNow, idle]))
  all_goals exact exec_faults (faultOf_batchOff rfl off)

end Sys2Proof.Machine
end

section
/-! The statements settled about memory operands: HASH (O23), FLD (O24) and FST (O25). -/

namespace Sys2Proof.Machine

variable {s : State}

/-- A region of the command outside DM raises E_ADDR when no earlier check of R477 decides. -/
theorem faultOf_outside {i : Instr} {a n : Nat} (hi : illegalNow i s = false) (hs : sequenceNow i s = false)
    (hu : unwrittenNow i s = false) (hc : contextTooLongNow i s = false) (region : (a, n) ∈ regions i s)
    (out : ¬ inDm a n) : faultOf i s = some .addr := by
  have outside : addrNow i s = true := List.any_eq_true.2 ⟨(a, n), region, decide_eq_true (not_le.1 out)⟩
  simp [faultOf, hi, hs, hu, hc, outside]

/-- Settles O23: the message is read in full before the write, so the regions may overlap. -/
theorem hashStoresTheDigest : Obligations.HashStoresTheDigest := by
  unfold Obligations.HashStoresTheDigest
  refine fun s addr => ⟨fun msg room => ?_, fun out => exec_faults ?_⟩
  · rw [exec_hash, execHash, msg_in msg, bind_ok, memWrite_in room, complete_ok, hashBytes]
  · rcases out with msg | block
    · exact faultOf_outside rfl rfl rfl rfl (.tail _ (.head _)) msg
    · exact faultOf_outside rfl rfl rfl rfl (.head _) block

/-- Each limb of a loaded element has 51 bits (R142). -/
theorem feFromBytes_limb_lt (b : List Byte) :
    ∀ l ∈ [(feFromBytes b).l0, (feFromBytes b).l1, (feFromBytes b).l2, (feFromBytes b).l3, (feFromBytes b).l4],
      l.toNat < 2 ^ 51 := by
  simp only [feFromBytes, Fe.ofNats, List.forall_mem_cons, BitVec.toNat_ofNat]
  refine ⟨?_, ?_, ?_, ?_, ?_, List.forall_mem_nil _⟩ <;>
    exact lt_of_le_of_lt (Nat.mod_le _ _) (Nat.mod_lt _ (by norm_num))

/-- Settles O24: `fe_from_bytes` drops bit 255 and keeps the rest. -/
theorem fieldLoad : Obligations.FieldLoad := by
  unfold Obligations.FieldLoad
  refine fun s fd addr => ⟨fun room => ⟨feFromBytes (s.dm.readBytes addr.toNat 32), ?_, ?_, feFromBytes_limb_lt _⟩,
    fun out => exec_faults (faultOf_outside rfl rfl rfl rfl (.head _) out)⟩
  · rw [exec_fld, execFld, memRead_in room, bind_ok, pure_ok, complete_ok]
  · exact feFromBytes_int (Memory.length_readBytes s.dm addr.toNat 32)

/-- Settles O25: the bytes stored are those of the reduced value (R152). -/
theorem fieldStore : Obligations.FieldStore := by
  unfold Obligations.FieldStore
  intro s fs addr ok bound room
  rw [exec_fst, execFst, readF_valid ok, bind_ok, memWrite_in room, complete_ok, feToBytes_eq bound]

end Sys2Proof.Machine
end

section
/-! SUPPORT. How a word's fields meet a row of the opcode map, and what the decoder answers on each row (R110 to R115). -/

namespace Sys2Proof

/-- Every field lies in its own bits of the word (R111). -/
structure Fields.Fits (f : Fields) : Prop where
  op : f.op < 256
  rd : f.rd < 16
  ra : f.ra < 16
  rb : f.rb < 16
  imm : f.imm < 4096

/-- The word with these fields. -/
def Fields.word (f : Fields) : Word := pack f.op f.rd f.ra f.rb f.imm

theorem Fields.ofWord_fits (w : Word) : (Fields.ofWord w).Fits := by
  have lt := w.isLt
  constructor <;> simp only [Fields.ofWord] <;> omega

theorem Fields.word_ofWord (w : Word) : (Fields.ofWord w).word = w := pack_ofWord w

theorem Fields.ofWord_injective : Function.Injective Fields.ofWord :=
  Function.LeftInverse.injective Fields.word_ofWord

/-- The fields of a masked word are the masked fields. -/
theorem Fields.ofWord_and (v w : Word) : Fields.ofWord (v &&& w) =
    ⟨(ofWord v).op &&& (ofWord w).op, (ofWord v).rd &&& (ofWord w).rd, (ofWord v).ra &&& (ofWord w).ra,
      (ofWord v).rb &&& (ofWord w).rb, (ofWord v).imm &&& (ofWord w).imm⟩ := by
  have nibble : 16 = 2 ^ 4 := rfl
  have imm : 4096 = 2 ^ 12 := rfl
  simp only [Fields.ofWord, BitVec.toNat_and, nibble, imm, Nat.and_div_two_pow, Nat.and_mod_two_pow]

/-- A mask of `n` bits that is ones above some bit and zeros below it. -/
abbrev HighMask (n m : Nat) : Prop := ∃ k < n + 1, m = 2 ^ n - 2 ^ k

/-- Under such a mask a field is zero when it is small, so the mask is a bound. -/
theorem and_highMask_eq_zero_iff {n m x : Nat} (hm : HighMask n m) (hx : x < 2 ^ n) : x &&& m = 0 ↔ x + m < 2 ^ n := by
  obtain ⟨k, hk, rfl⟩ := hm
  obtain ⟨d, rfl⟩ := Nat.exists_eq_add_of_le (Nat.le_of_lt_succ hk)
  have small : x / 2 ^ k < 2 ^ d := Nat.div_lt_of_lt_mul (pow_add 2 k d ▸ hx)
  have high : (x &&& (2 ^ (k + d) - 2 ^ k)) / 2 ^ k = x / 2 ^ k := by
    rw [pow_add, ← Nat.mul_sub_one, Nat.and_div_two_pow, Nat.mul_div_cancel_left _ (by positivity),
      Nat.and_two_pow_sub_one_eq_mod, Nat.mod_eq_of_lt small]
  have low : (x &&& (2 ^ (k + d) - 2 ^ k)) % 2 ^ k = 0 := by
    rw [pow_add, ← Nat.mul_sub_one, Nat.and_mod_two_pow, Nat.mul_mod_right, Nat.and_zero]
  have grow : 2 ^ k ≤ 2 ^ (k + d) := Nat.pow_le_pow_right two_pos (Nat.le_add_right k d)
  calc x &&& (2 ^ (k + d) - 2 ^ k) = 0 ↔ x / 2 ^ k = 0 := by
        rw [← high]
        refine ⟨fun h => by rw [h, Nat.zero_div], fun h => ?_⟩
        exact Nat.eq_zero_of_dvd_of_div_eq_zero (Nat.dvd_of_mod_eq_zero low) h
    _ ↔ x < 2 ^ k := by simp [Nat.div_eq_zero_iff]
    _ ↔ x + (2 ^ (k + d) - 2 ^ k) < 2 ^ (k + d) := by omega

/-- The opcode of a row. -/
def Row.opcode (r : Row) : Nat := (Fields.ofWord r.pattern).op

/-- The form of every row: the pattern is a bare opcode, the mask holds the opcode and the high bits of each field. -/
abbrev Row.Regular (r : Row) : Prop :=
  r.pattern = pack r.opcode 0 0 0 0 ∧ (Fields.ofWord r.mask).op = 255 ∧ HighMask 4 (Fields.ofWord r.mask).rd ∧
    HighMask 4 (Fields.ofWord r.mask).ra ∧ HighMask 4 (Fields.ofWord r.mask).rb ∧ HighMask 12 (Fields.ofWord r.mask).imm

theorem opcodeRows_regular : ∀ r ∈ opcodeRows, r.Regular := by decide +kernel

theorem opcodeRows_opcode_nodup : (opcodeRows.map Row.opcode).Nodup := by decide +kernel

/-- The fields below the opcode keep the bounds that the row's mask sets (R113, R114). -/
def Row.Admits (r : Row) (f : Fields) : Prop :=
  f.rd + (Fields.ofWord r.mask).rd < 16 ∧ f.ra + (Fields.ofWord r.mask).ra < 16 ∧
    f.rb + (Fields.ofWord r.mask).rb < 16 ∧ f.imm + (Fields.ofWord r.mask).imm < 4096

/-- A word matches a regular row when its opcode is the row's and its other fields keep the bounds of the mask. -/
theorem Row.Regular.matches_iff {r : Row} (h : r.Regular) (w : Word) :
    w &&& r.mask = r.pattern ↔ (Fields.ofWord w).op = r.opcode ∧ r.Admits (Fields.ofWord w) := by
  obtain ⟨bare, maskOp, rd, ra, rb, imm⟩ := h
  have fits := Fields.ofWord_fits w
  have op : (Fields.ofWord w).op &&& 255 = (Fields.ofWord w).op :=
    (Nat.and_two_pow_sub_one_eq_mod _ 8).trans (Nat.mod_eq_of_lt fits.op)
  have pattern : Fields.ofWord r.pattern = ⟨r.opcode, 0, 0, 0, 0⟩ := by
    rw [bare]
    exact Fields.ofWord_pack (Fields.ofWord_fits _).op (by decide) (by decide) (by decide) (by decide)
  rw [← Fields.ofWord_injective.eq_iff, Fields.ofWord_and, pattern, Fields.mk.injEq, maskOp, op,
    and_highMask_eq_zero_iff rd fits.rd, and_highMask_eq_zero_iff ra fits.ra, and_highMask_eq_zero_iff rb fits.rb,
    and_highMask_eq_zero_iff imm fits.imm]
  exact Iff.rfl

/-- What the decoder does on a row: it answers one command for fields that keep the row's bounds, the command those
fields encode, and none for other fields. -/
def Row.Decoded (r : Row) : Prop :=
  ∀ f : Fields, f.Fits → f.op = r.opcode →
    ∃ j, (∀ i, decodeFields f = .ok i ↔ r.Admits f ∧ j = i) ∧ (r.Admits f → encode j = f.word)

section
variable {r : Row} {ok : Nat → Nat → Nat → Nat → Prop} [∀ rd ra rb imm, Decidable (ok rd ra rb imm)]
  {cmd : Nat → Nat → Nat → Nat → Instr}

/-- A line of the decoder does this when its condition is the mask's and its command is packed from the same fields. -/
theorem decoded_of_need
    (line : ∀ rd ra rb imm, decodeFields ⟨r.opcode, rd, ra, rb, imm⟩ = need (ok rd ra rb imm) (cmd rd ra rb imm))
    (bounds : ∀ rd ra rb imm, Fields.Fits ⟨r.opcode, rd, ra, rb, imm⟩ →
      (ok rd ra rb imm ↔ r.Admits ⟨r.opcode, rd, ra, rb, imm⟩) := by
        rintro rd ra rb imm ⟨-, hrd, hra, hrb, himm⟩
        simp only [Row.Admits, Fields.ofWord, BitVec.toNat_ofNat] at *
        omega)
    (packed : ∀ rd ra rb imm, Fields.Fits ⟨r.opcode, rd, ra, rb, imm⟩ → ok rd ra rb imm →
      encode (cmd rd ra rb imm) = Fields.word ⟨r.opcode, rd, ra, rb, imm⟩ := by
        rintro rd ra rb imm ⟨-, hrd, hra, hrb, himm⟩ h
        simp [Fields.word, encode, reg8_toNat, regF_toNat, constOf_val, Row.opcode, Fields.ofWord, *]) : r.Decoded := by
  rintro ⟨op, rd, ra, rb, imm⟩ fits rfl
  refine ⟨cmd rd ra rb imm, fun i => ?_, fun h => packed rd ra rb imm fits ((bounds rd ra rb imm fits).2 h)⟩
  rw [line, need_eq_ok, bounds rd ra rb imm fits]

end

theorem systemRows_decoded : ∀ r ∈ systemRows, r.Decoded := by
  simp only [systemRows, List.forall_mem_cons]
  exact ⟨decoded_of_need decodeFields_nop, decoded_of_need decodeFields_scrub, decoded_of_need decodeFields_cset,
    decoded_of_need decodeFields_cmov, decoded_of_need decodeFields_cnot, decoded_of_need decodeFields_cand,
    decoded_of_need decodeFields_cor, decoded_of_need decodeFields_cxor, decoded_of_need decodeFields_fclr,
    decoded_of_need decodeFields_sclr, decoded_of_need decodeFields_pclr, decoded_of_need decodeFields_cclr,
    decoded_of_need decodeFields_hash, List.forall_mem_nil _⟩

theorem fieldRows_decoded : ∀ r ∈ fieldRows, r.Decoded := by
  simp only [fieldRows, List.forall_mem_cons]
  exact ⟨decoded_of_need decodeFields_fld, decoded_of_need decodeFields_fst, decoded_of_need decodeFields_fmov,
    decoded_of_need decodeFields_fconst, decoded_of_need decodeFields_fadd, decoded_of_need decodeFields_fsub,
    decoded_of_need decodeFields_fneg, decoded_of_need decodeFields_fmul, decoded_of_need decodeFields_fsqr,
    decoded_of_need decodeFields_finv, decoded_of_need decodeFields_fpow58, decoded_of_need decodeFields_fsqrtr,
    decoded_of_need decodeFields_fcsel, decoded_of_need decodeFields_fcswap, decoded_of_need decodeFields_fcneg,
    decoded_of_need decodeFields_fred, decoded_of_need decodeFields_feq, decoded_of_need decodeFields_fisneg,
    decoded_of_need decodeFields_fiszero, List.forall_mem_nil _⟩

theorem scalarRows_decoded : ∀ r ∈ scalarRows, r.Decoded := by
  simp only [scalarRows, List.forall_mem_cons]
  exact ⟨decoded_of_need decodeFields_sld, decoded_of_need decodeFields_sldw, decoded_of_need decodeFields_sldc,
    decoded_of_need decodeFields_sldcl, decoded_of_need decodeFields_sst, decoded_of_need decodeFields_smov,
    decoded_of_need decodeFields_sconst, decoded_of_need decodeFields_sadd, decoded_of_need decodeFields_ssub,
    decoded_of_need decodeFields_sneg, decoded_of_need decodeFields_smul, decoded_of_need decodeFields_sinv,
    decoded_of_need decodeFields_smmul, decoded_of_need decodeFields_stom, decoded_of_need decodeFields_sfrm,
    decoded_of_need decodeFields_sred, decoded_of_need decodeFields_seq, decoded_of_need decodeFields_siscan,
    decoded_of_need decodeFields_srdx16, decoded_of_need decodeFields_snaf, List.forall_mem_nil _⟩

theorem pointRows_decoded : ∀ r ∈ pointRows, r.Decoded := by
  simp only [pointRows, List.forall_mem_cons]
  exact ⟨decoded_of_need decodeFields_pid, decoded_of_need decodeFields_pbase, decoded_of_need decodeFields_pmov,
    decoded_of_need decodeFields_pneg, decoded_of_need decodeFields_pdbl, decoded_of_need decodeFields_padd,
    decoded_of_need decodeFields_psub, decoded_of_need decodeFields_pmul8, decoded_of_need decodeFields_pcmp,
    decoded_of_need decodeFields_pdec, decoded_of_need decodeFields_peq, decoded_of_need decodeFields_pisid,
    decoded_of_need decodeFields_psmall, decoded_of_need decodeFields_ptorf, decoded_of_need decodeFields_ph2c,
    decoded_of_need decodeFields_ptom, decoded_of_need decodeFields_pfromm, List.forall_mem_nil _⟩

theorem engineRows_decoded : ∀ r ∈ engineRows, r.Decoded := by
  simp only [engineRows, List.forall_mem_cons]
  exact ⟨decoded_of_need decodeFields_pmulv, decoded_of_need decodeFields_pmulb, decoded_of_need decodeFields_pdsm,
    decoded_of_need decodeFields_pmac, decoded_of_need decodeFields_x25519, decoded_of_need decodeFields_xchk,
    decoded_of_need decodeFields_rdec, decoded_of_need decodeFields_renc, decoded_of_need decodeFields_req,
    decoded_of_need decodeFields_rell, decoded_of_need decodeFields_rh2g, List.forall_mem_nil _⟩

theorem ed25519Rows_decoded : ∀ r ∈ ed25519Rows, r.Decoded := by
  simp only [ed25519Rows, List.forall_mem_cons]
  exact ⟨decoded_of_need decodeFields_keygen, decoded_of_need decodeFields_keypub, decoded_of_need decodeFields_sign,
    decoded_of_need decodeFields_signctx, decoded_of_need decodeFields_signph, decoded_of_need decodeFields_signr,
    decoded_of_need decodeFields_keyclr, decoded_of_need decodeFields_verify,
    decoded_of_need decodeFields_verifyctx, decoded_of_need decodeFields_verifyph,
    decoded_of_need decodeFields_vbbegin, decoded_of_need decodeFields_vbadd, decoded_of_need decodeFields_vbend,
    List.forall_mem_nil _⟩

theorem opcodeRows_decoded : ∀ r ∈ opcodeRows, r.Decoded := by
  simp only [opcodeRows, List.forall_mem_append]
  exact ⟨⟨⟨⟨⟨systemRows_decoded, fieldRows_decoded⟩, scalarRows_decoded⟩, pointRows_decoded⟩, engineRows_decoded⟩,
    ed25519Rows_decoded⟩

/-- The decoder's last line: it takes no opcode outside the map (R110 step 1). -/
theorem opcode_mem_of_decodeFields {f : Fields} {i : Instr} (h : decodeFields f = .ok i) :
    ∃ r ∈ opcodeRows, f.op = r.opcode := by
  have listed : f.op ∈ opcodeRows.map Row.opcode := by
    unfold decodeFields at h
    split at h
    case h_94 => cases h
    all_goals rename_i op; rw [op]; decide
  obtain ⟨r, mem, op⟩ := List.mem_map.1 listed
  exact ⟨r, mem, op.symm⟩

/-- A word that decodes has the opcode of a row, keeps its bounds, and encodes the command (R110). -/
theorem decode_ok {w : Word} {i : Instr} (h : decode w = .ok i) :
    (∃ r ∈ opcodeRows, w &&& r.mask = r.pattern) ∧ encode i = w := by
  obtain ⟨r, mem, op⟩ := opcode_mem_of_decodeFields h
  obtain ⟨j, answers, packed⟩ := opcodeRows_decoded r mem _ (Fields.ofWord_fits w) op
  obtain ⟨admits, rfl⟩ := (answers i).1 h
  exact ⟨⟨r, mem, ((opcodeRows_regular r mem).matches_iff w).2 ⟨op, admits⟩⟩,
    (packed admits).trans (Fields.word_ofWord w)⟩

/-- A word that matches a row decodes. -/
theorem decode_of_matches {w : Word} {r : Row} (mem : r ∈ opcodeRows) (h : w &&& r.mask = r.pattern) :
    ∃ i, decode w = .ok i := by
  obtain ⟨op, admits⟩ := ((opcodeRows_regular r mem).matches_iff w).1 h
  obtain ⟨j, answers, -⟩ := opcodeRows_decoded r mem _ (Fields.ofWord_fits w) op
  exact ⟨j, (answers j).2 ⟨admits, rfl⟩⟩

/-- Two rows that match one word have its opcode, and no opcode is listed twice (R115). -/
theorem row_eq_of_matches {w : Word} {r r' : Row} (mem : r ∈ opcodeRows) (mem' : r' ∈ opcodeRows)
    (h : w &&& r.mask = r.pattern) (h' : w &&& r'.mask = r'.pattern) : r = r' := by
  obtain ⟨op, -⟩ := ((opcodeRows_regular r mem).matches_iff w).1 h
  obtain ⟨op', -⟩ := ((opcodeRows_regular r' mem').matches_iff w).1 h'
  exact List.inj_on_of_nodup_map opcodeRows_opcode_nodup mem mem' (op.symm.trans op')

end Sys2Proof
end

section
/-! The statements settled about the encoding: decoding and encoding are inverse (O1, O2), the opcode map (O3) and the
worked encodings (O4). -/

namespace Sys2Proof

/-- A command decodes to itself when its operands fit their fields and its line of the decoder reads them back. -/
theorem decode_encode_of_line {i j : Instr} {op rd ra rb imm : Nat} {ok : Prop} [Decidable ok]
    (packed : encode i = pack op rd ra rb imm) (line : decodeFields ⟨op, rd, ra, rb, imm⟩ = need ok j)
    (fits : Fields.Fits ⟨op, rd, ra, rb, imm⟩) (zeros : ok) (same : j = i) : decode (encode i) = .ok i := by
  rw [packed, decode, Fields.ofWord_pack fits.op fits.rd fits.ra fits.rb fits.imm, line, need_eq_ok.2 ⟨zeros, same⟩]

/-- Settles O1: every operand fits its field and its line's condition, and a register or a constant read from its own
number is itself. -/
theorem decodeOfEncode : Obligations.DecodeOfEncode := by
  unfold Obligations.DecodeOfEncode
  intro i
  cases i <;>
  · refine decode_encode_of_line rfl rfl ?fits ?zeros ?same
    case fits => constructor <;> dsimp only <;> omega
    case zeros => dsimp only <;> omega
    case same => simp only [reg8_val, regF_val, constOf_toNat]

/-- Settles O2: the row of the word's opcode packs the command from the word's own fields. -/
theorem encodeOfDecode : Obligations.EncodeOfDecode := by
  unfold Obligations.EncodeOfDecode
  exact fun w i h => (decode_ok h).2

/-- Settles O3: a mask is a bound on each field, and these bounds are the decoder's conditions. -/
theorem decodeAcceptsTheRows : Obligations.DecodeAcceptsTheRows := by
  unfold Obligations.DecodeAcceptsTheRows
  refine ⟨fun w => ⟨fun ⟨i, h⟩ => (decode_ok h).1, fun ⟨r, mem, h⟩ => decode_of_matches mem h⟩, ?_⟩
  exact fun w r mem r' mem' => row_eq_of_matches mem mem'

/-- A word that no row's mask takes is no command. -/
theorem decode_ne_ok {w : Word} (h : ∀ r ∈ opcodeRows, w &&& r.mask ≠ r.pattern) (i : Instr) : decode w ≠ .ok i := by
  intro ok
  obtain ⟨⟨r, mem, taken⟩, -⟩ := decode_ok ok
  exact h r mem taken

/-- Settles O4: the words are closed, no row's mask takes the five illegal ones, and the range check of FCONST is its
meaning's (log 6). -/
theorem workedEncodings : Obligations.WorkedEncodings := by
  unfold Obligations.WorkedEncodings
  refine ⟨by decide +kernel, ?_, rfl, fun s => Machine.fconst_illegal s 0 (by decide)⟩
  simp only [List.forall_mem_cons]
  exact ⟨decode_ne_ok (by decide +kernel), decode_ne_ok (by decide +kernel), decode_ne_ok (by decide +kernel),
    decode_ne_ok (by decide +kernel), decode_ne_ok (by decide +kernel), List.forall_mem_nil _⟩

end Sys2Proof
end

section
/-! The statements settled about the field unit: sums (O27), products (O28), powers (O29), square roots of ratios (O30),
choices (O31), reduction and tests (O32). -/

namespace Sys2Proof.Machine

variable {s : State}

/-- The value of an element is the residue of any integer equal to it in GF(p) (R31). -/
theorem gf_eq_natCast_iff {x : Fe} {n : Nat} : x.gf = n ↔ feVal x = n % fieldPrime := ZMod.natCast_eq_natCast_iff' ..

/-- A negation and its source add up to 0 mod p (R147). -/
theorem feNeg_add_self {a : Fe} (ha : a.bounded) : (feVal (feNeg a) + feVal a) % fieldPrime = 0 := by
  rw [← Nat.dvd_iff_mod_eq_zero, ← ZMod.natCast_eq_zero_iff, Nat.cast_add, feVal_cast, feVal_cast, feNeg_gf ha,
    neg_add_cancel]

/-- Settles O27: each value is read off the sum, difference or negation in GF(p). -/
theorem fieldAddSubNeg : Obligations.FieldAddSubNeg := by
  unfold Obligations.FieldAddSubNeg
  refine fun s fd fa fb oka ba => ⟨fun okb bb =>
    ⟨⟨_, field2_next oka okb, feAdd_bounded ba bb, ?_⟩, ⟨_, field2_next oka okb, feSub_bounded ba, ?_⟩⟩,
    ⟨_, field1_next oka, feNeg_bounded _, feNeg_add_self ba⟩⟩
  · rw [← gf_eq_natCast_iff, feAdd_gf ba bb, Nat.cast_add, feVal_cast, feVal_cast]
  · rw [eq_comm, ← gf_eq_natCast_iff, Nat.cast_add, feVal_cast, feVal_cast, feSub_gf ba bb, sub_add_cancel]

/-- Settles O28: the square's columns are those of the product with itself (R150). -/
theorem fieldMulSquare : Obligations.FieldMulSquare := by
  unfold Obligations.FieldMulSquare
  refine fun s fd fa fb oka ba => ⟨fun okb bb => ⟨_, field2_next oka okb, feMul_bounded .., ?_⟩,
    ⟨_, field1_next oka, feSq_bounded _, ?_⟩, ?_⟩
  · rw [← gf_eq_natCast_iff, feMul_gf ba bb, Nat.cast_mul, feVal_cast, feVal_cast]
  · rw [← gf_eq_natCast_iff, feSq_gf ba, Nat.cast_pow, feVal_cast]
  · rw [exec_fsqr, exec_fmul, execFsqr, execFmul, field1_next oka, field2_next oka oka, feSq_eq_feMul]

/-- Settles O29: the exponents are those of the two addition chains (R155 to R157). -/
theorem fieldPowers : Obligations.FieldPowers := by
  unfold Obligations.FieldPowers
  refine fun s fd fa ok b => ⟨⟨_, field1_next ok, feInv_bounded _, feInv_gf b, fun zero => ?_⟩,
    ⟨_, field1_next ok, fePow58_bounded _, fePow58_gf b⟩⟩
  rw [← gf_eq_zero_iff] at zero ⊢
  rw [feInv_gf b, zero, zero_pow (by norm_num)]

/-- Flag 1 comes with a root of the ratio (R159). -/
theorem sqrtRatioI_root {u v : Fe} (hu : u.bounded) (hv : v.bounded) (h : (sqrtRatioI u v).1 = true) :
    v.gf * (sqrtRatioI u v).2.gf ^ 2 = u.gf := by
  obtain ⟨-, nonzero, uzero, vzero⟩ := sqrtRatioI_spec hu hv
  by_cases u0 : u.gf = 0
  · rw [(uzero u0).2, u0, zero_pow two_ne_zero, mul_zero]
  by_cases v0 : v.gf = 0
  · simp [(vzero u0 v0).1] at h
  obtain ⟨-, root⟩ | ⟨flag, -⟩ := nonzero u0 v0
  · exact root
  · simp [flag] at h

/-- The flag says whether the ratio has a root (R159). -/
theorem sqrtRatioI_flag_iff {u v : Fe} (hu : u.bounded) (hv : v.bounded) :
    (sqrtRatioI u v).1 = true ↔ ∃ x : ZMod fieldPrime, v.gf * x ^ 2 = u.gf := by
  refine ⟨fun h => ⟨_, sqrtRatioI_root hu hv h⟩, fun ⟨x, root⟩ => ?_⟩
  by_contra flag
  exact sqrtRatioI_nonsquare hu hv (Bool.eq_false_of_not_eq_true flag) x root

theorem fsqrtr_next {fd fa fb : FIdx} {cd : CIdx} (ha : s.fOk fa) (hb : s.fOk fb) :
    exec (.fsqrtr fd cd fa fb) s = .next ((s.writeF fd (sqrtRatioI (s.fv fa) (s.fv fb)).2).writeC cd
      (sqrtRatioI (s.fv fa) (s.fv fb)).1).retire := by
  simp only [exec_fsqrtr, execFsqrtr, readF_valid ha, readF_valid hb, bind_ok, pure_ok, complete_ok]

/-- Settles O30: the contract of `sqrt_ratio_i` and its corner cases, as values. -/
theorem fieldSquareRoot : Obligations.FieldSquareRoot := by
  unfold Obligations.FieldSquareRoot
  intro s fd fa fb cd oka okb ba bb
  obtain ⟨even, nonzero, uzero, vzero⟩ := sqrtRatioI_spec ba bb
  simp only [gf_eq_zero_iff, ne_eq] at nonzero uzero vzero
  refine ⟨_, _, fsqrtr_next oka okb, sqrtRatioI_bounded .., even, fun flag => ?_, uzero, vzero,
    fun _ => sqrtRatioI_flag_iff ba bb, fun u0 v0 flag => ?_⟩
  · rw [eq_comm, ← gf_eq_natCast_iff, Nat.cast_mul, Nat.cast_pow, feVal_cast, feVal_cast, sqrtRatioI_root ba bb flag]
  · obtain ⟨set, -⟩ | ⟨-, root⟩ := nonzero u0 v0
    · simp [flag] at set
    · exact root

theorem fcsel_next {fd fa fb : FIdx} {cc : CIdx} (ha : s.fOk fa) (hb : s.fOk fb) (hc : s.cOk cc) :
    exec (.fcsel fd fa fb cc) s = .next (s.writeF fd (if s.cv cc then s.fv fb else s.fv fa)).retire := by
  simp only [exec_fcsel, execFcsel, readF_valid ha, readF_valid hb, readC_valid hc, bind_ok, pure_ok, complete_ok,
    feSel_eq]

theorem fcswap_next {fa fb : FIdx} {cc : CIdx} (ha : s.fOk fa) (hb : s.fOk fb) (hc : s.cOk cc) :
    exec (.fcswap fa fb cc) s = .next ((s.writeF fa (if s.cv cc then s.fv fb else s.fv fa)).writeF fb
      (if s.cv cc then s.fv fa else s.fv fb)).retire := by
  simp only [exec_fcswap, execFcswap, readF_valid ha, readF_valid hb, readC_valid hc, bind_ok, pure_ok, complete_ok,
    feSel_eq]

theorem fcneg_next {fd fa : FIdx} {cc : CIdx} (ha : s.fOk fa) (hc : s.cOk cc) :
    exec (.fcneg fd fa cc) s = .next (s.writeF fd (if s.cv cc then feNeg (s.fv fa) else s.fv fa)).retire := by
  simp only [exec_fcneg, execFcneg, readF_valid ha, readC_valid hc, bind_ok, pure_ok, complete_ok, feCneg, feSel_eq]

/-- The field registers after two writes, which give one value where they name one register. -/
theorem get_writeF_writeF {fa fb : FIdx} {x y : Fe} (agree : fb = fa → y = x) :
    ((s.writeF fa x).writeF fb y).fReg.get fa = ⟨x, true⟩ ∧ ((s.writeF fa x).writeF fb y).fReg.get fb = ⟨y, true⟩ ∧
      ∀ r, r ≠ fa → r ≠ fb → ((s.writeF fa x).writeF fb y).fReg.get r = s.fReg.get r := by
  simp only [State.writeF_fReg, get_set_fin, if_true]
  refine ⟨?_, trivial, fun r ra rb => by rw [if_neg rb.symm, if_neg ra.symm]⟩
  by_cases same : fb = fa
  · rw [if_pos same, agree same]
  · rw [if_neg same]

/-- Settles O31: the mask selects whole limbs (R154), so the choice bit decides between the two sources. -/
theorem fieldSelect : Obligations.FieldSelect := by
  unfold Obligations.FieldSelect
  refine fun s fd fa fb cc oka okc => ⟨fun okb => ⟨fcsel_next oka okb okc, _, fcswap_next oka okb okc,
    get_writeF_writeF fun same => by rw [same]⟩, fun b => ⟨_, fcneg_next oka okc, fun off => ?_, fun on => ?_⟩⟩
  · rw [off, if_neg Bool.false_ne_true]
  · rw [on, if_pos rfl, feNeg_add_self b]

/-- The reduction gives canonical limbs (R31, R151). -/
theorem feCanon_canonical {x : Fe} (hx : x.bounded) : (feCanon x).canonical := by
  have below : feInt (feCanon x) < fieldPrime := feCanon_int hx ▸ feVal_lt x
  have limb (n : Nat) : (BitVec.ofNat 64 (n % 2 ^ 51)).toNat < 2 ^ 51 := by rw [BitVec.toNat_ofNat]; omega
  exact ⟨limb _, limb _, limb _, limb _, limb _, below⟩

theorem feEq_eq_decide {a b : Fe} (ha : a.bounded) (hb : b.bounded) : feEq a b = decide (feVal a = feVal b) :=
  Bool.eq_iff_iff.2 (by rw [feEq_iff ha hb, gf_eq_iff, decide_eq_true_iff])

theorem feIsNeg_eq_decide {a : Fe} (ha : a.bounded) : feIsNeg a = decide (feVal a % 2 = 1) :=
  Bool.eq_iff_iff.2 (by rw [feIsNeg_iff ha, decide_eq_true_iff])

theorem feIsZero_eq_decide {a : Fe} (ha : a.bounded) : feIsZero a = decide (feVal a = 0) :=
  Bool.eq_iff_iff.2 (by rw [feIsZero_iff ha, gf_eq_zero_iff, decide_eq_true_iff])

theorem feq_next {cd : CIdx} {fa fb : FIdx} (ha : s.fOk fa) (hb : s.fOk fb) :
    exec (.feq cd fa fb) s = .next (s.writeC cd (feEq (s.fv fa) (s.fv fb))).retire := by
  simp only [exec_feq, execFeq, readF_valid ha, readF_valid hb, bind_ok, pure_ok, complete_ok]

/-- Settles O32: the tests compare canonical bytes (R153), so they depend on the values alone. -/
theorem fieldReduceAndTest : Obligations.FieldReduceAndTest := by
  unfold Obligations.FieldReduceAndTest
  refine fun s fd fa fb cd oka ba => ⟨⟨_, field1_next oka, feCanon_canonical ba, feCanon_int ba⟩,
    fun okb bb => ?_, ?_, ?_⟩
  · rw [feq_next oka okb, feEq_eq_decide ba bb]
  · rw [exec_fisneg, execFisneg, fieldTest_next oka, feIsNeg_eq_decide ba]
  · rw [exec_fiszero, execFiszero, fieldTest_next oka, feIsZero_eq_decide ba]

end Sys2Proof.Machine
end

section
/-! SUPPORT. The integers the scalar unit computes: its Montgomery products and conversions, the residues mod l its
commands write, and the clamped scalar (41_scalar.md R203 to R216). -/

namespace Sys2Proof.Machine

theorem montgomery_radix : 2 ^ 260 = (2 ^ 52) ^ 5 := by rw [← pow_mul]

theorem groupOrder_lt_radix : groupOrder < 2 ^ 260 := (Nat.le_add_left _ _).trans_lt groupOrder_double_lt

theorem scPack_scUnpack_of_lt {n : Nat} (h : n < 2 ^ 260) : scPack (scUnpack n) = n := by
  rw [scPack_scUnpack, Nat.mod_eq_of_lt h]

theorem scPack_unpackRR : scPack (scUnpack montRR) = montRR := by decide

theorem scPack_unpackR : scPack (scUnpack montR) = montR := by decide

/-- The room the reduction of R206 leaves for a product with a residue. -/
theorem product_room {a b : Nat} (ha : a < 2 ^ 260) (hb : b < groupOrder) : a * b < (2 ^ 52) ^ 5 * groupOrder := by
  rw [← montgomery_radix]
  exact Nat.mul_lt_mul'' ha hb

/-- The factor 2^260 of both sides cancels, l being odd. -/
theorem eq_mod_groupOrder {n v : Nat} (lt : n < groupOrder)
    (h : n * (2 ^ 52) ^ 5 ≡ v * (2 ^ 52) ^ 5 [MOD groupOrder]) : n = v % groupOrder :=
  (Nat.mod_eq_of_lt lt).symm.trans (Nat.ModEq.cancel_right_of_coprime coprime_radix h)

/-- `x` is the Montgomery form of v: v·2^260 mod l, reduced (R208). -/
def Sc.mont (x : Sc) (v : Nat) : Prop := scPack x < groupOrder ∧ scPack x ≡ v * (2 ^ 52) ^ 5 [MOD groupOrder]

/-- The product of two Montgomery forms is the form of the product (R207). -/
theorem Sc.mont.mul {x y : Sc} {v w : Nat} (hx : x.mont v) (hy : y.mont w) : (scMontMul x y).mont (v * w) := by
  obtain ⟨lx, ex⟩ := hx
  obtain ⟨ly, ey⟩ := hy
  obtain ⟨lt, eq⟩ := scMontMul_spec (product_room (lx.trans groupOrder_lt_radix) ly)
  refine ⟨lt, Nat.ModEq.cancel_right_of_coprime coprime_radix ?_⟩
  calc scPack (scMontMul x y) * (2 ^ 52) ^ 5 ≡ scPack x * scPack y [MOD groupOrder] := eq
    _ ≡ v * (2 ^ 52) ^ 5 * (w * (2 ^ 52) ^ 5) [MOD groupOrder] := ex.mul ey
    _ = v * w * (2 ^ 52) ^ 5 * (2 ^ 52) ^ 5 := by ring

/-- The product with R^2 enters Montgomery form (R208). -/
theorem scMontMul_montRR {x : Sc} (h : scPack x < 2 ^ 260) : (scMontMul x (scUnpack montRR)).mont (scPack x) := by
  obtain ⟨lt, eq⟩ := scMontMul_spec (a := x) (b := scUnpack montRR)
    (by rw [scPack_unpackRR]; exact product_room h (by decide))
  rw [scPack_unpackRR] at eq
  refine ⟨lt, Nat.ModEq.cancel_right_of_coprime coprime_radix (eq.trans ?_)⟩
  rw [mul_assoc]
  exact montRR_mod.mul_left _

/-- The product with 1 leaves Montgomery form (R208). -/
theorem Sc.mont.leave {x : Sc} {v : Nat} (h : x.mont v) : scPack (scMontMul x ⟨1, 0, 0, 0, 0⟩) = v % groupOrder := by
  obtain ⟨lx, ex⟩ := h
  obtain ⟨lt, eq⟩ := scMontMul_spec (a := x) (b := ⟨1, 0, 0, 0, 0⟩)
    (product_room (lx.trans groupOrder_lt_radix) (by decide))
  rw [show scPack ⟨1, 0, 0, 0, 0⟩ = 1 by decide, mul_one] at eq
  exact eq_mod_groupOrder lt (eq.trans ex)

theorem montR_mont : (scUnpack montR).mont 1 := by
  rw [Sc.mont, scPack_unpackR, one_mul]
  exact ⟨by decide, montR_mod⟩

/-- `to_mont` (R208). -/
theorem toMont_eq {n : Nat} (h : n < 2 ^ 260) : toMont n = n * 2 ^ 260 % groupOrder := by
  obtain ⟨lt, eq⟩ := scMontMul_montRR ((scPack_scUnpack_of_lt h).symm ▸ h)
  rw [scPack_scUnpack_of_lt h, ← montgomery_radix] at eq
  exact (Nat.mod_eq_of_lt lt).symm.trans eq

/-- The raw Montgomery product of integers (R207). -/
theorem scMontMulInt_spec {a b : Nat} (ha : a < 2 ^ 255) (hb : b < 2 ^ 255) :
    scMontMulInt a b < groupOrder ∧ scMontMulInt a b * (2 ^ 52) ^ 5 ≡ a * b [MOD groupOrder] := by
  have packA : scPack (scUnpack a) = a := scPack_scUnpack_of_lt (by omega)
  have packB : scPack (scUnpack b) = b := scPack_scUnpack_of_lt (by omega)
  have room : 2 ^ 255 * 2 ^ 255 ≤ (2 ^ 52) ^ 5 * groupOrder := by decide
  have spec := scMontMul_spec (a := scUnpack a) (b := scUnpack b)
    (by rw [packA, packB]; exact (Nat.mul_lt_mul'' ha hb).trans_le room)
  rwa [packA, packB] at spec

/-- `from_mont` is the raw product with 1 (R208). -/
theorem fromMont_eq_scMontMulInt (n : Nat) : fromMont n = scMontMulInt n 1 := rfl

/-- `sc_mul` (R209): the second product brings back the factor the first took out. -/
theorem scMul_eq {a b : Nat} (ha : a < 2 ^ 255) (hb : b < 2 ^ 255) : scMul a b = a * b % groupOrder := by
  obtain ⟨lt, once⟩ := scMontMulInt_spec ha hb
  obtain ⟨below, twice⟩ := scMontMul_montRR (lt.trans groupOrder_lt_radix)
  exact (Nat.mod_eq_of_lt below).symm.trans (twice.trans once)

/-- `sc_reduce` (R210). -/
theorem scReduce_eq {n : Nat} (h : n < 2 ^ 260) : scReduce n = n % groupOrder := by
  obtain ⟨lt, eq⟩ := scMontMul_spec (a := scUnpack n) (b := scUnpack montR)
    (by rw [scPack_scUnpack_of_lt h, scPack_unpackR]; exact product_room h (by decide))
  rw [scPack_scUnpack_of_lt h, scPack_unpackR] at eq
  exact eq_mod_groupOrder lt (eq.trans (montR_mod.mul_left n))

/-- The sum of residues (R204). -/
theorem scAddInt_eq {a b : Nat} (ha : a < groupOrder) (hb : b < groupOrder) :
    scAddInt a b = (a + b) % groupOrder := by
  have packA := scPack_scUnpack_of_lt (ha.trans groupOrder_lt_radix)
  have packB := scPack_scUnpack_of_lt (hb.trans groupOrder_lt_radix)
  rw [scAddInt, scAdd_spec (packA.symm ▸ ha) (packB.symm ▸ hb), packA, packB]

theorem scUnpack_small (n : Nat) : (scUnpack n).small := mask_small ..

/-- The difference of residues (R203). -/
theorem scSubInt_spec {a b : Nat} (ha : a < groupOrder) (hb : b < groupOrder) :
    scSubInt a b < groupOrder ∧ scSubInt a b + b ≡ a [MOD groupOrder] := by
  have spec := scSub_spec (scUnpack_small a) (scUnpack_small b)
  rw [scPack_scUnpack_of_lt (ha.trans groupOrder_lt_radix),
    scPack_scUnpack_of_lt (hb.trans groupOrder_lt_radix)] at spec
  obtain ⟨lt, eq | eq⟩ := spec (hb.le.trans (Nat.le_add_left ..)) (ha.trans_le (Nat.le_add_left ..))
  · exact ⟨lt, congrArg (· % groupOrder) eq⟩
  · exact ⟨lt, (congrArg (· % groupOrder) eq).trans (Nat.add_mod_right ..)⟩

/-- Square-and-multiply over the bits of l - 2 (R216): from a power with exponent (l-2)/2^i to the exponent l - 2. -/
theorem scInvLoop_mont {x : Sc} {v : Nat} (hx : x.mont v) : ∀ (i : Nat) (acc : Sc),
    acc.mont (v ^ ((groupOrder - 2) / 2 ^ i)) → (scInvLoop x i acc).mont (v ^ (groupOrder - 2))
  | 0, acc, h => by rwa [pow_zero, Nat.div_one] at h
  | i + 1, acc, h => by
    rw [scInvLoop]
    refine scInvLoop_mont hx i _ ?_
    have square := h.mul h
    rw [pow_succ, ← Nat.div_div_eq_div_mul, ← pow_add] at square
    rw [Nat.testBit_eq_decide_div_mod_eq]
    generalize (groupOrder - 2) / 2 ^ i = e at square ⊢
    by_cases odd : e % 2 = 1
    · rw [if_pos (decide_eq_true odd)]
      have next := square.mul hx
      rwa [← pow_succ, show e / 2 + e / 2 + 1 = e by omega] at next
    · rw [if_neg (by simpa using odd)]
      rwa [show e / 2 + e / 2 = e by omega] at square

/-- `sc_inv` (R215, R216). -/
theorem scInv_eq {n : Nat} (h : n < 2 ^ 260) : scInv n = n ^ (groupOrder - 2) % groupOrder := by
  have residue : n % groupOrder < 2 ^ 260 := (Nat.mod_lt _ (by decide)).trans groupOrder_lt_radix
  have enter := scMontMul_montRR ((scPack_scUnpack_of_lt residue).symm ▸ residue)
  rw [scPack_scUnpack_of_lt residue] at enter
  have start : (scUnpack montR).mont ((n % groupOrder) ^ ((groupOrder - 2) / 2 ^ 253)) := by
    rw [show (groupOrder - 2) / 2 ^ 253 = 0 by decide, pow_zero]
    exact montR_mont
  rw [scInv, scReduce_eq h, (scInvLoop_mont enter 253 _ start).leave, ← Nat.pow_mod]

/-- Clamping bit by bit (R213). -/
theorem testBit_clampInteger (n j : Nat) :
    (clampInteger n).testBit j = if j < 3 then false else if j < 254 then n.testBit j else decide (j = 254) := by
  have kept : n % 2 ^ 254 / 8 * 8 < 2 ^ 254 := by omega
  have split := Nat.testBit_two_pow_mul_add 1 kept j
  rw [mul_one] at split
  rw [clampInteger, add_comm, split]
  by_cases high : j < 254
  · rw [if_pos high, if_pos high, show 8 = 2 ^ 3 from rfl, Nat.testBit_mul_two_pow, Nat.testBit_div_two_pow,
      Nat.testBit_mod_two_pow]
    by_cases low : j < 3
    · simp [low]
    · simp [low, high, show j - 3 + 3 = j by omega, not_lt.1 low]
  · rw [if_neg high, if_neg high, if_neg (by omega), Bool.eq_iff_iff,
      Nat.testBit_one_eq_true_iff_self_eq_zero, decide_eq_true_iff]
    omega

theorem clampInteger_clampInteger (n : Nat) : clampInteger (clampInteger n) = clampInteger n := by
  unfold clampInteger
  omega

end Sys2Proof.Machine
end

section
/-! The statements settled about the scalar unit: loads (O33), sums (O34), products (O35), the inverse (O36), moves and
comparisons (O37). -/

namespace Sys2Proof.Machine

variable {s : State}

theorem sv_lt (s : State) (r : SIdx) : s.sv r < 2 ^ 255 := (s.sReg.get r).val.isLt

theorem sv_lt_radix (s : State) (r : SIdx) : s.sv r < 2 ^ 260 := (sv_lt s r).trans (by omega)

theorem groupOrder_pos : 0 < groupOrder := by decide

/-- Settles O33: the three reductions by value, the clamp bit by bit. -/
theorem scalarLoads : Obligations.ScalarLoads := by
  unfold Obligations.ScalarLoads
  intro s sd cd addr room
  have short : le (s.dm.readBytes addr.toNat 32) < 2 ^ 260 := by
    have := le_lt (s.dm.readBytes addr.toNat 32)
    rw [Memory.length_readBytes] at this
    omega
  refine ⟨?_, fun wide => ?_, fun below => ?_, fun above => ?_, ?_⟩
  · rw [exec_sld, execSld, scalarLoad_next room, scReduce_eq short]
  · have long := le_lt (s.dm.readBytes addr.toNat 64)
    rw [Memory.length_readBytes] at long
    rw [exec_sldw, execSldw, scalarLoad_next wide, scReduceWide_eq (by omega)]
  · rw [exec_sldc, execSldc, memRead_in room, bind_ok, pure_ok, complete_ok, isCanonical,
      if_pos (decide_eq_true below)]
  · rw [exec_sldc, execSldc, memRead_in room, bind_ok, pure_ok, complete_ok, isCanonical,
      if_neg (by simpa using above)]
  · obtain ⟨low, high, octet⟩ := clampInteger_bounds (le (s.dm.readBytes addr.toNat 32))
    refine ⟨_, scalarLoad_next room, low, high, octet, fun j three top => ?_⟩
    rw [testBit_clampInteger, if_neg (not_lt.2 three), if_pos top]

/-- Settles O34: the sources are reduced first (R232 to R234), then added or subtracted as residues. -/
theorem scalarAddSubNeg : Obligations.ScalarAddSubNeg := by
  unfold Obligations.ScalarAddSubNeg
  intro s sd sa sb oka
  have lt (n : Nat) : n % groupOrder < groupOrder := Nat.mod_lt n groupOrder_pos
  refine ⟨fun okb => ⟨?_, ?_⟩, ?_, ?_⟩
  · rw [exec_sadd, execSadd, scalar2_next oka okb, scReduce_eq (sv_lt_radix s sa), scReduce_eq (sv_lt_radix s sb),
      scAddInt_eq (lt _) (lt _), ← Nat.add_mod]
  · obtain ⟨below, eq⟩ := scSubInt_spec (lt (s.sv sa)) (lt (s.sv sb))
    refine ⟨_, ?_, below, ?_⟩
    · rw [exec_ssub, execSsub, scalar2_next oka okb, scReduce_eq (sv_lt_radix s sa), scReduce_eq (sv_lt_radix s sb)]
    · exact (((Nat.mod_modEq _ _).symm.add_left _).trans eq).trans (Nat.mod_modEq _ _)
  · obtain ⟨below, eq⟩ := scSubInt_spec groupOrder_pos (lt (s.sv sa))
    refine ⟨_, ?_, below, ?_⟩
    · rw [exec_sneg, execSneg, scalar1_next oka, scReduce_eq (sv_lt_radix s sa), scNeg]
    · exact ((Nat.mod_modEq _ _).symm.add_left _).trans eq
  · rw [exec_sred, execSred, scalar1_next oka, scReduce_eq (sv_lt_radix s sa)]

/-- Settles O35: each result is pinned by its product with 2^260 (R207 to R209). -/
theorem scalarMulMontgomery : Obligations.ScalarMulMontgomery := by
  unfold Obligations.ScalarMulMontgomery
  intro s sd sa sb oka
  rw [montgomery_radix]
  refine ⟨fun okb => ⟨?_, ?_⟩, ?_, ?_⟩
  · rw [exec_smul, execSmul, scalar2_next oka okb, scMul_eq (sv_lt s sa) (sv_lt s sb)]
  · refine ⟨_, ?_, scMontMulInt_spec (sv_lt s sa) (sv_lt s sb)⟩
    rw [exec_smmul, execSmmul, scalar2_next oka okb]
  · rw [exec_stom, execStom, scalar1_next oka, toMont_eq (sv_lt_radix s sa), montgomery_radix]
  · obtain ⟨below, eq⟩ := scMontMulInt_spec (sv_lt s sa) (b := 1) (by norm_num)
    rw [mul_one] at eq
    refine ⟨_, ?_, below, eq⟩
    rw [exec_sfrm, execSfrm, scalar1_next oka, fromMont_eq_scMontMulInt]

/-- Stated for any exponent, so that no proof evaluates one of 253 bits. -/
theorem pow_mod_eq_zero {x m e : Nat} (h : x % m = 0) (he : e ≠ 0) : x ^ e % m = 0 :=
  Nat.mod_eq_zero_of_dvd (dvd_pow (Nat.dvd_of_mod_eq_zero h) he)

/-- Settles O36: the loop runs over the bits of l - 2 (R216). -/
theorem scalarInverse : Obligations.ScalarInverse := by
  unfold Obligations.ScalarInverse
  intro s sd sa oka
  refine ⟨(s.sv sa) ^ (groupOrder - 2) % groupOrder, ?_, Nat.mod_lt _ groupOrder_pos, ?_, fun zero => ?_⟩
  · rw [exec_sinv, execSinv, scalar1_next oka, scInv_eq (sv_lt_radix s sa)]
  · rw [ZMod.natCast_mod, Nat.cast_pow]
  · exact pow_mod_eq_zero zero (by decide)

/-- A register written with the integer of a valid one is a copy of it (R230). -/
theorem writeS_sv {sa : SIdx} (ok : s.sOk sa) (sd : SIdx) :
    s.writeS sd (s.sv sa) = { s with sReg := s.sReg.set sd (s.sReg.get sa) } := by
  have copy : (⟨BitVec.ofNat 255 (s.sv sa), true⟩ : Reg ScalarInt) = s.sReg.get sa := by
    rw [BitVec.ofNat_toNat, BitVec.setWidth_eq, ← ok]
  rw [State.writeS, copy]

/-- The constants R and RR of R202 are the residues of 2^260 and 2^520. -/
theorem scConst_of_listed {k n : Nat} (h : (k, n) ∈ [(0, 0), (1, 1), (2, 2 ^ 260 % groupOrder),
    (3, 2 ^ 520 % groupOrder), (4, groupOrder - 1)]) : k ≤ 4 ∧ scConst k = n := by
  have r : montR = 2 ^ 260 % groupOrder := by
    rw [montgomery_radix]
    exact (Nat.mod_eq_of_lt (by decide)).symm.trans montR_mod
  have rr : montRR = 2 ^ 520 % groupOrder := by
    rw [show 2 ^ 520 = (2 ^ 52) ^ 5 * (2 ^ 52) ^ 5 by rw [← pow_mul, ← pow_add]]
    exact (Nat.mod_eq_of_lt (by decide)).symm.trans montRR_mod
  rw [← r, ← rr] at h
  simp only [List.mem_cons, Prod.mk.injEq, List.not_mem_nil, or_false] at h
  obtain ⟨rfl, rfl⟩ | ⟨rfl, rfl⟩ | ⟨rfl, rfl⟩ | ⟨rfl, rfl⟩ | ⟨rfl, rfl⟩ := h <;> exact ⟨by decide, rfl⟩

/-- Settles O37: no reduction takes place. -/
theorem scalarMoveCompareStore : Obligations.ScalarMoveCompareStore := by
  unfold Obligations.ScalarMoveCompareStore
  refine ⟨fun s sd sa sb cd addr oka => ⟨?_, fun okb => ?_, ?_, fun room => ?_⟩,
    fun s sd k => ⟨fun n listed => ?_, fun high => ?_⟩⟩
  · rw [exec_smov, execSmov, scalar1_next oka, id, writeS_sv oka, State.retire]
  · rw [exec_seq, execSeq, readS_valid oka, readS_valid okb, bind_ok, bind_ok, pure_ok, complete_ok, beq_eq_decide]
  · rw [exec_siscan, execSiscan, readS_valid oka, bind_ok, pure_ok, complete_ok, isCanonical]
  · rw [exec_sst, execSst, readS_valid oka, bind_ok, memWrite_in room, complete_ok]
  · obtain ⟨legal, value⟩ := scConst_of_listed listed
    rw [exec_sconst, execSconst, require_true legal, bind_ok, pure_ok, complete_ok, value]
  · rw [exec_sconst, execSconst, require_false (not_le.2 high), bind_error, complete_error, State.takeFault]

end Sys2Proof.Machine
end

section
/-! The statements settled about the recoders: SRDX16 (O38) and SNAF (O39), with the gaps between the digits of a
width-w form. -/

namespace Sys2Proof.Machine

variable {s : State}

/-- The digits of `radix16` one by one (R218): the carry is taken out of all but the last. -/
theorem radix16_digits {n : Nat} (h : n < 2 ^ 255) :
    (∀ i < 63, -8 ≤ (radix16 n).getD i 0 ∧ (radix16 n).getD i 0 ≤ 7) ∧
      0 ≤ (radix16 n).getD 63 0 ∧ (radix16 n).getD 63 0 ≤ 8 := by
  have range := radix16Carry_range (nibbles n) 0 (fun d hd => nibbles_range hd) le_rfl zero_le_one
  rw [length_nibbles] at range
  have top : 0 ≤ (nibbles n).getD 63 0 := by
    rw [List.getD_eq_getElem _ _ (by rw [length_nibbles]; omega)]
    exact (nibbles_range (List.getElem_mem _)).1
  exact ⟨fun i hi => (range i).1 (by omega), top.trans ((range 63).2 rfl).1, (radix16_range h 63).2⟩

/-- Settles O38: the carry pass keeps the sum and the ranges of R218. -/
theorem radix16Digits : Obligations.Radix16Digits := by
  unfold Obligations.Radix16Digits
  intro s ss addr ok room
  obtain ⟨inner, low, high⟩ := radix16_digits (sv_lt s ss)
  refine ⟨radix16 (s.sv ss), ?_, length_radix16 _, digitSum_radix16 ((sv_lt s ss).trans (by norm_num)), inner,
    low, high⟩
  rw [exec_srdx16, execSrdx16, readS_valid ok, bind_ok, memWrite_in room, complete_ok]

/-- Every nonzero digit lies w places below `pos` or lower, and w - 1 zeros follow it (R219). -/
def nafGaps (w pos : Nat) (ds : List Int) : Prop :=
  ∀ i, ds.getD i 0 ≠ 0 → i + w ≤ pos ∧ ∀ j, i < j → j < i + w → ds.getD j 0 = 0

theorem nafGaps.mono {w p q : Nat} {ds : List Int} (h : nafGaps w p ds) (le : p ≤ q) : nafGaps w q ds := fun i hi =>
  ⟨(h i hi).1.trans le, (h i hi).2⟩

/-- From `pos` on there is no digit yet. -/
theorem nafGaps.zero_from {w pos j : Nat} {ds : List Int} (h : nafGaps w pos ds) (hw : 0 < w) (hj : pos ≤ j) :
    ds.getD j 0 = 0 := by
  by_contra nonzero
  have := (h j nonzero).1
  omega

/-- A digit written at `pos` keeps w places of distance to the ones before it. -/
theorem nafGaps.set {w pos : Nat} {ds : List Int} (h : nafGaps w pos ds) (hw : 0 < w) (d : Int) :
    nafGaps w (pos + w) (ds.set pos d) := by
  intro i hi
  obtain rfl | ne := eq_or_ne pos i
  · refine ⟨le_rfl, fun j above _ => ?_⟩
    rw [getD_set_ne d above.ne]
    exact h.zero_from hw above.le
  · rw [getD_set_ne d ne] at hi
    obtain ⟨room, zeros⟩ := h i hi
    refine ⟨room.trans (Nat.le_add_right ..), fun j above below => ?_⟩
    rw [getD_set_ne d (by omega)]
    exact zeros j above below

theorem nafLoop_gaps {n w : Nat} (hw : 0 < w) : ∀ (fuel pos carry : Nat) (ds : List Int), nafGaps w pos ds →
    ∃ q, nafGaps w q (nafLoop n w fuel pos carry ds)
  | 0, pos, _, _, h => ⟨pos, h⟩
  | fuel + 1, pos, carry, ds, h => by
    rw [nafLoop]
    split
    · exact ⟨pos, h⟩
    · dsimp only
      split
      · exact nafLoop_gaps hw fuel _ _ _ (h.mono (Nat.le_succ pos))
      · split
        · exact nafLoop_gaps hw fuel _ _ _ (h.set hw _)
        · exact nafLoop_gaps hw fuel _ _ _ (h.set hw _)

/-- The digits of `naf` have the shape of a width-w form (R219, R220). -/
theorem naf_shape {n w : Nat} (hn : n < 2 ^ 255) (hw : 2 ≤ w) (hw8 : w ≤ 8) : nafShape w (naf n w) := by
  intro i nonzero
  obtain ⟨_, gaps⟩ := nafLoop_gaps (n := n) (show 0 < w by omega) 256 0 0 (List.replicate 256 0)
    fun i hi => absurd (getD_zeros 256 i) hi
  have stands : (naf n w).getD i 0 ∈ naf n w := by
    rw [List.getD_eq_getElem?_getD] at nonzero ⊢
    cases found : (naf n w)[i]? with
    | none => simp [found] at nonzero
    | some d => exact List.mem_of_getElem? found
  obtain zero | ⟨odd, low, high⟩ := (naf_spec hn hw hw8).2 _ stands
  · exact absurd zero nonzero
  · refine ⟨odd, ?_, (gaps i nonzero).2⟩
    zify
    exact abs_lt.2 ⟨low, high⟩

/-- Settles O39: the width is checked first, then the loop of R219 runs. -/
theorem nafDigits : Obligations.NafDigits := by
  unfold Obligations.NafDigits
  refine fun s ss w addr => ⟨fun low high ok room => ?_, fun out => ?_⟩
  · refine ⟨naf (s.sv ss) w.toNat, ?_, length_naf .., (naf_spec (sv_lt s ss) low high).1,
      naf_shape (sv_lt s ss) low high⟩
    rw [exec_snaf, execSnaf, require_true ⟨low, high⟩, bind_ok, readS_valid ok, bind_ok, memWrite_in room, complete_ok]
  · rw [exec_snaf, execSnaf, require_false (by omega), bind_error, complete_error, State.takeFault]

end Sys2Proof.Machine
end

section
/-! The statement settled about the Montgomery ladder (O47), with its run on a u-coordinate of value 0. -/

namespace Sys2Proof.Machine

variable {s : State}

/-- Each of the two points has a zero coordinate. -/
def ladderDegenerate : ZMod fieldPrime × ZMod fieldPrime × ZMod fieldPrime × ZMod fieldPrime → Prop
  | (x2, z2, x3, z3) => x2 * z2 = 0 ∧ x3 * z3 = 0

theorem ladderDegenerate.swap {v} (h : ladderDegenerate v) : ladderDegenerate (gfLadderSwap v) := And.symm h

/-- A step with u = 0 keeps it: doubling has the factor x2·z2, the sum the factor u (R344). -/
theorem ladderDegenerate.step {v} (h : ladderDegenerate v) : ladderDegenerate (gfLadderStep 0 v) := by
  obtain ⟨x2, z2, x3, z3⟩ := v
  obtain ⟨zero, -⟩ := h
  refine ⟨?_, by ring⟩
  linear_combination 4 * (x2 ^ 2 - z2 ^ 2) ^ 2 * (x2 ^ 2 + 486662 * x2 * z2 + z2 ^ 2) * zero

theorem gfLadder_degenerate (k : Nat) : ∀ (t : Nat) (v), ladderDegenerate v → ladderDegenerate (gfLadder k 0 t v)
  | 0, _, h => h
  | t + 1, v, h => by
    rw [gfLadder_succ]
    refine gfLadder_degenerate k t _ ?_
    split
    · exact h.swap.step.swap
    · exact h.step

/-- The ladder maps u = 0 to 0 for every scalar (R345). -/
theorem x25519Ladder_zero {u : Fe} (hu : u.bounded) (zero : u.gf = 0) (k : Nat) : (x25519Ladder k u).gf = 0 := by
  have : Fact fieldPrime.Prime := ⟨fieldPrime_prime⟩
  rw [x25519Ladder_gf hu, zero]
  have ends : ladderDegenerate (gfLadder k 0 255 (1, 0, 0, 1)) := gfLadder_degenerate k 255 _ ⟨mul_zero 1, zero_mul 1⟩
  generalize gfLadder k 0 255 (1, 0, 0, 1) = v at ends
  obtain ⟨x2, z2, x3, z3⟩ := v
  obtain x0 | z0 := mul_eq_zero.1 ends.1
  · rw [x0, zero_mul]
  · rw [z0, zero_pow (by norm_num), mul_zero]

/-- Settles O47: the limb ladder is the ladder over GF(p) on the clamped scalar. -/
theorem ladderCommands : Obligations.LadderCommands := by
  unfold Obligations.LadderCommands
  intro s fd fb sa cd okb bound
  have xchk : exec (.xchk cd fb) s = .next ((s.writeC cd (feIsZero (s.fv fb))).setResult
      (if feIsZero (s.fv fb) then .allZeroOutput else .ok)).retire := by
    rw [exec_xchk, execXchk, readF_valid okb, bind_ok, pure_ok, complete_ok]
  rw [feIsZero_eq_decide bound] at xchk
  refine ⟨fun oka => ⟨_, ?_, rfl, x25519Ladder_gf bound _, clampInteger_clampInteger _, testBit_clampInteger _,
    fun zero => ?_⟩, fun zero => ?_, fun nonzero => ?_⟩
  · rw [exec_x25519, execX25519, readS_valid oka, readF_valid okb, bind_ok, bind_ok, pure_ok, complete_ok]
  · exact gf_eq_zero_iff.1 (x25519Ladder_zero bound (gf_eq_zero_iff.2 zero) _)
  · rw [xchk, decide_eq_true zero, if_pos rfl]
  · rw [xchk, decide_eq_false nonzero, if_neg Bool.false_ne_true]

end Sys2Proof.Machine
end

section
/-! SUPPORT. What the encodings, tests and maps of the point unit answer, function by function: the strings the strict
decoder accepts, the identity test on values, and the maps to and from the Montgomery curve (42_edwards.md R262, R263,
R271 to R276). -/

namespace Sys2Proof.Machine

variable {s : State}

/-- With Z = 1 the coordinates are the limbs' values (R262). -/
theorem Ext.at.X_of_one {P : Ext} {x y : ZMod fieldPrime} (h : P.at x y) (one : P.Z = feOne) : P.X.gf = x := by
  rw [h.2.1, one, feOne_gf, one_mul]

/-- A y-coordinate goes with x and -x alone, because the denominator of R262 is not 0. -/
theorem affineCurve.eq_or_eq_neg {x u y : ZMod fieldPrime} (hx : affineCurve x y) (hu : affineCurve u y) :
    x = u ∨ x = -u := by
  have squares : (edwardsD.gf * y ^ 2 + 1) * x ^ 2 = (edwardsD.gf * y ^ 2 + 1) * u ^ 2 :=
    (affineCurve_iff.1 hx).trans (affineCurve_iff.1 hu).symm
  have : Fact fieldPrime.Prime := ⟨fieldPrime_prime⟩
  exact sq_eq_sq_iff_eq_or_eq_neg.1 ((gf_mul_cancel (lift_denominator y)).1 squares)

/-- A 32-byte string is its low 255 bits and its top bit (R263). -/
theorem signed_parts_of_length {b : List Byte} (len : b.length = 32) :
    clearTopBit b = bytesOf 32 (le b % 2 ^ 255) ∧ b = bytesOf 32 (le b % 2 ^ 255 + 2 ^ 255 * (topBit b).toNat) := by
  have lt := le_lt b
  have whole := bytesOf_le b
  rw [len] at lt whole
  obtain ⟨sign, hs⟩ : ∃ sign : Bool, le b / 2 ^ 255 = sign.toNat := by
    obtain h | h : le b / 2 ^ 255 = 0 ∨ le b / 2 ^ 255 = 1 := by omega
    · exact ⟨false, h⟩
    · exact ⟨true, h⟩
  have signed : bytesOf 32 (le b % 2 ^ 255 + 2 ^ 255 * sign.toNat) = b := by rw [← hs, Nat.mod_add_div, whole]
  obtain ⟨top, low⟩ := bytesOf_signed_parts (v := le b % 2 ^ 255) (Nat.mod_lt _ (by norm_num)) sign
  rw [signed] at top low
  exact ⟨low, by rw [top, signed]⟩

/-- The three checks of the strict decoder (R263). -/
theorem edDecompress_checks {b : List Byte} {P : Ext} (h : edDecompress b = some P) :
    feToBytes (feFromBytes b) = clearTopBit b ∧ edLift (feFromBytes b) (topBit b) = some P ∧
      (topBit b && feIsZero P.X) = false := by
  unfold edDecompress at h
  dsimp only at h
  split at h
  · cases h
  next canonical =>
    split at h
    · cases h
    next lift =>
      split at h
      · cases h
      next sign =>
        obtain rfl := Option.some.inj h
        exact ⟨not_not.1 canonical, lift, Bool.eq_false_of_not_eq_true sign⟩

/-- An accepted string is the compression of the point it decodes to, whose Y is the low 255 bits (R263, R284). -/
theorem edCompress_of_edDecompress {b : List Byte} {P : Ext} (len : b.length = 32) (h : edDecompress b = some P) :
    P.Z = feOne ∧ feVal P.Y = le b % 2 ^ 255 ∧ edCompress P = b := by
  obtain ⟨canonical, lift, sign⟩ := edDecompress_checks h
  obtain ⟨low, whole⟩ := signed_parts_of_length len
  have bY := feFromBytes_bounded b
  have valY : feVal (feFromBytes b) = le b % 2 ^ 255 := by
    rw [feToBytes_eq bY, low] at canonical
    exact (bytesOf_inj (feVal_lt_bytes _) ((Nat.mod_le _ _).trans_lt (len ▸ le_lt b))).1 canonical
  obtain ⟨-, none⟩ | ⟨Q, x, some, -, at', bQ, one, hY, parity⟩ := edLift_spec bY (topBit b)
  · cases none.symm.trans lift
  obtain rfl : Q = P := Option.some.inj (some.symm.trans lift)
  have bit : feVal Q.X % 2 = (topBit b).toNat := by
    rcases parity with zero | bit
    · rw [(feIsZero_iff bQ.1).2 (gf_eq_zero_iff.2 zero), Bool.and_true] at sign
      rw [sign, zero, Bool.toNat_false]
    · exact bit
  obtain ⟨xe, ye, -, -, gx, gy, bytes⟩ := edCompress_eq bQ at'
  rw [← at'.X_of_one one, gf_eq_iff] at gx
  rw [gf_eq_iff] at gy
  exact ⟨one, hY ▸ valY, by rw [bytes, gx, gy, bit, valY, ← whole]⟩

/-- Two products agree in GF(p) exactly when the products of the values agree mod p. -/
theorem gf_mul_eq_iff {a b c d : Fe} :
    a.gf * b.gf = c.gf * d.gf ↔ feVal a * feVal b % fieldPrime = feVal c * feVal d % fieldPrime := by
  rw [← ZMod.natCast_eq_natCast_iff']
  simp only [Nat.cast_mul, feVal_cast]

theorem edEq_eq_decide {P Q : Ext} (bP : P.bounded) (bQ : Q.bounded) : edEq P Q = decide (
    feVal P.X * feVal Q.Z % fieldPrime = feVal Q.X * feVal P.Z % fieldPrime ∧
    feVal P.Y * feVal Q.Z % fieldPrime = feVal Q.Y * feVal P.Z % fieldPrime) :=
  Bool.eq_iff_iff.2 (by rw [edEq_iff bP bQ, Ext.same, gf_mul_eq_iff, gf_mul_eq_iff, decide_eq_true_iff])

theorem edIsIdentity_eq_decide {P : Ext} (b : P.bounded) :
    edIsIdentity P = decide (feVal P.X = 0 ∧ feVal P.Y = feVal P.Z) :=
  Bool.eq_iff_iff.2 (by rw [edIsIdentity_iff b, Ext.isIdentity, gf_eq_zero_iff, gf_eq_iff, decide_eq_true_iff])

/-- The u-coordinate (Z + Y)/(Z - Y), which is 0 where Z = Y (R275). -/
theorem edToMont_gf {P : Ext} (b : P.bounded) :
    (edToMont P).gf = (P.Z.gf + P.Y.gf) * (P.Z.gf - P.Y.gf) ^ (2 ^ 255 - 21) := by
  obtain ⟨-, bY, bZ, -⟩ := b
  rw [edToMont, feMul_gf (feAdd_bounded bZ bY) (feInv_bounded _), feInv_gf (feSub_bounded bZ), feAdd_gf bZ bY,
    feSub_gf bZ bY]

/-- The limbs of y = (u - 1)/(u + 1) (R276). -/
def montY (u : Fe) : Fe := feMul (feSub u feOne) (feInv (feAdd u feOne))

theorem montY_bounded (u : Fe) : (montY u).bounded := feMul_bounded ..

theorem montY_gf {u : Fe} (b : u.bounded) : (montY u).gf = (u.gf - 1) * (u.gf + 1) ^ (2 ^ 255 - 21) := by
  rw [montY, feMul_gf (feSub_bounded b) (feInv_bounded _), feInv_gf (feAdd_bounded b feOne_bounded),
    feSub_gf b feOne_bounded, feAdd_gf b feOne_bounded, feOne_gf]

/-- `mont_to_edwards` rejects u = -1 and lifts y otherwise (R276). -/
theorem montToEdwards_eq {u : Fe} (b : u.bounded) (sign : Bool) :
    montToEdwards u sign = if feVal u = fieldPrime - 1 then none else edLift (montY u) sign := by
  have minusOne : feVal feMinusOne = fieldPrime - 1 := by decide
  rw [montToEdwards, feEq_eq_decide b (by decide), minusOne]
  simp only [decide_eq_true_eq, montY]

theorem montToEdwards_rejects {u : Fe} (b : u.bounded) (sign : Bool)
    (h : feVal u = fieldPrime - 1 ∨ ∀ x, ¬ affineCurve x (montY u).gf) : montToEdwards u sign = none := by
  rw [montToEdwards_eq b]
  split
  · rfl
  next other =>
    obtain ⟨-, none⟩ | ⟨_, x, -, curve, -⟩ := edLift_spec (montY_bounded u) sign
    · exact none
    · exact absurd curve (h.resolve_left other x)

/-- Where some (x, y) is on the curve the map answers it or (-x, y), by the parity asked for (R262, R276). -/
theorem montToEdwards_accepts {u : Fe} (b : u.bounded) (sign : Bool) (h : feVal u ≠ fieldPrime - 1)
    {x : ZMod fieldPrime} (c : affineCurve x (montY u).gf) :
    ∃ P, montToEdwards u sign = some P ∧ P.bounded ∧ P.onCurve ∧ P.Z = feOne ∧ P.Y.gf = (montY u).gf ∧
      (P.X.gf = x ∨ P.X.gf = -x) ∧ (feVal P.X = 0 ∨ feVal P.X % 2 = sign.toNat) := by
  rw [montToEdwards_eq b, if_neg h]
  obtain ⟨off, -⟩ | ⟨P, u, lift, curve, at', bP, one, hY, parity⟩ := edLift_spec (montY_bounded u) sign
  · exact absurd c (off x)
  · exact ⟨P, lift, bP, (at'.isPoint curve).1, one, by rw [hY], at'.X_of_one one ▸ curve.eq_or_eq_neg c, parity⟩

theorem decodedP_none (pd : PIdx) (cd : CIdx) : s.decodedP pd cd none = (s.clearP pd).writeC cd false := rfl

theorem decodedP_some (pd : PIdx) (cd : CIdx) (P : Ext) : s.decodedP pd cd (some P) = (s.writeP pd P).writeC cd true :=
  rfl

theorem pdec_next {pd : PIdx} {cd : CIdx} {addr : Addr} (room : inDm addr.toNat 32) : exec (.pdec pd cd addr) s =
    .next (s.decodedP pd cd (edDecompress (s.dm.readBytes addr.toNat 32))).retire := pointDecode_next room

theorem pfromm_next {pd : PIdx} {cd : CIdx} {fa : FIdx} {bit : BitVec 1} (h : s.fOk fa) :
    exec (.pfromm pd cd fa bit) s = .next (s.decodedP pd cd (montToEdwards (s.fv fa) (bit.getLsbD 0))).retire := by
  rw [exec_pfromm, execPfromm, readF_valid h, bind_ok, pure_ok, complete_ok]

theorem ptom_next {fd : FIdx} {pa : PIdx} (h : s.pOk pa) :
    exec (.ptom fd pa) s = .next (s.writeF fd (edToMont (s.pv pa))).retire := by
  rw [exec_ptom, execPtom, readP_valid h, bind_ok, pure_ok, complete_ok]

theorem ph2c_next {pd : PIdx} {cd : CIdx} (h : s.msgIn) : exec (.ph2c pd cd) s =
    .next (s.decodedP pd cd (hashToCurve (Config.digest s.msgBytes).toList)).retire := by
  rw [exec_ph2c, execPh2c, msg_in h, bind_ok, pure_ok, complete_ok, hashBytes]

/-- PISID of the register just written (R296). -/
theorem pisid_written (cd : CIdx) (pa : PIdx) (P : Ext) :
    exec (.pisid cd pa) (s.writeP pa P) = .next ((s.writeP pa P).writeC cd (edIsIdentity P)).retire := by
  have ok : ((s.writeP pa P).pReg.get pa).valid = true := by simp
  simp [execPisid, pointTest_next ok]

end Sys2Proof.Machine
end

section
/-! The statements settled about the point commands: encoding and decoding (O42), tests (O43), and the maps to and from
the Montgomery curve (O44). -/

namespace Sys2Proof.Machine

/-- Settles O42: a string is accepted exactly when it is the compression of a point, and decodes to it. -/
theorem pointEncodeDecode : Obligations.PointEncodeDecode := by
  unfold Obligations.PointEncodeDecode
  refine fun s pd ps cd addr room => ⟨fun ok => ⟨pointEncode_next ok room, length_edCompress _, fun bound point => ?_⟩,
    ?_, fun P bound point bytes => ?_⟩
  · obtain ⟨x, y, at', -⟩ := point.affine
    obtain ⟨xe, ye, -, -, rfl, rfl, bytes⟩ := edCompress_eq bound at'
    obtain ⟨-, hX, hY, -⟩ := at'
    refine ⟨feVal xe, feVal ye, feVal_lt xe, feVal_lt ye, ?_, ?_, bytes⟩
    · rw [feVal_cast, hX, mul_comm]
    · rw [feVal_cast, hY, mul_comm]
  · have run := pdec_next (s := s) (pd := pd) (cd := cd) room
    cases decoded : edDecompress (s.dm.readBytes addr.toNat 32) with
    | none => exact .inr ⟨by rw [run, decoded, decodedP_none], rfl⟩
    | some P =>
      obtain ⟨bound, curve⟩ := edDecompress_sound decoded
      obtain ⟨one, valY, bytes⟩ := edCompress_of_edDecompress (Memory.length_readBytes ..) decoded
      exact .inl ⟨P, by rw [run, decoded, decodedP_some], bound, curve, one, valY, bytes⟩
  · obtain ⟨x, y, atP, curve⟩ := point.affine
    obtain ⟨Q, decoded, -, -, atQ⟩ := edDecompress_edCompress bound atP curve
    exact ⟨Q, by rw [pdec_next room, bytes, decoded, decodedP_some], atQ.isPoint curve, atQ.same atP⟩

/-- Settles O43: the tests compare values, and PSMALL and PTORF test a multiple as PISID does. -/
theorem pointTests : Obligations.PointTests := by
  unfold Obligations.PointTests
  refine fun s pa pb cd ok bound => ⟨fun okb boundb => ?_, ?_,
    ⟨edMul8 (s.pv pa), _, point1_next ok, pisid_written cd pa _, pointTest_next ok⟩,
    ⟨_, _, rfl, pisid_written cd pa _, pointTest_next ok⟩⟩
  · rw [exec_peq, execPeq, pointTest2_next ok okb, edEq_eq_decide bound boundb]
  · rw [exec_pisid, execPisid, pointTest_next ok, edIsIdentity_eq_decide bound]

/-- Settles O44: PFROMM lifts y = (u - 1)/(u + 1), and PH2C multiplies a lifted point by 8. -/
theorem pointMaps : Obligations.PointMaps := by
  unfold Obligations.PointMaps
  refine fun s fd fa pd pa cd bit => ⟨fun ok bound => ⟨_, ptom_next ok, edToMont_gf bound⟩, fun ok bound y hy => ?_,
    fun region => ?_⟩
  · have run := pfromm_next (pd := pd) (cd := cd) (bit := bit) ok
    rw [← montY_gf bound] at hy
    subst hy
    refine ⟨fun off => ?_, fun other x curve => ?_⟩
    · have rejected := montToEdwards_rejects bound (bit.getLsbD 0) off
      exact ⟨by rw [run, rejected, decodedP_none], rejected⟩
    · have sign : ∀ bit : BitVec 1, (bit.getLsbD 0).toNat = bit.toNat := by decide
      obtain ⟨P, accepted, rest⟩ := montToEdwards_accepts bound (bit.getLsbD 0) other curve
      rw [sign] at rest
      exact ⟨P, by rw [run, accepted, decodedP_some], rest⟩
  · have run := ph2c_next (pd := pd) (cd := cd) region
    cases mapped : hashToCurve (Config.digest s.msgBytes).toList with
    | none => exact .inl ⟨by rw [run, mapped, decodedP_none], rfl⟩
    | some P =>
      have factor := mapped
      rw [hashToCurve_eq] at factor
      obtain ⟨E, lifted, rfl⟩ := Option.map_eq_some_iff.1 factor
      exact .inr ⟨_, E, by rw [run, mapped, decodedP_some], rfl, (montToEdwards_sound lifted).2, rfl⟩

end Sys2Proof.Machine
end

section
/-! SUPPORT. What the masked scan leaves for a digit, by the digit's sign (43_scalarmul.md R312, R316): the digit 0
selects the neutral entry from every table. -/

namespace Sys2Proof.Machine

/-- No entry answers to the digit 0. -/
theorem scanTable_zero {α : Type} {sel : α → α → Bool → α} (hsel : ∀ t e c, sel t e c = if c then e else t)
    (table : List α) (neutral : α) : scanTable sel 0 0 table neutral = neutral := by
  rw [scanTable_eq hsel, if_neg (by simp)]

/-- A nonzero digit within the table finds the entry |d|. -/
theorem scanTable_entry {α : Type} {sel : α → α → Bool → α} (hsel : ∀ t e c, sel t e c = if c then e else t)
    (table : List α) (neutral : α) {d : Int} (nonzero : d ≠ 0) (fits : d.natAbs ≤ table.length) :
    scanTable sel d 0 table neutral = table.getD (d.natAbs - 1) neutral := by
  rw [scanTable_eq hsel, if_pos ⟨by omega, by omega⟩, Nat.sub_zero]

theorem selPniels_of_nonneg (table : List PNiels) {d : Int} (h : 0 ≤ d) :
    selPniels table d = scanTable pnielsSel d 0 table PNiels.neutral := by
  simp only [selPniels, feCneg, feSel_eq, not_lt.2 h, decide_false, Bool.false_eq_true, if_false]

theorem selPniels_of_neg {table : List PNiels} {d : Int} {e : PNiels} (h : d < 0)
    (scan : scanTable pnielsSel d 0 table PNiels.neutral = e) :
    selPniels table d = ⟨e.YmX, e.YpX, e.Z, feNeg e.T2d⟩ := by
  simp only [selPniels, feCneg, feSel_eq, scan, h, decide_true, if_true]

theorem selAniels_of_nonneg (table : List ANiels) {d : Int} (h : 0 ≤ d) :
    selAniels table d = scanTable anielsSel d 0 table ANiels.neutral := by
  simp only [selAniels, feCneg, feSel_eq, not_lt.2 h, decide_false, Bool.false_eq_true, if_false]

theorem selAniels_of_neg {table : List ANiels} {d : Int} {e : ANiels} (h : d < 0)
    (scan : scanTable anielsSel d 0 table ANiels.neutral = e) :
    selAniels table d = ⟨e.ymx, e.ypx, feNeg e.xy2d⟩ := by
  simp only [selAniels, feCneg, feSel_eq, scan, h, decide_true, if_true]

@[simp] theorem selPniels_zero (table : List PNiels) : selPniels table 0 = PNiels.neutral := by
  rw [selPniels_of_nonneg table le_rfl, scanTable_zero pnielsSel_eq]

@[simp] theorem selAniels_zero (table : List ANiels) : selAniels table 0 = ANiels.neutral := by
  rw [selAniels_of_nonneg table le_rfl, scanTable_zero anielsSel_eq]

end Sys2Proof.Machine
end

section
/-! SUPPORT. The engines for the scalar 0 (43_scalarmul.md R310, R314, R317, R321): the digits are all 0, so every
addition is one of the neutral entry, and the accumulator stays at the identity whatever the tables hold. -/

namespace Sys2Proof.Machine

variable {a b : Int}

/-- Every combination of the identity with itself is the identity. -/
theorem Ext.Combines.identity {R : Ext} (h : Ext.Combines edIdentity edIdentity a b R) : R.isPoint ∧ R.isIdentity := by
  have ofSame : ∀ {R : Ext}, R.same edIdentity → R.isIdentity := fun same => by
    simpa [Ext.same, Ext.isIdentity, edIdentity, gf_zero, feOne_gf] using same
  induction h with
  | zero point identity => exact ⟨point, identity⟩
  | left point same => exact ⟨point, ofSame same⟩
  | right point same => exact ⟨point, ofSame same⟩
  | neg _ point isNeg ih =>
    obtain ⟨⟨-, z0⟩, x0, yz⟩ := ih
    obtain ⟨hX, hY⟩ := isNeg
    refine ⟨point, (gf_mul_cancel z0).1 ?_, (gf_mul_cancel z0).1 ?_⟩
    · rw [mul_comm, hX, x0, zero_mul, neg_zero, mul_zero]
    · rw [mul_comm, hY, yz]
  | add _ _ point isSum ihP ihQ =>
    obtain ⟨⟨-, z1⟩, x1, yz1⟩ := ihP
    obtain ⟨⟨-, z2⟩, x2, yz2⟩ := ihQ
    obtain ⟨hX, hY⟩ := isSum
    rw [x1, x2, yz1, yz2] at hX hY
    have nonzero := gf_pow_ne_zero (gf_mul_ne_zero z1 z2) 2
    refine ⟨point, (gf_mul_cancel nonzero).1 ?_, (gf_mul_cancel nonzero).1 ?_⟩
    · linear_combination hX
    · linear_combination hY

theorem Ext.holds.isPoint {A B P : Ext} (h : P.holds A B a b) : P.isPoint := by
  obtain ⟨-, x, y, at', curve, -⟩ := h
  exact at'.isPoint curve

/-- The values of an accumulator at the identity. -/
theorem Ext.holds.identity_values {Q : Ext} (h : Q.holds edIdentity edIdentity a b) :
    feVal Q.X = 0 ∧ feVal Q.Y = feVal Q.Z ∧ feVal Q.Z ≠ 0 := by
  obtain ⟨⟨-, z0⟩, x0, yz⟩ := h.combines.identity
  exact ⟨gf_eq_zero_iff.1 x0, gf_eq_iff.1 yz, mt gf_eq_zero_iff.2 z0⟩

theorem radix16_zero : radix16 0 = List.replicate 64 0 := by decide

theorem naf_zero : naf 0 5 = List.replicate 256 0 := by decide +kernel

theorem holds_addPniels_neutral {A B P : Ext} (h : P.holds A B a b) :
    (compToExt (addPniels P PNiels.neutral)).holds A B a b :=
  (holds_addPniels h holds_pnielsNeutral).both.1.of_eq (add_zero a) (add_zero b)

theorem holds_addAniels_neutral {A B P : Ext} (h : P.holds A B a b) :
    (compToExt (addAniels P ANiels.neutral)).holds A B a b :=
  (holds_addAniels h holds_anielsNeutral).both.1.of_eq (add_zero a) (add_zero b)

theorem holds_edMulPow2_zero {A B P : Ext} {k : Nat} (hk : 1 ≤ k) (h : P.holds A B 0 0) :
    (edMulPow2 P k).holds A B 0 0 :=
  (holds_edMulPow2 hk h).of_eq (mul_zero _) (mul_zero _)

/-- Engine 1 for the scalar 0 (R314): nothing is asked of P. -/
theorem edMulVar_zero {A B : Ext} (P : Ext) : (edMulVar 0 P).holds A B 0 0 := by
  rw [edMulVar, radix16_zero]
  refine List.foldlRecOn (motive := fun Q : Ext => Q.holds A B 0 0) _ _ ?_ fun Q hQ d hd => ?_
  · rw [getD_zeros, selPniels_zero]
    exact holds_addPniels_neutral holds_edIdentity
  · obtain rfl := List.eq_of_mem_replicate (List.mem_of_mem_take (List.mem_reverse.1 hd))
    rw [mulVarStep, selPniels_zero]
    exact holds_addPniels_neutral (holds_edMulPow2_zero (by norm_num) hQ)

/-- A pass of R317 over digits 0. -/
theorem mulBasePass_zeros {A B Q : Ext} (groups : List (List ANiels)) {digits : List Int} (zeros : ∀ d ∈ digits, d = 0)
    (h : Q.holds A B a b) : (mulBasePass Q groups digits).holds A B a b := by
  refine List.foldlRecOn (motive := fun Q : Ext => Q.holds A B a b) _ _ h fun Q hQ gd hgd => ?_
  rw [zeros gd.2 (List.of_mem_zip hgd).2, selAniels_zero]
  exact holds_addAniels_neutral hQ

/-- Engine 2 for the scalar 0 (R317). -/
theorem edMulBase_zero {A B : Ext} : (edMulBase 0).holds A B 0 0 := by
  obtain ⟨-, -, even, odd, -⟩ := splitDigits 32 (radix16 0) (length_radix16 0)
  have zero : ∀ d ∈ radix16 0, d = 0 := fun d hd => by
    rw [radix16_zero] at hd
    exact List.eq_of_mem_replicate hd
  have oddPass := mulBasePass_zeros (A := A) (B := B) fixedTable (fun d hd => zero d (odd d hd)) holds_edIdentity
  exact mulBasePass_zeros fixedTable (fun d hd => zero d (even d hd)) (holds_edMulPow2_zero (by norm_num) oddPass)

/-- Engine 3 for two scalars 0 skips every digit (R321): the limbs are those of the start. -/
theorem edDoubleScalarMul_zero (P : Ext) : edDoubleScalarMul 0 P 0 = edIdentity := by
  have start : projToExt ⟨.zero, feOne, feOne⟩ = edIdentity := by decide +kernel
  have skipped : (((naf 0 5).zip (naf 0 5)).reverse.dropWhile fun d => d.1 == 0 && d.2 == 0) = [] := by
    rw [List.dropWhile_eq_nil_iff]
    intro d hd
    rw [naf_zero] at hd
    obtain ⟨h1, h2⟩ := List.of_mem_zip (show (d.1, d.2) ∈ _ from List.mem_reverse.1 hd)
    simp [List.eq_of_mem_replicate h1, List.eq_of_mem_replicate h2]
  rw [edDoubleScalarMul, skipped, List.foldl_nil, start]

end Sys2Proof.Machine
end

section
/-! SUPPORT. The engine commands on valid sources, one lemma per command (43_scalarmul.md R326 to R329). -/

namespace Sys2Proof.Machine

variable {s : State} {pd pb : PIdx} {sa sc : SIdx}

theorem pmulv_next (ha : s.sOk sa) (hb : s.pOk pb) :
    exec (.pmulv pd sa pb) s = .next (s.writeP pd (edMulVar (s.sv sa) (s.pv pb))).retire := by
  rw [exec_pmulv, execPmulv, readS_valid ha, bind_ok, readP_valid hb, bind_ok, pure_ok, complete_ok]

theorem pmulb_next (ha : s.sOk sa) : exec (.pmulb pd sa) s = .next (s.writeP pd (edMulBase (s.sv sa))).retire := by
  rw [exec_pmulb, execPmulb, readS_valid ha, bind_ok, pure_ok, complete_ok]

theorem pdsm_next (ha : s.sOk sa) (hb : s.pOk pb) (hc : s.sOk sc) : exec (.pdsm pd sa pb sc) s =
    .next (s.writeP pd (edDoubleScalarMul (s.sv sa) (s.pv pb) (s.sv sc))).retire := by
  rw [exec_pdsm, execPdsm, readS_valid ha, bind_ok, readP_valid hb, bind_ok, readS_valid hc, bind_ok, pure_ok,
    complete_ok]

theorem pmac_next (ha : s.sOk sa) (hb : s.pOk pb) (hd : s.pOk pd) : exec (.pmac pd sa pb) s =
    .next (s.writeP pd (edAdd (s.pv pd) (edDoubleScalarMul (s.sv sa) (s.pv pb) 0))).retire := by
  rw [exec_pmac, execPmac, readP_valid hd, bind_ok, readS_valid ha, bind_ok, readP_valid hb, bind_ok, pure_ok,
    complete_ok]

end Sys2Proof.Machine
end

section
/-! The statements settled about scalar multiplication: the engine commands (O45) and the masked table scan (O46). -/

namespace Sys2Proof.Machine

/-- Settles O45: the engine laws for the integer held, whose register has 255 bits, and the runs on digits 0. -/
theorem engineCommands : Obligations.EngineCommands := by
  unfold Obligations.EngineCommands
  intro s pd pb sa sc oka
  have base : ∀ A : Ext, basePoint.holds A basePoint 0 1 := fun _ => holds_right basePoint_bounded basePoint_isPoint
  refine ⟨⟨_, pmulb_next oka, rfl, fun A => ?_, fun zero => ?_⟩,
    fun okb => ⟨_, pmulv_next oka okb, rfl, fun bound point => ?_, fun zero => ?_⟩,
    fun okb okc => ⟨_, pdsm_next oka okb okc, rfl, fun bound point => ?_, fun zeroA zeroC => ?_⟩,
    fun okb okd => ⟨pmac_next oka okb okd, fun bound point boundD pointD => ?_⟩⟩
  · exact ((edMulBase_holds (sv_lt s sa) (base A)).of_eq (mul_zero _) (mul_one _)).combines
  · rw [zero]
    exact edMulBase_zero.identity_values
  · exact (edMulVar_holds (sv_lt s sa) (holds_left bound point)).combines
  · rw [zero]
    exact (edMulVar_zero _).identity_values
  · exact (edDoubleScalarMul_holds (sv_lt s sa) (sv_lt s sc) (holds_left bound point) (base _)).combines
  · rw [zeroA, zeroC, edDoubleScalarMul_zero]
  · have multiple := edDoubleScalarMul_holds (sv_lt s sa) (k := 0) (by norm_num) (holds_left bound point) (base _)
    have pointM := multiple.isPoint
    exact ⟨_, _, pmac_next oka okb okd, multiple.combines,
      edAdd_isSum ⟨boundD, pointD.1⟩ ⟨multiple.1, pointM.1⟩, edAdd_isPoint boundD multiple.1 pointD pointM⟩

/-- Settles O46: the scan finds the entry |d|, and the sign exchanges and negates (R312, R316). -/
theorem tableScanSelects : Obligations.TableScanSelects := by
  unfold Obligations.TableScanSelects
  refine ⟨fun table d len lo hi => ?_, fun table d len lo hi => ?_⟩ <;>
    obtain neg | rfl | pos := lt_trichotomy d 0
  · rw [if_neg (not_lt.2 neg.le), if_neg neg.ne]
    exact selPniels_of_neg neg (scanTable_entry pnielsSel_eq table _ neg.ne (by omega))
  · rw [if_neg (lt_irrefl 0), if_pos rfl, selPniels_zero]
  · rw [if_pos pos, selPniels_of_nonneg table pos.le, scanTable_entry pnielsSel_eq table _ pos.ne' (by omega)]
  · rw [if_neg (not_lt.2 neg.le), if_neg neg.ne]
    exact selAniels_of_neg neg (scanTable_entry anielsSel_eq table _ neg.ne (by omega))
  · rw [if_neg (lt_irrefl 0), if_pos rfl, selAniels_zero]
  · rw [if_pos pos, selAniels_of_nonneg table pos.le, scanTable_entry anielsSel_eq table _ pos.ne' (by omega)]

end Sys2Proof.Machine
end

section
/-! SUPPORT. What the Ristretto functions answer, function by function: the checks and the coordinates of an accepted
string, the string of an encoding, and the quotient test on values (45_ristretto.md R361 to R363). -/

namespace Sys2Proof.Machine

variable {s : State}

/-- u2 = 1 + s² (R361). -/
def risU2 (r : Fe) : Fe := feAdd feOne (feSq r)

/-- v = -d·u1² - u2² with u1 = 1 - s² (R361). -/
def risV (r : Fe) : Fe := feSub (feNeg (feMul edwardsD (feSq (feSub feOne (feSq r))))) (feSq (risU2 r))

/-- The flag and the root that R361 takes of 1/(v·u2²). -/
def risRoot (r : Fe) : Bool × Fe := sqrtRatioI feOne (feMul (risV r) (feSq (risU2 r)))

/-- The limbs of y (R361). -/
def risY (r : Fe) : Fe :=
  feMul (feSub feOne (feSq r)) (feMul (feMul (risRoot r).2 (feMul (risRoot r).2 (risU2 r))) (risV r))

/-- The checks of the decoder, and the coordinates of the point it accepts (R361). -/
theorem risDecode_checks {b : List Byte} {P : Ext} (h : risDecode b = some P) :
    feToBytes (feFromBytes b) = b ∧ feIsNeg (feFromBytes b) = false ∧ (risRoot (feFromBytes b)).1 = true ∧
      feIsNeg P.T = false ∧ feIsZero P.Y = false ∧ feVal P.X % 2 = 0 ∧ P.Y = risY (feFromBytes b) ∧ P.Z = feOne := by
  unfold risDecode at h
  extract_lets s ss u1 u2 u2s v root dx dy x0 x y t at h
  split at h
  · cases h
  next canonical =>
    split at h
    · cases h
    next even =>
      split at h
      · cases h
      next flags =>
        obtain rfl := Option.some.inj h
        simp only [Bool.or_eq_true, not_or, Bool.not_eq_true, Bool.not_eq_false'] at even flags
        obtain ⟨⟨flag, evenT⟩, zeroY⟩ := flags
        exact ⟨not_not.1 canonical, even, flag, evenT, zeroY, (feCneg_isNeg (feMul_bounded ..)).1, rfl, rfl⟩

/-- Where the root exists, y is (1 - s²)/(1 + s²) (R361). -/
theorem risY_gf {r : Fe} (b : r.bounded) (flag : (risRoot r).1 = true) :
    (risY r).gf * (1 + r.gf ^ 2) = 1 - r.gf ^ 2 := by
  have bU2 : (risU2 r).bounded := feAdd_bounded feOne_bounded (feSq_bounded r)
  have bV : (risV r).bounded := feSub_bounded (feNeg_bounded _)
  have bI : (risRoot r).2.bounded := sqrtRatioI_bounded ..
  have gU2 : (risU2 r).gf = 1 + r.gf ^ 2 := by rw [risU2, feAdd_gf feOne_bounded (feSq_bounded r), feOne_gf, feSq_gf b]
  have inverse : (risV r).gf * (1 + r.gf ^ 2) ^ 2 * (risRoot r).2.gf ^ 2 = 1 := by
    rw [← gU2, ← feSq_gf bU2, ← feMul_gf bV (feSq_bounded _)]
    exact sqrtRatioI_one (feMul_bounded ..) flag
  rw [risY, feMul_gf (feSub_bounded feOne_bounded) (feMul_bounded ..), feMul_gf (feMul_bounded ..) bV,
    feMul_gf bI (feMul_bounded ..), feMul_gf bI bU2, gU2, feSub_gf feOne_bounded (feSq_bounded r), feOne_gf, feSq_gf b]
  linear_combination (1 - r.gf ^ 2) * inverse

/-- An element that is not negative has an even value (R153). -/
theorem feIsNeg_eq_false_iff {a : Fe} (ha : a.bounded) : feIsNeg a = false ↔ feVal a % 2 = 0 := by
  rw [feIsNeg_eq_decide ha, decide_eq_false_iff_not, Nat.mod_two_not_eq_one]

/-- The square of X that the curve equation leaves for y = (1 - n²)/(1 + n²) (R361). -/
theorem ristretto_X_sq {d n x y : ZMod fieldPrime} (curve : y ^ 2 - x ^ 2 = 1 + d * (x * y) ^ 2)
    (hy : y * (1 + n ^ 2) = 1 - n ^ 2) : x ^ 2 * (-d * (1 - n ^ 2) ^ 2 - (1 + n ^ 2) ^ 2) = 4 * n ^ 2 := by
  rw [← hy]
  linear_combination (1 + n ^ 2) ^ 2 * curve - (y * (1 + n ^ 2) + (1 - n ^ 2)) * hy

/-- A string the decoder finds canonical holds the integer of its element (R142, R152). -/
theorem feVal_feFromBytes_of_canonical {b : List Byte} (h : feToBytes (feFromBytes b) = b) :
    feVal (feFromBytes b) = le b := by
  conv_rhs => rw [← h, feToBytes_eq (feFromBytes_bounded b), le_bytesOf, Nat.mod_eq_of_lt (feVal_lt_bytes _)]

/-- What R361 says of an accepted string and its point. -/
theorem risDecode_spec {b : List Byte} {P : Ext} (h : risDecode b = some P) :
    le b < fieldPrime ∧ le b % 2 = 0 ∧ P.Z = feOne ∧ P.coherent ∧ feVal P.X % 2 = 0 ∧ feVal P.T % 2 = 0 ∧
      feVal P.Y ≠ 0 ∧ P.Y.gf * (1 + (le b : ZMod fieldPrime) ^ 2) = 1 - (le b : ZMod fieldPrime) ^ 2 ∧
      P.X.gf ^ 2 * (-edwardsD.gf * (1 - (le b : ZMod fieldPrime) ^ 2) ^ 2 - (1 + (le b : ZMod fieldPrime) ^ 2) ^ 2) =
        4 * (le b : ZMod fieldPrime) ^ 2 := by
  obtain ⟨canonical, evenS, flag, evenT, nonzero, evenX, hY, one⟩ := risDecode_checks h
  obtain ⟨-, bY, -, bT⟩ := risDecode_bounded h
  obtain ⟨curve, segre⟩ := risDecode_onCurve h
  have bS := feFromBytes_bounded b
  have val := feVal_feFromBytes_of_canonical canonical
  have gY := risY_gf bS flag
  rw [feIsNeg_eq_false_iff bS, val] at evenS
  rw [feIsNeg_eq_false_iff bT] at evenT
  rw [feIsZero_eq_decide bY, decide_eq_false_iff_not] at nonzero
  rw [one, feOne_gf, one_mul] at segre
  rw [one, feOne_gf, one_pow, ← segre] at curve
  rw [← hY, ← feVal_cast (feFromBytes b), val] at gY
  exact ⟨val ▸ feVal_lt _, evenS, one, (risDecode_proper h).2, evenX, evenT, nonzero, gY, ristretto_X_sq curve gY⟩

/-- An encoding is the canonical string of an even element (R362). -/
theorem risEncode_spec (P : Ext) :
    (risEncode P).length = 32 ∧ le (risEncode P) < fieldPrime ∧ le (risEncode P) % 2 = 0 := by
  obtain ⟨x, bx, even, bytes⟩ : ∃ x : Fe, x.bounded ∧ feVal x % 2 = 0 ∧ risEncode P = feToBytes x :=
    ⟨_, feCneg_bounded (feMul_bounded ..) _, (feCneg_isNeg (feMul_bounded ..)).1, rfl⟩
  rw [bytes, feToBytes_eq bx, le_bytesOf, Nat.mod_eq_of_lt (feVal_lt_bytes x)]
  exact ⟨length_bytesOf .., feVal_lt x, even⟩

theorem risEq_eq_decide {P Q : Ext} (bP : P.bounded) (bQ : Q.bounded) : risEq P Q = decide (
    feVal P.X * feVal Q.Y % fieldPrime = feVal P.Y * feVal Q.X % fieldPrime ∨
    feVal P.X * feVal Q.X % fieldPrime = feVal P.Y * feVal Q.Y % fieldPrime) := by
  obtain ⟨bPX, bPY, -⟩ := bP
  obtain ⟨bQX, bQY, -⟩ := bQ
  refine Bool.eq_iff_iff.2 ?_
  rw [risEq, Bool.or_eq_true, feEq_iff (feMul_bounded ..) (feMul_bounded ..),
    feEq_iff (feMul_bounded ..) (feMul_bounded ..), feMul_gf bPX bQY, feMul_gf bPY bQX, feMul_gf bPX bQX,
    feMul_gf bPY bQY, gf_mul_eq_iff, gf_mul_eq_iff, decide_eq_true_iff]

theorem rdec_next {pd : PIdx} {cd : CIdx} {addr : Addr} (room : inDm addr.toNat 32) : exec (.rdec pd cd addr) s =
    .next (s.decodedP pd cd (risDecode (s.dm.readBytes addr.toNat 32))).retire := pointDecode_next room

theorem rell_next {pd : PIdx} {fa : FIdx} (h : s.fOk fa) :
    exec (.rell pd fa) s = .next (s.writeP pd (risElligator (s.fv fa))).retire := by
  rw [exec_rell, execRell, readF_valid h, bind_ok, pure_ok, complete_ok]

theorem rh2g_next {pd : PIdx} {addr : Addr} (room : inDm addr.toNat 64) :
    exec (.rh2g pd addr) s = .next (s.writeP pd (risHashToGroup (s.dm.readBytes addr.toNat 64))).retire := by
  rw [exec_rh2g, execRh2g, memRead_in room, bind_ok, pure_ok, complete_ok]

end Sys2Proof.Machine
end

section
/-! The statement settled about the Ristretto commands (O48). -/

namespace Sys2Proof.Machine

/-- Settles O48: an accepted string is canonical and even, its Y is read off the root, and its X² off the curve. -/
theorem ristrettoCommands : Obligations.RistrettoCommands := by
  unfold Obligations.RistrettoCommands
  refine fun s pd pa pb cd fa addr => ⟨fun room => ?_, fun room ok bound => ?_, fun oka okb bounda boundb => ?_,
    rell_next, fun room => ?_⟩
  · have run := rdec_next (s := s) (pd := pd) (cd := cd) room
    cases decoded : risDecode (s.dm.readBytes addr.toNat 32) with
    | none => exact .inl ⟨by rw [run, decoded, decodedP_none], rfl⟩
    | some P => exact .inr ⟨P, _, by rw [run, decoded, decodedP_some], rfl, rfl, risDecode_spec decoded⟩
  · exact ⟨_, pointEncode_next ok room, rfl, risEncode_spec (s.pv pa)⟩
  · rw [exec_req, execReq, pointTest2_next oka okb, risEq_eq_decide bounda boundb]
  · rw [rh2g_next room, risHashToGroup, slice_readBytes _ (by norm_num), slice_readBytes _ (by norm_num), add_zero]

end Sys2Proof.Machine
end

section
/-! The statement settled about the signing commands (O50): the signature on the integers mod l, then one run per
command. -/

namespace Sys2Proof.Machine

variable {s : State}

theorem digestMod_lt (b : List Byte) : digestMod b < groupOrder := Nat.mod_lt _ (by norm_num)

/-- `sign_core` (R392): the scalar of a digest is its residue mod l, and so is the second half, r + k·a. -/
theorem signCore_eq (k : KeySlot) (dom m z : List Byte) : signCore k dom m z = signatureOf k dom m z := by
  have second (r h : List Byte) : scAddInt (digestMod r) (scMul (digestMod h) k.a.toNat) =
      (digestMod r + digestMod h * k.a.toNat) % groupOrder := by
    rw [scMul_eq ((digestMod_lt h).trans groupOrder_lt) k.a.isLt,
      scAddInt_eq (digestMod_lt r) (Nat.mod_lt _ (by norm_num)), Nat.add_mod_mod]
  simp only [signCore, signNonce, signatureOf, hashScalar_eq, second]

/-- What SIGNCTX and SIGNPH do once their gates are open (R397, R398). -/
theorem signDom_signs {addr : Addr} (flag : Byte) (valid : s.key.valid = true) (msg : s.msgIn)
    (room : inDm addr.toNat 64) (short : s.clen.toNat ≤ 255) (ctx : s.ctxIn) : signDom flag addr s =
      .ok ((s.stored addr (signatureOf s.key (dom2 flag s.ctxBytes) s.msgBytes [])).setResult .ok) := by
  simp only [signDom, readKey_valid valid, if_neg (not_lt.2 short), msg_in msg, ctx_in ctx, memWrite_in room,
    signCore_eq, bind_ok, pure_ok]

/-- Settles O50: every check of R477 passes, and what is stored is the signature of R392. -/
theorem signCommands : Obligations.SignCommands := by
  unfold Obligations.SignCommands
  intro s addr valid msg room
  refine ⟨?_, ?_, fun short ctx => ⟨?_, fun prehash digestLength => ?_⟩⟩
  · simp only [exec_sign, execSign, readKey_valid valid, msg_in msg, memWrite_in room, signCore_eq, bind_ok, pure_ok,
      complete_ok]
  · simp only [exec_signr, execSignr, readKey_valid valid, msg_in msg, memWrite_in room, signCore_eq, bind_ok, pure_ok,
      complete_ok]
  · rw [exec_signctx, execSignctx, signDom_signs 0 valid msg room short ctx, complete_ok]
  · have len : s.mlen.toNat = 64 := congrArg BitVec.toNat digestLength
    rw [exec_signph, execSignph, require_true prehash, require_true len, bind_ok, bind_ok,
      signDom_signs 1 valid msg room short ctx, complete_ok]

end Sys2Proof.Machine
end

section
/-! SUPPORT. What the two equations of verification say in the group law, and what each check of `verify_core` answers
(47_ed25519_verify.md R421 to R427). -/

namespace Sys2Proof.Machine

/-- A point that is a sum in the projective form has the coordinates of the affine sum. -/
theorem Ext.isSum.at {P Q R : Ext} {x1 y1 x2 y2 x3 y3 : ZMod fieldPrime} (h : P.isSum Q R) (hP : P.at x1 y1)
    (hQ : Q.at x2 y2) (c1 : affineCurve x1 y1) (c2 : affineCurve x2 y2) (s : affineSum x1 y1 x2 y2 x3 y3)
    (hR : R.isPoint) : R.at x3 y3 := by
  obtain ⟨x4, y4, atR, -⟩ := hR.affine
  obtain ⟨rfl, rfl⟩ := isSum_at hP hQ c1 c2 s atR h
  exact atR

/-- Three doublings by the group law, from any representative of P, end where `ed_mul8` ends (R270). -/
theorem edMul8_isIdentity_iff {P D D2 D4 D8 : Ext} {x y : ZMod fieldPrime} (b : P.bounded) (hP : P.at x y)
    (hD : D.at x y) (c : affineCurve x y) (point2 : D2.isPoint) (point4 : D4.isPoint) (point8 : D8.isPoint)
    (double2 : D.isSum D D2) (double4 : D2.isSum D2 D4) (double8 : D4.isSum D4 D8) :
    (edMul8 P).isIdentity ↔ D8.isIdentity := by
  obtain ⟨x2, y2, sum2, c2⟩ := affineSum_exists c c
  obtain ⟨x4, y4, sum4, c4⟩ := affineSum_exists c2 c2
  obtain ⟨x8, y8, sum8, -⟩ := affineSum_exists c4 c4
  have at2 := double2.at hD hD c c sum2 point2
  have at4 := double4.at at2 at2 c2 c2 sum4 point4
  have at8 := double8.at at4 at4 c4 c4 sum8 point8
  rw [isIdentity_at (edMul8_at b hP c sum2 sum4 sum8), isIdentity_at at8]

/-- The strict equation compares two representatives (R426). -/
theorem acceptEquation_strict {Q R : Ext} (bQ : Q.bounded) (bR : R.bounded) :
    acceptEquation false Q R = true ↔ Q.same R := edEq_iff bQ bR

theorem acceptEquation_cofactored {Q R : Ext} (hQ : Q.sound) (hR : R.sound) :
    acceptEquation true Q R = true ↔ (edMul8 (edSub Q R)).isIdentity :=
  edIsIdentity_iff (edMul8_sound (edSub_sound hQ hR)).1

/-- The cofactored equation in the group law alone: Q - R doubled three times is the identity (R427). -/
theorem acceptEquation_cofactored_iff_doublings {Q R : Ext} (bQ : Q.bounded) (bR : R.bounded) (hQ : Q.isPoint)
    (hR : R.isPoint) : acceptEquation true Q R = true ↔ ∃ D D2 D4 D8 : Ext,
      D.isPoint ∧ D2.isPoint ∧ D4.isPoint ∧ D8.isPoint ∧ Ext.isSum Q (edNeg R) D ∧ Ext.isSum D D D2 ∧
      Ext.isSum D2 D2 D4 ∧ Ext.isSum D4 D4 D8 ∧ D8.isIdentity := by
  have soundQ : Q.sound := ⟨bQ, hQ.1⟩
  have soundR : R.sound := ⟨bR, hR.1⟩
  have sound := edSub_sound soundQ soundR
  rw [acceptEquation_cofactored soundQ soundR]
  constructor
  · intro identity
    have sound2 := edDouble_sound sound
    have sound4 := edDouble_sound sound2
    have point := edSub_isPoint bQ bR hQ hR
    have point2 := edDouble_isPoint sound.1 point
    have point4 := edDouble_isPoint sound2.1 point2
    exact ⟨_, _, _, _, point, point2, point4, edDouble_isPoint sound4.1 point4, edSub_isSum soundQ soundR,
      edDouble_isSum sound, edDouble_isSum sound2, edDouble_isSum sound4, edMul8_eq (edSub Q R) ▸ identity⟩
  · rintro ⟨D, D2, D4, D8, point, point2, point4, point8, difference, double2, double4, double8, identity⟩
    obtain ⟨x1, y1, atQ, c1⟩ := hQ.affine
    obtain ⟨x2, y2, atR, c2⟩ := hR.affine
    obtain ⟨x, y, sum, c⟩ := affineSum_exists c1 (affineCurve_neg c2)
    have atD := difference.at atQ (edNeg_at bR atR) c1 (affineCurve_neg c2) sum point
    have atSub := edSub_at bQ bR atQ atR c1 (affineCurve_neg c2) sum
    exact (edMul8_isIdentity_iff sound.1 atSub atD c point2 point4 point8 double2 double4 double8).2 identity

/-- The negation of a residue mod l (R212). -/
theorem scNeg_eq {n : Nat} (h : n < groupOrder) : scNeg n = (groupOrder - n) % groupOrder := by
  obtain ⟨below, sum⟩ := scSubInt_spec groupOrder_pos h
  have cancel : scNeg n + n ≡ groupOrder - n + n [MOD groupOrder] := by
    rw [Nat.sub_add_cancel h.le]
    exact sum.trans (Nat.modEq_zero_iff_dvd.2 dvd_rfl).symm
  exact (Nat.mod_eq_of_lt below).symm.trans (Nat.ModEq.add_right_cancel' n cancel)

section
variable {cfg : Knobs} {dom ab rb sb m : List Byte} {A R : Ext}

/-- Step 1a of R421: the key does not decode (R423). -/
theorem verifyCore_undecodable_key (hA : edDecompress ab = none) :
    verifyCore cfg dom ab rb sb m = .invalidEncoding := by
  simp only [verifyCore, hA]

/-- Step 1b of R421: VSSO refuses a key of small order (R424). -/
theorem verifyCore_weak_key (hA : edDecompress ab = some A) (strict : cfg.vsso = true)
    (weak : edIsSmallOrder A = true) : verifyCore cfg dom ab rb sb m = .weakPublicKey := by
  simp only [verifyCore, hA, strict, weak, Bool.and_self, if_true]

/-- Step 2 of R421: the key passes and R does not decode. -/
theorem verifyCore_undecodable_R (hA : edDecompress ab = some A)
    (key : ¬ (cfg.vsso = true ∧ edIsSmallOrder A = true)) (hR : edDecompress rb = none) :
    verifyCore cfg dom ab rb sb m = .invalidEncoding := by
  simp only [verifyCore, hA, Bool.and_eq_true, if_neg key, hR]

/-- Step 3 of R421: VRNCS refuses an s of l or more (R425). -/
theorem verifyCore_wide_s (hA : edDecompress ab = some A) (key : ¬ (cfg.vsso = true ∧ edIsSmallOrder A = true))
    (hR : edDecompress rb = some R) (wide : groupOrder ≤ le sb ∧ cfg.vrncs = true) :
    verifyCore cfg dom ab rb sb m = .invalidEncoding := by
  simp only [verifyCore, hA, Bool.and_eq_true, if_neg key, hR, if_pos wide]

/-- Steps 4 and 5 of R421: the equation decides, on residues mod l. -/
theorem verifyCore_equation (hA : edDecompress ab = some A) (key : ¬ (cfg.vsso = true ∧ edIsSmallOrder A = true))
    (hR : edDecompress rb = some R) (s : ¬ (groupOrder ≤ le sb ∧ cfg.vrncs = true)) :
    verifyCore cfg dom ab rb sb m =
      if acceptEquation cfg.vcof
        (edDoubleScalarMul ((groupOrder - digestMod (dom ++ rb ++ ab ++ m)) % groupOrder) A (le sb % groupOrder)) R
      then .ok else .signatureMismatch := by
  have residue : (if groupOrder ≤ le sb then le sb % groupOrder else le sb) = le sb % groupOrder :=
    ite_eq_left_iff.2 fun below => (Nat.mod_eq_of_lt (not_le.1 below)).symm
  simp only [verifyCore, hA, Bool.and_eq_true, if_neg key, hR, if_neg s, residue, hashScalar_eq,
    scNeg_eq (digestMod_lt _)]

end

end Sys2Proof.Machine
end

section
/-! The statements settled about verification (O52, O53): the run of each command, then the order of the checks and the
two equations. -/

namespace Sys2Proof.Machine

variable {s : State}

/-- What a verdict writes: RESULT and one choice register (R429). -/
theorem verdict_eq (cd : CIdx) (r : ResultCode) : s.verdict cd r = (s.writeC cd (decide (r = .ok))).setResult r := rfl

/-- The triple and the message in DM give one verdict (R429). -/
theorem verifyTriple_in {addr : Addr} (room : inDm addr.toNat 96) (msg : s.msgIn) (dom : List Byte) (cd : CIdx) :
    verifyTriple dom cd addr s = .ok (s.verdict cd (verifyCore s.knobs dom (s.dm.readBytes addr.toNat 32)
      (s.dm.readBytes (addr.toNat + 32) 32) (s.dm.readBytes (addr.toNat + 64) 32) s.msgBytes)) := by
  simp only [verifyTriple, memRead_in room, msg_in msg, bind_ok, pure_ok]
  rw [slice_readBytes _ (by norm_num), slice_readBytes _ (by norm_num), slice_readBytes _ (by norm_num), add_zero]

/-- With a context of at most 255 bytes in DM, the domain string is that of R393. -/
theorem verifyDom_in (short : s.clen.toNat ≤ 255) (ctx : s.ctxIn) (flag : Byte) (cd : CIdx) (addr : Addr) :
    verifyDom flag cd addr s = verifyTriple (dom2 flag s.ctxBytes) cd addr s := by
  simp only [verifyDom, if_neg (not_lt.2 short), ctx_in ctx, bind_ok]

/-- Settles O52: every check of R477 passes, and what is written is the verdict of R421. -/
theorem verifyCommands : Obligations.VerifyCommands := by
  unfold Obligations.VerifyCommands
  refine fun s cd addr room msg => ⟨?_, fun short ctx => ⟨?_, fun prehash digestLength => ?_⟩⟩
  · rw [exec_verify, execVerify, verifyTriple_in room msg, complete_ok, verdict_eq]
  · rw [exec_verifyctx, execVerifyctx, verifyDom_in short ctx, verifyTriple_in room msg, complete_ok, verdict_eq]
  · have len : s.mlen.toNat = 64 := congrArg BitVec.toNat digestLength
    rw [exec_verifyph, execVerifyph, require_true prehash, require_true len, bind_ok, bind_ok,
      verifyDom_in short ctx, verifyTriple_in room msg, complete_ok, verdict_eq]

/-- Settles O53: the cofactored equation by uniqueness of sums, the chain of R421 one check at a time. -/
theorem verifyCheckOrder : Obligations.VerifyCheckOrder := by
  unfold Obligations.VerifyCheckOrder
  exact ⟨fun Q R bQ bR => ⟨acceptEquation_strict bQ bR, acceptEquation_cofactored_iff_doublings bQ bR⟩,
    fun cfg dom ab rb sb m => ⟨verifyCore_undecodable_key, fun A hA => ⟨verifyCore_weak_key hA, fun key =>
      ⟨verifyCore_undecodable_R hA key, fun R hR =>
        ⟨fun wide strict => verifyCore_wide_s hA key hR ⟨wide, strict⟩, verifyCore_equation hA key hR⟩⟩⟩⟩⟩

end Sys2Proof.Machine
end

section
/-! The statement settled about NOP (O19), and what a word that is no command does. -/

namespace Sys2Proof

theorem need_of_not {ok : Prop} [Decidable ok] {i : Instr} (h : ¬ ok) : need ok i = .error .mustBeZero := if_neg h

/-- Opcode 0x00 has one row, whose mask holds every bit of the word (R115, R450). -/
theorem decode_mustBeZero_of_opcode_zero {w : Word} (op : w.toNat / 2 ^ 24 = 0) (nonzero : w ≠ 0) :
    decode w = .error .mustBeZero := by
  have opcode : (Fields.ofWord w).op = 0 := op
  have fields : Fields.ofWord w = ⟨0, (Fields.ofWord w).rd, (Fields.ofWord w).ra, (Fields.ofWord w).rb,
    (Fields.ofWord w).imm⟩ := opcode ▸ rfl
  rw [decode, fields, decodeFields_nop]
  refine need_of_not fun ⟨rd, ra, rb, imm⟩ => nonzero ?_
  rw [← pack_ofWord w, opcode, rd, ra, rb, imm]
  rfl

end Sys2Proof

namespace Sys2Proof.Machine

variable {s : State} {w : Word}

theorem runWord_command {i : Instr} (h : decode w = .ok i) : runWord s w = exec i s := by rw [runWord, h]

/-- A word that is no command raises E_ILLEGAL (R110, R472). -/
theorem runWord_illegal {e : Reject} (h : decode w = .error e) : runWord s w = .next (s.faulted .illegal w) := by
  rw [runWord, h]
  rfl

/-- Settles O19: a nonzero word of opcode 0x00 has a bit that must be zero, so it is no command. -/
theorem nopOnlyCounts : Obligations.NopOnlyCounts := by
  unfold Obligations.NopOnlyCounts
  refine ⟨rfl, fun w op nonzero => ?_, fun s => rfl⟩
  have refused := decode_mustBeZero_of_opcode_zero op nonzero
  exact ⟨refused, fun s => runWord_illegal refused⟩

end Sys2Proof.Machine
end

section
/-! The statement settled about a context of more than 255 bytes (O51): one run per context command. -/

namespace Sys2Proof.Machine

variable {s : State} {cd : CIdx} {addr : Addr}

/-- After the key, the length of the context is the only thing SIGNCTX and SIGNPH look at (R485). -/
theorem signDom_tooLong (flag : Byte) (valid : s.key.valid = true) (long : 255 < s.clen.toNat) :
    signDom flag addr s = .ok (s.setResult .contextTooLong) := by
  simp only [signDom, readKey_valid valid, bind_ok, if_pos long, pure_ok]

theorem verifyDom_tooLong (flag : Byte) (long : 255 < s.clen.toNat) :
    verifyDom flag cd addr s = .ok ((s.writeC cd false).setResult .contextTooLong) := by
  simp only [verifyDom, if_pos long, pure_ok]
  rfl

theorem exec_signctx_tooLong (valid : s.key.valid = true) (long : 255 < s.clen.toNat) :
    exec (.signctx addr) s = .next (s.setResult .contextTooLong).retire := by
  rw [exec_signctx, execSignctx, signDom_tooLong 0 valid long, complete_ok]

theorem exec_signph_tooLong (prehash : s.prehashOn = true) (len : s.mlen.toNat = 64) (valid : s.key.valid = true)
    (long : 255 < s.clen.toNat) : exec (.signph addr) s = .next (s.setResult .contextTooLong).retire := by
  rw [exec_signph, execSignph, require_true prehash, require_true len, bind_ok, bind_ok,
    signDom_tooLong 1 valid long, complete_ok]

theorem exec_verifyctx_tooLong (long : 255 < s.clen.toNat) :
    exec (.verifyctx cd addr) s = .next ((s.writeC cd false).setResult .contextTooLong).retire := by
  rw [exec_verifyctx, execVerifyctx, verifyDom_tooLong 0 long, complete_ok]

theorem exec_verifyph_tooLong (prehash : s.prehashOn = true) (len : s.mlen.toNat = 64) (long : 255 < s.clen.toNat) :
    exec (.verifyph cd addr) s = .next ((s.writeC cd false).setResult .contextTooLong).retire := by
  rw [exec_verifyph, execVerifyph, require_true prehash, require_true len, bind_ok, bind_ok,
    verifyDom_tooLong 1 long, complete_ok]

/-- Settles O51: the length is checked before any region, so the regions do not matter. -/
theorem contextTooLong : Obligations.ContextTooLong := by
  unfold Obligations.ContextTooLong
  exact fun s cd addr long => ⟨fun valid => exec_signctx_tooLong valid long,
    fun valid prehash digestLength => exec_signph_tooLong prehash (congrArg BitVec.toNat digestLength) valid long,
    exec_verifyctx_tooLong long,
    fun prehash digestLength => exec_verifyph_tooLong prehash (congrArg BitVec.toNat digestLength) long⟩

end Sys2Proof.Machine
end

section
/-! The statement settled about the order of the checks (O13): what the causes of fault look at in the context
commands, and the example of R477. -/

namespace Sys2Proof.Machine

variable {s : State} {i : Instr} {addr : Addr}

theorem faultOf_illegal (h : illegalNow i s = true) : faultOf i s = some .illegal := if_pos h

/-- The first three checks of R477 pass in a command that raises no fault. -/
theorem checks_of_faultOf_none (h : faultOf i s = none) :
    illegalNow i s = false ∧ sequenceNow i s = false ∧ unwrittenNow i s = false := by
  unfold faultOf at h
  split_ifs at h <;> simp_all

/-- The gates of the two prehash commands: CFG.PREHASH and MLEN = 64 (R473 (d)). -/
theorem illegalNow_prehash (h : gatedByPrehash i = true) :
    illegalNow i s = false ↔ s.prehashOn = true ∧ s.mlen.toNat = 64 := by
  cases i with
  | signph | verifyph => simp [illegalNow, Instr.wellFormed, gatedByPrehash, gatedByBatch]
  | _ => cases h

/-- The key slot is the one source of SIGNCTX and SIGNPH (R474). -/
theorem unwrittenNow_signctx : unwrittenNow (.signctx addr) s = !s.key.valid := by
  simp [unwrittenNow, fSources, sSources, pSources, cSources, readsKey]

theorem unwrittenNow_signph : unwrittenNow (.signph addr) s = !s.key.valid := by
  simp [unwrittenNow, fSources, sSources, pSources, cSources, readsKey]

/-- Step 4 of R477 comes before the regions. -/
theorem faultOf_tooLong (hi : illegalNow i s = false) (hs : sequenceNow i s = false) (hu : unwrittenNow i s = false)
    (long : contextTooLongNow i s = true) : faultOf i s = none := by
  simp [faultOf, hi, hs, hu, long]

/-- A command that reaches step 4 of R477 and fails it retires with RESULT 5 (R485). -/
theorem exec_tooLong (ready : faultOf i s = none) (tooLong : contextTooLongNow i s = true) :
    ∃ u : State, exec i s = .next (u.setResult .contextTooLong).retire := by
  obtain ⟨legal, -, written⟩ := checks_of_faultOf_none ready
  obtain ⟨context, long⟩ := (Bool.and_eq_true _ _).mp tooLong
  replace long := of_decide_eq_true long
  cases i with
  | signctx =>
    rw [unwrittenNow_signctx, Bool.not_eq_false'] at written
    exact ⟨_, exec_signctx_tooLong written long⟩
  | signph =>
    rw [unwrittenNow_signph, Bool.not_eq_false'] at written
    obtain ⟨prehash, len⟩ := (illegalNow_prehash rfl).1 legal
    exact ⟨_, exec_signph_tooLong prehash len written long⟩
  | verifyctx => exact ⟨_, exec_verifyctx_tooLong long⟩
  | verifyph =>
    obtain ⟨prehash, len⟩ := (illegalNow_prehash rfl).1 legal
    exact ⟨_, exec_verifyph_tooLong prehash len long⟩
  | _ => cases context

/-- CFG = 0x13 has PREHASH 1 (R61), so with MLEN = 64 the gates of SIGNPH are open. -/
theorem illegalNow_signph_of_cfg (cfg : s.cfg = 0x13) (len : s.mlen = 64) : illegalNow (.signph addr) s = false :=
  (illegalNow_prehash rfl).2 ⟨by rw [State.prehashOn, cfg]; rfl, congrArg BitVec.toNat len⟩

/-- Settles O13: the checks of a body are those of `faultOf`, in its order; then the four outcomes of R477's example. -/
theorem faultPriority : Obligations.FaultPriority := by
  unfold Obligations.FaultPriority
  refine ⟨fun s w e refused => runWord_illegal refused, fun s w i command => ⟨fun e fault => ?_, fun ready => ?_⟩,
    fun s => ⟨fun cfg => ?_, fun cfg len key => ?_, fun cfg len key clen => ?_, fun cfg len key clen => ?_⟩⟩
  · rw [runWord_command command, exec_faults fault, (decode_ok command).2]
  · obtain ⟨t, run, rest⟩ := exec_retires ready
    refine ⟨t, (runWord_command command).trans run, ⟨run, rest⟩, fun tooLong => ?_⟩
    obtain ⟨u, run'⟩ := exec_tooLong ready tooLong
    rw [Host.Outcome.next.inj (run.symm.trans run')]
    rfl
  · have off : ¬ s.prehashOn = true := by rw [State.prehashOn, cfg]; decide
    exact faultOf_illegal (Bool.of_not_eq_false fun legal => off ((illegalNow_prehash rfl).1 legal).1)
  · exact faultOf_unwritten (illegalNow_signph_of_cfg cfg len) rfl (by rw [unwrittenNow_signph, key]; rfl)
  · have tooLong : contextTooLongNow (.signph 0xFC1#12) s = true := by rw [contextTooLongNow, clen]; rfl
    exact ⟨faultOf_tooLong (illegalNow_signph_of_cfg cfg len) rfl (by rw [unwrittenNow_signph, key]; rfl) tooLong,
      tooLong⟩
  · exact faultOf_outside (illegalNow_signph_of_cfg cfg len) rfl (by rw [unwrittenNow_signph, key]; rfl)
      (by rw [contextTooLongNow, clen]; rfl) (.head _) (by decide)

end Sys2Proof.Machine
end

section
/-! The statement settled about choice logic (O20). -/

namespace Sys2Proof.Machine

variable {s : State} {i : Instr}

/-- The bit CSET writes is 1 exactly when its operand is (R452). -/
theorem getLsbD_zero_eq_beq_one (k : BitVec 1) : k.getLsbD 0 = (k == 1) := by
  revert k
  decide

/-- An invalid choice source decides when the gates of the command are open (R474, R477). -/
theorem exec_unwritten_choice {c : CIdx} (hi : illegalNow i s = false) (hs : sequenceNow i s = false)
    (source : c ∈ cSources i) (invalid : ¬ s.cOk c) : exec i s = .next (s.faulted .unwritten (encode i)) := by
  have cause : (cSources i).any (fun r => !(s.cReg.get r).valid) = true :=
    List.any_eq_true.2 ⟨c, source, by simpa using invalid⟩
  exact exec_faults (faultOf_unwritten hi hs (by simp [unwrittenNow, cause]))

/-- Settles O20: a valid source is read, an invalid one faults. -/
theorem choiceLogic : Obligations.ChoiceLogic := by
  unfold Obligations.ChoiceLogic
  refine fun s cd ca cb k => ⟨?_, fun ok => ⟨choice1_next ok, choice1_next ok⟩, fun bad => ⟨?_, ?_⟩,
    fun oka okb => ⟨choice2_next oka okb, choice2_next oka okb, choice2_next oka okb⟩, fun bad => ?_⟩
  · rw [exec_cset, execCset, complete_ok, getLsbD_zero_eq_beq_one]
  · exact exec_unwritten_choice rfl rfl (.head _) bad
  · exact exec_unwritten_choice rfl rfl (.head _) bad
  · obtain ⟨c, source, invalid⟩ : ∃ c ∈ [ca, cb], ¬ s.cOk c := by simpa using bad
    exact ⟨exec_unwritten_choice rfl rfl source invalid, exec_unwritten_choice rfl rfl source invalid,
      exec_unwritten_choice rfl rfl source invalid⟩

end Sys2Proof.Machine
end

section
/-! The statements settled about reset (O7, O8). -/

namespace Sys2Proof.Machine

/-- Settles O7: the pin is a host move of its own, taken in any state. -/
theorem resetPin : Obligations.ResetPin := by
  unfold Obligations.ResetPin
  exact fun s ms next => step_host next

/-- Settles O8: the register files are replicated zeros, and every other item is a closed value. -/
theorem resetState : Obligations.ResetState := by
  unfold Obligations.ResetState
  refine ⟨fun i => get_replicate_fin i _, fun i => get_replicate_fin i _, fun i => get_replicate_fin i _,
    fun i => get_replicate_fin i _, Vector.toList_replicate, rfl, Vector.toList_replicate, Vector.toList_replicate,
    rfl, rfl, rfl, rfl, rfl, rfl, fun _ => rfl, ?_⟩
  decide

end Sys2Proof.Machine
end
